-- ==== Sys2Proof/Word.lean ====
section
/-! DEFINITION. The word types of the block's ports and registers (00_scope.md R7, 30_encoding.md R90). -/

namespace Sys2Proof

/-- A byte of OBUF, IBUF or VB. -/
abbrev Byte := BitVec 8

/-- An operand word, a result word, a CSR as read, or a word of DESC or VAL (R7, R90). -/
abbrev Word64 := BitVec 64

/-- A header word or a status word (R90). -/
abbrev Word32 := BitVec 32

/-- A sparse memory of `w`-bit locations: (address, content) pairs. `Memory 8` is a list of `Host.Cell`. -/
abbrev Memory (w : Nat) := List (Nat × BitVec w)

end Sys2Proof
end

