-- ==== Sys2Proof/Machine/Flags.lean ====
section
/-! DEFINITION. The condition a command leaves. The block has no flag register (10_state.md R19): the status
word of the response (30_encoding.md R96, 60_exceptions.md R301 to R303) is all there is. -/

namespace Sys2Proof.Machine

/-- Every cause of R303, in its table's order: class and detail in one name. -/
inductive Cause where
  /-- RANGE(WIDTH). -/
  | rangeWidth
  /-- RANGE(VALUE). -/
  | rangeValue
  /-- RANGE(ADDR). -/
  | rangeAddr
  /-- RANGE(LEN). -/
  | rangeLen
  /-- RANGE(SPAN). -/
  | rangeSpan
  /-- RANGE(BYTE). -/
  | rangeByte
  /-- TRUNCATION(INSUFFICIENT). -/
  | truncInsufficient
  /-- SCHEMA(KIND). -/
  | schemaKind
  /-- SCHEMA(BOUNDS). -/
  | schemaBounds
  /-- SCHEMA(PRECISION). -/
  | schemaPrecision
  /-- SCHEMA(WIDTH). -/
  | schemaWidth
  /-- SCHEMA(CARDINALITY). -/
  | schemaCardinality
  /-- SCHEMA(LENGTH). -/
  | schemaLength
  /-- ENCODE(VALUE_RANGE). -/
  | encValueRange
  /-- ENCODE(TYPE). -/
  | encType
  /-- ENCODE(LENGTH). -/
  | encLength
  /-- ENCODE(NO_TYPE_ID). -/
  | encNoTypeId
  /-- ENCODE(TYPE_ID_RANGE). -/
  | encTypeIdRange
  /-- ENCODE(MAX_SIZE). -/
  | encMaxSize
  /-- ENCODE(UTF8). -/
  | encUtf8
  /-- DECODE(TRUNCATED). -/
  | decTruncated
  /-- DECODE(INT_RANGE). -/
  | decIntRange
  /-- DECODE(FLOAT_RANGE). -/
  | decFloatRange
  /-- DECODE(ENUM_ORDINAL). -/
  | decEnumOrdinal
  /-- DECODE(TYPE_ID_MISMATCH). -/
  | decTypeIdMismatch
  /-- DECODE(UTF8). -/
  | decUtf8
  /-- DECODE(EMPTY_INPUT). -/
  | decEmptyInput
  /-- DECODE(ROUTE_RANGE), defined and never produced (45_codec.md R255). -/
  | decRouteRange
  /-- FRAMING(CRC_MISMATCH). -/
  | framingCrcMismatch
  /-- CAPACITY(OBUF_FULL). -/
  | capacityObufFull
  /-- ILLEGAL(OPCODE). -/
  | illegalOpcode
  /-- ILLEGAL(RESERVED). -/
  | illegalReserved
  /-- ILLEGAL(OPERAND). -/
  | illegalOperand
  /-- ILLEGAL(SELECTOR). -/
  | illegalSelector
  /-- ILLEGAL(CSR). -/
  | illegalCsr
  /-- ILLEGAL(CSR_RO). -/
  | illegalCsrRo
deriving DecidableEq, Repr

/-- The stages of R302. -/
inductive Stage where
  | none | schemaCheck | route | tag | field | reconstruct | size
deriving DecidableEq, Repr

/-- An error as R300 reports it: its cause, and the stage and field it occurred in. -/
structure CmdError where
  cause : Cause
  stage : Stage
  field : Nat
deriving DecidableEq, Repr

/-- CLASS, status bits [3:0] (R301). -/
def causeClass : Cause → Nat
  | .rangeWidth | .rangeValue | .rangeAddr | .rangeLen | .rangeSpan | .rangeByte => 1
  | .truncInsufficient => 2
  | .schemaKind | .schemaBounds | .schemaPrecision | .schemaWidth | .schemaCardinality | .schemaLength => 3
  | .encValueRange | .encType | .encLength | .encNoTypeId | .encTypeIdRange | .encMaxSize | .encUtf8 => 4
  | .decTruncated | .decIntRange | .decFloatRange | .decEnumOrdinal | .decTypeIdMismatch | .decUtf8
  | .decEmptyInput | .decRouteRange => 5
  | .framingCrcMismatch => 6
  | .capacityObufFull => 7
  | .illegalOpcode | .illegalReserved | .illegalOperand | .illegalSelector | .illegalCsr | .illegalCsrRo => 8

/-- DETAIL, status bits [11:4] (R303). -/
def causeDetail : Cause → Nat
  | .rangeWidth => 1 | .rangeValue => 2 | .rangeAddr => 3 | .rangeLen => 4 | .rangeSpan => 5 | .rangeByte => 6
  | .truncInsufficient => 1
  | .schemaKind => 1 | .schemaBounds => 2 | .schemaPrecision => 3 | .schemaWidth => 4
  | .schemaCardinality => 5 | .schemaLength => 6
  | .encValueRange => 1 | .encType => 2 | .encLength => 3 | .encNoTypeId => 4 | .encTypeIdRange => 5
  | .encMaxSize => 6 | .encUtf8 => 7
  | .decTruncated => 1 | .decIntRange => 2 | .decFloatRange => 3 | .decEnumOrdinal => 4
  | .decTypeIdMismatch => 5 | .decUtf8 => 6 | .decEmptyInput => 7 | .decRouteRange => 8
  | .framingCrcMismatch => 1
  | .capacityObufFull => 1
  | .illegalOpcode => 1 | .illegalReserved => 2 | .illegalOperand => 3 | .illegalSelector => 4
  | .illegalCsr => 5 | .illegalCsrRo => 6

/-- STAGE, status bits [15:12] (R302). -/
def stageCode : Stage → Nat
  | .none => 0 | .schemaCheck => 1 | .route => 2 | .tag => 3 | .field => 4 | .reconstruct => 5 | .size => 6

/-- The status word of a command that completes (R96). -/
def statusOk : Word32 := 0#32

/-- `CLASS | DETAIL << 4 | STAGE << 12 | FIELD << 16`, bits [31:24] 0 (R96, R303). -/
def statusWord (e : CmdError) : Word32 :=
  0#8 ++ BitVec.ofNat 8 e.field ++ BitVec.ofNat 4 (stageCode e.stage) ++ BitVec.ofNat 8 (causeDetail e.cause) ++
    BitVec.ofNat 4 (causeClass e.cause)

/-- An error of a primitive command: stage NONE, field 0 (R302). -/
def plainError (c : Cause) : CmdError := ⟨c, .none, 0⟩

end Sys2Proof.Machine
end

