-- ==== Sys2Proof/Machine/Operands.lean ====
section
/-! DEFINITION. How header fields and operand words become operands (30_encoding.md R93), and the keys of the
private address spaces (20_memory.md R60). -/

namespace Sys2Proof.Machine

/-- A bit width, slot, word index, byte index, address or operand read as unsigned: `u(v)` (R93). -/
abbrev opUnsigned {w : Nat} (v : BitVec w) : Nat := v.toNat

/-- An operand word read as two's complement: `s(w)` (R93). -/
abbrev opSigned (v : Word64) : Int := v.toInt

/-- `start = u(w[31:0])` of CRC_IBUF (R93). -/
def spanStart (w : Word64) : Nat := (w.extractLsb' 0 32).toNat

/-- `count = u(w[63:32])` of CRC_IBUF (R93). -/
def spanCount (w : Word64) : Nat := (w.extractLsb' 32 32).toNat

/-- The byte of a byte operand, bits [7:0] of the operand word (20_memory.md R66). -/
def operandByte (w : Word64) : Byte := w.setWidth 8

/-- The key of DESC[slot].W<word>: the header's `a ++ b` as a number (log entry 10). -/
def descKey (slot word : Nat) : Nat := slot * 65536 + word

/-- The key of VB[slot][k], laid out the same way; k is below MAX_FIELD_BYTES, at most 65536 (log entry 10). -/
def vbKey (slot k : Nat) : Nat := slot * 65536 + k

end Sys2Proof.Machine
end

