-- ==== Sys2Proof/Config.lean ====
section
/-! DEFINITION. What an instance of the block fixes (00_scope.md R6, 10_state.md R22) and the values the spec
leaves free (70_reset_and_hazards.md R341, R344). -/

namespace Sys2Proof.Config

/-- The four parameters of R6, fixed for the life of an instance. -/
structure Params where
  /-- IBUF_BYTES, the capacity of IBUF in bytes. -/
  ibufBytes : Nat
  /-- OBUF_BYTES, the capacity of OBUF in bytes. -/
  obufBytes : Nat
  /-- MAX_FIELDS, the number of descriptor slots and value slots. -/
  maxFields : Nat
  /-- MAX_FIELD_BYTES, the bytes of one VB slot. -/
  maxFieldBytes : Nat
deriving DecidableEq, Repr

/-- The legal ranges of R6. -/
abbrev Params.Valid (p : Params) : Prop :=
  (1 ≤ p.ibufBytes ∧ p.ibufBytes ≤ 2 ^ 24) ∧ (1 ≤ p.obufBytes ∧ p.obufBytes ≤ 2 ^ 24) ∧
    (1 ≤ p.maxFields ∧ p.maxFields ≤ 256) ∧ (1 ≤ p.maxFieldBytes ∧ p.maxFieldBytes ≤ 65536)

/-- The values R6 lists as used in 95_test_vectors.md. `State.reset` is an instance with these parameters
(DESIGN CHOICE, log entry 2): unsafe for a statement about `State.reset` alone. -/
def vectorParams : Params :=
  { ibufBytes := 256, obufBytes := 256, maxFields := 16, maxFieldBytes := 32 }

/-- The constant the CSR ID reads (R22). -/
def idValue : Word64 := 0x0000000755574331#64

/-- What IBUF holds at each byte address after power-up, until the host writes it (R341: "an arbitrary
value, once, independently"). A free value: no body (safe, log entry 3). -/
opaque powerUpIbuf : Nat → Byte

/-- What VB holds at each key (`vbKey`) after power-up (R341). A free value (safe, log entry 3). -/
opaque powerUpVb : Nat → Byte

/-- What DESC holds at each key (`descKey`) after power-up (R341). A free value (safe, log entry 3). -/
opaque powerUpDesc : Nat → Word64

/-- What VAL holds at each slot after power-up (R341). A free value (safe, log entry 3). -/
opaque powerUpVal : Nat → Word64

/-- Whether a RAM location that an abandoned command was writing holds the new content (R344: "either its old
or its new content"); the arguments number the reset (`State.draws`), the RAM and the location. A free value
(safe, log entry 6). -/
opaque abandonedWriteLands : Nat → Nat → Nat → Bool

/-- The bit pattern of a binary64 NaN, which R13 leaves to the IEEE standard. A free value that no command
stores, since R212 and R213 reject a NaN before it is used (safe, log entry 8). -/
opaque nanBits : Word64

end Sys2Proof.Config
end

