-- ==== Sys2Proof/Syntax.lean ====
section
/-! DEFINITION. The commands of the block: one constructor of `Instr` for each row of spec/opcode_table.json
(30_encoding.md R94), with the operands R93 assembles, and the words a command is sent as (R90). -/

namespace Sys2Proof

/-- A command as it arrives on the port: a header word and, where the transaction carries one, an operand word
(R90). -/
structure Command where
  header : Word32
  operand : Option Word64
deriving DecidableEq, Repr

/-- The 36 commands of R94, in the table's order. Operands are the header fields and operand word of R93. -/
inductive Instr where
  /-- NOP (0x00). -/
  | nop
  /-- W_CLEAR (0x01). -/
  | wClear
  /-- W_BOOL (0x02): `bit = b[0]`. -/
  | wBool (bit : BitVec 1)
  /-- W_UINT (0x03): width `n`, operand word `w`. -/
  | wUint (n : BitVec 8) (w : Word64)
  /-- W_INT (0x04): width `n`, operand word `w`. -/
  | wInt (n : BitVec 8) (w : Word64)
  /-- W_BYTE (0x05): `byte = b[7:0]`. -/
  | wByte (byte : Byte)
  /-- W_FINISH (0x06). -/
  | wFinish
  /-- W_POS (0x07). -/
  | wPos
  /-- R_REWIND (0x08). -/
  | rRewind
  /-- R_BOOL (0x09). -/
  | rBool
  /-- R_UINT (0x0A): width `n`. -/
  | rUint (n : BitVec 8)
  /-- R_INT (0x0B): width `n`. -/
  | rInt (n : BitVec 8)
  /-- R_BYTE (0x0C). -/
  | rByte
  /-- R_POS (0x0D). -/
  | rPos
  /-- CRC_INIT (0x10): `kind = b[0]`, 0 for CRC-16 and 1 for CRC-32. -/
  | crcInit (kind : BitVec 1)
  /-- CRC_BYTE (0x11): `byte = b[7:0]`. -/
  | crcByte (byte : Byte)
  /-- CRC_READ (0x12). -/
  | crcRead
  /-- CRC_CHECK (0x13): operand word `v`. -/
  | crcCheck (v : Word64)
  /-- CRC_OBUF (0x14). -/
  | crcObuf
  /-- CRC_IBUF (0x15): operand word with `start = w[31:0]`, `count = w[63:32]`. -/
  | crcIbuf (w : Word64)
  /-- ENCODE (0x18): `mode = b[1:0]`. -/
  | encodeMsg (mode : BitVec 2)
  /-- DECODE (0x19): `mode = b[1:0]`. -/
  | decodeMsg (mode : BitVec 2)
  /-- PEEK_TAG (0x1A). -/
  | peekTag
  /-- WIDTH (0x1B): `slot = a`. -/
  | width (slot : BitVec 8)
  /-- CSR_RD (0x20): `csr = b`. -/
  | csrRd (csr : BitVec 16)
  /-- CSR_WR (0x21): `csr = b`, operand word `v`. -/
  | csrWr (csr : BitVec 16) (v : Word64)
  /-- IB_WR (0x22): `addr = a ++ b`, operand word `v`. -/
  | ibWr (addr : BitVec 24) (v : Word64)
  /-- IB_RD (0x23): `addr = a ++ b`. -/
  | ibRd (addr : BitVec 24)
  /-- OB_RD (0x24): `addr = a ++ b`. -/
  | obRd (addr : BitVec 24)
  /-- DESC_WR (0x25): `slot = a`, `word = b`, operand word `v`. -/
  | descWr (slot : BitVec 8) (word : BitVec 16) (v : Word64)
  /-- DESC_RD (0x26): `slot = a`, `word = b`. -/
  | descRd (slot : BitVec 8) (word : BitVec 16)
  /-- VAL_WR (0x27): `slot = a`, operand word `v`. -/
  | valWr (slot : BitVec 8) (v : Word64)
  /-- VAL_RD (0x28): `slot = a`. -/
  | valRd (slot : BitVec 8)
  /-- VB_WR (0x29): `slot = a`, `k = b`, operand word `v`. -/
  | vbWr (slot : BitVec 8) (k : BitVec 16) (v : Word64)
  /-- VB_RD (0x2A): `slot = a`, `k = b`. -/
  | vbRd (slot : BitVec 8) (k : BitVec 16)
  /-- RESET (0x3F). -/
  | reset
deriving DecidableEq, Repr

end Sys2Proof
end

