-- ==== Sys2Proof/Machine/State.lean ====
section
/-! DEFINITION. The state of the block (10_state.md R20, R46), the machine around it with the inputs that arrive on
the port, and the state right after reset (70_reset_and_hazards.md R340, R341). -/

namespace Sys2Proof.Machine

open Sys2Proof.Config (Params)

/-- A response: a status word and a result word (30_encoding.md R90, R96). -/
structure Response where
  status : Word32
  result : Word64
deriving DecidableEq, Repr

/-- What the outside world can do to the block (60_exceptions.md R316, 70_reset_and_hazards.md R340, R344). -/
inductive PortInput where
  /-- The host sends a command. -/
  | command (c : Command)
  /-- The platform asserts the reset input between commands (R340). -/
  | resetInput
  /-- The platform asserts the reset input while command `c` executes, which abandons it (R344). -/
  | resetDuring (c : Command)
deriving DecidableEq, Repr

/-- The block's state record: the sixteen entries of R20 under their names there, and no others (R20, R46). -/
structure Block where
  /-- OBUF (R40): unlisted bytes are 0, and no listed byte is 0. -/
  obuf : Memory 8
  /-- WPOS (R25). -/
  wpos : BitVec 32
  /-- IBUF (R42): unlisted bytes have not been written since power-up (R341). -/
  ibuf : Memory 8
  /-- RLEN (R27). -/
  rlen : BitVec 32
  /-- RPOS (R28). -/
  rpos : BitVec 32
  /-- CRC_KIND (R29). -/
  crcKind : BitVec 1
  /-- CRC_ACC (R30). -/
  crcAcc : BitVec 32
  /-- DESC (R43), keyed by `descKey`: unlisted words have not been written since power-up. -/
  desc : Memory 64
  /-- MSG_NFIELDS (R31). -/
  msgNfields : BitVec 32
  /-- MSG_TYPE_ID (R32): ID [15:0], VALID [16]. -/
  msgTypeId : BitVec 17
  /-- MSG_MAXB (R33): MAX [31:0], VALID [32]. -/
  msgMaxb : BitVec 33
  /-- VAL (R44), keyed by slot: unlisted words have not been written since power-up. -/
  val : Memory 64
  /-- VB (R45), keyed by `vbKey`: unlisted bytes have not been written since power-up. -/
  vb : Memory 8
  /-- ROUTE_TX (R34): SRC [7:0], DST [15:8], PRI [17:16], ACK [18]. -/
  routeTx : BitVec 19
  /-- ROUTE_RX (R35), the same layout. -/
  routeRx : BitVec 19
  /-- TAG_RX (R36). -/
  tagRx : BitVec 16
deriving DecidableEq, Repr

/-- The machine that steps: the block, and around it what is no state of the block (log entry 4). -/
structure State extends Block where
  /-- The instance's parameters (00_scope.md R6, log entry 2). -/
  cfg : Params
  /-- What will arrive on the port, first to arrive first (log entry 1). -/
  port : List PortInput
  /-- The last response, `none` when the last input had none (log entry 5). -/
  response : Option Response
  /-- How many abandoning resets there have been: numbers their free choices (R344; log entry 6). -/
  draws : Nat
deriving DecidableEq, Repr

/-- Why a step can stop with a fault: the block has no such reason. It takes no traps, and every error is a
response after which it goes on (60_exceptions.md R300, R307). -/
inductive Fault where
deriving DecidableEq, Repr

/-- Why a step can be refused. -/
inductive Refusal where
  /-- Raised by `exec` for an instruction that has no meaning in the model; the string is its mnemonic in
  spec/opcode_table.json. Safe: the model stops where the block goes on. No arm of `exec` raises it. -/
  | notModelled (mnemonic : String)
deriving DecidableEq, Repr

/-- The state after the first reset following power-up of an instance with parameters `p` (R340, R341). -/
def State.powerUp (p : Params) : State :=
  { cfg := p, obuf := [], wpos := 0#32, ibuf := [], rlen := 0#32, rpos := 0#32, crcKind := 0#1,
    crcAcc := 0x0000FFFF#32, desc := [], msgNfields := 0#32, msgTypeId := 0#17, msgMaxb := 0#33, val := [],
    vb := [], routeTx := 0#19, routeRx := 0#19, tagRx := 0#16, port := [], response := none, draws := 0 }

/-- The machine right after reset, an instance with the parameters of the test vectors (log entry 2). -/
def State.reset : State := State.powerUp Config.vectorParams

end Sys2Proof.Machine
end

