-- ==== Sys2Proof/Machine/Ops.lean ====
section
/-! DEFINITION. The named operations over the block's memories and registers: sparse memories, the bit-stream
primitives PutBits and GetBits (00_scope.md R12), raising an error and answering a command (R11,
60_exceptions.md R300), reset (70_reset_and_hazards.md R340) and a command abandoned by it (R344). -/

namespace Sys2Proof

/-- The canonical form of a sparse memory: addresses strictly rising, and no entry equal to what an unlisted
location reads as. For OBUF `unlisted` is `some 0`; for the RAMs it is `none`, an unlisted location having been
written by nothing since power-up (log entry 3). -/
abbrev Memory.wf {w : Nat} (unlisted : Option (BitVec w)) (m : Memory w) : Prop :=
  m.Pairwise (fun x y => x.1 < y.1) ∧ ∀ c ∈ m, unlisted ≠ some c.2

end Sys2Proof

namespace Sys2Proof.Machine

/-- The entry of a sparse memory at an address, if it has one. -/
def memLookup {w : Nat} : Memory w → Nat → Option (BitVec w)
  | [], _ => none
  | (k, x) :: m, a => if k = a then some x else memLookup m a

/-- Enter `v` at address `a`, keeping the addresses rising. -/
def memInsert {w : Nat} : Memory w → Nat → BitVec w → Memory w
  | [], a, v => [(a, v)]
  | (k, x) :: m, a, v =>
    if a < k then (a, v) :: (k, x) :: m else if a = k then (a, v) :: m else (k, x) :: memInsert m a v

/-- Remove the entry at address `a`. -/
def memErase {w : Nat} : Memory w → Nat → Memory w
  | [], _ => []
  | (k, x) :: m, a => if k = a then m else (k, x) :: memErase m a

/-- Write `v` at address `a`: a value that an unlisted address reads as removes the entry. -/
def memWrite {w : Nat} (unlisted : Option (BitVec w)) (m : Memory w) (a : Nat) (v : BitVec w) : Memory w :=
  if unlisted = some v then memErase m a else memInsert m a v

/-- What an unlisted byte of OBUF reads as: 0x00, its reset content (R340). -/
def obufUnlisted : Option Byte := some 0#8

/-- What an unlisted location of IBUF, DESC, VAL or VB is listed as: nothing, since nothing has written it. -/
def ramUnlisted {w : Nat} : Option (BitVec w) := none

/-- OBUF[a]. -/
def obufByte (m : Memory 8) (a : Nat) : Byte := (memLookup m a).getD 0#8

/-- Content of a RAM location: what was last written there, or its power-up content (R341). -/
def ramRead {w : Nat} (powerUp : Nat → BitVec w) (m : Memory w) (a : Nat) : BitVec w :=
  (memLookup m a).getD (powerUp a)

/-- OBUF[a] of a state. -/
def State.obufAt (s : State) (a : Nat) : Byte := obufByte s.obuf a

/-- IBUF[a] (R42). -/
def State.ibufAt (s : State) (a : Nat) : Byte := ramRead Config.powerUpIbuf s.ibuf a

/-- DESC[slot].W<word> (R43). -/
def State.descAt (s : State) (slot word : Nat) : Word64 := ramRead Config.powerUpDesc s.desc (descKey slot word)

/-- VAL[slot] (R44). -/
def State.valAt (s : State) (slot : Nat) : Word64 := ramRead Config.powerUpVal s.val slot

/-- VB[slot][k] (R45). -/
def State.vbAt (s : State) (slot k : Nat) : Byte := ramRead Config.powerUpVb s.vb (vbKey slot k)

/-- `s` with its field `obuf` replaced. -/
def State.setObuf (s : State) (v : Memory 8) : State := { s with obuf := v }

/-- `s` with its field `wpos` replaced. -/
def State.setWpos (s : State) (v : BitVec 32) : State := { s with wpos := v }

/-- `s` with its field `ibuf` replaced. -/
def State.setIbuf (s : State) (v : Memory 8) : State := { s with ibuf := v }

/-- `s` with its field `rlen` replaced. -/
def State.setRlen (s : State) (v : BitVec 32) : State := { s with rlen := v }

/-- `s` with its field `rpos` replaced. -/
def State.setRpos (s : State) (v : BitVec 32) : State := { s with rpos := v }

/-- `s` with its field `crcKind` replaced. -/
def State.setCrcKind (s : State) (v : BitVec 1) : State := { s with crcKind := v }

/-- `s` with its field `crcAcc` replaced. -/
def State.setCrcAcc (s : State) (v : BitVec 32) : State := { s with crcAcc := v }

/-- `s` with its field `desc` replaced. -/
def State.setDesc (s : State) (v : Memory 64) : State := { s with desc := v }

/-- `s` with its field `msgNfields` replaced. -/
def State.setMsgNfields (s : State) (v : BitVec 32) : State := { s with msgNfields := v }

/-- `s` with its field `msgTypeId` replaced. -/
def State.setMsgTypeId (s : State) (v : BitVec 17) : State := { s with msgTypeId := v }

/-- `s` with its field `msgMaxb` replaced. -/
def State.setMsgMaxb (s : State) (v : BitVec 33) : State := { s with msgMaxb := v }

/-- `s` with its field `val` replaced. -/
def State.setVal (s : State) (v : Memory 64) : State := { s with val := v }

/-- `s` with its field `vb` replaced. -/
def State.setVb (s : State) (v : Memory 8) : State := { s with vb := v }

/-- `s` with its field `routeTx` replaced. -/
def State.setRouteTx (s : State) (v : BitVec 19) : State := { s with routeTx := v }

/-- `s` with its field `routeRx` replaced. -/
def State.setRouteRx (s : State) (v : BitVec 19) : State := { s with routeRx := v }

/-- `s` with its field `tagRx` replaced. -/
def State.setTagRx (s : State) (v : BitVec 16) : State := { s with tagRx := v }

/-- `s` with its field `port` replaced. -/
def State.setPort (s : State) (v : List PortInput) : State := { s with port := v }

/-- `s` with its field `response` replaced. -/
def State.setResponse (s : State) (v : Option Response) : State := { s with response := v }

/-- `s` with its field `draws` replaced. -/
def State.setDraws (s : State) (v : Nat) : State := { s with draws := v }

/-- IBUF[a] <- v. -/
def State.writeIbuf (s : State) (a : Nat) (v : Byte) : State := s.setIbuf (memWrite ramUnlisted s.ibuf a v)

/-- DESC[slot].W<word> <- v. -/
def State.writeDesc (s : State) (slot word : Nat) (v : Word64) : State :=
  s.setDesc (memWrite ramUnlisted s.desc (descKey slot word) v)

/-- VAL[slot] <- v. -/
def State.writeVal (s : State) (slot : Nat) (v : Word64) : State := s.setVal (memWrite ramUnlisted s.val slot v)

/-- VB[slot][k] <- v. -/
def State.writeVb (s : State) (slot k : Nat) (v : Byte) : State :=
  s.setVb (memWrite ramUnlisted s.vb (vbKey slot k) v)

/-! ### Running a command's steps -/

/-- What a step of a command comes to: it goes on with a value, or it raises an error, which ends the command;
either way with the state that the steps so far have made (R11). -/
inductive Eff (α : Type) where
  | ok (a : α) (s : State)
  | raise (e : CmdError) (s : State)
deriving DecidableEq, Repr

/-- One step after another: no later step runs once one has raised an error (R11). -/
def Eff.bind {α β : Type} (x : Eff α) (f : α → State → Eff β) : Eff β :=
  match x with
  | .ok a s => f a s
  | .raise e s => .raise e s

/-- The state a step leaves, whichever way it ends. -/
def Eff.state {α : Type} : Eff α → State
  | .ok _ s => s
  | .raise _ s => s

/-- The response to a command that completes (R96). -/
def okResponse (v : Word64) : Response := ⟨statusOk, v⟩

/-- The response to a command that raises an error: its result word is 0 (R96, R300). -/
def errorResponse (e : CmdError) : Response := ⟨statusWord e, 0#64⟩

/-- Raising an error, the block's only exception (R300, R307): the status word names it, nothing else is saved,
and the next command runs as if no error had occurred. -/
def answerError (e : CmdError) (s : State) : State := s.setResponse (some (errorResponse e))

/-- Answering OK with a result word. -/
def answerOk (v : Word64) (s : State) : State := s.setResponse (some (okResponse v))

/-- The state after a command has answered. -/
def answer : Eff Word64 → State
  | .ok v s => answerOk v s
  | .raise e s => answerError e s

/-- Every command ends with exactly one response (R90), in a next state. -/
def respond (x : Eff Word64) : Host.Outcome State Fault Refusal := .next (answer x)

/-! ### Bit streams -/

/-- Bit `p` of the stream over the bytes `byteAt` (R8): bit `7 - (p mod 8)` of byte `p div 8`. -/
def streamBit (byteAt : Nat → Byte) (p : Nat) : Bool := (byteAt (p / 8)).getLsbD (7 - p % 8)

/-- A byte with its bit `i` replaced. -/
def byteSetBit (x : Byte) (i : Nat) (b : Bool) : Byte :=
  if b then x ||| (1#8 <<< i) else x &&& ~~~(1#8 <<< i)

/-- `OBUF[p div 8][7 - (p mod 8)] <- b` (R12). -/
def writeStreamBit (m : Memory 8) (p : Nat) (b : Bool) : Memory 8 :=
  memWrite obufUnlisted m (p / 8) (byteSetBit (obufByte m (p / 8)) (7 - p % 8) b)

/-- The `n` least significant bits of `v` at stream positions `p .. p+n-1`, most significant first (R12, R62). -/
def writeBits (m : Memory 8) (p v : Nat) : Nat → Memory 8
  | 0 => m
  | n + 1 => writeBits (writeStreamBit m p (v.testBit n)) (p + 1) v n

/-- The number whose bits, most significant first, stand at stream positions `p .. p+n-1` (R12, R62). -/
def readBits (byteAt : Nat → Byte) (p : Nat) : Nat → Nat
  | 0 => 0
  | n + 1 => 2 * readBits byteAt p n + (streamBit byteAt (p + n)).toNat

/-- PutBits (R12): the capacity check, then the bits; `stage` and `field` are the caller's. -/
def putBits (v n : Nat) (stage : Stage) (field : Nat) (s : State) : Eff Unit :=
  if s.wpos.toNat + n > 8 * s.cfg.obufBytes then .raise ⟨.capacityObufFull, stage, field⟩ s
  else .ok () ((s.setObuf (writeBits s.obuf s.wpos.toNat v n)).setWpos (BitVec.ofNat 32 (s.wpos.toNat + n)))

/-- GetBits (R12): the truncation check, which raises the caller's error `e`, then the bits. -/
def getBits (n : Nat) (e : CmdError) (s : State) : Eff Nat :=
  if s.rpos.toNat + n > 8 * s.rlen.toNat then .raise e s
  else .ok (readBits s.ibufAt s.rpos.toNat n) (s.setRpos (BitVec.ofNat 32 (s.rpos.toNat + n)))

/-- OUT_LEN = (WPOS + 7) div 8 (10_state.md R26). -/
def State.outLen (s : State) : Nat := (s.wpos.toNat + 7) / 8

/-- A fresh output stream: every byte of OBUF 0 and WPOS 0 (42_bitwriter.md R150, 45_codec.md R244). -/
def clearWriter (s : State) : State := (s.setObuf []).setWpos 0#32

/-! ### Reset -/

/-- The reset of R340: the registers and OBUF; R341 keeps IBUF, DESC, VAL and VB. -/
def performReset (s : State) : State :=
  { clearWriter s with
    rlen := 0#32, rpos := 0#32, crcKind := 0#1, crcAcc := 0x0000FFFF#32, msgNfields := 0#32, msgTypeId := 0#17,
    msgMaxb := 0#33, routeTx := 0#19, routeRx := 0#19, tagRx := 0#16 }

/-- The reset input between commands: the reset, and no response (R340, R344). -/
def applyResetInput (s : State) : State := (performReset s).setResponse none

/-- A RAM after a command that was writing it is abandoned: each location holds its old or its new content
(R344), as `lands` says. -/
def mergeAbandoned {w : Nat} (lands : Nat → Bool) (old new : Memory w) : Memory w :=
  new.filterMap fun c => if lands c.1 then some c else (memLookup old c.1).map fun v => (c.1, v)

/-- The reset input during a command that would have taken `before` to `after` (R344): the command is abandoned
and not answered, the registers and OBUF are reset, and the RAM locations it was writing hold their old or new
content, a free choice (log entry 6). -/
def abandonCommand (before after : State) : State :=
  let lands := Config.abandonedWriteLands before.draws
  applyResetInput
    { before with
      ibuf := mergeAbandoned (lands 0) before.ibuf after.ibuf
      desc := mergeAbandoned (lands 1) before.desc after.desc
      val := mergeAbandoned (lands 2) before.val after.val
      vb := mergeAbandoned (lands 3) before.vb after.vb
      draws := before.draws + 1 }

end Sys2Proof.Machine
end

