-- ==== Sys2Proof/Machine/BitReader.lean ====
section
/-! DEFINITION. The bit reader's commands (43_bitreader.md). -/

namespace Sys2Proof.Machine

/-- GetBits for a primitive reader command, whose truncation error is TRUNCATION(INSUFFICIENT, NONE, 0). -/
def getPlain (n : Nat) (s : State) : Eff Nat := getBits n (plainError .truncInsufficient) s

/-- An unsigned field of `n` bits as a result word: `zext64(GetBits(n))`. -/
def getZext (n : Nat) (s : State) : Eff Word64 :=
  (getPlain n s).bind fun v t => .ok (BitVec.ofNat 64 v) t

/-- R_REWIND (R170). -/
def execRRewind (s : State) : Host.Outcome State Fault Refusal := respond (.ok 0#64 (s.setRpos 0#32))

/-- R_BOOL (R171). -/
def execRBool (s : State) : Host.Outcome State Fault Refusal := respond (getZext 1 s)

/-- R_UINT's check and read (R172). -/
def getUint (n : Nat) (s : State) : Eff Word64 :=
  if n < 1 ∨ 64 < n then .raise (plainError .rangeWidth) s else getZext n s

/-- R_UINT (R172). -/
def execRUint (n : BitVec 8) (s : State) : Host.Outcome State Fault Refusal :=
  respond (getUint (opUnsigned n) s)

/-- The sign of an n-bit window `u`, "via the top bit of the window" (R173). -/
def windowValue (n u : Nat) : Int := if u < 2 ^ (n - 1) then (u : Int) else (u : Int) - 2 ^ n

/-- R_INT's check and read (R173). -/
def getInt (n : Nat) (s : State) : Eff Word64 :=
  if n < 2 ∨ 64 < n then .raise (plainError .rangeWidth) s
  else (getPlain n s).bind fun u t => .ok (BitVec.ofInt 64 (windowValue n u)) t

/-- R_INT (R173). -/
def execRInt (n : BitVec 8) (s : State) : Host.Outcome State Fault Refusal :=
  respond (getInt (opUnsigned n) s)

/-- R_BYTE (R174). -/
def execRByte (s : State) : Host.Outcome State Fault Refusal := respond (getZext 8 s)

/-- R_POS (R175). -/
def execRPos (s : State) : Host.Outcome State Fault Refusal := respond (.ok (s.rpos.setWidth 64) s)

end Sys2Proof.Machine
end

