-- ==== Sys2Proof/Machine/BitWriter.lean ====
section
/-! DEFINITION. The bit writer's commands (42_bitwriter.md). Their errors carry stage NONE and field 0. -/

namespace Sys2Proof.Machine

/-- PutBits for a primitive writer command, which has no result word (R151 to R154). -/
def putPlain (v n : Nat) (s : State) : Eff Word64 :=
  (putBits v n .none 0 s).bind fun _ t => .ok 0#64 t

/-- W_CLEAR (R150). -/
def execWClear (s : State) : Host.Outcome State Fault Refusal := respond (.ok 0#64 (clearWriter s))

/-- W_BOOL (R151). -/
def execWBool (bit : BitVec 1) (s : State) : Host.Outcome State Fault Refusal :=
  respond (putPlain (opUnsigned bit) 1 s)

/-- W_UINT's checks and write (R152), for a width `n` and an unsigned value `v`. -/
def putUint (n v : Nat) (s : State) : Eff Word64 :=
  if n < 1 ∨ 64 < n then .raise (plainError .rangeWidth) s
  else if 2 ^ n - 1 < v then .raise (plainError .rangeValue) s
  else putPlain v n s

/-- W_UINT (R152). -/
def execWUint (n : BitVec 8) (w : Word64) (s : State) : Host.Outcome State Fault Refusal :=
  respond (putUint (opUnsigned n) (opUnsigned w) s)

/-- `trunc_n(v)`, the n-bit two's-complement pattern of `v` (00_scope.md R9). -/
def truncBits (n : Nat) (v : Int) : Nat := (v % (2 ^ n : Int)).toNat

/-- W_INT's checks and write (R153), for a width `n` and a signed value `v`. -/
def putInt (n : Nat) (v : Int) (s : State) : Eff Word64 :=
  if n < 2 ∨ 64 < n then .raise (plainError .rangeWidth) s
  else if v < -(2 ^ (n - 1) : Int) ∨ (2 ^ (n - 1) : Int) - 1 < v then .raise (plainError .rangeValue) s
  else putPlain (truncBits n v) n s

/-- W_INT (R153). -/
def execWInt (n : BitVec 8) (w : Word64) (s : State) : Host.Outcome State Fault Refusal :=
  respond (putInt (opUnsigned n) (opSigned w) s)

/-- W_BYTE (R154). -/
def execWByte (byte : Byte) (s : State) : Host.Outcome State Fault Refusal :=
  respond (putPlain (opUnsigned byte) 8 s)

/-- W_FINISH (R156). -/
def execWFinish (s : State) : Host.Outcome State Fault Refusal :=
  respond (.ok (BitVec.ofNat 64 s.outLen) s)

/-- W_POS (R157). -/
def execWPos (s : State) : Host.Outcome State Fault Refusal := respond (.ok (s.wpos.setWidth 64) s)

end Sys2Proof.Machine
end

