-- ==== Sys2Proof/Machine/Float64.lean ====
section
/-! DEFINITION. IEEE 754 binary64 as 00_scope.md R13 and 44_descriptors.md R210 use it: round to nearest, ties to
even. The format itself (sign, 11-bit exponent with bias 1023, 52-bit fraction, subnormals) is the IEEE standard's
(PRESUMED, log entry 8). Every finite binary64 value is an integer multiple of 2^-1074, so a finite value is a sign
and a count of that unit, and all arithmetic is exact integer arithmetic with one rounding at its end. -/

namespace Sys2Proof.Machine

/-- A binary64 value; `finite neg mag` is `mag * 2^-1074`, negated when `neg`. -/
inductive F64 where
  | finite (neg : Bool) (mag : Nat)
  | inf (neg : Bool)
  | nan
deriving DecidableEq, Repr

/-- How many units of 2^-1074 make 1. -/
def f64One : Nat := 2 ^ 1074

/-- `num / den` to the nearest integer, ties to even, for `den > 0`. -/
def rneDiv (num den : Nat) : Nat :=
  if 2 * (num % den) < den then num / den
  else if den < 2 * (num % den) then num / den + 1
  else num / den + num / den % 2

/-- The exponent of the spacing of binary64 values around `q` units: values of at least 2^53 units keep 53
significant bits. -/
def f64Scale (q : Nat) : Nat := Nat.log2 q - 52

/-- The binary64 value nearest to `num / den` units, ties to even, of sign `neg`; infinite from 2^1024 on. -/
def roundUnits (neg : Bool) (num den : Nat) : F64 :=
  if 2 ^ 2098 ≤ rneDiv num (den * 2 ^ f64Scale (num / den)) * 2 ^ f64Scale (num / den) then .inf neg
  else .finite neg (rneDiv num (den * 2 ^ f64Scale (num / den)) * 2 ^ f64Scale (num / den))

/-- `f64(w)` (R13). -/
def f64 (w : Word64) : F64 :=
  if (w.extractLsb' 52 11).toNat = 2047 then
    if (w.extractLsb' 0 52).toNat = 0 then .inf (w.getLsbD 63) else .nan
  else if (w.extractLsb' 52 11).toNat = 0 then .finite (w.getLsbD 63) (w.extractLsb' 0 52).toNat
  else
    .finite (w.getLsbD 63) ((2 ^ 52 + (w.extractLsb' 0 52).toNat) * 2 ^ ((w.extractLsb' 52 11).toNat - 1))

/-- The word of a sign, a biased exponent and a fraction. -/
def packF64 (neg : Bool) (expo frac : Nat) : Word64 :=
  BitVec.ofBool neg ++ BitVec.ofNat 11 expo ++ BitVec.ofNat 52 frac

/-- `bits64(x)` (R13). -/
def bits64 : F64 → Word64
  | .nan => Config.nanBits
  | .inf neg => packF64 neg 2047 0
  | .finite neg mag =>
    if mag < 2 ^ 52 then packF64 neg 0 mag
    else packF64 neg (f64Scale mag + 1) (mag / 2 ^ f64Scale mag - 2 ^ 52)

/-- A finite value as a signed count of units. -/
def signedUnits (neg : Bool) (mag : Nat) : Int := if neg then -(mag : Int) else mag

/-- `fadd64` (R13). An exact sum of 0 is -0 only when both operands are negative. -/
def fadd64 : F64 → F64 → F64
  | .nan, _ => .nan
  | _, .nan => .nan
  | .inf a, .inf b => if a = b then .inf a else .nan
  | .inf a, .finite _ _ => .inf a
  | .finite _ _, .inf b => .inf b
  | .finite na ma, .finite nb mb =>
    if signedUnits na ma + signedUnits nb mb = 0 then .finite (na && nb) 0
    else
      roundUnits (decide (signedUnits na ma + signedUnits nb mb < 0))
        (signedUnits na ma + signedUnits nb mb).natAbs 1

/-- A value with its sign changed. -/
def fneg64 : F64 → F64
  | .nan => .nan
  | .inf a => .inf !a
  | .finite a m => .finite (!a) m

/-- `fsub64` (R13). -/
def fsub64 (x y : F64) : F64 := fadd64 x (fneg64 y)

/-- `fmul64` (R13). -/
def fmul64 : F64 → F64 → F64
  | .nan, _ => .nan
  | _, .nan => .nan
  | .inf a, .inf b => .inf (a ^^ b)
  | .inf a, .finite b m => if m = 0 then .nan else .inf (a ^^ b)
  | .finite a m, .inf b => if m = 0 then .nan else .inf (a ^^ b)
  | .finite a ma, .finite b mb => roundUnits (a ^^ b) (ma * mb) f64One

/-- `rne64(num / den)` for `num ≥ 0`, `den > 0` (R13). -/
def rne64 (num den : Nat) : F64 := roundUnits false (num * f64One) den

/-- The IEEE comparison `<=`: false if either side is a NaN, and -0 = +0 (R13). -/
def fle64 : F64 → F64 → Bool
  | .nan, _ => false
  | _, .nan => false
  | .inf a, .inf b => a || !b
  | .inf a, .finite _ _ => a
  | .finite _ _, .inf b => !b
  | .finite na ma, .finite nb mb => decide (signedUnits na ma ≤ signedUnits nb mb)

/-- Neither a NaN nor infinite. -/
def F64.isFinite : F64 → Bool
  | .finite _ _ => true
  | .inf _ => false
  | .nan => false

/-- `roundint` (R13) of a finite value that is not below 0, in units: the nearest integer, ties to even. -/
def roundUnitsToInt (mag : Nat) : Nat := rneDiv mag f64One

/-- `Pow10(p)`, exact for `p` in 0..6 (44_descriptors.md R208). -/
def pow10 (p : Nat) : F64 := .finite false (10 ^ p * f64One)

end Sys2Proof.Machine
end

