-- ==== Sys2Proof/Machine/Utf8.lean ====
section
/-! DEFINITION. `Utf8Valid` (44_descriptors.md R222). -/

namespace Sys2Proof.Machine

/-- An inclusive range of byte values. -/
structure ByteRange where
  lo : Nat
  hi : Nat
deriving DecidableEq, Repr

/-- A row of R222's table: the first byte's range and the ranges of the bytes after it. -/
structure Utf8Row where
  first : ByteRange
  rest : List ByteRange
deriving DecidableEq, Repr

/-- `b` lies in the range. -/
def inRange (r : ByteRange) (b : Byte) : Bool := decide (r.lo ≤ b.toNat) && decide (b.toNat ≤ r.hi)

/-- The nine rows of R222. -/
def utf8Rows : List Utf8Row :=
  [ ⟨⟨0x00, 0x7F⟩, []⟩,
    ⟨⟨0xC2, 0xDF⟩, [⟨0x80, 0xBF⟩]⟩,
    ⟨⟨0xE0, 0xE0⟩, [⟨0xA0, 0xBF⟩, ⟨0x80, 0xBF⟩]⟩,
    ⟨⟨0xE1, 0xEC⟩, [⟨0x80, 0xBF⟩, ⟨0x80, 0xBF⟩]⟩,
    ⟨⟨0xED, 0xED⟩, [⟨0x80, 0x9F⟩, ⟨0x80, 0xBF⟩]⟩,
    ⟨⟨0xEE, 0xEF⟩, [⟨0x80, 0xBF⟩, ⟨0x80, 0xBF⟩]⟩,
    ⟨⟨0xF0, 0xF0⟩, [⟨0x90, 0xBF⟩, ⟨0x80, 0xBF⟩, ⟨0x80, 0xBF⟩]⟩,
    ⟨⟨0xF1, 0xF3⟩, [⟨0x80, 0xBF⟩, ⟨0x80, 0xBF⟩, ⟨0x80, 0xBF⟩]⟩,
    ⟨⟨0xF4, 0xF4⟩, [⟨0x80, 0x8F⟩, ⟨0x80, 0xBF⟩, ⟨0x80, 0xBF⟩]⟩ ]

/-- The rest of a byte string is well formed, where `pending` are the ranges the sequence begun still owes. -/
def utf8Scan : List ByteRange → List Byte → Bool
  | pending, [] => pending.isEmpty
  | [], b :: bs =>
    match utf8Rows.find? (fun r => inRange r.first b) with
    | some r => utf8Scan r.rest bs
    | none => false
  | r :: rs, b :: bs => inRange r b && utf8Scan rs bs

/-- The byte string is a concatenation of well-formed UTF-8 sequences (R222); the empty string is. -/
def utf8Valid (bs : List Byte) : Bool := utf8Scan [] bs

end Sys2Proof.Machine
end

