-- ==== Sys2Proof/Machine/Fields.lean ====
section
/-! DEFINITION. Field descriptors: what a descriptor's words mean, the bit width derived from them, and the packing
and unpacking of one field (44_descriptors.md R200 to R214). -/

namespace Sys2Proof.Machine

/-- A valid descriptor, read (R201): its kind and parameters. A BoundedFloat carries its scaled maximum M too. -/
inductive FieldKind where
  | bool
  | int (min max : Int)
  | float (fmin fmax : F64) (prec scaledMax : Nat)
  | enum (count : Nat)
  | bytes (len : Nat)
  | str (len : Nat)
deriving DecidableEq, Repr

/-- `bitlen(m)` (00_scope.md R9). -/
def bitlen (m : Nat) : Nat := if m = 0 then 0 else Nat.log2 m + 1

/-- The width of an unsigned field that holds 0..m: 1 if m = 0, else bitlen(m) (R206 to R208). -/
def widthFor (m : Nat) : Nat := if m = 0 then 1 else bitlen m

/-- `round((x - fmin) * 10^p)` for `fmin ≤ x` (R208, R210, R212); `none` when the product is not finite. -/
def scaledInt (fmin x : F64) (p : Nat) : Option Nat :=
  match fmul64 (fsub64 x fmin) (pow10 p) with
  | .finite _ mag => some (roundUnitsToInt mag)
  | .inf _ => none
  | .nan => none

/-- KIND, W0[2:0] (R200). -/
def descKind (w0 : Word64) : Nat := (w0.extractLsb' 0 3).toNat

/-- PREC, W0[6:4] (R200). -/
def descPrec (w0 : Word64) : Nat := (w0.extractLsb' 4 3).toNat

/-- The BoundedFloat arm of R204. -/
def parseFloat (p : Nat) (fmin fmax : F64) : Except Cause FieldKind :=
  if 6 < p then .error .schemaPrecision
  else if !(fmin.isFinite && fmax.isFinite) then .error .schemaBounds
  else if !fle64 fmin fmax then .error .schemaBounds
  else
    match scaledInt fmin fmax p with
    | none => .error .schemaWidth
    | some m => if 64 < widthFor m then .error .schemaWidth else .ok (.float fmin fmax p m)

/-- The checks of R204 on the three words of a descriptor, in its order, for `maxFieldBytes` = MAX_FIELD_BYTES. -/
def parseField (maxFieldBytes : Nat) (w0 w1 w2 : Word64) : Except Cause FieldKind :=
  match descKind w0 with
  | 0 => .ok .bool
  | 1 => if w2.toInt < w1.toInt then .error .schemaBounds else .ok (.int w1.toInt w2.toInt)
  | 2 => parseFloat (descPrec w0) (f64 w1) (f64 w2)
  | 3 => if w1.toNat = 0 then .error .schemaCardinality else .ok (.enum w1.toNat)
  | 4 => if maxFieldBytes < w1.toNat then .error .schemaLength else .ok (.bytes w1.toNat)
  | 5 => if maxFieldBytes < w1.toNat then .error .schemaLength else .ok (.str w1.toNat)
  | _ => .error .schemaKind

/-- `bits_required` of a valid descriptor (R204 to R209). -/
def fieldWidth : FieldKind → Nat
  | .bool => 1
  | .int min max => widthFor (max - min).toNat
  | .float _ _ _ m => widthFor m
  | .enum n => widthFor (n - 1)
  | .bytes len => 8 * len
  | .str len => 8 * len

/-- `Validate(i)` (R204): the descriptor of slot `i`, or SCHEMA(detail, SCHEMA_CHECK, i). -/
def validateField (s : State) (i : Nat) : Except CmdError FieldKind :=
  match parseField s.cfg.maxFieldBytes (s.descAt i 0) (s.descAt i 1) (s.descAt i 2) with
  | .ok k => .ok k
  | .error c => .error ⟨c, .schemaCheck, i⟩

/-- The descriptors of `count` slots from `i` on, or the first failure in slot order (45_codec.md R240). -/
def validateFrom (s : State) (i : Nat) : Nat → Except CmdError (List FieldKind)
  | 0 => .ok []
  | count + 1 =>
    match validateField s i with
    | .error e => .error e
    | .ok k =>
      match validateFrom s (i + 1) count with
      | .error e => .error e
      | .ok ks => .ok (k :: ks)

/-- VB[i][0..len-1]. -/
def vbBytes (s : State) (i len : Nat) : List Byte := (List.range len).map (s.vbAt i)

/-- `for j in j..j+count-1: PutBits(VB[i][j], 8)` (R212). -/
def putVbBytes (i : Nat) : Nat → Nat → State → Eff Unit
  | _, 0, s => .ok () s
  | j, count + 1, s =>
    (putBits (s.vbAt i j).toNat 8 .field i s).bind fun _ t => putVbBytes i (j + 1) count t

/-- EncField (R212). The `none` arm of the float case cannot be reached: R212 derives that the scaled value is at
most M. -/
def encField (k : FieldKind) (i : Nat) (s : State) : Eff Unit :=
  match k with
  | .bool =>
    if 1 < (s.valAt i).toNat then .raise ⟨.encType, .field, i⟩ s else putBits (s.valAt i).toNat 1 .field i s
  | .int min max =>
    if (s.valAt i).toInt < min ∨ max < (s.valAt i).toInt then .raise ⟨.encValueRange, .field, i⟩ s
    else putBits ((s.valAt i).toInt - min).toNat (fieldWidth (.int min max)) .field i s
  | .float fmin fmax p m =>
    if !(fle64 fmin (f64 (s.valAt i)) && fle64 (f64 (s.valAt i)) fmax) then .raise ⟨.encValueRange, .field, i⟩ s
    else
      match scaledInt fmin (f64 (s.valAt i)) p with
      | none => .raise ⟨.encValueRange, .field, i⟩ s
      | some v => putBits v (fieldWidth (.float fmin fmax p m)) .field i s
  | .enum n =>
    if n ≤ (s.valAt i).toNat then .raise ⟨.encValueRange, .field, i⟩ s
    else putBits (s.valAt i).toNat (fieldWidth (.enum n)) .field i s
  | .bytes len =>
    if (s.valAt i).toNat ≠ len then .raise ⟨.encLength, .field, i⟩ s else putVbBytes i 0 len s
  | .str len =>
    if (s.valAt i).toNat ≠ len then .raise ⟨.encLength, .field, i⟩ s
    else if !utf8Valid (vbBytes s i len) then .raise ⟨.encUtf8, .field, i⟩ s
    else putVbBytes i 0 len s

/-- EncField of the fields from slot `i` on, in slot order (45_codec.md R241). -/
def encFields : List FieldKind → Nat → State → Eff Unit
  | [], _, s => .ok () s
  | k :: ks, i, s => (encField k i s).bind fun _ t => encFields ks (i + 1) t

/-- `for j in j..j+count-1: VB[i][j] <- GetBits(8)` (R213). -/
def getVbBytes (i : Nat) : Nat → Nat → State → Eff Unit
  | _, 0, s => .ok () s
  | j, count + 1, s =>
    (getBits 8 ⟨.decTruncated, .field, i⟩ s).bind fun v t =>
      getVbBytes i (j + 1) count (t.writeVb i j (BitVec.ofNat 8 v))

/-- `value = min + scaled/10^precision` (R213): the quotient is rounded once, then the sum. -/
def unscale (fmin : F64) (p v : Nat) : F64 := fadd64 fmin (rne64 v (10 ^ p))

/-- DecField (R213). -/
def decField (k : FieldKind) (i : Nat) (s : State) : Eff Unit :=
  if s.rpos.toNat + fieldWidth k > 8 * s.rlen.toNat then .raise ⟨.decTruncated, .field, i⟩ s
  else
    match k with
    | .bool =>
      (getBits 1 ⟨.decTruncated, .field, i⟩ s).bind fun v t => .ok () (t.writeVal i (BitVec.ofNat 64 v))
    | .int min max =>
      (getBits (fieldWidth (.int min max)) ⟨.decTruncated, .field, i⟩ s).bind fun v t =>
        if max - min < (v : Int) then .raise ⟨.decIntRange, .field, i⟩ t
        else .ok () (t.writeVal i (BitVec.ofInt 64 (min + v)))
    | .float fmin fmax p m =>
      (getBits (fieldWidth (.float fmin fmax p m)) ⟨.decTruncated, .field, i⟩ s).bind fun v t =>
        if m < v then .raise ⟨.decFloatRange, .field, i⟩ t
        else if !(fle64 fmin (unscale fmin p v) && fle64 (unscale fmin p v) fmax) then
          .raise ⟨.decFloatRange, .field, i⟩ t
        else .ok () (t.writeVal i (bits64 (unscale fmin p v)))
    | .enum n =>
      (getBits (fieldWidth (.enum n)) ⟨.decTruncated, .field, i⟩ s).bind fun v t =>
        .ok () (t.writeVal i (BitVec.ofNat 64 v))
    | .bytes len =>
      (getVbBytes i 0 len s).bind fun _ t => .ok () (t.writeVal i (BitVec.ofNat 64 len))
    | .str len =>
      (getVbBytes i 0 len s).bind fun _ t =>
        if !utf8Valid (vbBytes t i len) then .raise ⟨.decUtf8, .field, i⟩ t
        else .ok () (t.writeVal i (BitVec.ofNat 64 len))

/-- DecField of the fields from slot `i` on, in slot order (45_codec.md R250). -/
def decFields : List FieldKind → Nat → State → Eff Unit
  | [], _, s => .ok () s
  | k :: ks, i, s => (decField k i s).bind fun _ t => decFields ks (i + 1) t

/-- An Enum's ordinal is one of its variants; other kinds have nothing to reconstruct (R214). -/
def ordinalOk (k : FieldKind) (v : Word64) : Bool :=
  match k with
  | .enum n => decide (v.toNat < n)
  | .bool | .int _ _ | .float _ _ _ _ | .bytes _ | .str _ => true

/-- The reconstruction check, in slot order from slot `i` on (R214). -/
def checkOrdinals : List FieldKind → Nat → State → Eff Unit
  | [], _, s => .ok () s
  | k :: ks, i, s =>
    if ordinalOk k (s.valAt i) then checkOrdinals ks (i + 1) s
    else .raise ⟨.decEnumOrdinal, .reconstruct, i⟩ s

end Sys2Proof.Machine
end

