-- ==== Sys2Proof/Machine/Codec.lean ====
section
/-! DEFINITION. The mode-aware sequencer: ENCODE, DECODE and PEEK_TAG (45_codec.md). -/

namespace Sys2Proof.Machine

/-- MSG_TYPE_ID.ID (10_state.md R32). -/
def State.typeId (s : State) : Nat := (s.msgTypeId.extractLsb' 0 16).toNat

/-- MSG_TYPE_ID.VALID (10_state.md R32). -/
def State.typeIdValid (s : State) : Bool := s.msgTypeId.getLsbD 16

/-- MSG_MAXB.MAX (10_state.md R33). -/
def State.maxBytes (s : State) : Nat := (s.msgMaxb.extractLsb' 0 32).toNat

/-- MSG_MAXB.VALID (10_state.md R33). -/
def State.maxBytesValid (s : State) : Bool := s.msgMaxb.getLsbD 32

/-- SRC of a routing header (10_state.md R34). -/
def routeSrc (r : BitVec 19) : Nat := (r.extractLsb' 0 8).toNat

/-- DST of a routing header. -/
def routeDst (r : BitVec 19) : Nat := (r.extractLsb' 8 8).toNat

/-- PRI of a routing header. -/
def routePri (r : BitVec 19) : Nat := (r.extractLsb' 16 2).toNat

/-- ACK of a routing header. -/
def routeAck (r : BitVec 19) : Nat := (r.extractLsb' 18 1).toNat

/-- `src | dst << 8 | pri << 16 | ack << 18` (R255). -/
def packRoute (src dst pri ack : Nat) : BitVec 19 :=
  BitVec.ofNat 1 ack ++ BitVec.ofNat 2 pri ++ BitVec.ofNat 8 dst ++ BitVec.ofNat 8 src

/-- EncRoute (R245). -/
def encRoute (s : State) : Eff Unit :=
  (putBits (routeSrc s.routeTx) 8 .route 0 s).bind fun _ t =>
  (putBits (routeDst t.routeTx) 8 .route 0 t).bind fun _ t =>
  (putBits (routePri t.routeTx) 2 .route 0 t).bind fun _ t =>
  putBits (routeAck t.routeTx) 1 .route 0 t

/-- EncTag (R246). -/
def encTag (s : State) : Eff Unit :=
  if !s.typeIdValid then .raise ⟨.encNoTypeId, .tag, 0⟩ s
  else if s.typeId < 128 then
    (putBits 0 1 .tag 0 s).bind fun _ t => putBits t.typeId 7 .tag 0 t
  else if s.typeId < 32768 then
    (putBits 1 1 .tag 0 s).bind fun _ t => putBits t.typeId 15 .tag 0 t
  else .raise ⟨.encTypeIdRange, .tag, 0⟩ s

/-- The size ceiling and the result of ENCODE (R241, R247). -/
def encFinish (s : State) : Eff Word64 :=
  if s.maxBytesValid && decide (s.maxBytes < s.outLen) then .raise ⟨.encMaxSize, .size, 0⟩ s
  else .ok (BitVec.ofNat 64 s.outLen) s

/-- ENCODE from a cleared writer on: header, tag, fields, size ceiling (R241). -/
def encMessage (mode : Nat) (kinds : List FieldKind) (s : State) : Eff Word64 :=
  (if mode = 3 then encRoute s else .ok () s).bind fun _ t =>
  (if 2 ≤ mode then encTag t else .ok () t).bind fun _ t =>
  (encFields kinds 0 t).bind fun _ t => encFinish t

/-- The pipeline of ENCODE (R241), after the selector check of 30_encoding.md R100. -/
def runEncode (mode : Nat) (s : State) : Eff Word64 :=
  if mode = 0 then .raise (plainError .illegalSelector) s
  else
    match validateFrom s 0 s.msgNfields.toNat with
    | .error e => .raise e s
    | .ok kinds => encMessage mode kinds (clearWriter s)

/-- ENCODE (R241). -/
def execEncode (mode : BitVec 2) (s : State) : Host.Outcome State Fault Refusal :=
  respond (runEncode (opUnsigned mode) s)

/-- DecRoute (R255), with the range check that no header fails. -/
def decRoute (s : State) : Eff Unit :=
  if s.rpos.toNat + 19 > 8 * s.rlen.toNat then .raise ⟨.decTruncated, .route, 0⟩ s
  else
    (getBits 8 ⟨.decTruncated, .route, 0⟩ s).bind fun src t =>
    (getBits 8 ⟨.decTruncated, .route, 0⟩ t).bind fun dst t =>
    (getBits 2 ⟨.decTruncated, .route, 0⟩ t).bind fun pri t =>
    (getBits 1 ⟨.decTruncated, .route, 0⟩ t).bind fun ack t =>
      if 255 < src ∨ 255 < dst ∨ 3 < pri then .raise ⟨.decRouteRange, .route, 0⟩ t
      else .ok () (t.setRouteRx (packRoute src dst pri ack))

/-- The width of the tag that starts at RPOS, by its flag bit (R253). -/
def tagWidth (s : State) : Nat := if streamBit s.ibufAt s.rpos.toNat then 16 else 8

/-- DecTag (R253): consumes nothing on failure. -/
def decTag (s : State) : Eff Nat :=
  if s.rpos.toNat + 8 > 8 * s.rlen.toNat then .raise ⟨.decTruncated, .tag, 0⟩ s
  else if s.rpos.toNat + tagWidth s > 8 * s.rlen.toNat then .raise ⟨.decTruncated, .tag, 0⟩ s
  else
    (getBits (tagWidth s) ⟨.decTruncated, .tag, 0⟩ s).bind fun v t => .ok (v % 2 ^ (tagWidth s - 1)) t

/-- The tag stage of DECODE: TAG_RX is written before the ID is compared (R250, R254, R256). -/
def decTagStage (s : State) : Eff Unit :=
  (decTag s).bind fun id t =>
    if (t.setTagRx (BitVec.ofNat 16 id)).typeIdValid && decide (id ≠ (t.setTagRx (BitVec.ofNat 16 id)).typeId) then
      .raise ⟨.decTypeIdMismatch, .tag, 0⟩ (t.setTagRx (BitVec.ofNat 16 id))
    else .ok () (t.setTagRx (BitVec.ofNat 16 id))

/-- DECODE from a rewound reader on: header, tag, fields, reconstruction (R250). -/
def decMessage (mode : Nat) (kinds : List FieldKind) (s : State) : Eff Word64 :=
  (if mode = 3 then decRoute s else .ok () s).bind fun _ t =>
  (if 2 ≤ mode then decTagStage t else .ok () t).bind fun _ t =>
  (decFields kinds 0 t).bind fun _ t =>
  (checkOrdinals kinds 0 t).bind fun _ t => .ok (t.rpos.setWidth 64) t

/-- The pipeline of DECODE (R250), after the selector check of 30_encoding.md R100. -/
def runDecode (mode : Nat) (s : State) : Eff Word64 :=
  if mode = 0 then .raise (plainError .illegalSelector) s
  else
    match validateFrom s 0 s.msgNfields.toNat with
    | .error e => .raise e s
    | .ok kinds => decMessage mode kinds (s.setRpos 0#32)

/-- DECODE (R250). -/
def execDecode (mode : BitVec 2) (s : State) : Host.Outcome State Fault Refusal :=
  respond (runDecode (opUnsigned mode) s)

/-- PEEK_TAG (R262). -/
def execPeekTag (s : State) : Host.Outcome State Fault Refusal :=
  respond
    (if s.rlen.toNat = 0 then .raise ⟨.decEmptyInput, .tag, 0⟩ s
     else (decTag (s.setRpos 0#32)).bind fun id t => .ok (BitVec.ofNat 64 id) (t.setTagRx (BitVec.ofNat 16 id)))

end Sys2Proof.Machine
end

