-- ==== Sys2Proof/Machine/Crc.lean ====
section
/-! DEFINITION. The CRC generator (41_crc.md). -/

namespace Sys2Proof.Machine

/-- `f` applied `n` times. -/
def applyTimes {α : Type} (f : α → α) : Nat → α → α
  | 0, x => x
  | n + 1, x => applyTimes f n (f x)

/-- One bit of the CRC-16 register: shift out the top bit, and subtract 0x1021 when it was 1 (R120, R121). -/
def crc16Bit (acc : BitVec 16) : BitVec 16 :=
  if acc.getLsbD 15 then (acc <<< 1) ^^^ 0x1021#16 else acc <<< 1

/-- Crc16Step (R121): the byte enters at the top. -/
def crc16Step (acc : BitVec 16) (m : Byte) : BitVec 16 :=
  applyTimes crc16Bit 8 (acc ^^^ (m.setWidth 16 <<< 8))

/-- One bit of the reflected CRC-32 register (R122). -/
def crc32Bit (acc : BitVec 32) : BitVec 32 :=
  if acc.getLsbD 0 then (acc >>> 1) ^^^ 0xEDB88320#32 else acc >>> 1

/-- Crc32Step (R122): the byte enters at the bottom. -/
def crc32Step (acc : BitVec 32) (m : Byte) : BitVec 32 := applyTimes crc32Bit 8 (acc ^^^ m.setWidth 32)

/-- CRC_ACC right after CRC_INIT of a kind (R124). -/
def crcStart (kind : BitVec 1) : BitVec 32 := if kind = 0#1 then 0x0000FFFF#32 else 0xFFFFFFFF#32

/-- CRC_ACC after one byte (R125). -/
def crcStep (kind : BitVec 1) (acc : BitVec 32) (m : Byte) : BitVec 32 :=
  if kind = 0#1 then (crc16Step (acc.setWidth 16) m).setWidth 32 else crc32Step acc m

/-- The checksum that CRC_ACC stands for (R126). -/
def crcValue (kind : BitVec 1) (acc : BitVec 32) : Word64 :=
  if kind = 0#1 then (acc.setWidth 16).setWidth 64 else (acc ^^^ 0xFFFFFFFF#32).setWidth 64

/-- CRC_ACC after the `count` bytes `byteAt start, byteAt (start+1), …`, in address order (R128, R129). -/
def crcFeed (kind : BitVec 1) (byteAt : Nat → Byte) (start : Nat) : Nat → BitVec 32 → BitVec 32
  | 0, acc => acc
  | count + 1, acc => crcFeed kind byteAt (start + 1) count (crcStep kind acc (byteAt start))

/-- CRC_INIT (R124). -/
def execCrcInit (kind : BitVec 1) (s : State) : Host.Outcome State Fault Refusal :=
  respond (.ok 0#64 ((s.setCrcKind kind).setCrcAcc (crcStart kind)))

/-- CRC_BYTE (R125). -/
def execCrcByte (byte : Byte) (s : State) : Host.Outcome State Fault Refusal :=
  respond (.ok 0#64 (s.setCrcAcc (crcStep s.crcKind s.crcAcc byte)))

/-- CRC_READ (R126). -/
def execCrcRead (s : State) : Host.Outcome State Fault Refusal :=
  respond (.ok (crcValue s.crcKind s.crcAcc) s)

/-- CRC_CHECK (R127). -/
def execCrcCheck (v : Word64) (s : State) : Host.Outcome State Fault Refusal :=
  respond
    (if opUnsigned v ≠ opUnsigned (crcValue s.crcKind s.crcAcc) then .raise (plainError .framingCrcMismatch) s
     else .ok (crcValue s.crcKind s.crcAcc) s)

/-- CRC_OBUF (R128): the bytes of the writer's finished image. -/
def execCrcObuf (s : State) : Host.Outcome State Fault Refusal :=
  respond (.ok 0#64 (s.setCrcAcc (crcFeed s.crcKind s.obufAt 0 s.outLen s.crcAcc)))

/-- CRC_IBUF (R129): a span of the valid input. -/
def execCrcIbuf (w : Word64) (s : State) : Host.Outcome State Fault Refusal :=
  respond
    (if s.rlen.toNat < spanStart w + spanCount w then .raise (plainError .rangeSpan) s
     else .ok 0#64 (s.setCrcAcc (crcFeed s.crcKind s.ibufAt (spanStart w) (spanCount w) s.crcAcc)))

end Sys2Proof.Machine
end

