-- ==== Sys2Proof/Machine/Descriptors.lean ====
section
/-! DEFINITION. WIDTH and the commands that reach DESC, VAL and VB (44_descriptors.md R215 to R221). -/

namespace Sys2Proof.Machine

/-- A slot inside DESC, VAL and VB (20_memory.md R60). -/
def slotOk (s : State) (slot : BitVec 8) : Bool := decide (opUnsigned slot < s.cfg.maxFields)

/-- WIDTH (R215). -/
def execWidth (slot : BitVec 8) (s : State) : Host.Outcome State Fault Refusal :=
  respond
    (if !slotOk s slot then .raise (plainError .rangeAddr) s
     else
       match validateField s (opUnsigned slot) with
       | .error e => .raise e s
       | .ok k => .ok (BitVec.ofNat 64 (fieldWidth k)) s)

/-- A word of a descriptor slot inside DESC (R216, R217). -/
def descOk (s : State) (slot : BitVec 8) (word : BitVec 16) : Bool :=
  slotOk s slot && decide (opUnsigned word ≤ 2)

/-- DESC_WR (R216). -/
def execDescWr (slot : BitVec 8) (word : BitVec 16) (v : Word64) (s : State) : Host.Outcome State Fault Refusal :=
  respond
    (if !descOk s slot word then .raise (plainError .rangeAddr) s
     else .ok 0#64 (s.writeDesc (opUnsigned slot) (opUnsigned word) v))

/-- DESC_RD (R217). -/
def execDescRd (slot : BitVec 8) (word : BitVec 16) (s : State) : Host.Outcome State Fault Refusal :=
  respond
    (if !descOk s slot word then .raise (plainError .rangeAddr) s
     else .ok (s.descAt (opUnsigned slot) (opUnsigned word)) s)

/-- VAL_WR (R218). -/
def execValWr (slot : BitVec 8) (v : Word64) (s : State) : Host.Outcome State Fault Refusal :=
  respond
    (if !slotOk s slot then .raise (plainError .rangeAddr) s else .ok 0#64 (s.writeVal (opUnsigned slot) v))

/-- VAL_RD (R219). -/
def execValRd (slot : BitVec 8) (s : State) : Host.Outcome State Fault Refusal :=
  respond (if !slotOk s slot then .raise (plainError .rangeAddr) s else .ok (s.valAt (opUnsigned slot)) s)

/-- A byte of a slot inside VB (R220, R221). -/
def vbOk (s : State) (slot : BitVec 8) (k : BitVec 16) : Bool :=
  slotOk s slot && decide (opUnsigned k < s.cfg.maxFieldBytes)

/-- VB_WR (R220). -/
def execVbWr (slot : BitVec 8) (k : BitVec 16) (v : Word64) (s : State) : Host.Outcome State Fault Refusal :=
  respond
    (if !vbOk s slot k then .raise (plainError .rangeAddr) s
     else if 255 < opUnsigned v then .raise (plainError .rangeByte) s
     else .ok 0#64 (s.writeVb (opUnsigned slot) (opUnsigned k) (operandByte v)))

/-- VB_RD (R221). -/
def execVbRd (slot : BitVec 8) (k : BitVec 16) (s : State) : Host.Outcome State Fault Refusal :=
  respond
    (if !vbOk s slot k then .raise (plainError .rangeAddr) s
     else .ok ((s.vbAt (opUnsigned slot) (opUnsigned k)).setWidth 64) s)

end Sys2Proof.Machine
end

