-- ==== Sys2Proof/Machine/HostAccess.lean ====
section
/-! DEFINITION. NOP, the CSR commands, the byte commands of IBUF and OBUF, and RESET (46_host_access.md), with the
CSR map of 10_state.md R21. -/

namespace Sys2Proof.Machine

/-- The fifteen CSRs of R21. -/
inductive Csr where
  | id | cfgBuf | cfgMsg | wpos | outLen | rlen | rpos | crcKind | crcAcc | msgNfields | msgTypeId | msgMaxb
  | routeTx | routeRx | tagRx
deriving DecidableEq, Repr

/-- The CSR of a number, `none` for an unassigned one (R21, R39). -/
def csrOfNumber (n : BitVec 16) : Option Csr :=
  match n.toNat with
  | 0x0000 => some .id
  | 0x0001 => some .cfgBuf
  | 0x0002 => some .cfgMsg
  | 0x0010 => some .wpos
  | 0x0011 => some .outLen
  | 0x0020 => some .rlen
  | 0x0021 => some .rpos
  | 0x0030 => some .crcKind
  | 0x0031 => some .crcAcc
  | 0x0040 => some .msgNfields
  | 0x0041 => some .msgTypeId
  | 0x0042 => some .msgMaxb
  | 0x0050 => some .routeTx
  | 0x0051 => some .routeRx
  | 0x0052 => some .tagRx
  | _ => none

/-- A CSR as read: bits with no field read 0 (R21 to R36). -/
def csrValue (s : State) : Csr → Word64
  | .id => Config.idValue
  | .cfgBuf => BitVec.ofNat 32 s.cfg.obufBytes ++ BitVec.ofNat 32 s.cfg.ibufBytes
  | .cfgMsg => BitVec.ofNat 32 s.cfg.maxFieldBytes ++ BitVec.ofNat 32 s.cfg.maxFields
  | .wpos => s.wpos.setWidth 64
  | .outLen => BitVec.ofNat 64 s.outLen
  | .rlen => s.rlen.setWidth 64
  | .rpos => s.rpos.setWidth 64
  | .crcKind => s.crcKind.setWidth 64
  | .crcAcc => s.crcAcc.setWidth 64
  | .msgNfields => s.msgNfields.setWidth 64
  | .msgTypeId => s.msgTypeId.setWidth 64
  | .msgMaxb => s.msgMaxb.setWidth 64
  | .routeTx => s.routeTx.setWidth 64
  | .routeRx => s.routeRx.setWidth 64
  | .tagRx => s.tagRx.setWidth 64

/-- A write of a CSR (R282); the read-only ones answer ILLEGAL(CSR_RO) (R38). -/
def csrWrite (s : State) (v : Word64) : Csr → Eff Word64
  | .rlen =>
    if s.cfg.ibufBytes < opUnsigned v then .raise (plainError .rangeLen) s
    else .ok 0#64 ((s.setRlen (v.setWidth 32)).setRpos 0#32)
  | .msgNfields =>
    if s.cfg.maxFields < opUnsigned v then .raise (plainError .rangeLen) s
    else .ok 0#64 (s.setMsgNfields (v.setWidth 32))
  | .msgTypeId => .ok 0#64 (s.setMsgTypeId (v.setWidth 17))
  | .msgMaxb => .ok 0#64 (s.setMsgMaxb (v.setWidth 33))
  | .routeTx => .ok 0#64 (s.setRouteTx (v.setWidth 19))
  | .id | .cfgBuf | .cfgMsg | .wpos | .outLen | .rpos | .crcKind | .crcAcc | .routeRx | .tagRx =>
    .raise (plainError .illegalCsrRo) s

/-- NOP (R280). -/
def execNop (s : State) : Host.Outcome State Fault Refusal := respond (.ok 0#64 s)

/-- CSR_RD (R281). -/
def execCsrRd (csr : BitVec 16) (s : State) : Host.Outcome State Fault Refusal :=
  respond
    (match csrOfNumber csr with
     | none => .raise (plainError .illegalCsr) s
     | some c => .ok (csrValue s c) s)

/-- CSR_WR (R282). -/
def execCsrWr (csr : BitVec 16) (v : Word64) (s : State) : Host.Outcome State Fault Refusal :=
  respond
    (match csrOfNumber csr with
     | none => .raise (plainError .illegalCsr) s
     | some c => csrWrite s v c)

/-- IB_WR (R283). -/
def execIbWr (addr : BitVec 24) (v : Word64) (s : State) : Host.Outcome State Fault Refusal :=
  respond
    (if s.cfg.ibufBytes ≤ opUnsigned addr then .raise (plainError .rangeAddr) s
     else if 255 < opUnsigned v then .raise (plainError .rangeByte) s
     else .ok 0#64 (s.writeIbuf (opUnsigned addr) (operandByte v)))

/-- IB_RD (R284). -/
def execIbRd (addr : BitVec 24) (s : State) : Host.Outcome State Fault Refusal :=
  respond
    (if s.cfg.ibufBytes ≤ opUnsigned addr then .raise (plainError .rangeAddr) s
     else .ok ((s.ibufAt (opUnsigned addr)).setWidth 64) s)

/-- OB_RD (R285). -/
def execObRd (addr : BitVec 24) (s : State) : Host.Outcome State Fault Refusal :=
  respond
    (if s.cfg.obufBytes ≤ opUnsigned addr then .raise (plainError .rangeAddr) s
     else .ok ((s.obufAt (opUnsigned addr)).setWidth 64) s)

/-- RESET (R286): the reset of R340, then the response. -/
def execReset (s : State) : Host.Outcome State Fault Refusal := respond (.ok 0#64 (performReset s))

end Sys2Proof.Machine
end

