-- ==== Sys2Proof/Machine/Dispatch.lean ====
section
/-! DEFINITION. Which meaning each instruction has, one arm for each row of 30_encoding.md R94. -/

namespace Sys2Proof.Machine

/-- The meaning of an instruction in a state. -/
def exec (i : Instr) (s : State) : Host.Outcome State Fault Refusal :=
  match i with
  | .nop => Sys2Proof.Machine.execNop s
  | .wClear => Sys2Proof.Machine.execWClear s
  | .wBool bit => Sys2Proof.Machine.execWBool bit s
  | .wUint n w => Sys2Proof.Machine.execWUint n w s
  | .wInt n w => Sys2Proof.Machine.execWInt n w s
  | .wByte byte => Sys2Proof.Machine.execWByte byte s
  | .wFinish => Sys2Proof.Machine.execWFinish s
  | .wPos => Sys2Proof.Machine.execWPos s
  | .rRewind => Sys2Proof.Machine.execRRewind s
  | .rBool => Sys2Proof.Machine.execRBool s
  | .rUint n => Sys2Proof.Machine.execRUint n s
  | .rInt n => Sys2Proof.Machine.execRInt n s
  | .rByte => Sys2Proof.Machine.execRByte s
  | .rPos => Sys2Proof.Machine.execRPos s
  | .crcInit kind => Sys2Proof.Machine.execCrcInit kind s
  | .crcByte byte => Sys2Proof.Machine.execCrcByte byte s
  | .crcRead => Sys2Proof.Machine.execCrcRead s
  | .crcCheck v => Sys2Proof.Machine.execCrcCheck v s
  | .crcObuf => Sys2Proof.Machine.execCrcObuf s
  | .crcIbuf w => Sys2Proof.Machine.execCrcIbuf w s
  | .encodeMsg mode => Sys2Proof.Machine.execEncode mode s
  | .decodeMsg mode => Sys2Proof.Machine.execDecode mode s
  | .peekTag => Sys2Proof.Machine.execPeekTag s
  | .width slot => Sys2Proof.Machine.execWidth slot s
  | .csrRd csr => Sys2Proof.Machine.execCsrRd csr s
  | .csrWr csr v => Sys2Proof.Machine.execCsrWr csr v s
  | .ibWr addr v => Sys2Proof.Machine.execIbWr addr v s
  | .ibRd addr => Sys2Proof.Machine.execIbRd addr s
  | .obRd addr => Sys2Proof.Machine.execObRd addr s
  | .descWr slot word v => Sys2Proof.Machine.execDescWr slot word v s
  | .descRd slot word => Sys2Proof.Machine.execDescRd slot word s
  | .valWr slot v => Sys2Proof.Machine.execValWr slot v s
  | .valRd slot => Sys2Proof.Machine.execValRd slot s
  | .vbWr slot k v => Sys2Proof.Machine.execVbWr slot k v s
  | .vbRd slot k => Sys2Proof.Machine.execVbRd slot k s
  | .reset => Sys2Proof.Machine.execReset s

end Sys2Proof.Machine
end

