-- ==== Sys2Proof/WellFormed.lean ====
section
/-! DEFINITION. Which instructions are legal encodings. Every operand of `Instr` has exactly the width of its
header field, so the one check left is the selector of 30_encoding.md R100. -/

namespace Sys2Proof

/-- R100: ENCODE and DECODE with mode 0 are illegal selectors; "No other field value is an encoding error". An
ill-formed instruction still decodes and runs: its meaning answers ILLEGAL(SELECTOR) (log entry 7). -/
def Instr.wellFormed : Instr → Bool
  | .encodeMsg mode => mode != 0#2
  | .decodeMsg mode => mode != 0#2
  | .nop | .wClear | .wBool _ | .wUint _ _ | .wInt _ _ | .wByte _ | .wFinish | .wPos => true
  | .rRewind | .rBool | .rUint _ | .rInt _ | .rByte | .rPos => true
  | .crcInit _ | .crcByte _ | .crcRead | .crcCheck _ | .crcObuf | .crcIbuf _ => true
  | .peekTag | .width _ | .csrRd _ | .csrWr _ _ | .ibWr _ _ | .ibRd _ | .obRd _ => true
  | .descWr _ _ _ | .descRd _ _ | .valWr _ _ | .valRd _ | .vbWr _ _ _ | .vbRd _ _ | .reset => true

end Sys2Proof
end

