-- ==== Sys2Proof/Decode.lean ====
section
/-! DEFINITION. The decoder, total on every command word and rejecting by name, and the encoder
(30_encoding.md R91 to R101). -/

namespace Sys2Proof

/-- The formats of R92. -/
inductive Format where
  | n | b1 | b2 | b8 | a | c | ab
deriving DecidableEq, Repr

/-- Why the decoder rejects a command, in the order of R101. The fourth cause, the selector of R100, is a field
value and is raised by the command's meaning (log entry 7). -/
inductive Reject where
  /-- An unassigned opcode (R97). -/
  | opcode
  /-- An operand word present when none is taken, or missing when one is (R99). -/
  | operand
  /-- A reserved header bit set (R98). -/
  | reserved
deriving DecidableEq, Repr

/-- `op`, header bits [31:24] (R91). -/
def headerOp (h : Word32) : BitVec 8 := h.extractLsb' 24 8

/-- `a`, header bits [23:16] (R91). -/
def headerA (h : Word32) : BitVec 8 := h.extractLsb' 16 8

/-- `b`, header bits [15:0] (R91). -/
def headerB (h : Word32) : BitVec 16 := h.extractLsb' 0 16

/-- `op << 24 | a << 16 | b` (R94). -/
def mkHeader (op a : BitVec 8) (b : BitVec 16) : Word32 := op ++ a ++ b

/-- The bits of `a` and `b` that a format reserves are 0 (R92, R98). -/
def reservedClear (f : Format) (a : BitVec 8) (b : BitVec 16) : Bool :=
  match f with
  | .n => a == 0#8 && b == 0#16
  | .b1 => a == 0#8 && b.extractLsb' 1 15 == 0#15
  | .b2 => a == 0#8 && b.extractLsb' 2 14 == 0#14
  | .b8 => a == 0#8 && b.extractLsb' 8 8 == 0#8
  | .a => b == 0#16
  | .c => a == 0#8
  | .ab => true

/-- A row of the opcode map R94: opcode, format, whether an operand word follows, and the instruction its header
fields and operand word make (R93). -/
structure OpRow where
  op : BitVec 8
  format : Format
  operand : Bool
  build : BitVec 8 → BitVec 16 → Word64 → Instr

/-- Rows 0x00 to 0x07 of R94. -/
def writerRows : List OpRow :=
  [ ⟨0x00#8, .n, false, fun _ _ _ => .nop⟩,
    ⟨0x01#8, .n, false, fun _ _ _ => .wClear⟩,
    ⟨0x02#8, .b1, false, fun _ b _ => .wBool (b.extractLsb' 0 1)⟩,
    ⟨0x03#8, .a, true, fun a _ w => .wUint a w⟩,
    ⟨0x04#8, .a, true, fun a _ w => .wInt a w⟩,
    ⟨0x05#8, .b8, false, fun _ b _ => .wByte (b.extractLsb' 0 8)⟩,
    ⟨0x06#8, .n, false, fun _ _ _ => .wFinish⟩,
    ⟨0x07#8, .n, false, fun _ _ _ => .wPos⟩ ]

/-- Rows 0x08 to 0x0D of R94. -/
def readerRows : List OpRow :=
  [ ⟨0x08#8, .n, false, fun _ _ _ => .rRewind⟩,
    ⟨0x09#8, .n, false, fun _ _ _ => .rBool⟩,
    ⟨0x0A#8, .a, false, fun a _ _ => .rUint a⟩,
    ⟨0x0B#8, .a, false, fun a _ _ => .rInt a⟩,
    ⟨0x0C#8, .n, false, fun _ _ _ => .rByte⟩,
    ⟨0x0D#8, .n, false, fun _ _ _ => .rPos⟩ ]

/-- Rows 0x10 to 0x15 of R94. -/
def crcRows : List OpRow :=
  [ ⟨0x10#8, .b1, false, fun _ b _ => .crcInit (b.extractLsb' 0 1)⟩,
    ⟨0x11#8, .b8, false, fun _ b _ => .crcByte (b.extractLsb' 0 8)⟩,
    ⟨0x12#8, .n, false, fun _ _ _ => .crcRead⟩,
    ⟨0x13#8, .n, true, fun _ _ w => .crcCheck w⟩,
    ⟨0x14#8, .n, false, fun _ _ _ => .crcObuf⟩,
    ⟨0x15#8, .n, true, fun _ _ w => .crcIbuf w⟩ ]

/-- Rows 0x18 to 0x1B of R94. -/
def codecRows : List OpRow :=
  [ ⟨0x18#8, .b2, false, fun _ b _ => .encodeMsg (b.extractLsb' 0 2)⟩,
    ⟨0x19#8, .b2, false, fun _ b _ => .decodeMsg (b.extractLsb' 0 2)⟩,
    ⟨0x1A#8, .n, false, fun _ _ _ => .peekTag⟩,
    ⟨0x1B#8, .a, false, fun a _ _ => .width a⟩ ]

/-- Rows 0x20 to 0x3F of R94. -/
def hostRows : List OpRow :=
  [ ⟨0x20#8, .c, false, fun _ b _ => .csrRd b⟩,
    ⟨0x21#8, .c, true, fun _ b w => .csrWr b w⟩,
    ⟨0x22#8, .ab, true, fun a b w => .ibWr (a ++ b) w⟩,
    ⟨0x23#8, .ab, false, fun a b _ => .ibRd (a ++ b)⟩,
    ⟨0x24#8, .ab, false, fun a b _ => .obRd (a ++ b)⟩,
    ⟨0x25#8, .ab, true, fun a b w => .descWr a b w⟩,
    ⟨0x26#8, .ab, false, fun a b _ => .descRd a b⟩,
    ⟨0x27#8, .a, true, fun a _ w => .valWr a w⟩,
    ⟨0x28#8, .a, false, fun a _ _ => .valRd a⟩,
    ⟨0x29#8, .ab, true, fun a b w => .vbWr a b w⟩,
    ⟨0x2A#8, .ab, false, fun a b _ => .vbRd a b⟩,
    ⟨0x3F#8, .n, false, fun _ _ _ => .reset⟩ ]

/-- The opcode map of R94. -/
def opTable : List OpRow := writerRows ++ readerRows ++ crcRows ++ codecRows ++ hostRows

/-- The row an opcode selects, `none` for an unassigned opcode (R94, R97). -/
def opRowOf (op : BitVec 8) : Option OpRow := opTable.find? (fun r => r.op == op)

/-- Decoding, with the checks in the order of R101: opcode (R97), operand presence (R99), reserved bits (R98). -/
def decode (c : Command) : Except Reject Instr :=
  match opRowOf (headerOp c.header) with
  | none => .error .opcode
  | some r =>
    if c.operand.isSome != r.operand then .error .operand
    else if !reservedClear r.format (headerA c.header) (headerB c.header) then .error .reserved
    else .ok (r.build (headerA c.header) (headerB c.header) (c.operand.getD 0#64))

/-- A command with no operand word. -/
def cmdShort (op a : BitVec 8) (b : BitVec 16) : Command := ⟨mkHeader op a b, none⟩

/-- A command with an operand word. -/
def cmdLong (op a : BitVec 8) (b : BitVec 16) (w : Word64) : Command := ⟨mkHeader op a b, some w⟩

/-- The words of an instruction (R94, R102). -/
def encode : Instr → Command
  | .nop => cmdShort 0x00#8 0#8 0#16
  | .wClear => cmdShort 0x01#8 0#8 0#16
  | .wBool bit => cmdShort 0x02#8 0#8 (bit.setWidth 16)
  | .wUint n w => cmdLong 0x03#8 n 0#16 w
  | .wInt n w => cmdLong 0x04#8 n 0#16 w
  | .wByte byte => cmdShort 0x05#8 0#8 (byte.setWidth 16)
  | .wFinish => cmdShort 0x06#8 0#8 0#16
  | .wPos => cmdShort 0x07#8 0#8 0#16
  | .rRewind => cmdShort 0x08#8 0#8 0#16
  | .rBool => cmdShort 0x09#8 0#8 0#16
  | .rUint n => cmdShort 0x0A#8 n 0#16
  | .rInt n => cmdShort 0x0B#8 n 0#16
  | .rByte => cmdShort 0x0C#8 0#8 0#16
  | .rPos => cmdShort 0x0D#8 0#8 0#16
  | .crcInit kind => cmdShort 0x10#8 0#8 (kind.setWidth 16)
  | .crcByte byte => cmdShort 0x11#8 0#8 (byte.setWidth 16)
  | .crcRead => cmdShort 0x12#8 0#8 0#16
  | .crcCheck v => cmdLong 0x13#8 0#8 0#16 v
  | .crcObuf => cmdShort 0x14#8 0#8 0#16
  | .crcIbuf w => cmdLong 0x15#8 0#8 0#16 w
  | .encodeMsg mode => cmdShort 0x18#8 0#8 (mode.setWidth 16)
  | .decodeMsg mode => cmdShort 0x19#8 0#8 (mode.setWidth 16)
  | .peekTag => cmdShort 0x1A#8 0#8 0#16
  | .width slot => cmdShort 0x1B#8 slot 0#16
  | .csrRd csr => cmdShort 0x20#8 0#8 csr
  | .csrWr csr v => cmdLong 0x21#8 0#8 csr v
  | .ibWr addr v => cmdLong 0x22#8 (addr.extractLsb' 16 8) (addr.extractLsb' 0 16) v
  | .ibRd addr => cmdShort 0x23#8 (addr.extractLsb' 16 8) (addr.extractLsb' 0 16)
  | .obRd addr => cmdShort 0x24#8 (addr.extractLsb' 16 8) (addr.extractLsb' 0 16)
  | .descWr slot word v => cmdLong 0x25#8 slot word v
  | .descRd slot word => cmdShort 0x26#8 slot word
  | .valWr slot v => cmdLong 0x27#8 slot 0#16 v
  | .valRd slot => cmdShort 0x28#8 slot 0#16
  | .vbWr slot k v => cmdLong 0x29#8 slot k v
  | .vbRd slot k => cmdShort 0x2A#8 slot k
  | .reset => cmdShort 0x3F#8 0#8 0#16

/-- The command whose words are the bits `w`: the header is bits 31..0 and the operand word bits 95..32. The
operand word is there when the opcode takes one (R95) or when `nbits` says that more than a header is given.
Words cross the port whole, so no byte order applies (20_memory.md R66). -/
def tableCommand (nbits w : Nat) : Command :=
  { header := BitVec.ofNat 32 w,
    operand :=
      if (opRowOf (headerOp (BitVec.ofNat 32 w))).any (·.operand) || decide (32 < nbits) then
        some (BitVec.ofNat 64 (w / 2 ^ 32))
      else none }

/-- The instruction the decoder reads from a table word. -/
def decodeTableWord (nbits w : Nat) : Option Instr := (decode (tableCommand nbits w)).toOption

end Sys2Proof
end

