-- ==== Sys2Proof/Machine/Port.lean ====
section
/-! DEFINITION. The command port: taking the next input, answering a command the decoder rejects, and placing a
command for the next step (20_memory.md R70, 30_encoding.md R97 to R101). -/

namespace Sys2Proof.Machine

/-- The error a decode check raises (R97 to R99). -/
def rejectCause : Reject → Cause
  | .opcode => .illegalOpcode
  | .operand => .illegalOperand
  | .reserved => .illegalReserved

/-- A command that fails a decode check is answered ILLEGAL and changes no state (R97 to R99, R101). -/
def respondReject (r : Reject) (s : State) : Host.Outcome State Fault Refusal :=
  respond (.raise (plainError (rejectCause r)) s)

/-- The state after a command was taken from the port. -/
def State.taken (s : State) (rest : List PortInput) : State := s.setPort rest

/-- `s` with the command whose bits are `w` (30_encoding.md, `tableCommand`) first on the port. -/
def placeCommand (s : State) (nbits w : Nat) : State := s.setPort (.command (tableCommand nbits w) :: s.port)

/-- What an abandoned command leaves, given how it would have ended (70_reset_and_hazards.md R344). -/
def abandonOutcome (before : State) : Host.Outcome State Fault Refusal → Host.Outcome State Fault Refusal
  | .next after => .next (abandonCommand before after)
  | .fault r => .fault r
  | .refused r => .refused r

end Sys2Proof.Machine
end

