-- ==== Sys2Proof/Machine/Step.lean ====
section
/-! DEFINITION. One step: the block takes the next input of its port (20_memory.md R70). -/

namespace Sys2Proof.Machine

/-- A command: decoded, and run if no decode check fails (30_encoding.md R101). -/
def runCommand (c : Command) (s : State) : Host.Outcome State Fault Refusal :=
  match decode c with
  | .error r => respondReject r s
  | .ok i => exec i s

/-- One step. With nothing on the port the block is idle and holds its state (60_exceptions.md R315). -/
def step (s : State) : Host.Outcome State Fault Refusal :=
  match s.port with
  | [] => .next s
  | .command c :: rest => runCommand c (s.taken rest)
  | .resetInput :: rest => .next (applyResetInput (s.taken rest))
  | .resetDuring c :: rest => abandonOutcome (s.taken rest) (runCommand c (s.taken rest))

/-- `s` with an instruction placed first on the port, so that the next step runs it (log entry 1). -/
def State.withFetchWord (s : State) (nbits w : Nat) : State := placeCommand s nbits w

end Sys2Proof.Machine
end

