-- ==== Sys2Proof/Machine/HostProcs.lean ====
section
/-! DEFINITION. What a host does with the block: the pseudo-instructions of 30_encoding.md R103, the frame build and
check of 41_crc.md R131 to R135, and the dispatch by type ID of 45_codec.md R263. Each is a sequence of commands
sent to the port, which ends at the first error response (log entries 12 and 13); the step function does not use this
file. -/

namespace Sys2Proof.Machine

/-- Send one command and take its response: one step with the command first on the port. -/
def sendCommand (c : Command) (s : State) : State :=
  match step (s.setPort (.command c :: s.port)) with
  | .next t => t
  | .fault _ => s
  | .refused _ => s

/-- The response of the last command. -/
def State.lastResponse (s : State) : Response := s.response.getD (okResponse 0#64)

/-- Send instructions one after another, whatever they answer; the responses stand in the order of the commands
(20_memory.md R70). -/
def sendAll : List Instr → State → List Response × State
  | [], s => ([], s)
  | i :: is, s =>
    let t := sendCommand (encode i) s
    let r := sendAll is t
    (t.lastResponse :: r.1, r.2)

/-- Send instructions one after another as far as the first that answers an error: its response is the last, and the
commands after it are not sent (92_eei_decisions.md D13, 60_exceptions.md R304; log entry 12). -/
def sendUntilError : List Instr → State → List Response × State
  | [], s => ([], s)
  | i :: is, s =>
    let t := sendCommand (encode i) s
    if t.lastResponse.status = statusOk then
      let r := sendUntilError is t
      (t.lastResponse :: r.1, r.2)
    else ([t.lastResponse], t)

/-- The first error response among the responses to a sequence of commands (30_encoding.md R103). -/
def firstError (rs : List Response) : Option Response := rs.find? fun r => r.status != statusOk

/-- The pseudo-instructions of R103. -/
inductive Pseudo where
  | wBytes (bs : List Byte)
  | rBytes (k : Nat)
  | crcBytes (bs : List Byte)
  | loadInput (bs : List Byte)
  | setBytes (slot : BitVec 8) (bs : List Byte)
  | descBool (slot : BitVec 8)
  | descInt (slot : BitVec 8) (min max : Word64)
  | descFloat (slot : BitVec 8) (min max : Word64) (prec : BitVec 3)
  | descEnum (slot : BitVec 8) (count : Word64)
  | descBytes (slot : BitVec 8) (len : Word64)
  | descStr (slot : BitVec 8) (len : Word64)
deriving DecidableEq, Repr

/-- `IB_WR j, b` for the bytes of a list, from address `j` on. DESIGN CHOICE (log entry 13): the spec gives no encoding
for an address above the 24 bits of the header field; the model sends its low 24 bits. -/
def loadBytes : Nat → List Byte → List Instr
  | _, [] => []
  | j, b :: bs => .ibWr (BitVec.ofNat 24 j) (b.setWidth 64) :: loadBytes (j + 1) bs

/-- `VB_WR slot, j, b` for the bytes of a list, from byte `j` on. DESIGN CHOICE (log entry 13): the spec gives no encoding
for a byte index above the 16 bits of the header field; the model sends its low 16 bits. -/
def slotBytes (slot : BitVec 8) : Nat → List Byte → List Instr
  | _, [] => []
  | j, b :: bs => .vbWr slot (BitVec.ofNat 16 j) (b.setWidth 64) :: slotBytes slot (j + 1) bs

/-- The commands a pseudo-instruction expands to (R103). DESIGN CHOICE (log entry 13): of a byte count above 64 bits the
low 64 are sent. -/
def expandPseudo : Pseudo → List Instr
  | .wBytes bs => bs.map .wByte
  | .rBytes k => List.replicate k .rByte
  | .crcBytes bs => bs.map .crcByte
  | .loadInput bs => loadBytes 0 bs ++ [.csrWr 0x0020#16 (BitVec.ofNat 64 bs.length)]
  | .setBytes slot bs => slotBytes slot 0 bs ++ [.valWr slot (BitVec.ofNat 64 bs.length)]
  | .descBool slot => [.descWr slot 0#16 0#64]
  | .descInt slot min max => [.descWr slot 0#16 1#64, .descWr slot 1#16 min, .descWr slot 2#16 max]
  | .descFloat slot min max prec =>
    [.descWr slot 0#16 (2#64 ||| (prec.setWidth 64 <<< 4)), .descWr slot 1#16 min, .descWr slot 2#16 max]
  | .descEnum slot count => [.descWr slot 0#16 3#64, .descWr slot 1#16 count]
  | .descBytes slot len => [.descWr slot 0#16 4#64, .descWr slot 1#16 len]
  | .descStr slot len => [.descWr slot 0#16 5#64, .descWr slot 1#16 len]

/-- The status of a pseudo-instruction: "the first error response among them, or OK" (R103). -/
def pseudoStatus (rs : List Response) : Word32 := ((firstError rs).map (·.status)).getD statusOk

/-- A pseudo-instruction: its commands in order, up to the first that fails. R_BYTES and W_BYTES "stop at the failing
byte" (92_eei_decisions.md D13), and that the others stop too is read from 60_exceptions.md R304 (DEDUCED, log entry
12): what stays is the effects of the commands before the failing one. -/
def runPseudo (p : Pseudo) (s : State) : List Response × State := sendUntilError (expandPseudo p) s

/-- Which parts a frame has (R131, R132). -/
structure FrameShape where
  /-- The 4-byte length is present. -/
  length : Bool
  /-- The ID, for the ID-tagged variant, which always has the length. -/
  ident : Option (BitVec 16)
  /-- The CRC kind, when there is a CRC. -/
  crc : Option (BitVec 1)
deriving DecidableEq, Repr

/-- The length field is present (R131, R132). -/
def hasLength (f : FrameShape) : Bool := f.length || f.ident.isSome

/-- `d` of R135: the bytes of the ID. -/
def idBytes (f : FrameShape) : Nat := if f.ident.isSome then 2 else 0

/-- `h` of R135: the bytes of the length field. -/
def lengthBytes (f : FrameShape) : Nat := if hasLength f then 4 else 0

/-- `c` of R135: the bytes of the CRC. -/
def crcBytes (f : FrameShape) : Nat :=
  match f.crc with
  | none => 0
  | some k => if k = 0#1 then 2 else 4

/-- The commands of R134 before the CRC: length, ID and payload. DESIGN CHOICE (log entry 13): of a length above 64 bits
the low 64 are sent. -/
def frameHead (f : FrameShape) (payload : List Byte) : List Instr :=
  .wClear ::
    ((if hasLength f then [.wUint 32#8 (BitVec.ofNat 64 (payload.length + idBytes f))] else []) ++
      (match f.ident with
       | none => []
       | some ident => [.wUint 16#8 (ident.setWidth 64)]) ++
      payload.map .wByte)

/-- The writer's finished image, `OBUF[0 .. OUT_LEN-1]` (10_state.md R40). -/
def imageBytes (s : State) : List Byte := (List.range s.outLen).map s.obufAt

/-- The commands of R134 for the CRC, up to the one that reads it; none without a CRC. -/
def frameCrc (f : FrameShape) : List Instr :=
  match f.crc with
  | none => []
  | some k => [.crcInit k, .crcObuf, .crcRead]

/-- The command of R134 that writes the CRC read as `c`; none without a CRC. -/
def frameTail (f : FrameShape) (c : Word64) : List Instr :=
  match f.crc with
  | none => []
  | some _ => [.wUint (BitVec.ofNat 8 (8 * crcBytes f)) c]

/-- Frame build (R134): the frame, and the state after it. DESIGN CHOICE (log entry 13): the spec does not say what the
host does when a command of the build answers an error (60_exceptions.md R308 leaves it to the host); the model's host
sends nothing more and comes to that response. -/
def buildFrame (f : FrameShape) (payload : List Byte) (s : State) : Except Response (List Byte) × State :=
  let t := sendUntilError (frameHead f payload ++ frameCrc f) s
  match firstError t.1 with
  | some r => (.error r, t.2)
  | none =>
    let u := sendUntilError (frameTail f t.2.lastResponse.result) t.2
    match firstError u.1 with
    | some r => (.error r, u.2)
    | none => (.ok (imageBytes u.2), u.2)

/-- Why the host's frame check fails: the FramingError causes, in the order of R135. -/
inductive FrameError where
  | emptyInput
  | insufficientBytes
  | lengthMismatch
  | crcMismatch
deriving DecidableEq, Repr

/-- A number written most significant byte first (R133). -/
def bigEndian (bs : List Byte) : Nat := bs.foldl (fun n b => 256 * n + b.toNat) 0

/-- `IBUF[start .. start+count-1]`. -/
def inputBytes (s : State) (start count : Nat) : List Byte :=
  (List.range count).map fun k => s.ibufAt (start + k)

/-- Step 5 of R135: the block's CRC over the first `T - c` bytes against the CRC field. -/
def crcMatches (f : FrameShape) (s : State) : Bool :=
  match f.crc with
  | none => true
  | some k =>
    let span := BitVec.ofNat 64 ((s.rlen.toNat - crcBytes f) * 2 ^ 32)
    let field := bigEndian (inputBytes s (s.rlen.toNat - crcBytes f) (crcBytes f))
    let t := sendUntilError [.crcInit k, .crcIbuf span, .crcCheck (BitVec.ofNat 64 field)] s
    pseudoStatus t.1 == statusOk

/-- Frame check (R135) of the received frame in IBUF, T = RLEN: the ID, when there is one, and the payload. -/
def checkFrame (f : FrameShape) (s : State) : Except FrameError (Option Nat × List Byte) :=
  if s.rlen.toNat = 0 then .error .emptyInput
  else if s.rlen.toNat < lengthBytes f + idBytes f + crcBytes f then .error .insufficientBytes
  else if hasLength f && decide (bigEndian (inputBytes s 0 4) ≠ s.rlen.toNat - crcBytes f - 4) then
    .error .lengthMismatch
  else if !crcMatches f s then .error .crcMismatch
  else
    .ok
      (if f.ident.isSome then some (bigEndian (inputBytes s 4 2)) else none,
        inputBytes s (lengthBytes f + idBytes f) (s.rlen.toNat - crcBytes f - lengthBytes f - idBytes f))

/-- What the dispatch by type ID comes to (R263). -/
inductive DispatchResult where
  /-- A command answered an error: the response. -/
  | failed (r : Response)
  /-- The host's DecodeError for an ID that is not registered, listing the registered ones. -/
  | unknownId (found : Nat) (registered : List Nat)
  /-- The message was decoded: its ID and the block's response. -/
  | decoded (found : Nat) (r : Response)
deriving DecidableEq, Repr

/-- The commands the registry holds for an ID: those that load its message descriptor. -/
def registered (registry : List (Nat × List Instr)) (found : Nat) : Option (List Instr) :=
  (registry.find? fun e => e.1 == found).map (·.2)

/-- Dispatch by type ID (R263): load the bytes, PEEK_TAG, look the ID up in the host's registry, load that type's
descriptor, and DECODE 2, which reads the tag again. DESIGN CHOICE (log entry 13): the spec does not say what the host
does when a command that loads the bytes or the descriptor answers an error (60_exceptions.md R308 leaves it to the
host); the model's host sends nothing more and comes to that response, as it does when PEEK_TAG or DECODE fails. -/
def decodeById (registry : List (Nat × List Instr)) (bs : List Byte) (s : State) : DispatchResult × State :=
  let t := sendUntilError (expandPseudo (.loadInput bs) ++ [.peekTag]) s
  match firstError t.1 with
  | some r => (.failed r, t.2)
  | none =>
    match registered registry t.2.lastResponse.result.toNat with
    | none => (.unknownId t.2.lastResponse.result.toNat (registry.map (·.1)), t.2)
    | some load =>
      let u := sendUntilError (load ++ [.decodeMsg 2#2]) t.2
      match firstError u.1 with
      | some r => (.failed r, u.2)
      | none => (.decoded t.2.lastResponse.result.toNat u.2.lastResponse, u.2)

end Sys2Proof.Machine
end

