-- ==== Sys2Proof/Safety.lean ====
section
/-! DEFINITION. The terms the claims use: the invariant of a state between commands, what it means that bits were
appended or read, when a message can be encoded or decoded, and tables written a second time from the spec, so that
a claim does not compare the model with itself. -/

namespace Sys2Proof.Safety

open Sys2Proof.Machine

/-! ### The invariant -/

/-- What holds of the block between commands: the parameters are legal (00_scope.md R6); every memory has its
canonical form and lists only locations that exist (20_memory.md R60); the ranges of the registers (10_state.md
R20, R25, R27, R28, R31); the zero tail of OBUF (R41); and CRC_ACC[31:16] = 0 for CRC-16 (R30). -/
structure Inv (s : State) : Prop where
  cfg : s.cfg.Valid
  obufWf : Memory.wf obufUnlisted s.obuf
  ibufWf : Memory.wf ramUnlisted s.ibuf
  descWf : Memory.wf ramUnlisted s.desc
  valWf : Memory.wf ramUnlisted s.val
  vbWf : Memory.wf ramUnlisted s.vb
  obufIn : ∀ c ∈ s.obuf, c.1 < s.cfg.obufBytes
  ibufIn : ∀ c ∈ s.ibuf, c.1 < s.cfg.ibufBytes
  descIn : ∀ c ∈ s.desc, c.1 / 65536 < s.cfg.maxFields ∧ c.1 % 65536 ≤ 2
  valIn : ∀ c ∈ s.val, c.1 < s.cfg.maxFields
  vbIn : ∀ c ∈ s.vb, c.1 / 65536 < s.cfg.maxFields ∧ c.1 % 65536 < s.cfg.maxFieldBytes
  wposLe : s.wpos.toNat ≤ 8 * s.cfg.obufBytes
  zeroTail : ∀ p, s.wpos.toNat ≤ p → streamBit s.obufAt p = false
  rlenLe : s.rlen.toNat ≤ s.cfg.ibufBytes
  rposLe : s.rpos.toNat ≤ 8 * s.rlen.toNat
  nfieldsLe : s.msgNfields.toNat ≤ s.cfg.maxFields
  crcHigh : s.crcKind = 0#1 → s.crcAcc.toNat < 2 ^ 16

/-- The zero tail of R41, on the listed bytes only: what a computation can check. -/
abbrev ZeroTailListed (s : State) : Prop :=
  ∀ c ∈ s.obuf, ∀ j < 8, s.wpos.toNat ≤ 8 * c.1 + j → c.2.getLsbD (7 - j) = false

/-- `Inv` in a form that evaluates on a given state. -/
abbrev InvCheck (s : State) : Prop :=
  s.cfg.Valid ∧ (Memory.wf obufUnlisted s.obuf ∧ Memory.wf ramUnlisted s.ibuf ∧ Memory.wf ramUnlisted s.desc ∧
    Memory.wf ramUnlisted s.val ∧ Memory.wf ramUnlisted s.vb) ∧
    ((∀ c ∈ s.obuf, c.1 < s.cfg.obufBytes) ∧ (∀ c ∈ s.ibuf, c.1 < s.cfg.ibufBytes) ∧
      (∀ c ∈ s.desc, c.1 / 65536 < s.cfg.maxFields ∧ c.1 % 65536 ≤ 2) ∧ (∀ c ∈ s.val, c.1 < s.cfg.maxFields) ∧
      (∀ c ∈ s.vb, c.1 / 65536 < s.cfg.maxFields ∧ c.1 % 65536 < s.cfg.maxFieldBytes)) ∧
    (s.wpos.toNat ≤ 8 * s.cfg.obufBytes ∧ ZeroTailListed s ∧ s.rlen.toNat ≤ s.cfg.ibufBytes ∧
      s.rpos.toNat ≤ 8 * s.rlen.toNat ∧ s.msgNfields.toNat ≤ s.cfg.maxFields ∧
      (s.crcKind = 0#1 → s.crcAcc.toNat < 2 ^ 16))

/-! ### Tables written a second time from the spec -/

/-- The opcodes that R97 lists as unassigned, as ranges. -/
def UnassignedOp (op : BitVec 8) : Prop :=
  op.toNat = 0x0E ∨ op.toNat = 0x0F ∨ op.toNat = 0x16 ∨ op.toNat = 0x17 ∨ (0x1C ≤ op.toNat ∧ op.toNat ≤ 0x1F) ∨
    (0x2B ≤ op.toNat ∧ op.toNat ≤ 0x3E) ∨ 0x40 ≤ op.toNat

/-- The opcodes that take an operand word (R94's operand column). -/
def opsWithOperand : List (BitVec 8) :=
  [0x03#8, 0x04#8, 0x13#8, 0x15#8, 0x21#8, 0x22#8, 0x25#8, 0x27#8, 0x29#8]

/-- The mask over the header of R92 for each opcode of R94: the header bits a format fixes, `op` among them. -/
def headerMask (op : BitVec 8) : Word32 :=
  if op ∈ [0x02#8, 0x10#8] then 0xFFFFFFFE#32
  else if op ∈ [0x18#8, 0x19#8] then 0xFFFFFFFC#32
  else if op ∈ [0x05#8, 0x11#8] then 0xFFFFFF00#32
  else if op ∈ [0x03#8, 0x04#8, 0x0A#8, 0x0B#8, 0x1B#8, 0x27#8, 0x28#8] then 0xFF00FFFF#32
  else if op ∈ [0x20#8, 0x21#8] then 0xFFFF0000#32
  else if op ∈ [0x22#8, 0x23#8, 0x24#8, 0x25#8, 0x26#8, 0x29#8, 0x2A#8] then 0xFF000000#32
  else 0xFFFFFFFF#32

/-- A header bit that the format of the header's opcode reserves is 1 (R92, R98). -/
def ReservedBitSet (h : Word32) : Prop := h &&& headerMask (headerOp h) &&& 0x00FFFFFF#32 ≠ 0#32

/-- The header word each command's rule gives ("Encoding: header …", files 41 to 46). -/
def specHeader : Instr → Word32
  | .nop => 0x00000000#32
  | .wClear => 0x01000000#32
  | .wBool bit => 0x02000000#32 ||| bit.setWidth 32
  | .wUint n _ => 0x03000000#32 ||| (n.setWidth 32 <<< 16)
  | .wInt n _ => 0x04000000#32 ||| (n.setWidth 32 <<< 16)
  | .wByte byte => 0x05000000#32 ||| byte.setWidth 32
  | .wFinish => 0x06000000#32
  | .wPos => 0x07000000#32
  | .rRewind => 0x08000000#32
  | .rBool => 0x09000000#32
  | .rUint n => 0x0A000000#32 ||| (n.setWidth 32 <<< 16)
  | .rInt n => 0x0B000000#32 ||| (n.setWidth 32 <<< 16)
  | .rByte => 0x0C000000#32
  | .rPos => 0x0D000000#32
  | .crcInit kind => 0x10000000#32 ||| kind.setWidth 32
  | .crcByte byte => 0x11000000#32 ||| byte.setWidth 32
  | .crcRead => 0x12000000#32
  | .crcCheck _ => 0x13000000#32
  | .crcObuf => 0x14000000#32
  | .crcIbuf _ => 0x15000000#32
  | .encodeMsg mode => 0x18000000#32 ||| mode.setWidth 32
  | .decodeMsg mode => 0x19000000#32 ||| mode.setWidth 32
  | .peekTag => 0x1A000000#32
  | .width slot => 0x1B000000#32 ||| (slot.setWidth 32 <<< 16)
  | .csrRd csr => 0x20000000#32 ||| csr.setWidth 32
  | .csrWr csr _ => 0x21000000#32 ||| csr.setWidth 32
  | .ibWr addr _ => 0x22000000#32 ||| addr.setWidth 32
  | .ibRd addr => 0x23000000#32 ||| addr.setWidth 32
  | .obRd addr => 0x24000000#32 ||| addr.setWidth 32
  | .descWr slot word _ => 0x25000000#32 ||| (slot.setWidth 32 <<< 16) ||| word.setWidth 32
  | .descRd slot word => 0x26000000#32 ||| (slot.setWidth 32 <<< 16) ||| word.setWidth 32
  | .valWr slot _ => 0x27000000#32 ||| (slot.setWidth 32 <<< 16)
  | .valRd slot => 0x28000000#32 ||| (slot.setWidth 32 <<< 16)
  | .vbWr slot k _ => 0x29000000#32 ||| (slot.setWidth 32 <<< 16) ||| k.setWidth 32
  | .vbRd slot k => 0x2A000000#32 ||| (slot.setWidth 32 <<< 16) ||| k.setWidth 32
  | .reset => 0x3F000000#32

/-- The operand word each command's rule gives, `none` where the command takes none. -/
def specOperand : Instr → Option Word64
  | .wUint _ w | .wInt _ w | .crcCheck w | .crcIbuf w | .csrWr _ w | .ibWr _ w | .descWr _ _ w | .valWr _ w
  | .vbWr _ _ w => some w
  | .nop | .wClear | .wBool _ | .wByte _ | .wFinish | .wPos | .rRewind | .rBool | .rUint _ | .rInt _ | .rByte
  | .rPos | .crcInit _ | .crcByte _ | .crcRead | .crcObuf | .encodeMsg _ | .decodeMsg _ | .peekTag | .width _
  | .csrRd _ | .ibRd _ | .obRd _ | .descRd _ _ | .valRd _ | .vbRd _ _ | .reset => none

/-- A well-formed UTF-8 sequence, one row of the table of 44_descriptors.md R222 (byte values). -/
inductive Utf8Seq : List Nat → Prop where
  | one (a : Nat) : a ≤ 0x7F → Utf8Seq [a]
  | two (a b : Nat) : 0xC2 ≤ a → a ≤ 0xDF → 0x80 ≤ b → b ≤ 0xBF → Utf8Seq [a, b]
  | three (a b c : Nat) :
      (a = 0xE0 ∧ 0xA0 ≤ b ∧ b ≤ 0xBF) ∨ (0xE1 ≤ a ∧ a ≤ 0xEC ∧ 0x80 ≤ b ∧ b ≤ 0xBF) ∨
        (a = 0xED ∧ 0x80 ≤ b ∧ b ≤ 0x9F) ∨ (0xEE ≤ a ∧ a ≤ 0xEF ∧ 0x80 ≤ b ∧ b ≤ 0xBF) →
      0x80 ≤ c → c ≤ 0xBF → Utf8Seq [a, b, c]
  | four (a b c d : Nat) :
      (a = 0xF0 ∧ 0x90 ≤ b ∧ b ≤ 0xBF) ∨ (0xF1 ≤ a ∧ a ≤ 0xF3 ∧ 0x80 ≤ b ∧ b ≤ 0xBF) ∨
        (a = 0xF4 ∧ 0x80 ≤ b ∧ b ≤ 0x8F) →
      0x80 ≤ c → c ≤ 0xBF → 0x80 ≤ d → d ≤ 0xBF → Utf8Seq [a, b, c, d]

/-- The causes of R303, with the stages of R302 at which their rules raise them: class, detail, stage. DECODE detail 8 is
defined and never produced (45_codec.md R255). -/
def ProducedError (cls detail stage : Nat) : Prop :=
  cls = 1 ∧ 1 ≤ detail ∧ detail ≤ 6 ∧ stage = 0 ∨
  cls = 2 ∧ detail = 1 ∧ stage = 0 ∨
  cls = 3 ∧ 1 ≤ detail ∧ detail ≤ 6 ∧ stage = 1 ∨
  cls = 4 ∧ (detail ∈ [1, 2, 3, 7] ∧ stage = 4 ∨ detail ∈ [4, 5] ∧ stage = 3 ∨ detail = 6 ∧ stage = 6) ∨
  cls = 5 ∧ (detail = 1 ∧ stage ∈ [2, 3, 4] ∨ detail ∈ [2, 3, 6] ∧ stage = 4 ∨ detail = 4 ∧ stage = 5 ∨
    detail ∈ [5, 7] ∧ stage = 3) ∨
  cls = 6 ∧ detail = 1 ∧ stage = 0 ∨
  cls = 7 ∧ detail = 1 ∧ stage ∈ [0, 2, 3, 4] ∨
  cls = 8 ∧ 1 ≤ detail ∧ detail ≤ 6 ∧ stage = 0

/-- The stages of R302 that have a FIELD: SCHEMA_CHECK, FIELD and RECONSTRUCT. -/
def stagesWithField : List Nat := [1, 4, 5]

/-! ### Running instructions one after another -/

/-- The state after `exec` of instructions in order, if each answers a next state. -/
def runAll : List Instr → State → Option State
  | [], s => some s
  | i :: is, s =>
    match exec i s with
    | .next t => runAll is t
    | .fault _ => none
    | .refused _ => none

/-! ### What a writer or reader command does -/

/-- `t` is `s` after `n` bits of `v` were appended to the writer and OK was answered (00_scope.md R12, 20_memory.md
R62): WPOS moves by `n`, bit `n-1-j` of `v` stands at stream position `WPOS + j`, every other OBUF bit and every other
field is as before. -/
structure BitsAppended (s t : State) (n v : Nat) : Prop where
  rest : t = ((s.setObuf t.obuf).setWpos (s.wpos + BitVec.ofNat 32 n)).setResponse (some (okResponse 0#64))
  bits : ∀ j < n, streamBit t.obufAt (s.wpos.toNat + j) = v.testBit (n - 1 - j)
  frame : ∀ p, p < s.wpos.toNat ∨ s.wpos.toNat + n ≤ p → streamBit t.obufAt p = streamBit s.obufAt p

/-- `v` is the `n`-bit number at stream positions `p .. p+n-1`, most significant bit first (20_memory.md R62). -/
def FieldAt (byteAt : Nat → Byte) (p n v : Nat) : Prop :=
  v < 2 ^ n ∧ ∀ j < n, v.testBit (n - 1 - j) = streamBit byteAt (p + j)

/-! ### Checksums as functions of byte strings -/

/-- CRC16(m) (41_crc.md R121). -/
def crc16Of (ms : List Byte) : BitVec 16 := ms.foldl crc16Step 0xFFFF#16

/-- CRC32(m) (41_crc.md R122). -/
def crc32Of (ms : List Byte) : BitVec 32 := ms.foldl crc32Step 0xFFFFFFFF#32 ^^^ 0xFFFFFFFF#32

/-- The checksum of a byte string for a kind, as CRC_READ reports it (41_crc.md R126, R130). -/
def checksumOf (kind : BitVec 1) (ms : List Byte) : Word64 :=
  if kind = 0#1 then (crc16Of ms).setWidth 64 else (crc32Of ms).setWidth 64

/-- One byte through the unreflected CRC-32 register with polynomial 0x04C11DB7, most significant bit first. -/
def crc32Forward (acc : BitVec 32) (m : Byte) : BitVec 32 :=
  applyTimes (fun a : BitVec 32 => if a.getLsbD 31 then (a <<< 1) ^^^ 0x04C11DB7#32 else a <<< 1) 8
    (acc ^^^ (m.setWidth 32 <<< 24))

/-! ### Messages -/

/-- Bits of the routing header (45_codec.md R248). -/
def routeBits (mode : Nat) : Nat := if mode = 3 then 19 else 0

/-- Bits of the tag that ENCODE writes (45_codec.md R246, R248). -/
def tagBits (mode ident : Nat) : Nat := if mode < 2 then 0 else if ident < 128 then 8 else 16

/-- Bits of the fields. -/
def bodyBits (kinds : List FieldKind) : Nat := (kinds.map fieldWidth).sum

/-- Bits of an encoded message (R248): `H + T + Σ w[i]`. -/
def messageBits (mode : Nat) (s : State) (kinds : List FieldKind) : Nat :=
  routeBits mode + tagBits mode s.typeId + bodyBits kinds

/-- Where field `i` starts, when the fields start at `start`. -/
def fieldStart (start : Nat) (kinds : List FieldKind) (i : Nat) : Nat := start + bodyBits (kinds.take i)

/-- The value of slot `i` is one ENCODE accepts for a field (44_descriptors.md R203, R212). -/
def ValueOk (s : State) (i : Nat) : FieldKind → Prop
  | .bool => (s.valAt i).toNat ≤ 1
  | .int min max => min ≤ (s.valAt i).toInt ∧ (s.valAt i).toInt ≤ max
  | .float fmin fmax _ _ => fle64 fmin (f64 (s.valAt i)) = true ∧ fle64 (f64 (s.valAt i)) fmax = true
  | .enum n => (s.valAt i).toNat < n
  | .bytes len => (s.valAt i).toNat = len
  | .str len => (s.valAt i).toNat = len ∧ utf8Valid (vbBytes s i len) = true

/-- ENCODE `mode` has what it needs (45_codec.md R241): descriptors that validate as `kinds`, a type ID where a tag is
written, values it accepts, room in OBUF, and a size within the declared maximum. -/
structure Encodable (mode : Nat) (s : State) (kinds : List FieldKind) : Prop where
  modeOk : 1 ≤ mode ∧ mode ≤ 3
  valid : validateFrom s 0 s.msgNfields.toNat = .ok kinds
  ident : 2 ≤ mode → s.typeIdValid = true ∧ s.typeId < 32768
  values : ∀ i k, kinds[i]? = some k → ValueOk s i k
  room : messageBits mode s kinds ≤ 8 * s.cfg.obufBytes
  size : s.maxBytesValid = true → (messageBits mode s kinds + 7) / 8 ≤ s.maxBytes

/-- What field `i` of state `s` is on the wire from position `p` on (44_descriptors.md R212). -/
def FieldOnWire (byteAt : Nat → Byte) (p : Nat) (s : State) (i : Nat) : FieldKind → Prop
  | .bool => FieldAt byteAt p 1 (s.valAt i).toNat
  | .int min max => FieldAt byteAt p (fieldWidth (.int min max)) ((s.valAt i).toInt - min).toNat
  | .float fmin fmax prec m =>
    ∃ v, scaledInt fmin (f64 (s.valAt i)) prec = some v ∧ v ≤ m ∧
      FieldAt byteAt p (fieldWidth (.float fmin fmax prec m)) v
  | .enum n => FieldAt byteAt p (fieldWidth (.enum n)) (s.valAt i).toNat
  | .bytes len => ∀ j < len, FieldAt byteAt (p + 8 * j) 8 (s.vbAt i j).toNat
  | .str len => ∀ j < len, FieldAt byteAt (p + 8 * j) 8 (s.vbAt i j).toNat

/-- The routing header `r` stands at the start of a stream (45_codec.md R245). -/
def RouteOnWire (byteAt : Nat → Byte) (r : BitVec 19) : Prop :=
  FieldAt byteAt 0 8 (routeSrc r) ∧ FieldAt byteAt 8 8 (routeDst r) ∧ FieldAt byteAt 16 2 (routePri r) ∧
    FieldAt byteAt 18 1 (routeAck r)

/-- The message of `s` in mode `mode`, of fields `kinds`, stands in a stream from position 0 on (45_codec.md R242, R245,
R246, R248): routing header, tag, fields, with nothing between them. -/
structure MessageBits (byteAt : Nat → Byte) (mode : Nat) (s : State) (kinds : List FieldKind) : Prop where
  route : mode = 3 → RouteOnWire byteAt s.routeTx
  shortTag : 2 ≤ mode → s.typeId < 128 →
    FieldAt byteAt (routeBits mode) 1 0 ∧ FieldAt byteAt (routeBits mode + 1) 7 s.typeId
  longTag : 2 ≤ mode → 128 ≤ s.typeId →
    FieldAt byteAt (routeBits mode) 1 1 ∧ FieldAt byteAt (routeBits mode + 1) 15 s.typeId
  fields : ∀ i k, kinds[i]? = some k →
    FieldOnWire byteAt (fieldStart (routeBits mode + tagBits mode s.typeId) kinds i) s i k

/-- Every bit of a stream from position `p` on is 0. -/
def ZeroFrom (byteAt : Nat → Byte) (p : Nat) : Prop := ∀ q, p ≤ q → streamBit byteAt q = false

/-- The message of `s` in mode `mode` stands in a stream from position 0 on, padded with zeros (45_codec.md R243). -/
structure MessageOnWire (byteAt : Nat → Byte) (mode : Nat) (s : State) (kinds : List FieldKind) : Prop
    extends MessageBits byteAt mode s kinds where
  padding : ZeroFrom byteAt (messageBits mode s kinds)

/-- The bits of the tag at position `p`, by its flag (45_codec.md R253). -/
def tagBitsAt (byteAt : Nat → Byte) (p : Nat) : Nat := if streamBit byteAt p then 16 else 8

/-- The ID in the tag at position `p`: the 7 or 15 bits after the flag (45_codec.md R253). -/
def tagIdAt (byteAt : Nat → Byte) (p : Nat) : Nat := readBits byteAt (p + 1) (tagBitsAt byteAt p - 1)

/-- `r` is the routing header at the start of a stream (45_codec.md R255). -/
def RouteRead (byteAt : Nat → Byte) (r : BitVec 19) : Prop :=
  routeSrc r = readBits byteAt 0 8 ∧ routeDst r = readBits byteAt 8 8 ∧ routePri r = readBits byteAt 16 2 ∧
    routeAck r = readBits byteAt 18 1

/-- Where the fields start on decode. -/
def bodyStart (mode : Nat) (s : State) : Nat :=
  routeBits mode + if mode < 2 then 0 else tagBitsAt s.ibufAt (routeBits mode)

/-- `VB` bytes as they stand in the input from position `p` on. -/
def wireBytes (byteAt : Nat → Byte) (p len : Nat) : List Byte :=
  (List.range len).map fun j => BitVec.ofNat 8 (readBits byteAt (p + 8 * j) 8)

/-- DECODE goes on after reading what it finds for a field at position `p` (44_descriptors.md R213); an Enum's ordinal is
checked only after all fields (R214). -/
def FieldReads (byteAt : Nat → Byte) (p : Nat) : FieldKind → Prop
  | .bool => True
  | .int min max => (readBits byteAt p (fieldWidth (.int min max)) : Int) ≤ max - min
  | .float fmin fmax prec m =>
    readBits byteAt p (fieldWidth (.float fmin fmax prec m)) ≤ m ∧
      fle64 fmin (unscale fmin prec (readBits byteAt p (fieldWidth (.float fmin fmax prec m)))) = true ∧
      fle64 (unscale fmin prec (readBits byteAt p (fieldWidth (.float fmin fmax prec m)))) fmax = true
  | .enum _ => True
  | .bytes _ => True
  | .str len => utf8Valid (wireBytes byteAt p len) = true

/-- The cause DECODE names for a field it does not go on after (44_descriptors.md R213). -/
def fieldCause : FieldKind → Cause
  | .int _ _ => .decIntRange
  | .float _ _ _ _ => .decFloatRange
  | .str _ => .decUtf8
  | .bool => .decTruncated
  | .enum _ => .decTruncated
  | .bytes _ => .decTruncated

/-- What DECODE `mode` has read before the fields: descriptors that validate as `kinds`, and the declared type ID where
there is one (45_codec.md R250, R254). -/
structure HeaderReads (mode : Nat) (s : State) (kinds : List FieldKind) : Prop where
  modeOk : 1 ≤ mode ∧ mode ≤ 3
  valid : validateFrom s 0 s.msgNfields.toNat = .ok kinds
  ident : 2 ≤ mode → s.typeIdValid = true → tagIdAt s.ibufAt (routeBits mode) = s.typeId

/-- DECODE `mode` gets through every field of the input (45_codec.md R250): header, tag and fields are there, and each
field reads. -/
structure Readable (mode : Nat) (s : State) (kinds : List FieldKind) : Prop where
  header : HeaderReads mode s kinds
  fits : bodyStart mode s + bodyBits kinds ≤ 8 * s.rlen.toNat
  fields : ∀ i k, kinds[i]? = some k → FieldReads s.ibufAt (fieldStart (bodyStart mode s) kinds i) k

/-- The ordinal read for an Enum field at position `p` is one of its variants (44_descriptors.md R214). -/
def OrdinalReads (byteAt : Nat → Byte) (p : Nat) : FieldKind → Prop
  | .enum n => readBits byteAt p (fieldWidth (.enum n)) < n
  | .bool => True
  | .int _ _ => True
  | .float _ _ _ _ => True
  | .bytes _ => True
  | .str _ => True

/-- Slot `i` of `t` holds what DECODE reads for a field at position `p` (44_descriptors.md R213). -/
def FieldDecoded (byteAt : Nat → Byte) (p : Nat) (t : State) (i : Nat) : FieldKind → Prop
  | .bool => t.valAt i = BitVec.ofNat 64 (readBits byteAt p 1)
  | .int min max => t.valAt i = BitVec.ofInt 64 (min + readBits byteAt p (fieldWidth (.int min max)))
  | .float fmin fmax prec m =>
    t.valAt i = bits64 (unscale fmin prec (readBits byteAt p (fieldWidth (.float fmin fmax prec m))))
  | .enum n => t.valAt i = BitVec.ofNat 64 (readBits byteAt p (fieldWidth (.enum n)))
  | .bytes len => t.valAt i = BitVec.ofNat 64 len ∧ vbBytes t i len = wireBytes byteAt p len
  | .str len => t.valAt i = BitVec.ofNat 64 len ∧ vbBytes t i len = wireBytes byteAt p len

/-- Where a FixedString fails UTF-8, its bytes have been read into VB (44_descriptors.md R213); the other kinds leave
nothing of a field that does not read. -/
def FieldLeft (byteAt : Nat → Byte) (p : Nat) (s t : State) (i : Nat) : FieldKind → Prop
  | .str len => vbBytes t i len = wireBytes byteAt p len ∧ ∀ j, len ≤ j → j < 65536 → t.vbAt i j = s.vbAt i j
  | .bool | .int _ _ | .float _ _ _ _ | .enum _ | .bytes _ => ∀ j < 65536, t.vbAt i j = s.vbAt i j

/-- How many bytes of VB a field's value has (44_descriptors.md R203). -/
def valueBytes : FieldKind → Nat
  | .bytes len => len
  | .str len => len
  | .bool => 0
  | .int _ _ => 0
  | .float _ _ _ _ => 0
  | .enum _ => 0

/-- `t` is `s` but for the response. -/
def OnlyAnswers (s t : State) : Prop := t = s.setResponse t.response

/-! ### Sequences of writes and reads -/

/-- A value as the bit writer takes it and the bit reader gives it back. -/
inductive StreamItem where
  | bit (b : BitVec 1)
  | uint (n : BitVec 8) (v : Word64)
  | int (n : BitVec 8) (v : Word64)
  | byte (b : Byte)
deriving DecidableEq, Repr

/-- The width and value checks of W_UINT and W_INT pass (42_bitwriter.md R152, R153). -/
def StreamItem.Legal : StreamItem → Prop
  | .bit _ => True
  | .uint n v => 1 ≤ n.toNat ∧ n.toNat ≤ 64 ∧ v.toNat < 2 ^ n.toNat
  | .int n v =>
    2 ≤ n.toNat ∧ n.toNat ≤ 64 ∧ -(2 ^ (n.toNat - 1) : Int) ≤ v.toInt ∧ v.toInt < (2 ^ (n.toNat - 1) : Int)
  | .byte _ => True

/-- The bits an item takes in the stream. -/
def StreamItem.bits : StreamItem → Nat
  | .bit _ => 1
  | .uint n _ => n.toNat
  | .int n _ => n.toNat
  | .byte _ => 8

/-- The number that stands in the stream for an item: a signed one as its low `n` bits. -/
def StreamItem.pattern : StreamItem → Nat
  | .bit b => b.toNat
  | .uint _ v => v.toNat
  | .int n v => v.toNat % 2 ^ n.toNat
  | .byte b => b.toNat

/-- The command that writes an item. -/
def StreamItem.write : StreamItem → Instr
  | .bit b => .wBool b
  | .uint n v => .wUint n v
  | .int n v => .wInt n v
  | .byte b => .wByte b

/-- The command that reads an item of the same width and kind. -/
def StreamItem.read : StreamItem → Instr
  | .bit _ => .rBool
  | .uint n _ => .rUint n
  | .int n _ => .rInt n
  | .byte _ => .rByte

/-- The result word that stands for an item. -/
def StreamItem.value : StreamItem → Word64
  | .bit b => b.setWidth 64
  | .uint _ v => v
  | .int _ v => v
  | .byte b => b.setWidth 64

/-- The bits of a sequence of items. -/
def itemBits (xs : List StreamItem) : Nat := (xs.map StreamItem.bits).sum

/-- An OK response without a result. -/
def okZero : Response := ⟨0#32, 0#64⟩

/-- The response is an error. -/
def IsError (t : State) : Prop := ∃ r, t.response = some r ∧ r.status ≠ 0#32

/-! ### Who writes what (10_state.md R25 to R45) -/

/-- The commands that append to the writer (42_bitwriter.md R151 to R154). -/
def Appends : Instr → Prop
  | .wBool _ | .wUint _ _ | .wInt _ _ | .wByte _ => True
  | _ => False

/-- The commands that consume input one field at a time (43_bitreader.md R171 to R174). -/
def Consumes : Instr → Prop
  | .rBool | .rUint _ | .rInt _ | .rByte => True
  | _ => False

/-- The commands that feed the CRC generator (41_crc.md R125, R128, R129). -/
def FeedsCrc : Instr → Prop
  | .crcByte _ | .crcObuf | .crcIbuf _ => True
  | _ => False

/-- CRC_INIT or RESET. -/
def StartsCrc : Instr → Prop
  | .crcInit _ | .reset => True
  | _ => False

/-- ENCODE. -/
def IsEncode : Instr → Prop
  | .encodeMsg _ => True
  | _ => False

/-- DECODE. -/
def IsDecode : Instr → Prop
  | .decodeMsg _ => True
  | _ => False

/-- CSR_WR. -/
def IsCsrWrite : Instr → Prop
  | .csrWr _ _ => True
  | _ => False

/-- The commands that only look: the reads of 20_memory.md R69 without side effect, with NOP, W_FINISH, W_POS, R_POS,
CRC_READ, CRC_CHECK and WIDTH. -/
def OnlyLooks : Instr → Prop
  | .nop | .wFinish | .wPos | .rPos | .crcRead | .crcCheck _ | .width _ | .csrRd _ | .ibRd _ | .obRd _ | .descRd _ _
  | .valRd _ | .vbRd _ _ => True
  | _ => False

/-! ### The bytes fed to the CRC generator -/

/-- The bytes a command feeds (41_crc.md R125, R128, R129); a CRC_IBUF that fails feeds nothing. -/
def crcFedBy (s : State) : Instr → List Byte
  | .crcByte b => [b]
  | .crcObuf => imageBytes s
  | .crcIbuf w => if spanStart w + spanCount w ≤ s.rlen.toNat then inputBytes s (spanStart w) (spanCount w) else []
  | _ => []

/-- The bytes a sequence of commands feeds, each command in the state the ones before it leave. -/
def crcFedAll : List Instr → State → List Byte
  | [], _ => []
  | i :: is, s =>
    crcFedBy s i ++
      match exec i s with
      | .next t => crcFedAll is t
      | .fault _ => []
      | .refused _ => []

/-! ### Frames (41_crc.md R131 to R133) -/

/-- The low `n` bytes of a number, most significant byte first. -/
def beBytes (n v : Nat) : List Byte := (List.range n).map fun j => BitVec.ofNat 8 (v / 256 ^ (n - 1 - j))

/-- A frame up to its CRC: length, ID, payload. -/
def frameBody (f : FrameShape) (payload : List Byte) : List Byte :=
  (if f.length || f.ident.isSome then beBytes 4 (payload.length + if f.ident.isSome then 2 else 0) else []) ++
    (match f.ident with
     | none => []
     | some ident => beBytes 2 ident.toNat) ++ payload

/-- A whole frame: its CRC is computed over everything before it. -/
def frameBytes (f : FrameShape) (payload : List Byte) : List Byte :=
  frameBody f payload ++
    match f.crc with
    | none => []
    | some k =>
      if k = 0#1 then beBytes 2 (crc16Of (frameBody f payload)).toNat
      else beBytes 4 (crc32Of (frameBody f payload)).toNat

/-- A byte string with the bit at stream position `p` flipped. -/
def flipBit (bs : List Byte) (p : Nat) : List Byte := bs.modify (p / 8) fun b => b ^^^ (0x80#8 >>> (p % 8))

/-- The state after the host loads a byte string as input (30_encoding.md R103, LOAD_INPUT). -/
def loadInput (bs : List Byte) (s : State) : State := (runPseudo (.loadInput bs) s).2

/-! ### What ENCODE answers to a bad value, and what comes back of a good one -/

/-- The cause ENCODE names for a value it does not accept (44_descriptors.md R212). -/
def valueCause (s : State) (i : Nat) : FieldKind → Cause
  | .bool => .encType
  | .int _ _ => .encValueRange
  | .float _ _ _ _ => .encValueRange
  | .enum _ => .encValueRange
  | .bytes _ => .encLength
  | .str len => if (s.valAt i).toNat = len then .encUtf8 else .encLength

/-- What a BoundedFloat value becomes on the wire and back (45_codec.md R260). -/
def quantized (s : State) (i : Nat) (fmin : F64) (prec : Nat) : F64 :=
  unscale fmin prec ((scaledInt fmin (f64 (s.valAt i)) prec).getD 0)

/-- The value of slot `i` survives quantization: every kind but BoundedFloat does, and a BoundedFloat does when its
quantized value lies within its bounds (45_codec.md R260). -/
def Survives (s : State) (i : Nat) : FieldKind → Prop
  | .float fmin fmax prec _ =>
    fle64 fmin (quantized s i fmin prec) = true ∧ fle64 (quantized s i fmin prec) fmax = true
  | .bool => True
  | .int _ _ => True
  | .enum _ => True
  | .bytes _ => True
  | .str _ => True

/-- The word DECODE puts in slot `i` for the value ENCODE took from it (45_codec.md R260). -/
def returnedValue (s : State) (i : Nat) : FieldKind → Word64
  | .float fmin _ prec _ => bits64 (quantized s i fmin prec)
  | .bool => s.valAt i
  | .int _ _ => s.valAt i
  | .enum _ => s.valAt i
  | .bytes _ => s.valAt i
  | .str _ => s.valAt i

end Sys2Proof.Safety
end

