-- ==== Sys2Proof/Certificates/Slice0/Obligations.lean ====
section
/-! DEFINITION. The statements for the provers. `exec i s = .next (t.setResponse (some (okResponse v)))` says that the
command completes: it answers OK with result word `v` and leaves `t` with that response; `errorResponse e` is the
answer of a command that raises `e`. -/

open Sys2Proof Sys2Proof.Machine Sys2Proof.Safety

/-! ### Encoding -/

/-- Words written out from the encodings of files 41 to 46 decode to the commands they stand for. -/
def Obligations.SpecWordsDecode : Prop :=
  decode ⟨0x00000000#32, none⟩ = .ok .nop ∧
  decode ⟨0x02000001#32, none⟩ = .ok (.wBool 1#1) ∧
  decode ⟨0x03030000#32, some 5#64⟩ = .ok (.wUint 3#8 5#64) ∧
  decode ⟨0x05000061#32, none⟩ = .ok (.wByte 0x61#8) ∧
  decode ⟨0x0B040000#32, none⟩ = .ok (.rInt 4#8) ∧
  decode ⟨0x10000001#32, none⟩ = .ok (.crcInit 1#1) ∧
  decode ⟨0x15000000#32, some 0x0000000900000000#64⟩ = .ok (.crcIbuf 0x0000000900000000#64) ∧
  decode ⟨0x18000003#32, none⟩ = .ok (.encodeMsg 3#2) ∧
  decode ⟨0x1B050000#32, none⟩ = .ok (.width 5#8) ∧
  decode ⟨0x21000041#32, some 0x1012C#64⟩ = .ok (.csrWr 0x0041#16 0x1012C#64) ∧
  decode ⟨0x22012345#32, some 0x2A#64⟩ = .ok (.ibWr 0x012345#24 0x2A#64) ∧
  decode ⟨0x25030001#32, some 7#64⟩ = .ok (.descWr 3#8 1#16 7#64) ∧
  decode ⟨0x2A020000#32, none⟩ = .ok (.vbRd 2#8 0#16) ∧
  decode ⟨0x3F000000#32, none⟩ = .ok .reset

/-- Decoding an encoded instruction gives it back, with every operand at every value its field admits. For the ill-formed
ENCODE 0 and DECODE 0 that is the model's reading (log entry 7, DEDUCED): R101 counts the selector check of R100 among
the decode checks, and the model makes it the first step of the meaning. -/
def Obligations.EncodeThenDecodeReturnsInstr : Prop := ∀ i : Instr, decode (encode i) = .ok i

/-- Whatever decodes is the encoding of what it decodes to: decoding drops no bit and no operand word. -/
def Obligations.DecodedCommandIsItsEncoding : Prop := ∀ (c : Command) (i : Instr), decode c = .ok i → encode i = c

/-- The words of every instruction are those its rule writes out ("Encoding: header …"). -/
def Obligations.EncoderWritesSpecHeaders : Prop :=
  ∀ i : Instr, (encode i).header = specHeader i ∧ (encode i).operand = specOperand i

/-- R98, R99, R101: the decode checks, in their order, each answering before any step of the command; a command that
passes them all runs. -/
def Obligations.DecodeChecksAnswerInOrder : Prop :=
  ∀ (s : State) (c : Command) (rest : List PortInput), s.port = .command c :: rest →
    (UnassignedOp (headerOp c.header) →
      step s = .next ((s.setPort rest).setResponse (some (errorResponse (plainError .illegalOpcode))))) ∧
    (¬ UnassignedOp (headerOp c.header) →
      (c.operand.isSome = true ∧ headerOp c.header ∉ opsWithOperand ∨
        c.operand = none ∧ headerOp c.header ∈ opsWithOperand →
        step s = .next ((s.setPort rest).setResponse (some (errorResponse (plainError .illegalOperand))))) ∧
      ((c.operand.isSome = true ↔ headerOp c.header ∈ opsWithOperand) →
        (ReservedBitSet c.header →
          step s = .next ((s.setPort rest).setResponse (some (errorResponse (plainError .illegalReserved))))) ∧
        (¬ ReservedBitSet c.header →
          (c.header = 0x18000000#32 ∨ c.header = 0x19000000#32 →
            step s = .next ((s.setPort rest).setResponse (some (errorResponse (plainError .illegalSelector))))) ∧
          (c.header ≠ 0x18000000#32 ∧ c.header ≠ 0x19000000#32 →
            ∃ i, decode c = .ok i ∧ i.wellFormed = true ∧ step s = exec i (s.setPort rest)))))

/-! ### The machine -/

/-- A step takes the next command from the port and runs the instruction it decodes to. Placed by `withFetchWord`, an
instruction is the next to run: that clause is the model's choice of how a command is placed (log entry 1, DESIGN
CHOICE). -/
def Obligations.StepRunsDecodedInstruction : Prop :=
  (∀ (s : State) (c : Command) (rest : List PortInput) (i : Instr), s.port = .command c :: rest → decode c = .ok i →
    step s = exec i (s.setPort rest)) ∧
  (∀ (s : State) (nbits w : Nat) (i : Instr), decodeTableWord nbits w = some i →
    step (s.withFetchWord nbits w) = exec i s)

/-- Every step answers a next state: no command, no error and no reset stops the block. R315: with nothing on the port it
holds its state (log entry 1: that nothing waits is an empty list). -/
def Obligations.NoInputStopsTheBlock : Prop :=
  (∀ s : State, ∃ t, step s = .next t) ∧ ∀ s : State, s.port = [] → step s = .next s

/-- R90, R96, R301 to R303: a command gives exactly one response. Its status word is 0, or an error that R303 lists, at a
stage at which its rule raises it, with result word 0; FIELD is 0 but for the stages SCHEMA_CHECK, FIELD and
RECONSTRUCT, where between commands it names a field of the message, or a slot; bits [31:24] are 0. The parameters, the
inputs still to come and the count of abandoning resets are as before. -/
def Obligations.EveryCommandGetsOneResponse : Prop :=
  ∀ (s : State) (c : Command) (rest : List PortInput), s.port = .command c :: rest →
    ∃ t r, step s = .next t ∧ t.response = some r ∧ t.port = rest ∧ t.cfg = s.cfg ∧ t.draws = s.draws ∧
      (r.status = 0#32 ∨ r.result = 0#64 ∧ ProducedError (r.status.extractLsb' 0 4).toNat
        (r.status.extractLsb' 4 8).toNat (r.status.extractLsb' 12 4).toNat) ∧
      ((r.status.extractLsb' 12 4).toNat ∉ stagesWithField → r.status.extractLsb' 16 8 = 0#8) ∧
      (Inv s → (r.status.extractLsb' 12 4).toNat = 1 → (r.status.extractLsb' 16 8).toNat < s.cfg.maxFields) ∧
      (Inv s → (r.status.extractLsb' 12 4).toNat ∈ [4, 5] →
        (r.status.extractLsb' 16 8).toNat < s.msgNfields.toNat) ∧
      r.status.extractLsb' 24 8 = 0#8

/-- R19, R300: no command reads the status of an earlier one, so each runs the same after an error as after OK. -/
def Obligations.NoCommandReadsLastResponse : Prop :=
  ∀ (i : Instr) (s : State) (r : Option Response), exec i (s.setResponse r) = exec i s

/-- R304: a primitive command that fails changes nothing but the response. -/
def Obligations.FailedPrimitiveChangesNothing : Prop :=
  ∀ (i : Instr) (s t : State), ¬ IsEncode i → ¬ IsDecode i → i ≠ .peekTag → exec i s = .next t → IsError t →
    OnlyAnswers s t

/-- R69: the commands that only look change nothing but the response, and give the same answer again. -/
def Obligations.LookingCommandsChangeNothing : Prop :=
  ∀ (i : Instr) (s t : State), OnlyLooks i → exec i s = .next t → OnlyAnswers s t ∧ exec i t = .next t

/-- R25 to R45: each piece of state is written only by the commands its rule names. -/
def Obligations.OnlyNamedCommandsWriteEachPiece : Prop :=
  ∀ (i : Instr) (s t : State), exec i s = .next t →
    (¬ Appends i → i ≠ .wClear → ¬ IsEncode i → i ≠ .reset → t.obuf = s.obuf ∧ t.wpos = s.wpos) ∧
    ((∀ a v, i ≠ .ibWr a v) → t.ibuf = s.ibuf) ∧
    (¬ IsCsrWrite i → i ≠ .reset → t.rlen = s.rlen ∧ t.msgNfields = s.msgNfields ∧ t.msgTypeId = s.msgTypeId ∧
      t.msgMaxb = s.msgMaxb ∧ t.routeTx = s.routeTx) ∧
    (¬ Consumes i → i ≠ .rRewind → ¬ IsDecode i → i ≠ .peekTag → ¬ IsCsrWrite i → i ≠ .reset → t.rpos = s.rpos) ∧
    (¬ StartsCrc i → t.crcKind = s.crcKind) ∧
    (¬ StartsCrc i → ¬ FeedsCrc i → t.crcAcc = s.crcAcc) ∧
    ((∀ slot word v, i ≠ .descWr slot word v) → t.desc = s.desc) ∧
    ((∀ slot v, i ≠ .valWr slot v) → ¬ IsDecode i → t.val = s.val) ∧
    ((∀ slot k v, i ≠ .vbWr slot k v) → ¬ IsDecode i → t.vb = s.vb) ∧
    (¬ IsDecode i → i ≠ .reset → t.routeRx = s.routeRx) ∧
    (¬ IsDecode i → i ≠ .peekTag → i ≠ .reset → t.tagRx = s.tagRx) ∧
    t.cfg = s.cfg ∧ t.port = s.port ∧ t.draws = s.draws

/-! ### The invariant -/

/-- Right after reset the invariant holds, for every choice of legal parameters and for the model's own
(log entry 2). -/
def Obligations.InvariantHoldsAfterReset : Prop :=
  (∀ p : Config.Params, p.Valid → Inv (State.powerUp p)) ∧ Inv State.reset

/-- Every step keeps the invariant: canonical memories that list only what exists, the ranges of the positions and
lengths, the zero tail of OBUF (R41) and the high half of a CRC-16 register (R30). -/
def Obligations.StepKeepsInvariant : Prop := ∀ s t : State, Inv s → step s = .next t → Inv t

/-! ### Reset -/

/-- R340: RESET and the reset input between commands have the same effect, field by field as the table gives it; after
it the generator is as after CRC_INIT 0, the writer as after W_CLEAR and the reader as after R_REWIND; the parameters
and ID are constants. R341: IBUF, DESC, VAL and VB are left as they were. -/
def Obligations.ResetSetsEveryRegister : Prop :=
  ∀ s : State, ∃ t : State,
    exec .reset s = .next (t.setResponse (some (okResponse 0#64))) ∧
    (∀ rest, s.port = .resetInput :: rest → step s = .next ((t.setPort rest).setResponse none)) ∧
    (∀ a, t.obufAt a = 0#8) ∧ t.wpos = 0#32 ∧ t.rlen = 0#32 ∧ t.rpos = 0#32 ∧ t.crcKind = 0#1 ∧
    t.crcAcc = 0x0000FFFF#32 ∧ t.msgNfields = 0#32 ∧ t.msgTypeId = 0#17 ∧ t.msgMaxb = 0#33 ∧ t.routeTx = 0#19 ∧
    t.routeRx = 0#19 ∧ t.tagRx = 0#16 ∧
    t.ibuf = s.ibuf ∧ t.desc = s.desc ∧ t.val = s.val ∧ t.vb = s.vb ∧ t.cfg = s.cfg ∧ t.port = s.port ∧
    t.draws = s.draws ∧
    exec (.crcInit 0#1) t = .next (t.setResponse (some (okResponse 0#64))) ∧
    exec .wClear t = .next (t.setResponse (some (okResponse 0#64))) ∧
    exec .rRewind t = .next (t.setResponse (some (okResponse 0#64))) ∧
    exec (.csrRd 0x0000#16) t = .next (t.setResponse (some (okResponse 0x0000000755574331#64)))

/-- R344: a reset during a command abandons it: no response, the registers and OBUF as after reset, and every RAM
location holding its old content or the one the command would have left (log entry 6: which of them is free). -/
def Obligations.AbandonedCommandLeavesOldOrNew : Prop :=
  ∀ (s t : State) (c : Command) (rest : List PortInput), s.port = .resetDuring c :: rest →
    runCommand c (s.setPort rest) = .next t →
    ∃ u, step s = .next u ∧ u.response = none ∧ u.port = rest ∧ u.cfg = s.cfg ∧ (∀ a, u.obufAt a = 0#8) ∧
      u.wpos = 0#32 ∧ u.rlen = 0#32 ∧ u.rpos = 0#32 ∧ u.crcKind = 0#1 ∧ u.crcAcc = 0x0000FFFF#32 ∧
      u.msgNfields = 0#32 ∧ u.msgTypeId = 0#17 ∧ u.msgMaxb = 0#33 ∧ u.routeTx = 0#19 ∧ u.routeRx = 0#19 ∧
      u.tagRx = 0#16 ∧
      (∀ a, u.ibufAt a = s.ibufAt a ∨ u.ibufAt a = t.ibufAt a) ∧
      (∀ i j, u.descAt i j = s.descAt i j ∨ u.descAt i j = t.descAt i j) ∧
      (∀ i, u.valAt i = s.valAt i ∨ u.valAt i = t.valAt i) ∧
      (∀ i k, u.vbAt i k = s.vbAt i k ∨ u.vbAt i k = t.vbAt i k)

/-! ### The bit writer -/

/-- W_BOOL, W_UINT and W_BYTE append their value, and W_INT the n-bit two's-complement pattern of its value, most
significant bit first, and touch nothing else. -/
def Obligations.WritesAppendTheirField : Prop :=
  ∀ s : State, Inv s →
    (∀ bit : BitVec 1, s.wpos.toNat + 1 ≤ 8 * s.cfg.obufBytes →
      ∃ t, exec (.wBool bit) s = .next t ∧ BitsAppended s t 1 bit.toNat) ∧
    (∀ (n : BitVec 8) (w : Word64), 1 ≤ n.toNat → n.toNat ≤ 64 → w.toNat < 2 ^ n.toNat →
      s.wpos.toNat + n.toNat ≤ 8 * s.cfg.obufBytes →
      ∃ t, exec (.wUint n w) s = .next t ∧ BitsAppended s t n.toNat w.toNat) ∧
    (∀ (n : BitVec 8) (w : Word64), 2 ≤ n.toNat → n.toNat ≤ 64 → -(2 ^ (n.toNat - 1) : Int) ≤ w.toInt →
      w.toInt ≤ (2 ^ (n.toNat - 1) : Int) - 1 → s.wpos.toNat + n.toNat ≤ 8 * s.cfg.obufBytes →
      ∃ t, exec (.wInt n w) s = .next t ∧ BitsAppended s t n.toNat (w.toInt % 2 ^ n.toNat).toNat) ∧
    (∀ byte : Byte, s.wpos.toNat + 8 ≤ 8 * s.cfg.obufBytes →
      ∃ t, exec (.wByte byte) s = .next t ∧ BitsAppended s t 8 byte.toNat)

/-- The writer's errors, in the order width, value, capacity; each changes nothing. -/
def Obligations.WriterErrorsInOrder : Prop :=
  ∀ (s : State) (n : BitVec 8) (w : Word64),
    (n.toNat < 1 ∨ 64 < n.toNat →
      exec (.wUint n w) s = .next (s.setResponse (some (errorResponse (plainError .rangeWidth))))) ∧
    (1 ≤ n.toNat → n.toNat ≤ 64 → 2 ^ n.toNat ≤ w.toNat →
      exec (.wUint n w) s = .next (s.setResponse (some (errorResponse (plainError .rangeValue))))) ∧
    (1 ≤ n.toNat → n.toNat ≤ 64 → w.toNat < 2 ^ n.toNat → 8 * s.cfg.obufBytes < s.wpos.toNat + n.toNat →
      exec (.wUint n w) s = .next (s.setResponse (some (errorResponse (plainError .capacityObufFull))))) ∧
    (n.toNat < 2 ∨ 64 < n.toNat →
      exec (.wInt n w) s = .next (s.setResponse (some (errorResponse (plainError .rangeWidth))))) ∧
    (2 ≤ n.toNat → n.toNat ≤ 64 →
      w.toInt < -(2 ^ (n.toNat - 1) : Int) ∨ (2 ^ (n.toNat - 1) : Int) - 1 < w.toInt →
      exec (.wInt n w) s = .next (s.setResponse (some (errorResponse (plainError .rangeValue))))) ∧
    (2 ≤ n.toNat → n.toNat ≤ 64 → -(2 ^ (n.toNat - 1) : Int) ≤ w.toInt →
      w.toInt ≤ (2 ^ (n.toNat - 1) : Int) - 1 → 8 * s.cfg.obufBytes < s.wpos.toNat + n.toNat →
      exec (.wInt n w) s = .next (s.setResponse (some (errorResponse (plainError .capacityObufFull))))) ∧
    (∀ bit : BitVec 1, 8 * s.cfg.obufBytes < s.wpos.toNat + 1 →
      exec (.wBool bit) s = .next (s.setResponse (some (errorResponse (plainError .capacityObufFull))))) ∧
    (∀ byte : Byte, 8 * s.cfg.obufBytes < s.wpos.toNat + 8 →
      exec (.wByte byte) s = .next (s.setResponse (some (errorResponse (plainError .capacityObufFull)))))

/-- R158: the writer laws. (a) From a clear, a sequence of successful writes (legal items that fit) leaves WPOS at the
sum of the widths, the items in order from bit 0 on, and zeros after them. (b) A failing write changes neither WPOS nor
OBUF. (c) No write changes a bit below the WPOS it started at. -/
def Obligations.WriterLaws : Prop :=
  (∀ (s : State) (xs : List StreamItem), Inv s → (∀ x ∈ xs, x.Legal) → itemBits xs ≤ 8 * s.cfg.obufBytes →
    ∃ t, runAll (.wClear :: xs.map StreamItem.write) s = some t ∧ t.wpos.toNat = itemBits xs ∧
      (∀ i x, xs[i]? = some x → FieldAt t.obufAt (itemBits (xs.take i)) x.bits x.pattern) ∧
      (∀ p, itemBits xs ≤ p → streamBit t.obufAt p = false)) ∧
  (∀ (i : Instr) (s t : State), Appends i → exec i s = .next t → IsError t →
    t.wpos = s.wpos ∧ t.obuf = s.obuf) ∧
  (∀ (i : Instr) (s t : State), Inv s → Appends i → exec i s = .next t →
    ∀ p < s.wpos.toNat, streamBit t.obufAt p = streamBit s.obufAt p)

/-- R155, R176: W_BYTES writes and R_BYTES reads byte by byte, and each stops at the first byte that does not fit or is
not there (92_eei_decisions.md D13): the bytes before it are written or read, WPOS or RPOS has advanced by 8 for each of
them, its error is the last response, and nothing else changes. Where all bytes fit, or are there, every response is OK.
W_BYTE b has the effect of W_UINT 8, b. -/
def Obligations.ByteStringsStopAtFailingByte : Prop :=
  (∀ (s : State) (bs : List Byte), Inv s →
    let room := (8 * s.cfg.obufBytes - s.wpos.toNat) / 8
    ∃ t, t = ((s.setObuf t.obuf).setWpos t.wpos).setResponse t.response ∧
      (bs.length ≤ room → runPseudo (.wBytes bs) s = (List.replicate bs.length okZero, t)) ∧
      (room < bs.length → runPseudo (.wBytes bs) s =
        (List.replicate room okZero ++ [errorResponse (plainError .capacityObufFull)], t)) ∧
      t.wpos.toNat = s.wpos.toNat + 8 * min bs.length room ∧
      (∀ j b, bs[j]? = some b → j < room → FieldAt t.obufAt (s.wpos.toNat + 8 * j) 8 b.toNat) ∧
      (∀ p, p < s.wpos.toNat ∨ t.wpos.toNat ≤ p → streamBit t.obufAt p = streamBit s.obufAt p)) ∧
  (∀ (s : State) (k : Nat), Inv s →
    let left := (8 * s.rlen.toNat - s.rpos.toNat) / 8
    let results := (wireBytes s.ibufAt s.rpos.toNat (min k left)).map fun b => okResponse (b.setWidth 64)
    ∃ t, t = (s.setRpos t.rpos).setResponse t.response ∧
      (k ≤ left → runPseudo (.rBytes k) s = (results, t)) ∧
      (left < k → runPseudo (.rBytes k) s = (results ++ [errorResponse (plainError .truncInsufficient)], t)) ∧
      t.rpos.toNat = s.rpos.toNat + 8 * min k left) ∧
  (∀ (s : State) (b : Byte), exec (.wByte b) s = exec (.wUint 8#8 (b.setWidth 64)) s)

/-! ### The bit reader -/

/-- W_CLEAR empties the writer; W_FINISH answers the byte length of the image, `ceil(WPOS/8)`; W_POS and R_POS answer
WPOS and RPOS; R_REWIND puts RPOS at 0. -/
def Obligations.PositionCommands : Prop :=
  ∀ s : State,
    (∃ m, exec .wClear s = .next (((s.setObuf m).setWpos 0#32).setResponse (some (okResponse 0#64))) ∧
      ∀ a, obufByte m a = 0#8) ∧
    (∃ v : Word64, exec .wFinish s = .next (s.setResponse (some (okResponse v))) ∧
      s.wpos.toNat ≤ 8 * v.toNat ∧ 8 * v.toNat < s.wpos.toNat + 8) ∧
    (∃ v : Word64, exec .wPos s = .next (s.setResponse (some (okResponse v))) ∧ v.toNat = s.wpos.toNat) ∧
    exec .rRewind s = .next ((s.setRpos 0#32).setResponse (some (okResponse 0#64))) ∧
    (∃ v : Word64, exec .rPos s = .next (s.setResponse (some (okResponse v))) ∧ v.toNat = s.rpos.toNat)

/-- R_BOOL, R_UINT and R_BYTE answer the field at RPOS, most significant bit first, R_INT the same field as a
two's-complement number, sign-extended; RPOS moves past the field and nothing else changes. -/
def Obligations.ReadsAnswerTheirField : Prop :=
  ∀ s : State, Inv s →
    (s.rpos.toNat + 1 ≤ 8 * s.rlen.toNat →
      ∃ v : Word64, FieldAt s.ibufAt s.rpos.toNat 1 v.toNat ∧
        exec .rBool s = .next ((s.setRpos (s.rpos + 1#32)).setResponse (some (okResponse v)))) ∧
    (∀ n : BitVec 8, 1 ≤ n.toNat → n.toNat ≤ 64 → s.rpos.toNat + n.toNat ≤ 8 * s.rlen.toNat →
      ∃ v : Word64, FieldAt s.ibufAt s.rpos.toNat n.toNat v.toNat ∧
        exec (.rUint n) s = .next ((s.setRpos (s.rpos + n.setWidth 32)).setResponse (some (okResponse v)))) ∧
    (∀ n : BitVec 8, 2 ≤ n.toNat → n.toNat ≤ 64 → s.rpos.toNat + n.toNat ≤ 8 * s.rlen.toNat →
      ∃ (u : Nat) (v : Word64), FieldAt s.ibufAt s.rpos.toNat n.toNat u ∧
        v.toInt = (if streamBit s.ibufAt s.rpos.toNat then (u : Int) - 2 ^ n.toNat else (u : Int)) ∧
        exec (.rInt n) s = .next ((s.setRpos (s.rpos + n.setWidth 32)).setResponse (some (okResponse v)))) ∧
    (s.rpos.toNat + 8 ≤ 8 * s.rlen.toNat →
      ∃ v : Word64, FieldAt s.ibufAt s.rpos.toNat 8 v.toNat ∧
        exec .rByte s = .next ((s.setRpos (s.rpos + 8#32)).setResponse (some (okResponse v))))

/-- The reader's errors, in the order width, truncation; each changes nothing. -/
def Obligations.ReaderErrorsLeaveState : Prop :=
  ∀ (s : State) (n : BitVec 8),
    (n.toNat < 1 ∨ 64 < n.toNat →
      exec (.rUint n) s = .next (s.setResponse (some (errorResponse (plainError .rangeWidth))))) ∧
    (1 ≤ n.toNat → n.toNat ≤ 64 → 8 * s.rlen.toNat < s.rpos.toNat + n.toNat →
      exec (.rUint n) s = .next (s.setResponse (some (errorResponse (plainError .truncInsufficient))))) ∧
    (n.toNat < 2 ∨ 64 < n.toNat →
      exec (.rInt n) s = .next (s.setResponse (some (errorResponse (plainError .rangeWidth))))) ∧
    (2 ≤ n.toNat → n.toNat ≤ 64 → 8 * s.rlen.toNat < s.rpos.toNat + n.toNat →
      exec (.rInt n) s = .next (s.setResponse (some (errorResponse (plainError .truncInsufficient))))) ∧
    (8 * s.rlen.toNat < s.rpos.toNat + 1 →
      exec .rBool s = .next (s.setResponse (some (errorResponse (plainError .truncInsufficient))))) ∧
    (8 * s.rlen.toNat < s.rpos.toNat + 8 →
      exec .rByte s = .next (s.setResponse (some (errorResponse (plainError .truncInsufficient)))))

/-- R177: what any sequence of successful writes left is read back, by commands of the same widths and kinds in the same
order, as every value written, and RPOS then equals the WPOS the writes ended at; and a failing read changes nothing. -/
def Obligations.ReadBackReturnsEveryWrite : Prop :=
  (∀ (s : State) (xs : List StreamItem), Inv s → (∀ x ∈ xs, x.Legal) → itemBits xs ≤ 8 * s.cfg.obufBytes →
    (itemBits xs + 7) / 8 ≤ s.cfg.ibufBytes →
    let w := (sendAll (.wClear :: xs.map StreamItem.write) s).2
    let r := sendAll (xs.map StreamItem.read) (loadInput (imageBytes w) w)
    r.1 = xs.map (fun x => okResponse x.value) ∧ r.2.rpos = w.wpos) ∧
  (∀ (i : Instr) (s t : State), Consumes i → exec i s = .next t → IsError t → OnlyAnswers s t)

/-! ### The CRC generator -/

/-- CRC_INIT, CRC_BYTE, CRC_READ and CRC_CHECK, for each kind. -/
def Obligations.CrcCommandsForEachKind : Prop :=
  ∀ s : State,
    (exec (.crcInit 0#1) s =
      .next (((s.setCrcKind 0#1).setCrcAcc 0x0000FFFF#32).setResponse (some (okResponse 0#64)))) ∧
    (exec (.crcInit 1#1) s =
      .next (((s.setCrcKind 1#1).setCrcAcc 0xFFFFFFFF#32).setResponse (some (okResponse 0#64)))) ∧
    (∀ m : Byte,
      (s.crcKind = 0#1 → exec (.crcByte m) s =
        .next ((s.setCrcAcc ((crc16Step (s.crcAcc.setWidth 16) m).setWidth 32)).setResponse
          (some (okResponse 0#64)))) ∧
      (s.crcKind = 1#1 → exec (.crcByte m) s =
        .next ((s.setCrcAcc (crc32Step s.crcAcc m)).setResponse (some (okResponse 0#64))))) ∧
    (∃ c : Word64,
      (s.crcKind = 0#1 → c.toNat = s.crcAcc.toNat % 2 ^ 16) ∧
      (s.crcKind = 1#1 → c.toNat = 2 ^ 32 - 1 - s.crcAcc.toNat) ∧
      exec .crcRead s = .next (s.setResponse (some (okResponse c))) ∧
      exec (.crcCheck c) s = .next (s.setResponse (some (okResponse c))) ∧
      ∀ v, v ≠ c →
        exec (.crcCheck v) s = .next (s.setResponse (some (errorResponse (plainError .framingCrcMismatch)))))

/-- CRC_OBUF feeds the writer's finished image, and CRC_IBUF a span of the valid input, byte by byte in address order;
a span that reaches past the valid input feeds nothing. -/
def Obligations.CrcFeedsBufferBytes : Prop :=
  ∀ s : State,
    (exec .crcObuf s =
      .next ((s.setCrcAcc ((imageBytes s).foldl (crcStep s.crcKind) s.crcAcc)).setResponse
        (some (okResponse 0#64)))) ∧
    (∀ w : Word64, w.toNat % 2 ^ 32 + w.toNat / 2 ^ 32 ≤ s.rlen.toNat →
      exec (.crcIbuf w) s =
        .next ((s.setCrcAcc ((inputBytes s (w.toNat % 2 ^ 32) (w.toNat / 2 ^ 32)).foldl (crcStep s.crcKind)
          s.crcAcc)).setResponse (some (okResponse 0#64)))) ∧
    (∀ w : Word64, s.rlen.toNat < w.toNat % 2 ^ 32 + w.toNat / 2 ^ 32 →
      exec (.crcIbuf w) s = .next (s.setResponse (some (errorResponse (plainError .rangeSpan)))))

/-- R130: after CRC_INIT, CRC_READ answers the checksum of all bytes fed since, whatever commands other than CRC_INIT
and RESET come between. -/
def Obligations.CrcReadIsChecksumOfBytesFed : Prop :=
  ∀ (kind : BitVec 1) (is : List Instr) (s : State), (∀ i ∈ is, ¬ StartsCrc i) →
    ∃ t u, exec (.crcInit kind) s = .next t ∧ runAll (is ++ [.crcRead]) t = some u ∧
      u.response = some (okResponse (checksumOf kind (crcFedAll is t)))

/-- R120, R122: the check values of both functions and their values on the empty string; and the CRC-32 register is the
bit-reversed register of polynomial 0x04C11DB7. -/
def Obligations.CrcMatchesStandardParameters : Prop :=
  crc16Of [0x31#8, 0x32#8, 0x33#8, 0x34#8, 0x35#8, 0x36#8, 0x37#8, 0x38#8, 0x39#8] = 0x29B1#16 ∧
  crc32Of [0x31#8, 0x32#8, 0x33#8, 0x34#8, 0x35#8, 0x36#8, 0x37#8, 0x38#8, 0x39#8] = 0xCBF43926#32 ∧
  crc16Of [] = 0xFFFF#16 ∧ crc32Of [] = 0#32 ∧
  ∀ (acc : BitVec 32) (m : Byte), (crc32Step acc m).reverse = crc32Forward acc.reverse m.reverse

/-- Two byte strings that differ in one byte have different checksums of both kinds. -/
def Obligations.CrcDetectsOneChangedByte : Prop :=
  ∀ (before after : List Byte) (x y : Byte), x ≠ y →
    crc16Of (before ++ x :: after) ≠ crc16Of (before ++ y :: after) ∧
      crc32Of (before ++ x :: after) ≠ crc32Of (before ++ y :: after)

/-- R131 to R133: the frame the host builds (R134), where it fits OBUF, is length, ID, payload and CRC, each most
significant byte first, and is the writer's image. Where it does not fit, the host comes to the CAPACITY response: that
it stops there is the model's choice (log entry 13, DESIGN CHOICE; R308 leaves it to the host). -/
def Obligations.BuiltFrameHasLayout : Prop :=
  ∀ (f : FrameShape) (payload : List Byte) (s : State), Inv s →
    ((frameBytes f payload).length ≤ s.cfg.obufBytes →
      (buildFrame f payload s).1 = .ok (frameBytes f payload) ∧
        imageBytes (buildFrame f payload s).2 = frameBytes f payload) ∧
    (s.cfg.obufBytes < (frameBytes f payload).length → payload.length + 2 < 2 ^ 32 →
      (buildFrame f payload s).1 = .error (errorResponse (plainError .capacityObufFull)))

/-- R134, R135: a frame passes its own check, which finds the ID and the payload. -/
def Obligations.FrameCheckAcceptsFrame : Prop :=
  ∀ (f : FrameShape) (payload : List Byte) (s : State), Inv s → frameBytes f payload ≠ [] →
    (frameBytes f payload).length ≤ s.cfg.ibufBytes →
    checkFrame f (loadInput (frameBytes f payload) s) = .ok (f.ident.map BitVec.toNat, payload)

/-- R136: with a CRC, a frame with any one bit flipped fails the check, at step 4 or step 5. -/
def Obligations.FlippedBitFailsFrameCheck : Prop :=
  ∀ (f : FrameShape) (payload : List Byte) (s : State) (p : Nat), Inv s → f.crc.isSome = true →
    (frameBytes f payload).length ≤ s.cfg.ibufBytes → p < 8 * (frameBytes f payload).length →
    checkFrame f (loadInput (flipBit (frameBytes f payload) p) s) = .error .lengthMismatch ∨
      checkFrame f (loadInput (flipBit (frameBytes f payload) p) s) = .error .crcMismatch

/-! ### Descriptors, values and host access -/

/-- DESC_WR and VAL_WR put a word where DESC_RD and VAL_RD find it, and change no other word and nothing else. -/
def Obligations.SlotWordWriteThenRead : Prop :=
  ∀ (s : State) (slot : BitVec 8) (v : Word64), slot.toNat < s.cfg.maxFields →
    (∀ word : BitVec 16, word.toNat ≤ 2 →
      ∃ t, exec (.descWr slot word v) s = .next (t.setResponse (some (okResponse 0#64))) ∧ t = s.setDesc t.desc ∧
        (∀ i j, j ≤ 2 → t.descAt i j = if i = slot.toNat ∧ j = word.toNat then v else s.descAt i j) ∧
        exec (.descRd slot word) t = .next (t.setResponse (some (okResponse v)))) ∧
    (∃ t, exec (.valWr slot v) s = .next (t.setResponse (some (okResponse 0#64))) ∧ t = s.setVal t.val ∧
      (∀ i, t.valAt i = if i = slot.toNat then v else s.valAt i) ∧
      exec (.valRd slot) t = .next (t.setResponse (some (okResponse v))))

/-- IB_WR and VB_WR put a byte where IB_RD and VB_RD find it, and change no other byte and nothing else, RLEN and RPOS
and the slot's value word among it. -/
def Obligations.ByteWriteThenRead : Prop :=
  (∀ (s : State) (addr : BitVec 24) (b : Byte), addr.toNat < s.cfg.ibufBytes →
    ∃ t, exec (.ibWr addr (b.setWidth 64)) s = .next (t.setResponse (some (okResponse 0#64))) ∧
      t = s.setIbuf t.ibuf ∧ (∀ a, t.ibufAt a = if a = addr.toNat then b else s.ibufAt a) ∧
      exec (.ibRd addr) t = .next (t.setResponse (some (okResponse (b.setWidth 64))))) ∧
  (∀ (s : State) (slot : BitVec 8) (k : BitVec 16) (b : Byte), slot.toNat < s.cfg.maxFields →
    k.toNat < s.cfg.maxFieldBytes →
    ∃ t, exec (.vbWr slot k (b.setWidth 64)) s = .next (t.setResponse (some (okResponse 0#64))) ∧
      t = s.setVb t.vb ∧
      (∀ i j, j < 65536 → t.vbAt i j = if i = slot.toNat ∧ j = k.toNat then b else s.vbAt i j) ∧
      exec (.vbRd slot k) t = .next (t.setResponse (some (okResponse (b.setWidth 64)))))

/-- LOAD_INPUT (R103) places its bytes from address 0 on, sets RLEN to their number and RPOS to 0, and touches no other
byte of IBUF; every response is OK. A pseudo-instruction whose commands up to one answer OK, and that one an error, ends
there: it keeps the effects of the commands before the failing one (R304), its status is that error's (R103), and the
commands after it are not sent (for R_BYTES and W_BYTES 92_eei_decisions.md D13, for the others the model's reading: log
entry 12, DEDUCED). -/
def Obligations.PseudoInstructionsRunInOrder : Prop :=
  (∀ (s : State) (bs : List Byte), Inv s → bs.length ≤ s.cfg.ibufBytes →
    ∃ t, runPseudo (.loadInput bs) s = (List.replicate (bs.length + 1) okZero, t) ∧
      t.rlen.toNat = bs.length ∧ t.rpos = 0#32 ∧ (∀ a b, bs[a]? = some b → t.ibufAt a = b) ∧
      (∀ a, bs.length ≤ a → t.ibufAt a = s.ibufAt a) ∧
      t = (((s.setIbuf t.ibuf).setRlen t.rlen).setRpos 0#32).setResponse (some okZero)) ∧
  (∀ (p : Pseudo) (s t u : State) (before after : List Instr) (i : Instr) (rs : List Response),
    expandPseudo p = before ++ i :: after → sendAll before s = (rs, t) → (∀ r ∈ rs, r.status = 0#32) →
    exec i t = .next u → IsError u →
    ∃ r, u.response = some r ∧ runPseudo p s = (rs ++ [r], u) ∧ pseudoStatus (rs ++ [r]) = r.status)

/-- The reading commands answer what stands at their address, inside each space. -/
def Obligations.HostReadsAnswerContent : Prop :=
  ∀ (s : State) (slot : BitVec 8) (b : BitVec 16) (addr : BitVec 24),
    (addr.toNat < s.cfg.ibufBytes →
      exec (.ibRd addr) s = .next (s.setResponse (some (okResponse ((s.ibufAt addr.toNat).setWidth 64))))) ∧
    (addr.toNat < s.cfg.obufBytes →
      exec (.obRd addr) s = .next (s.setResponse (some (okResponse ((s.obufAt addr.toNat).setWidth 64))))) ∧
    (slot.toNat < s.cfg.maxFields → b.toNat ≤ 2 →
      exec (.descRd slot b) s = .next (s.setResponse (some (okResponse (s.descAt slot.toNat b.toNat))))) ∧
    (slot.toNat < s.cfg.maxFields →
      exec (.valRd slot) s = .next (s.setResponse (some (okResponse (s.valAt slot.toNat))))) ∧
    (slot.toNat < s.cfg.maxFields → b.toNat < s.cfg.maxFieldBytes →
      exec (.vbRd slot b) s =
        .next (s.setResponse (some (okResponse ((s.vbAt slot.toNat b.toNat).setWidth 64)))))

/-- Addresses outside a space are RANGE(ADDR), and then a byte operand above 255 is RANGE(BYTE); nothing changes. -/
def Obligations.AddressAndByteErrors : Prop :=
  ∀ (s : State) (slot : BitVec 8) (b : BitVec 16) (addr : BitVec 24) (v : Word64),
    (s.cfg.maxFields ≤ slot.toNat → ∀ i ∈ [Instr.width slot, .valWr slot v, .valRd slot],
      exec i s = .next (s.setResponse (some (errorResponse (plainError .rangeAddr))))) ∧
    (s.cfg.maxFields ≤ slot.toNat ∨ 2 < b.toNat → ∀ i ∈ [Instr.descWr slot b v, .descRd slot b],
      exec i s = .next (s.setResponse (some (errorResponse (plainError .rangeAddr))))) ∧
    (s.cfg.maxFields ≤ slot.toNat ∨ s.cfg.maxFieldBytes ≤ b.toNat → ∀ i ∈ [Instr.vbWr slot b v, .vbRd slot b],
      exec i s = .next (s.setResponse (some (errorResponse (plainError .rangeAddr))))) ∧
    (s.cfg.ibufBytes ≤ addr.toNat → ∀ i ∈ [Instr.ibWr addr v, .ibRd addr],
      exec i s = .next (s.setResponse (some (errorResponse (plainError .rangeAddr))))) ∧
    (s.cfg.obufBytes ≤ addr.toNat →
      exec (.obRd addr) s = .next (s.setResponse (some (errorResponse (plainError .rangeAddr))))) ∧
    (slot.toNat < s.cfg.maxFields → b.toNat < s.cfg.maxFieldBytes → 255 < v.toNat →
      exec (.vbWr slot b v) s = .next (s.setResponse (some (errorResponse (plainError .rangeByte))))) ∧
    (addr.toNat < s.cfg.ibufBytes → 255 < v.toNat →
      exec (.ibWr addr v) s = .next (s.setResponse (some (errorResponse (plainError .rangeByte)))))

/-- R21 to R36: what CSR_RD answers for each of the fifteen registers, with every bit that has no field 0; NOP does
nothing. -/
def Obligations.CsrReadMap : Prop :=
  ∀ s : State, s.cfg.Valid →
    exec .nop s = .next (s.setResponse (some (okResponse 0#64))) ∧
    ∃ f : BitVec 16 → Word64,
      (∀ n ∈ [0x0000#16, 0x0001#16, 0x0002#16, 0x0010#16, 0x0011#16, 0x0020#16, 0x0021#16, 0x0030#16, 0x0031#16,
        0x0040#16, 0x0041#16, 0x0042#16, 0x0050#16, 0x0051#16, 0x0052#16],
        exec (.csrRd n) s = .next (s.setResponse (some (okResponse (f n))))) ∧
      f 0x0000#16 = 0x0000000755574331#64 ∧
      (f 0x0001#16).toNat = s.cfg.ibufBytes + 2 ^ 32 * s.cfg.obufBytes ∧
      (f 0x0002#16).toNat = s.cfg.maxFields + 2 ^ 32 * s.cfg.maxFieldBytes ∧
      (f 0x0010#16).toNat = s.wpos.toNat ∧ (f 0x0011#16).toNat = (s.wpos.toNat + 7) / 8 ∧
      (f 0x0020#16).toNat = s.rlen.toNat ∧ (f 0x0021#16).toNat = s.rpos.toNat ∧
      (f 0x0030#16).toNat = s.crcKind.toNat ∧ (f 0x0031#16).toNat = s.crcAcc.toNat ∧
      (f 0x0040#16).toNat = s.msgNfields.toNat ∧ (f 0x0041#16).toNat = s.msgTypeId.toNat ∧
      (f 0x0042#16).toNat = s.msgMaxb.toNat ∧ (f 0x0050#16).toNat = s.routeTx.toNat ∧
      (f 0x0051#16).toNat = s.routeRx.toNat ∧ (f 0x0052#16).toNat = s.tagRx.toNat

/-- R27, R31 to R34, R37: what CSR_WR stores in each writable register, with the bits outside a field dropped, so that
CSR_RD answers the rest; a write of RLEN also rewinds the reader. -/
def Obligations.CsrWriteThenRead : Prop :=
  ∀ (s : State) (v : Word64),
    (v.toNat ≤ s.cfg.ibufBytes → s.cfg.Valid →
      ∃ t, t = (s.setRlen t.rlen).setRpos 0#32 ∧ t.rlen.toNat = v.toNat ∧
        exec (.csrWr 0x0020#16 v) s = .next (t.setResponse (some (okResponse 0#64))) ∧
        exec (.csrRd 0x0020#16) t = .next (t.setResponse (some (okResponse v)))) ∧
    (v.toNat ≤ s.cfg.maxFields → s.cfg.Valid →
      ∃ t, t = s.setMsgNfields t.msgNfields ∧ t.msgNfields.toNat = v.toNat ∧
        exec (.csrWr 0x0040#16 v) s = .next (t.setResponse (some (okResponse 0#64))) ∧
        exec (.csrRd 0x0040#16) t = .next (t.setResponse (some (okResponse v)))) ∧
    (∃ t, t = s.setMsgTypeId t.msgTypeId ∧ t.typeId = v.toNat % 2 ^ 16 ∧ t.typeIdValid = v.getLsbD 16 ∧
      exec (.csrWr 0x0041#16 v) s = .next (t.setResponse (some (okResponse 0#64))) ∧
      exec (.csrRd 0x0041#16) t = .next (t.setResponse (some (okResponse (v &&& 0x000000000001FFFF#64))))) ∧
    (∃ t, t = s.setMsgMaxb t.msgMaxb ∧ t.maxBytes = v.toNat % 2 ^ 32 ∧ t.maxBytesValid = v.getLsbD 32 ∧
      exec (.csrWr 0x0042#16 v) s = .next (t.setResponse (some (okResponse 0#64))) ∧
      exec (.csrRd 0x0042#16) t = .next (t.setResponse (some (okResponse (v &&& 0x00000001FFFFFFFF#64))))) ∧
    (∃ t, t = s.setRouteTx t.routeTx ∧ routeSrc t.routeTx = v.toNat % 256 ∧
      routeDst t.routeTx = v.toNat / 2 ^ 8 % 256 ∧ routePri t.routeTx = v.toNat / 2 ^ 16 % 4 ∧
      routeAck t.routeTx = v.toNat / 2 ^ 18 % 2 ∧
      exec (.csrWr 0x0050#16 v) s = .next (t.setResponse (some (okResponse 0#64))) ∧
      exec (.csrRd 0x0050#16) t = .next (t.setResponse (some (okResponse (v &&& 0x000000000007FFFF#64)))))

/-- R38, R39: a write of a read-only CSR is ILLEGAL(CSR_RO), a read or write of a number outside the map ILLEGAL(CSR);
a length above its limit is RANGE(LEN). Each changes nothing. -/
def Obligations.CsrErrors : Prop :=
  ∀ (s : State) (v : Word64),
    (∀ n ∈ [0x0000#16, 0x0001#16, 0x0002#16, 0x0010#16, 0x0011#16, 0x0021#16, 0x0030#16, 0x0031#16, 0x0051#16,
      0x0052#16],
      exec (.csrWr n v) s = .next (s.setResponse (some (errorResponse (plainError .illegalCsrRo))))) ∧
    (∀ n : BitVec 16, n ∉ [0x0000#16, 0x0001#16, 0x0002#16, 0x0010#16, 0x0011#16, 0x0020#16, 0x0021#16, 0x0030#16,
      0x0031#16, 0x0040#16, 0x0041#16, 0x0042#16, 0x0050#16, 0x0051#16, 0x0052#16] →
      exec (.csrRd n) s = .next (s.setResponse (some (errorResponse (plainError .illegalCsr)))) ∧
      exec (.csrWr n v) s = .next (s.setResponse (some (errorResponse (plainError .illegalCsr))))) ∧
    (s.cfg.ibufBytes < v.toNat →
      exec (.csrWr 0x0020#16 v) s = .next (s.setResponse (some (errorResponse (plainError .rangeLen))))) ∧
    (s.cfg.maxFields < v.toNat →
      exec (.csrWr 0x0040#16 v) s = .next (s.setResponse (some (errorResponse (plainError .rangeLen)))))

/-- R205, R209, R223: WIDTH answers `max(1, ceil(log2(range)))` for BoundedInt, Enum and BoundedFloat, 1 for Bool and
`8*len` for the byte kinds, and changes nothing, so that it answers the same again. -/
def Obligations.WidthFollowsKind : Prop :=
  ∀ (s : State) (slot : BitVec 8), slot.toNat < s.cfg.maxFields →
    ((s.descAt slot.toNat 0).toNat % 8 = 0 →
      exec (.width slot) s = .next (s.setResponse (some (okResponse 1#64)))) ∧
    ((s.descAt slot.toNat 0).toNat % 8 = 1 → (s.descAt slot.toNat 1).toInt ≤ (s.descAt slot.toNat 2).toInt →
      exec (.width slot) s = .next (s.setResponse (some (okResponse (BitVec.ofNat 64
        (max 1 (Nat.clog 2 ((s.descAt slot.toNat 2).toInt - (s.descAt slot.toNat 1).toInt + 1).toNat))))))) ∧
    (∀ m, (s.descAt slot.toNat 0).toNat % 8 = 2 → (s.descAt slot.toNat 0).toNat / 16 % 8 ≤ 6 →
      (f64 (s.descAt slot.toNat 1)).isFinite = true → (f64 (s.descAt slot.toNat 2)).isFinite = true →
      fle64 (f64 (s.descAt slot.toNat 1)) (f64 (s.descAt slot.toNat 2)) = true →
      scaledInt (f64 (s.descAt slot.toNat 1)) (f64 (s.descAt slot.toNat 2))
        ((s.descAt slot.toNat 0).toNat / 16 % 8) = some m → m < 2 ^ 64 →
      exec (.width slot) s =
        .next (s.setResponse (some (okResponse (BitVec.ofNat 64 (max 1 (Nat.clog 2 (m + 1)))))))) ∧
    ((s.descAt slot.toNat 0).toNat % 8 = 3 → 1 ≤ (s.descAt slot.toNat 1).toNat →
      exec (.width slot) s = .next (s.setResponse (some (okResponse (BitVec.ofNat 64
        (max 1 (Nat.clog 2 (s.descAt slot.toNat 1).toNat))))))) ∧
    ((s.descAt slot.toNat 0).toNat % 8 = 4 ∨ (s.descAt slot.toNat 0).toNat % 8 = 5 →
      (s.descAt slot.toNat 1).toNat ≤ s.cfg.maxFieldBytes →
      exec (.width slot) s =
        .next (s.setResponse (some (okResponse (BitVec.ofNat 64 (8 * (s.descAt slot.toNat 1).toNat))))))

/-- R204: the descriptors that fail validation, each with its SCHEMA cause at stage SCHEMA_CHECK and its slot. -/
def Obligations.WidthRejectsBadDescriptor : Prop :=
  ∀ (s : State) (slot : BitVec 8), slot.toNat < s.cfg.maxFields →
    ((s.descAt slot.toNat 0).toNat % 8 = 1 → (s.descAt slot.toNat 2).toInt < (s.descAt slot.toNat 1).toInt →
      exec (.width slot) s =
        .next (s.setResponse (some (errorResponse ⟨.schemaBounds, .schemaCheck, slot.toNat⟩)))) ∧
    ((s.descAt slot.toNat 0).toNat % 8 = 2 → (s.descAt slot.toNat 0).toNat / 16 % 8 = 7 →
      exec (.width slot) s =
        .next (s.setResponse (some (errorResponse ⟨.schemaPrecision, .schemaCheck, slot.toNat⟩)))) ∧
    ((s.descAt slot.toNat 0).toNat % 8 = 2 → (s.descAt slot.toNat 0).toNat / 16 % 8 ≤ 6 →
      (f64 (s.descAt slot.toNat 1)).isFinite = false ∨ (f64 (s.descAt slot.toNat 2)).isFinite = false ∨
        fle64 (f64 (s.descAt slot.toNat 1)) (f64 (s.descAt slot.toNat 2)) = false →
      exec (.width slot) s =
        .next (s.setResponse (some (errorResponse ⟨.schemaBounds, .schemaCheck, slot.toNat⟩)))) ∧
    ((s.descAt slot.toNat 0).toNat % 8 = 2 → (s.descAt slot.toNat 0).toNat / 16 % 8 ≤ 6 →
      (f64 (s.descAt slot.toNat 1)).isFinite = true → (f64 (s.descAt slot.toNat 2)).isFinite = true →
      fle64 (f64 (s.descAt slot.toNat 1)) (f64 (s.descAt slot.toNat 2)) = true →
      (∀ m, scaledInt (f64 (s.descAt slot.toNat 1)) (f64 (s.descAt slot.toNat 2))
        ((s.descAt slot.toNat 0).toNat / 16 % 8) = some m → 2 ^ 64 ≤ m) →
      exec (.width slot) s =
        .next (s.setResponse (some (errorResponse ⟨.schemaWidth, .schemaCheck, slot.toNat⟩)))) ∧
    ((s.descAt slot.toNat 0).toNat % 8 = 3 → (s.descAt slot.toNat 1).toNat = 0 →
      exec (.width slot) s =
        .next (s.setResponse (some (errorResponse ⟨.schemaCardinality, .schemaCheck, slot.toNat⟩)))) ∧
    ((s.descAt slot.toNat 0).toNat % 8 = 4 ∨ (s.descAt slot.toNat 0).toNat % 8 = 5 →
      s.cfg.maxFieldBytes < (s.descAt slot.toNat 1).toNat →
      exec (.width slot) s =
        .next (s.setResponse (some (errorResponse ⟨.schemaLength, .schemaCheck, slot.toNat⟩)))) ∧
    ((s.descAt slot.toNat 0).toNat % 8 = 6 ∨ (s.descAt slot.toNat 0).toNat % 8 = 7 →
      exec (.width slot) s =
        .next (s.setResponse (some (errorResponse ⟨.schemaKind, .schemaCheck, slot.toNat⟩))))

/-- R222: `Utf8Valid` accepts exactly the concatenations of the table's byte patterns. -/
def Obligations.Utf8ValidIsConcatenation : Prop :=
  ∀ bs : List Byte,
    utf8Valid bs = true ↔ ∃ seqs : List (List Nat), (∀ q ∈ seqs, Utf8Seq q) ∧ bs.map BitVec.toNat = seqs.flatten

/-! ### Binary64 (00_scope.md R13; log entry 8: the format is the IEEE standard's) -/

/-- Reading a word as binary64 and writing it back gives the word, unless it is a NaN. -/
def Obligations.Binary64WordsRoundTrip : Prop := ∀ w : Word64, f64 w ≠ .nan → bits64 (f64 w) = w

/-- Rounding to an integer takes the nearest one, and on a tie the even one. -/
def Obligations.IntegerRoundingIsNearestEven : Prop :=
  ∀ num den : Nat, 0 < den →
    2 * (rneDiv num den * den - num) ≤ den ∧ 2 * (num - rneDiv num den * den) ≤ den ∧
      (2 * (rneDiv num den * den - num) = den ∨ 2 * (num - rneDiv num den * den) = den → rneDiv num den % 2 = 0)

/-- Rounding to binary64 (R13): from half a unit in the last place above the greatest finite value on, the result is
infinite; below that it is a binary64 value to which none is nearer, and where another is as near, the one whose
significand is even. The sign is the given one. -/
def Obligations.Binary64RoundingIsNearest : Prop :=
  ∀ (neg : Bool) (num den : Nat), 0 < den →
    ((2 ^ 54 - 1) * 2 ^ 2044 * den ≤ num → roundUnits neg num den = .inf neg) ∧
    (num < (2 ^ 54 - 1) * 2 ^ 2044 * den →
      ∃ (mag : Nat) (w : Word64), roundUnits neg num den = .finite neg mag ∧ f64 w = .finite neg mag ∧
        ∀ (v : Word64) (other : Nat), f64 v = .finite neg other →
          (mag * den - num) + (num - mag * den) ≤ (other * den - num) + (num - other * den) ∧
          ((mag * den - num) + (num - mag * den) = (other * den - num) + (num - other * den) → other ≠ mag →
            w.getLsbD 0 = false))

/-- R212: a value within the bounds scales to at most the scaled maximum, so it fits the field's width. -/
def Obligations.ScaledValueStaysInRange : Prop :=
  ∀ (wmin wmax w : Word64) (p m : Nat), p ≤ 6 → fle64 (f64 wmin) (f64 w) = true → fle64 (f64 w) (f64 wmax) = true →
    (f64 wmin).isFinite = true → (f64 wmax).isFinite = true → scaledInt (f64 wmin) (f64 wmax) p = some m →
    ∃ k, scaledInt (f64 wmin) (f64 w) p = some k ∧ k ≤ m

/-! ### The codec -/

/-- R242, R243, R245, R246, R248: an ENCODE that has what it needs answers the byte length of the message, and leaves
exactly the message in OBUF: routing header, tag and fields with nothing between them, zeros after them; nothing else
changes. -/
def Obligations.EncodeLaysOutMessage : Prop :=
  ∀ (s : State) (mode : BitVec 2) (kinds : List FieldKind), Inv s → Encodable mode.toNat s kinds →
    ∃ (t : State) (v : Word64),
      exec (.encodeMsg mode) s =
        .next (((s.setObuf t.obuf).setWpos t.wpos).setResponse (some (okResponse v))) ∧
      v.toNat = (messageBits mode.toNat s kinds + 7) / 8 ∧ t.wpos.toNat = messageBits mode.toNat s kinds ∧
      MessageOnWire t.obufAt mode.toNat s kinds

/-- R240: the first descriptor that fails validation ends ENCODE and DECODE before any state changes. -/
def Obligations.BadDescriptorStopsCodecFirst : Prop :=
  ∀ (s : State) (mode : BitVec 2) (i : Nat) (e : CmdError), mode ≠ 0#2 → i < s.msgNfields.toNat →
    (∀ j < i, ∃ k, validateField s j = .ok k) → validateField s i = .error e →
    e.stage = .schemaCheck ∧ e.field = i ∧
      exec (.encodeMsg mode) s = .next (s.setResponse (some (errorResponse e))) ∧
      exec (.decodeMsg mode) s = .next (s.setResponse (some (errorResponse e)))

/-- R244, R212: a value ENCODE does not accept, in the first such field, is answered with its cause, stage FIELD and
the field; OBUF holds exactly the bits before that field. -/
def Obligations.EncodeStopsAtFirstBadValue : Prop :=
  ∀ (s : State) (mode : BitVec 2) (kinds : List FieldKind) (i : Nat) (k : FieldKind), Inv s → mode ≠ 0#2 →
    validateFrom s 0 s.msgNfields.toNat = .ok kinds →
    (2 ≤ mode.toNat → s.typeIdValid = true ∧ s.typeId < 32768) → kinds[i]? = some k →
    (∀ j k', j < i → kinds[j]? = some k' → ValueOk s j k') → ¬ ValueOk s i k →
    messageBits mode.toNat s (kinds.take i) ≤ 8 * s.cfg.obufBytes →
    ∃ t : State, exec (.encodeMsg mode) s =
        .next (((s.setObuf t.obuf).setWpos t.wpos).setResponse
          (some (errorResponse ⟨valueCause s i k, .field, i⟩))) ∧
      t.wpos.toNat = messageBits mode.toNat s (kinds.take i) ∧ MessageOnWire t.obufAt mode.toNat s (kinds.take i)

/-- R244, R212, R245, R246: the first field that does not fit OBUF is answered CAPACITY(OBUF_FULL, FIELD, i); header, tag
and the fields before it stand in OBUF, of the field itself nothing or, of a byte kind, the bytes that fit, and zeros
after the last bit written. A routing header that does not fit is named at stage ROUTE, with the header bytes that fit
kept, and a tag that does not fit at stage TAG, with the header and the tag's flag bit kept. -/
def Obligations.EncodeNamesWhereOutputIsFull : Prop :=
  ∀ (s : State) (mode : BitVec 2) (kinds : List FieldKind), Inv s → mode ≠ 0#2 →
    validateFrom s 0 s.msgNfields.toNat = .ok kinds →
    (∀ i k, kinds[i]? = some k → (2 ≤ mode.toNat → s.typeIdValid = true ∧ s.typeId < 32768) →
      (∀ j k', j ≤ i → kinds[j]? = some k' → ValueOk s j k') →
      messageBits mode.toNat s (kinds.take i) ≤ 8 * s.cfg.obufBytes →
      8 * s.cfg.obufBytes < messageBits mode.toNat s (kinds.take i) + fieldWidth k →
      ∃ t : State, exec (.encodeMsg mode) s =
          .next (((s.setObuf t.obuf).setWpos t.wpos).setResponse
            (some (errorResponse ⟨.capacityObufFull, .field, i⟩))) ∧
        t.wpos.toNat = messageBits mode.toNat s (kinds.take i) +
          8 * min (valueBytes k)
            ((8 * s.cfg.obufBytes - messageBits mode.toNat s (kinds.take i)) / 8) ∧
        MessageBits t.obufAt mode.toNat s (kinds.take i) ∧
        (∀ j, messageBits mode.toNat s (kinds.take i) + 8 * (j + 1) ≤ t.wpos.toNat →
          FieldAt t.obufAt (messageBits mode.toNat s (kinds.take i) + 8 * j) 8 (s.vbAt i j).toNat) ∧
        ZeroFrom t.obufAt t.wpos.toNat) ∧
    (mode = 3#2 → s.cfg.obufBytes ≤ 2 →
      ∃ t : State, exec (.encodeMsg mode) s =
          .next (((s.setObuf t.obuf).setWpos t.wpos).setResponse
            (some (errorResponse ⟨.capacityObufFull, .route, 0⟩))) ∧
        t.wpos.toNat = 8 * s.cfg.obufBytes ∧ FieldAt t.obufAt 0 8 (routeSrc s.routeTx) ∧
        (s.cfg.obufBytes = 2 → FieldAt t.obufAt 8 8 (routeDst s.routeTx)) ∧ ZeroFrom t.obufAt t.wpos.toNat) ∧
    (2 ≤ mode.toNat → s.typeIdValid = true → s.typeId < 32768 → routeBits mode.toNat ≤ 8 * s.cfg.obufBytes →
      8 * s.cfg.obufBytes < routeBits mode.toNat + tagBits mode.toNat s.typeId →
      ∃ t : State, exec (.encodeMsg mode) s =
          .next (((s.setObuf t.obuf).setWpos t.wpos).setResponse
            (some (errorResponse ⟨.capacityObufFull, .tag, 0⟩))) ∧
        t.wpos.toNat = routeBits mode.toNat + 1 ∧ (mode = 3#2 → RouteOnWire t.obufAt s.routeTx) ∧
        streamBit t.obufAt (routeBits mode.toNat) = decide (128 ≤ s.typeId) ∧ ZeroFrom t.obufAt t.wpos.toNat)

/-- R247: a message longer than the declared maximum is written and then answered ENCODE(MAX_SIZE, SIZE, 0). -/
def Obligations.EncodeOverMaximumIsRejected : Prop :=
  ∀ (s : State) (mode : BitVec 2) (kinds : List FieldKind), Inv s → mode ≠ 0#2 →
    validateFrom s 0 s.msgNfields.toNat = .ok kinds →
    (2 ≤ mode.toNat → s.typeIdValid = true ∧ s.typeId < 32768) → (∀ i k, kinds[i]? = some k → ValueOk s i k) →
    messageBits mode.toNat s kinds ≤ 8 * s.cfg.obufBytes → s.maxBytesValid = true →
    s.maxBytes < (messageBits mode.toNat s kinds + 7) / 8 →
    ∃ t : State, exec (.encodeMsg mode) s =
        .next (((s.setObuf t.obuf).setWpos t.wpos).setResponse (some (errorResponse ⟨.encMaxSize, .size, 0⟩))) ∧
      t.wpos.toNat = messageBits mode.toNat s kinds ∧ MessageOnWire t.obufAt mode.toNat s kinds

/-- R246, R261: a type ID of 127 encodes in 1 byte and 128 in 2 bytes, here of a message of no fields in Mode 2. A missing
type ID and one of 32768 or more are rejected, in Modes 2 and 3 and whatever the fields, before any bit of the tag is
written: OBUF holds the routing header in Mode 3 and nothing in Mode 2. -/
def Obligations.TagSizeBoundary : Prop :=
  (∀ s : State, Inv s → s.msgNfields = 0#32 → s.maxBytesValid = false → 2 ≤ s.cfg.obufBytes →
    (s.msgTypeId = 0x1007F#17 → ∃ t, exec (.encodeMsg 2#2) s = .next t ∧ t.response = some (okResponse 1#64) ∧
      t.obufAt 0 = 0x7F#8) ∧
    (s.msgTypeId = 0x10080#17 → ∃ t, exec (.encodeMsg 2#2) s = .next t ∧ t.response = some (okResponse 2#64) ∧
      t.obufAt 0 = 0x80#8 ∧ t.obufAt 1 = 0x80#8)) ∧
  (∀ (s : State) (mode : BitVec 2) (kinds : List FieldKind), Inv s → 2 ≤ mode.toNat →
    validateFrom s 0 s.msgNfields.toNat = .ok kinds → routeBits mode.toNat ≤ 8 * s.cfg.obufBytes →
    ∃ t : State, t.wpos.toNat = routeBits mode.toNat ∧ (mode = 3#2 → RouteOnWire t.obufAt s.routeTx) ∧
      ZeroFrom t.obufAt t.wpos.toNat ∧
      (s.typeIdValid = true → 32768 ≤ s.typeId → exec (.encodeMsg mode) s =
        .next (((s.setObuf t.obuf).setWpos t.wpos).setResponse (some (errorResponse ⟨.encTypeIdRange, .tag, 0⟩)))) ∧
      (s.typeIdValid = false → exec (.encodeMsg mode) s =
        .next (((s.setObuf t.obuf).setWpos t.wpos).setResponse (some (errorResponse ⟨.encNoTypeId, .tag, 0⟩)))))

/-- R240, R250: whatever its outcome, DECODE changes only RPOS, VAL and VB of the message's fields, ROUTE_RX in Mode 3
and TAG_RX in Modes 2 and 3; ENCODE only OBUF and WPOS. -/
def Obligations.CodecCommandsTouchOnlyTheirOutputs : Prop :=
  ∀ (s t : State) (mode : BitVec 2), Inv s →
    (exec (.encodeMsg mode) s = .next t → t = ((s.setObuf t.obuf).setWpos t.wpos).setResponse t.response) ∧
    (exec (.decodeMsg mode) s = .next t →
      t = (((((s.setRpos t.rpos).setVal t.val).setVb t.vb).setRouteRx t.routeRx).setTagRx t.tagRx).setResponse
        t.response ∧
      (mode ≠ 3#2 → t.routeRx = s.routeRx) ∧ (mode.toNat < 2 → t.tagRx = s.tagRx) ∧
      (∀ i, s.msgNfields.toNat ≤ i → t.valAt i = s.valAt i) ∧
      (∀ kinds, validateFrom s 0 s.msgNfields.toNat = .ok kinds → ∀ i k, k < 65536 →
        (∀ kd, kinds[i]? = some kd → valueBytes kd ≤ k) → t.vbAt i k = s.vbAt i k))

/-- R250, R213, R253, R255: a DECODE of an acceptable message answers the bits it occupied and leaves RPOS there, every
field's value in its slot, the routing header in ROUTE_RX and the ID in TAG_RX. R214: when the message reads but the
ordinal of an Enum is none of its variants, the first such field is named at stage RECONSTRUCT instead, after every
field has been read. -/
def Obligations.DecodeReadsMessage : Prop :=
  ∀ (s : State) (mode : BitVec 2) (kinds : List FieldKind), Inv s → Readable mode.toNat s kinds →
    ∃ (t : State) (v : Word64),
      ((∀ i k, kinds[i]? = some k → OrdinalReads s.ibufAt (fieldStart (bodyStart mode.toNat s) kinds i) k) →
        exec (.decodeMsg mode) s = .next (t.setResponse (some (okResponse v)))) ∧
      (∀ i k, kinds[i]? = some k →
        (∀ j k', j < i → kinds[j]? = some k' →
          OrdinalReads s.ibufAt (fieldStart (bodyStart mode.toNat s) kinds j) k') →
        ¬ OrdinalReads s.ibufAt (fieldStart (bodyStart mode.toNat s) kinds i) k →
        exec (.decodeMsg mode) s =
          .next (t.setResponse (some (errorResponse ⟨.decEnumOrdinal, .reconstruct, i⟩)))) ∧
      v.toNat = bodyStart mode.toNat s + bodyBits kinds ∧ t.rpos.toNat = bodyStart mode.toNat s + bodyBits kinds ∧
      (∀ i k, kinds[i]? = some k →
        FieldDecoded s.ibufAt (fieldStart (bodyStart mode.toNat s) kinds i) t i k) ∧
      (mode = 3#2 → routeSrc t.routeRx = readBits s.ibufAt 0 8 ∧ routeDst t.routeRx = readBits s.ibufAt 8 8 ∧
        routePri t.routeRx = readBits s.ibufAt 16 2 ∧ routeAck t.routeRx = readBits s.ibufAt 18 1) ∧
      (2 ≤ mode.toNat → t.tagRx.toNat = tagIdAt s.ibufAt (routeBits mode.toNat))

/-- R213, R258: the first field that does not read ends DECODE with its cause at stage FIELD, its bits consumed; the
fields before it are in their slots, its own value slot and those after it are as before, and so is VB but for the bytes
of a FixedString that failed UTF-8, which have been read. ROUTE_RX and TAG_RX hold the header and the ID. -/
def Obligations.DecodeStopsAtFirstBadField : Prop :=
  ∀ (s : State) (mode : BitVec 2) (kinds : List FieldKind) (i : Nat) (k : FieldKind), Inv s →
    HeaderReads mode.toNat s kinds → kinds[i]? = some k →
    (∀ j k', j < i → kinds[j]? = some k' →
      FieldReads s.ibufAt (fieldStart (bodyStart mode.toNat s) kinds j) k') →
    fieldStart (bodyStart mode.toNat s) kinds i + fieldWidth k ≤ 8 * s.rlen.toNat →
    ¬ FieldReads s.ibufAt (fieldStart (bodyStart mode.toNat s) kinds i) k →
    ∃ t, exec (.decodeMsg mode) s = .next t ∧
      t.response = some (errorResponse ⟨fieldCause k, .field, i⟩) ∧
      t.rpos.toNat = fieldStart (bodyStart mode.toNat s) kinds i + fieldWidth k ∧
      (∀ j k', j < i → kinds[j]? = some k' →
        FieldDecoded s.ibufAt (fieldStart (bodyStart mode.toNat s) kinds j) t j k') ∧
      (∀ j, i ≤ j → t.valAt j = s.valAt j) ∧
      FieldLeft s.ibufAt (fieldStart (bodyStart mode.toNat s) kinds i) s t i k ∧
      (∀ j b, i < j → b < 65536 → t.vbAt j b = s.vbAt j b) ∧
      (mode = 3#2 → RouteRead s.ibufAt t.routeRx) ∧
      (2 ≤ mode.toNat → t.tagRx.toNat = tagIdAt s.ibufAt (routeBits mode.toNat))

/-- R256: TAG_RX is written before the IDs are compared, so after a TYPE_ID_MISMATCH the host reads the ID that
arrived; no field has been read. -/
def Obligations.MismatchKeepsTheTagRead : Prop :=
  ∀ (s : State) (mode : BitVec 2) (kinds : List FieldKind), Inv s → 2 ≤ mode.toNat →
    validateFrom s 0 s.msgNfields.toNat = .ok kinds →
    routeBits mode.toNat + tagBitsAt s.ibufAt (routeBits mode.toNat) ≤ 8 * s.rlen.toNat →
    s.typeIdValid = true → tagIdAt s.ibufAt (routeBits mode.toNat) ≠ s.typeId →
    ∃ (t : State) (v : Word64), exec (.decodeMsg mode) s = .next t ∧
      t.response = some (errorResponse ⟨.decTypeIdMismatch, .tag, 0⟩) ∧ t.val = s.val ∧ t.vb = s.vb ∧
      v.toNat = tagIdAt s.ibufAt (routeBits mode.toNat) ∧
      exec (.csrRd 0x0052#16) t = .next (t.setResponse (some (okResponse v)))

/-- R257, R258: an input that ends inside the routing header, the tag or a field is DECODE(TRUNCATED) at that stage and
field; RPOS stands where the last successful step left it, the fields before it are in their slots and nothing of it or
after it is, and ROUTE_RX and TAG_RX hold what their stages read where they completed. -/
def Obligations.DecodeNamesWhereInputEnds : Prop :=
  ∀ (s : State) (mode : BitVec 2) (kinds : List FieldKind), Inv s → mode ≠ 0#2 →
    validateFrom s 0 s.msgNfields.toNat = .ok kinds →
    (mode = 3#2 → 8 * s.rlen.toNat < 19 →
      exec (.decodeMsg mode) s =
        .next ((s.setRpos 0#32).setResponse (some (errorResponse ⟨.decTruncated, .route, 0⟩)))) ∧
    (mode = 2#2 → s.rlen = 0#32 ∨ s.rlen = 1#32 ∧ streamBit s.ibufAt 0 = true →
      exec (.decodeMsg mode) s =
        .next ((s.setRpos 0#32).setResponse (some (errorResponse ⟨.decTruncated, .tag, 0⟩)))) ∧
    (mode = 3#2 → 19 ≤ 8 * s.rlen.toNat → 8 * s.rlen.toNat < 19 + tagBitsAt s.ibufAt 19 →
      ∃ t : State, exec (.decodeMsg mode) s =
          .next (((s.setRpos 19#32).setRouteRx t.routeRx).setResponse
            (some (errorResponse ⟨.decTruncated, .tag, 0⟩))) ∧
        RouteRead s.ibufAt t.routeRx) ∧
    (∀ i k, kinds[i]? = some k → HeaderReads mode.toNat s kinds →
      (∀ j k', j < i → kinds[j]? = some k' →
        FieldReads s.ibufAt (fieldStart (bodyStart mode.toNat s) kinds j) k') →
      fieldStart (bodyStart mode.toNat s) kinds i ≤ 8 * s.rlen.toNat →
      8 * s.rlen.toNat < fieldStart (bodyStart mode.toNat s) kinds i + fieldWidth k →
      ∃ t, exec (.decodeMsg mode) s = .next t ∧
        t.response = some (errorResponse ⟨.decTruncated, .field, i⟩) ∧
        t.rpos.toNat = fieldStart (bodyStart mode.toNat s) kinds i ∧
        (∀ j k', j < i → kinds[j]? = some k' →
          FieldDecoded s.ibufAt (fieldStart (bodyStart mode.toNat s) kinds j) t j k') ∧
        (∀ j, i ≤ j → t.valAt j = s.valAt j) ∧ (∀ j b, i ≤ j → b < 65536 → t.vbAt j b = s.vbAt j b) ∧
        (mode = 3#2 → RouteRead s.ibufAt t.routeRx) ∧
        (2 ≤ mode.toNat → t.tagRx.toNat = tagIdAt s.ibufAt (routeBits mode.toNat)))

/-- R262: PEEK_TAG answers the ID of the tag at the start of the input, keeps it in TAG_RX and leaves RPOS after the tag;
an empty input and a tag cut short are DECODE errors at stage TAG. -/
def Obligations.PeekTagReadsTheTag : Prop :=
  ∀ s : State, Inv s →
    (s.rlen = 0#32 →
      exec .peekTag s = .next (s.setResponse (some (errorResponse ⟨.decEmptyInput, .tag, 0⟩)))) ∧
    (s.rlen = 1#32 → streamBit s.ibufAt 0 = true →
      exec .peekTag s =
        .next ((s.setRpos 0#32).setResponse (some (errorResponse ⟨.decTruncated, .tag, 0⟩)))) ∧
    (tagBitsAt s.ibufAt 0 ≤ 8 * s.rlen.toNat →
      ∃ (v : Word64) (p : BitVec 32), p.toNat = tagBitsAt s.ibufAt 0 ∧ v.toNat = tagIdAt s.ibufAt 0 ∧
        exec .peekTag s =
          .next (((s.setRpos p).setTagRx (v.setWidth 16)).setResponse (some (okResponse v))))

/-- R260: what ENCODE took comes back from DECODE of its image. If every value survives quantization, DECODE answers OK
and gives every field, the routing header and the type ID back; otherwise it answers DECODE(FLOAT_RANGE) for the first
BoundedFloat that does not. -/
def Obligations.RoundTripReturnsValues : Prop :=
  ∀ (s : State) (mode : BitVec 2) (kinds : List FieldKind), Inv s → Encodable mode.toNat s kinds →
    (messageBits mode.toNat s kinds + 7) / 8 ≤ s.cfg.ibufBytes →
    let e := sendCommand (encode (.encodeMsg mode)) s
    let d := sendCommand (encode (.decodeMsg mode)) (loadInput (imageBytes e) e)
    ((∀ i k, kinds[i]? = some k → Survives s i k) →
      d.response = some (okResponse (BitVec.ofNat 64 (messageBits mode.toNat s kinds))) ∧
      (∀ i k, kinds[i]? = some k → d.valAt i = returnedValue s i k ∧
        ∀ j < valueBytes k, d.vbAt i j = s.vbAt i j) ∧
      (mode = 3#2 → d.routeRx = s.routeTx) ∧ (2 ≤ mode.toNat → d.tagRx.toNat = s.typeId)) ∧
    (∀ i k, kinds[i]? = some k → (∀ j k', j < i → kinds[j]? = some k' → Survives s j k') → ¬ Survives s i k →
      d.response = some (errorResponse ⟨.decFloatRange, .field, i⟩))
end

