-- ==== Sys2Proof/Laws/Memory.lean ====
section
/-! SUPPORT. The laws of the sparse memories: reading after a write, what a write can list, and that every memory
operation keeps the canonical form. -/

namespace Sys2Proof.Machine

theorem memLookup_memInsert {w : Nat} (m : Memory w) (a : Nat) (v : BitVec w) (b : Nat) :
    memLookup (memInsert m a v) b = if a = b then some v else memLookup m b := by
  induction m with
  | nil => simp [memInsert, memLookup]
  | cons c m ih =>
    obtain ⟨k, x⟩ := c
    by_cases h1 : a < k
    · simp [memInsert, memLookup, h1]
    · by_cases h2 : a = k
      · subst h2
        by_cases hb : a = b
        · simp [memInsert, memLookup, hb]
        · simp [memInsert, memLookup, hb]
      · simp only [memInsert, memLookup, h1, h2, if_false]
        rw [ih]; split_ifs <;> simp_all

theorem mem_memInsert {w : Nat} {m : Memory w} {a : Nat} {v : BitVec w} {c : Nat × BitVec w}
    (h : c ∈ memInsert m a v) : c = (a, v) ∨ c ∈ m := by
  induction m with
  | nil => simpa [memInsert] using h
  | cons d m ih =>
    obtain ⟨k, x⟩ := d
    simp only [memInsert] at h
    split_ifs at h
    · simpa using h
    · rcases List.mem_cons.1 h with h | h
      · exact .inl h
      · exact .inr (List.mem_cons_of_mem _ h)
    · rcases List.mem_cons.1 h with h | h
      · exact .inr (h ▸ List.mem_cons_self)
      · rcases ih h with h | h
        · exact .inl h
        · exact .inr (List.mem_cons_of_mem _ h)

theorem mem_memErase {w : Nat} {m : Memory w} {a : Nat} {c : Nat × BitVec w} (h : c ∈ memErase m a) : c ∈ m := by
  induction m with
  | nil => simp [memErase] at h
  | cons d m ih =>
    obtain ⟨k, x⟩ := d
    simp only [memErase] at h
    split_ifs at h
    · exact List.mem_cons_of_mem _ h
    · rcases List.mem_cons.1 h with h | h
      · exact h ▸ List.mem_cons_self
      · exact List.mem_cons_of_mem _ (ih h)

/-- What a write can list: the location written, or what was listed. -/
theorem mem_memWrite {w : Nat} {u : Option (BitVec w)} {m : Memory w} {a : Nat} {v : BitVec w}
    {c : Nat × BitVec w} (h : c ∈ memWrite u m a v) : c.1 = a ∨ c ∈ m := by
  unfold memWrite at h
  split_ifs at h
  · exact .inr (mem_memErase h)
  · rcases mem_memInsert h with h | h
    · exact .inl (h ▸ rfl)
    · exact .inr h

theorem memInsert_sorted {w : Nat} {m : Memory w} (a : Nat) (v : BitVec w)
    (h : m.Pairwise (fun x y => x.1 < y.1)) : (memInsert m a v).Pairwise (fun x y => x.1 < y.1) := by
  induction m with
  | nil => simp [memInsert]
  | cons d m ih =>
    obtain ⟨k, x⟩ := d
    rw [List.pairwise_cons] at h
    simp only [memInsert]
    split_ifs with h1 h2
    · refine List.pairwise_cons.2 ⟨?_, List.pairwise_cons.2 h⟩
      intro c hc
      rcases List.mem_cons.1 hc with rfl | hc
      · exact h1
      · exact h1.trans (h.1 c hc)
    · subst h2; exact List.pairwise_cons.2 ⟨h.1, h.2⟩
    · refine List.pairwise_cons.2 ⟨?_, ih h.2⟩
      intro c hc
      rcases mem_memInsert hc with rfl | hc
      · show k < a; omega
      · exact h.1 c hc

theorem memErase_sorted {w : Nat} {m : Memory w} (a : Nat) (h : m.Pairwise (fun x y => x.1 < y.1)) :
    (memErase m a).Pairwise (fun x y => x.1 < y.1) := by
  induction m with
  | nil => simp [memErase]
  | cons d m ih =>
    obtain ⟨k, x⟩ := d
    rw [List.pairwise_cons] at h
    simp only [memErase]
    split_ifs
    · exact h.2
    · exact List.pairwise_cons.2 ⟨fun c hc => h.1 c (mem_memErase hc), ih h.2⟩

/-- Every write keeps the canonical form. -/
theorem memWrite_wf {w : Nat} {u : Option (BitVec w)} {m : Memory w} (a : Nat) (v : BitVec w)
    (h : Memory.wf u m) : Memory.wf u (memWrite u m a v) := by
  unfold memWrite
  split_ifs with hv
  · exact ⟨memErase_sorted a h.1, fun c hc => h.2 c (mem_memErase hc)⟩
  · refine ⟨memInsert_sorted a v h.1, fun c hc => ?_⟩
    rcases mem_memInsert hc with rfl | hc
    · exact hv
    · exact h.2 c hc

theorem memLookup_eq_none {w : Nat} {m : Memory w} {a : Nat} (h : ∀ c ∈ m, c.1 ≠ a) : memLookup m a = none := by
  induction m with
  | nil => rfl
  | cons d m ih =>
    obtain ⟨k, x⟩ := d
    have hk : k ≠ a := h (k, x) List.mem_cons_self
    simp only [memLookup, hk, if_false]
    exact ih fun c hc => h c (List.mem_cons_of_mem _ hc)

theorem mem_of_memLookup {w : Nat} {m : Memory w} {a : Nat} {v : BitVec w} (h : memLookup m a = some v) :
    (a, v) ∈ m := by
  induction m with
  | nil => simp [memLookup] at h
  | cons d m ih =>
    obtain ⟨k, x⟩ := d
    simp only [memLookup] at h
    split_ifs at h with hk
    · cases h; subst hk; exact List.mem_cons_self
    · exact List.mem_cons_of_mem _ (ih h)

theorem memLookup_memErase {w : Nat} {m : Memory w} (a b : Nat) (h : m.Pairwise (fun x y => x.1 < y.1)) :
    memLookup (memErase m a) b = if a = b then none else memLookup m b := by
  induction m with
  | nil => simp [memErase, memLookup]
  | cons d m ih =>
    obtain ⟨k, x⟩ := d
    rw [List.pairwise_cons] at h
    simp only [memErase]
    by_cases hk : k = a
    · subst hk
      by_cases hb : k = b
      · subst hb
        simp only [if_true]
        exact memLookup_eq_none fun c hc => (h.1 c hc).ne'
      · simp [memLookup, hb]
    · simp only [hk, if_false, memLookup]
      rw [ih h.2]; split_ifs <;> simp_all

/-- OBUF after a write: the byte written there, and every other byte as before. -/
theorem obufByte_memWrite {m : Memory 8} (h : Memory.wf obufUnlisted m) (a : Nat) (v : Byte) (b : Nat) :
    obufByte (memWrite obufUnlisted m a v) b = if a = b then v else obufByte m b := by
  unfold obufByte memWrite
  split_ifs with hv hb hb
  · rw [memLookup_memErase a b h.1, if_pos hb]
    simp only [obufUnlisted, Option.some.injEq] at hv
    simpa using hv
  · rw [memLookup_memErase a b h.1, if_neg hb]
  · rw [memLookup_memInsert, if_pos hb]; rfl
  · rw [memLookup_memInsert, if_neg hb]

/-- A RAM after a write: the content written there, and every other location as before. -/
theorem ramRead_memWrite {w : Nat} (p : Nat → BitVec w) (m : Memory w) (a : Nat) (v : BitVec w) (b : Nat) :
    ramRead p (memWrite ramUnlisted m a v) b = if a = b then v else ramRead p m b := by
  unfold ramRead memWrite ramUnlisted
  rw [if_neg (by simp), memLookup_memInsert]
  split_ifs <;> rfl

/-- Where a merge lets the new content land, a location is listed as the abandoned command would have listed it. -/
theorem memLookup_mergeAbandoned_lands {w : Nat} {lands : Nat → Bool} {old new : Memory w} {a : Nat}
    (h : lands a = true) : memLookup (mergeAbandoned lands old new) a = memLookup new a := by
  induction new with
  | nil => rfl
  | cons c new ih =>
    obtain ⟨k, x⟩ := c
    unfold mergeAbandoned at ih ⊢
    by_cases hk : k = a
    · subst hk; simp [h, memLookup]
    · by_cases hl : lands k = true
      · simp [hl, memLookup, hk, ih]
      · cases ho : memLookup old k <;> simp [hl, ho, memLookup, hk, ih]

/-- Where it does not, the location is listed as before the abandoned command, or as after it. -/
theorem memLookup_mergeAbandoned_stays {w : Nat} {lands : Nat → Bool} {old new : Memory w} {a : Nat}
    (h : lands a = false) :
    memLookup (mergeAbandoned lands old new) a = memLookup old a ∨
      memLookup (mergeAbandoned lands old new) a = memLookup new a := by
  induction new with
  | nil => exact .inr rfl
  | cons c new ih =>
    obtain ⟨k, x⟩ := c
    unfold mergeAbandoned at ih ⊢
    by_cases hk : k = a
    · subst hk
      cases ho : memLookup old k with
      | some y => left; simp [h, ho, memLookup]
      | none =>
        left
        simp only [List.filterMap_cons, h, ho, Option.map_none, Bool.false_eq_true, if_false]
        refine memLookup_eq_none fun c hc => ?_
        obtain ⟨d, -, hd⟩ := List.mem_filterMap.1 hc
        intro hck
        split_ifs at hd with hl
        · cases hd; simp_all
        · obtain ⟨y, hy, rfl⟩ := Option.map_eq_some_iff.1 hd
          simp only at hck
          rw [hck, ho] at hy; cases hy
    · by_cases hl : lands k = true
      · simpa [hl, memLookup, hk] using ih
      · cases ho : memLookup old k <;> simpa [hl, ho, memLookup, hk] using ih

/-- A merge lists only locations that the abandoned command's memory lists. -/
theorem mem_mergeAbandoned {w : Nat} {lands : Nat → Bool} {old new : Memory w} {c : Nat × BitVec w}
    (h : c ∈ mergeAbandoned lands old new) : ∃ d ∈ new, d.1 = c.1 := by
  obtain ⟨d, hd, he⟩ := List.mem_filterMap.1 h
  refine ⟨d, hd, ?_⟩
  split_ifs at he
  · cases he; rfl
  · obtain ⟨y, -, rfl⟩ := Option.map_eq_some_iff.1 he; rfl

/-- A merge keeps the canonical form of a RAM. -/
theorem mergeAbandoned_wf {w : Nat} {lands : Nat → Bool} {old new : Memory w}
    (h : Memory.wf ramUnlisted new) : Memory.wf ramUnlisted (mergeAbandoned lands old new) := by
  refine ⟨?_, fun c _ => by simp [ramUnlisted]⟩
  refine List.Pairwise.filterMap _ ?_ h.1
  intro x y hxy b hb c hc
  have key : ∀ {z d : Nat × BitVec w},
      (if lands z.1 then some z else (memLookup old z.1).map fun v => (z.1, v)) = some d → d.1 = z.1 := by
    intro z d hd
    split_ifs at hd
    · cases hd; rfl
    · obtain ⟨y, -, rfl⟩ := Option.map_eq_some_iff.1 hd; rfl
  rw [key hb, key hc]; exact hxy

end Sys2Proof.Machine
end

