-- ==== Sys2Proof/Laws/BitStream.lean ====
section
/-! SUPPORT. The laws of the bit streams (00_scope.md R8, R12, 20_memory.md R62): what a written field reads as, and
that writing one leaves every other bit and the canonical form alone. -/

namespace Sys2Proof.Machine

theorem byteSetBit_getLsbD (x : Byte) (i : Nat) (b : Bool) (j : Nat) (hj : j < 8) :
    (byteSetBit x i b).getLsbD j = if j = i then b else x.getLsbD j := by
  have h1 : (1#8 <<< i).getLsbD j = decide (j = i) := by
    rw [BitVec.getLsbD_shiftLeft, BitVec.getLsbD_one]
    by_cases h : j = i
    · subst h; simp [hj]
    · by_cases h2 : j < i
      · simp [h2, h]
      · have : j - i ≠ 0 := by omega
        simp [h, this]
  unfold byteSetBit
  cases b
  · rw [if_neg (by simp), BitVec.getLsbD_and, BitVec.getLsbD_not, h1]
    by_cases h : j = i <;> simp [h, hj]
  · rw [if_pos rfl, BitVec.getLsbD_or, h1]
    by_cases h : j = i <;> simp [h]

/-- One bit written: it reads as written, and every other stream position as before. -/
theorem streamBit_writeStreamBit {m : Memory 8} (h : Memory.wf obufUnlisted m) (p : Nat) (b : Bool) (q : Nat) :
    streamBit (obufByte (writeStreamBit m p b)) q = if q = p then b else streamBit (obufByte m) q := by
  unfold streamBit writeStreamBit
  rw [obufByte_memWrite h]
  by_cases hd : p / 8 = q / 8
  · rw [if_pos hd, byteSetBit_getLsbD _ _ _ _ (by omega), hd]
    by_cases hq : q = p
    · subst hq; simp
    · rw [if_neg hq, if_neg (by omega)]
  · rw [if_neg hd, if_neg (by rintro rfl; exact hd rfl)]

theorem writeStreamBit_wf {m : Memory 8} (h : Memory.wf obufUnlisted m) (p : Nat) (b : Bool) :
    Memory.wf obufUnlisted (writeStreamBit m p b) := memWrite_wf _ _ h

theorem writeBits_wf {m : Memory 8} (h : Memory.wf obufUnlisted m) (p v n : Nat) :
    Memory.wf obufUnlisted (writeBits m p v n) := by
  induction n generalizing m p with
  | zero => exact h
  | succ n ih => exact ih (writeStreamBit_wf h _ _) _

/-- A field written: its bits, most significant first, and every other stream position as before. -/
theorem streamBit_writeBits {m : Memory 8} (h : Memory.wf obufUnlisted m) (p v n q : Nat) :
    streamBit (obufByte (writeBits m p v n)) q =
      if p ≤ q ∧ q < p + n then v.testBit (n - 1 - (q - p)) else streamBit (obufByte m) q := by
  induction n generalizing m p with
  | zero => rw [if_neg (by omega)]; rfl
  | succ n ih =>
    rw [writeBits, ih (writeStreamBit_wf h _ _), streamBit_writeStreamBit h]
    by_cases hq : q = p
    · subst hq
      rw [if_neg (by omega), if_pos rfl, if_pos (by omega)]
      simp
    · by_cases hin : p ≤ q ∧ q < p + (n + 1)
      · rw [if_pos (by omega), if_pos hin]
        congr 1; omega
      · rw [if_neg (by omega), if_neg hq, if_neg hin]

/-- What a written field can list: its own bytes, or what was listed. -/
theorem mem_writeBits {m : Memory 8} {p v n : Nat} {c : Nat × Byte} (h : c ∈ writeBits m p v n) :
    8 * c.1 < p + n ∨ c ∈ m := by
  induction n generalizing m p with
  | zero => exact .inr h
  | succ n ih =>
    rcases ih h with h | h
    · left; omega
    · rcases mem_memWrite h with h | h
      · left; rw [h]; omega
      · exact .inr h

theorem readBits_lt (f : Nat → Byte) (p n : Nat) : readBits f p n < 2 ^ n := by
  induction n with
  | zero => simp [readBits]
  | succ n ih =>
    have := Bool.toNat_lt (streamBit f (p + n))
    rw [readBits, Nat.pow_succ]; omega

/-- Bit `j` of the number that stands in the stream, least significant bit 0. -/
theorem testBit_readBits (f : Nat → Byte) (p n j : Nat) :
    (readBits f p n).testBit j = if j < n then streamBit f (p + (n - 1 - j)) else false := by
  induction n generalizing j with
  | zero => simp [readBits]
  | succ n ih =>
    have hb := Bool.toNat_lt (streamBit f (p + n))
    cases j with
    | zero =>
      rw [readBits, Nat.testBit_zero]
      simp only [Nat.zero_lt_succ, if_true, Nat.succ_sub_one, Nat.sub_zero]
      cases streamBit f (p + n) <;> simp
    | succ j =>
      rw [readBits, Nat.testBit_succ, show (2 * readBits f p n + (streamBit f (p + n)).toNat) / 2 = readBits f p n by
        omega, ih]
      by_cases h : j < n
      · rw [if_pos h, if_pos (by omega)]; congr 2; omega
      · rw [if_neg h, if_neg (by omega)]

/-- Two streams that agree on the positions of a field hold the same field. -/
theorem readBits_congr {f g : Nat → Byte} {p n : Nat} (h : ∀ q, p ≤ q → q < p + n → streamBit f q = streamBit g q) :
    readBits f p n = readBits g p n := by
  induction n with
  | zero => rfl
  | succ n ih =>
    rw [readBits, readBits, ih fun q h1 h2 => h q h1 (by omega), h (p + n) (by omega) (by omega)]

/-- A field read as two fields, the more significant part first. -/
theorem readBits_add (f : Nat → Byte) (p a b : Nat) :
    readBits f p (a + b) = readBits f p a * 2 ^ b + readBits f (p + a) b := by
  induction b with
  | zero => simp [readBits]
  | succ b ih =>
    rw [← Nat.add_assoc, readBits, ih, readBits, Nat.pow_succ, Nat.add_assoc p a b]; ring

/-- A number written into its own width reads back. -/
theorem readBits_writeBits {m : Memory 8} (h : Memory.wf obufUnlisted m) {p v n : Nat} (hv : v < 2 ^ n) :
    readBits (obufByte (writeBits m p v n)) p n = v := by
  apply Nat.eq_of_testBit_eq
  intro j
  rw [testBit_readBits]
  by_cases hj : j < n
  · rw [if_pos hj, streamBit_writeBits h, if_pos (by omega)]
    congr 1; omega
  · rw [if_neg hj, Nat.testBit_lt_two_pow (lt_of_lt_of_le hv (Nat.pow_le_pow_right (by omega) (by omega)))]

end Sys2Proof.Machine
end

