-- ==== Sys2Proof/Laws/State.lean ====
section
/-! SUPPORT. What each field of the state reads after each update: one lemma for a field and an update, true by
`rfl`, so that no proof unfolds a record update. -/

namespace Sys2Proof.Machine

@[simp] theorem State.setObuf_cfg (s : State) (v : Memory 8) : (s.setObuf v).cfg = s.cfg := rfl
@[simp] theorem State.setObuf_obuf (s : State) (v : Memory 8) : (s.setObuf v).obuf = v := rfl
@[simp] theorem State.setObuf_wpos (s : State) (v : Memory 8) : (s.setObuf v).wpos = s.wpos := rfl
@[simp] theorem State.setObuf_ibuf (s : State) (v : Memory 8) : (s.setObuf v).ibuf = s.ibuf := rfl
@[simp] theorem State.setObuf_rlen (s : State) (v : Memory 8) : (s.setObuf v).rlen = s.rlen := rfl
@[simp] theorem State.setObuf_rpos (s : State) (v : Memory 8) : (s.setObuf v).rpos = s.rpos := rfl
@[simp] theorem State.setObuf_crcKind (s : State) (v : Memory 8) : (s.setObuf v).crcKind = s.crcKind := rfl
@[simp] theorem State.setObuf_crcAcc (s : State) (v : Memory 8) : (s.setObuf v).crcAcc = s.crcAcc := rfl
@[simp] theorem State.setObuf_desc (s : State) (v : Memory 8) : (s.setObuf v).desc = s.desc := rfl
@[simp] theorem State.setObuf_msgNfields (s : State) (v : Memory 8) : (s.setObuf v).msgNfields = s.msgNfields := rfl
@[simp] theorem State.setObuf_msgTypeId (s : State) (v : Memory 8) : (s.setObuf v).msgTypeId = s.msgTypeId := rfl
@[simp] theorem State.setObuf_msgMaxb (s : State) (v : Memory 8) : (s.setObuf v).msgMaxb = s.msgMaxb := rfl
@[simp] theorem State.setObuf_val (s : State) (v : Memory 8) : (s.setObuf v).val = s.val := rfl
@[simp] theorem State.setObuf_vb (s : State) (v : Memory 8) : (s.setObuf v).vb = s.vb := rfl
@[simp] theorem State.setObuf_routeTx (s : State) (v : Memory 8) : (s.setObuf v).routeTx = s.routeTx := rfl
@[simp] theorem State.setObuf_routeRx (s : State) (v : Memory 8) : (s.setObuf v).routeRx = s.routeRx := rfl
@[simp] theorem State.setObuf_tagRx (s : State) (v : Memory 8) : (s.setObuf v).tagRx = s.tagRx := rfl
@[simp] theorem State.setObuf_port (s : State) (v : Memory 8) : (s.setObuf v).port = s.port := rfl
@[simp] theorem State.setObuf_response (s : State) (v : Memory 8) : (s.setObuf v).response = s.response := rfl
@[simp] theorem State.setObuf_draws (s : State) (v : Memory 8) : (s.setObuf v).draws = s.draws := rfl

@[simp] theorem State.setWpos_cfg (s : State) (v : BitVec 32) : (s.setWpos v).cfg = s.cfg := rfl
@[simp] theorem State.setWpos_obuf (s : State) (v : BitVec 32) : (s.setWpos v).obuf = s.obuf := rfl
@[simp] theorem State.setWpos_wpos (s : State) (v : BitVec 32) : (s.setWpos v).wpos = v := rfl
@[simp] theorem State.setWpos_ibuf (s : State) (v : BitVec 32) : (s.setWpos v).ibuf = s.ibuf := rfl
@[simp] theorem State.setWpos_rlen (s : State) (v : BitVec 32) : (s.setWpos v).rlen = s.rlen := rfl
@[simp] theorem State.setWpos_rpos (s : State) (v : BitVec 32) : (s.setWpos v).rpos = s.rpos := rfl
@[simp] theorem State.setWpos_crcKind (s : State) (v : BitVec 32) : (s.setWpos v).crcKind = s.crcKind := rfl
@[simp] theorem State.setWpos_crcAcc (s : State) (v : BitVec 32) : (s.setWpos v).crcAcc = s.crcAcc := rfl
@[simp] theorem State.setWpos_desc (s : State) (v : BitVec 32) : (s.setWpos v).desc = s.desc := rfl
@[simp] theorem State.setWpos_msgNfields (s : State) (v : BitVec 32) : (s.setWpos v).msgNfields = s.msgNfields := rfl
@[simp] theorem State.setWpos_msgTypeId (s : State) (v : BitVec 32) : (s.setWpos v).msgTypeId = s.msgTypeId := rfl
@[simp] theorem State.setWpos_msgMaxb (s : State) (v : BitVec 32) : (s.setWpos v).msgMaxb = s.msgMaxb := rfl
@[simp] theorem State.setWpos_val (s : State) (v : BitVec 32) : (s.setWpos v).val = s.val := rfl
@[simp] theorem State.setWpos_vb (s : State) (v : BitVec 32) : (s.setWpos v).vb = s.vb := rfl
@[simp] theorem State.setWpos_routeTx (s : State) (v : BitVec 32) : (s.setWpos v).routeTx = s.routeTx := rfl
@[simp] theorem State.setWpos_routeRx (s : State) (v : BitVec 32) : (s.setWpos v).routeRx = s.routeRx := rfl
@[simp] theorem State.setWpos_tagRx (s : State) (v : BitVec 32) : (s.setWpos v).tagRx = s.tagRx := rfl
@[simp] theorem State.setWpos_port (s : State) (v : BitVec 32) : (s.setWpos v).port = s.port := rfl
@[simp] theorem State.setWpos_response (s : State) (v : BitVec 32) : (s.setWpos v).response = s.response := rfl
@[simp] theorem State.setWpos_draws (s : State) (v : BitVec 32) : (s.setWpos v).draws = s.draws := rfl

@[simp] theorem State.setIbuf_cfg (s : State) (v : Memory 8) : (s.setIbuf v).cfg = s.cfg := rfl
@[simp] theorem State.setIbuf_obuf (s : State) (v : Memory 8) : (s.setIbuf v).obuf = s.obuf := rfl
@[simp] theorem State.setIbuf_wpos (s : State) (v : Memory 8) : (s.setIbuf v).wpos = s.wpos := rfl
@[simp] theorem State.setIbuf_ibuf (s : State) (v : Memory 8) : (s.setIbuf v).ibuf = v := rfl
@[simp] theorem State.setIbuf_rlen (s : State) (v : Memory 8) : (s.setIbuf v).rlen = s.rlen := rfl
@[simp] theorem State.setIbuf_rpos (s : State) (v : Memory 8) : (s.setIbuf v).rpos = s.rpos := rfl
@[simp] theorem State.setIbuf_crcKind (s : State) (v : Memory 8) : (s.setIbuf v).crcKind = s.crcKind := rfl
@[simp] theorem State.setIbuf_crcAcc (s : State) (v : Memory 8) : (s.setIbuf v).crcAcc = s.crcAcc := rfl
@[simp] theorem State.setIbuf_desc (s : State) (v : Memory 8) : (s.setIbuf v).desc = s.desc := rfl
@[simp] theorem State.setIbuf_msgNfields (s : State) (v : Memory 8) : (s.setIbuf v).msgNfields = s.msgNfields := rfl
@[simp] theorem State.setIbuf_msgTypeId (s : State) (v : Memory 8) : (s.setIbuf v).msgTypeId = s.msgTypeId := rfl
@[simp] theorem State.setIbuf_msgMaxb (s : State) (v : Memory 8) : (s.setIbuf v).msgMaxb = s.msgMaxb := rfl
@[simp] theorem State.setIbuf_val (s : State) (v : Memory 8) : (s.setIbuf v).val = s.val := rfl
@[simp] theorem State.setIbuf_vb (s : State) (v : Memory 8) : (s.setIbuf v).vb = s.vb := rfl
@[simp] theorem State.setIbuf_routeTx (s : State) (v : Memory 8) : (s.setIbuf v).routeTx = s.routeTx := rfl
@[simp] theorem State.setIbuf_routeRx (s : State) (v : Memory 8) : (s.setIbuf v).routeRx = s.routeRx := rfl
@[simp] theorem State.setIbuf_tagRx (s : State) (v : Memory 8) : (s.setIbuf v).tagRx = s.tagRx := rfl
@[simp] theorem State.setIbuf_port (s : State) (v : Memory 8) : (s.setIbuf v).port = s.port := rfl
@[simp] theorem State.setIbuf_response (s : State) (v : Memory 8) : (s.setIbuf v).response = s.response := rfl
@[simp] theorem State.setIbuf_draws (s : State) (v : Memory 8) : (s.setIbuf v).draws = s.draws := rfl

@[simp] theorem State.setRlen_cfg (s : State) (v : BitVec 32) : (s.setRlen v).cfg = s.cfg := rfl
@[simp] theorem State.setRlen_obuf (s : State) (v : BitVec 32) : (s.setRlen v).obuf = s.obuf := rfl
@[simp] theorem State.setRlen_wpos (s : State) (v : BitVec 32) : (s.setRlen v).wpos = s.wpos := rfl
@[simp] theorem State.setRlen_ibuf (s : State) (v : BitVec 32) : (s.setRlen v).ibuf = s.ibuf := rfl
@[simp] theorem State.setRlen_rlen (s : State) (v : BitVec 32) : (s.setRlen v).rlen = v := rfl
@[simp] theorem State.setRlen_rpos (s : State) (v : BitVec 32) : (s.setRlen v).rpos = s.rpos := rfl
@[simp] theorem State.setRlen_crcKind (s : State) (v : BitVec 32) : (s.setRlen v).crcKind = s.crcKind := rfl
@[simp] theorem State.setRlen_crcAcc (s : State) (v : BitVec 32) : (s.setRlen v).crcAcc = s.crcAcc := rfl
@[simp] theorem State.setRlen_desc (s : State) (v : BitVec 32) : (s.setRlen v).desc = s.desc := rfl
@[simp] theorem State.setRlen_msgNfields (s : State) (v : BitVec 32) : (s.setRlen v).msgNfields = s.msgNfields := rfl
@[simp] theorem State.setRlen_msgTypeId (s : State) (v : BitVec 32) : (s.setRlen v).msgTypeId = s.msgTypeId := rfl
@[simp] theorem State.setRlen_msgMaxb (s : State) (v : BitVec 32) : (s.setRlen v).msgMaxb = s.msgMaxb := rfl
@[simp] theorem State.setRlen_val (s : State) (v : BitVec 32) : (s.setRlen v).val = s.val := rfl
@[simp] theorem State.setRlen_vb (s : State) (v : BitVec 32) : (s.setRlen v).vb = s.vb := rfl
@[simp] theorem State.setRlen_routeTx (s : State) (v : BitVec 32) : (s.setRlen v).routeTx = s.routeTx := rfl
@[simp] theorem State.setRlen_routeRx (s : State) (v : BitVec 32) : (s.setRlen v).routeRx = s.routeRx := rfl
@[simp] theorem State.setRlen_tagRx (s : State) (v : BitVec 32) : (s.setRlen v).tagRx = s.tagRx := rfl
@[simp] theorem State.setRlen_port (s : State) (v : BitVec 32) : (s.setRlen v).port = s.port := rfl
@[simp] theorem State.setRlen_response (s : State) (v : BitVec 32) : (s.setRlen v).response = s.response := rfl
@[simp] theorem State.setRlen_draws (s : State) (v : BitVec 32) : (s.setRlen v).draws = s.draws := rfl

@[simp] theorem State.setRpos_cfg (s : State) (v : BitVec 32) : (s.setRpos v).cfg = s.cfg := rfl
@[simp] theorem State.setRpos_obuf (s : State) (v : BitVec 32) : (s.setRpos v).obuf = s.obuf := rfl
@[simp] theorem State.setRpos_wpos (s : State) (v : BitVec 32) : (s.setRpos v).wpos = s.wpos := rfl
@[simp] theorem State.setRpos_ibuf (s : State) (v : BitVec 32) : (s.setRpos v).ibuf = s.ibuf := rfl
@[simp] theorem State.setRpos_rlen (s : State) (v : BitVec 32) : (s.setRpos v).rlen = s.rlen := rfl
@[simp] theorem State.setRpos_rpos (s : State) (v : BitVec 32) : (s.setRpos v).rpos = v := rfl
@[simp] theorem State.setRpos_crcKind (s : State) (v : BitVec 32) : (s.setRpos v).crcKind = s.crcKind := rfl
@[simp] theorem State.setRpos_crcAcc (s : State) (v : BitVec 32) : (s.setRpos v).crcAcc = s.crcAcc := rfl
@[simp] theorem State.setRpos_desc (s : State) (v : BitVec 32) : (s.setRpos v).desc = s.desc := rfl
@[simp] theorem State.setRpos_msgNfields (s : State) (v : BitVec 32) : (s.setRpos v).msgNfields = s.msgNfields := rfl
@[simp] theorem State.setRpos_msgTypeId (s : State) (v : BitVec 32) : (s.setRpos v).msgTypeId = s.msgTypeId := rfl
@[simp] theorem State.setRpos_msgMaxb (s : State) (v : BitVec 32) : (s.setRpos v).msgMaxb = s.msgMaxb := rfl
@[simp] theorem State.setRpos_val (s : State) (v : BitVec 32) : (s.setRpos v).val = s.val := rfl
@[simp] theorem State.setRpos_vb (s : State) (v : BitVec 32) : (s.setRpos v).vb = s.vb := rfl
@[simp] theorem State.setRpos_routeTx (s : State) (v : BitVec 32) : (s.setRpos v).routeTx = s.routeTx := rfl
@[simp] theorem State.setRpos_routeRx (s : State) (v : BitVec 32) : (s.setRpos v).routeRx = s.routeRx := rfl
@[simp] theorem State.setRpos_tagRx (s : State) (v : BitVec 32) : (s.setRpos v).tagRx = s.tagRx := rfl
@[simp] theorem State.setRpos_port (s : State) (v : BitVec 32) : (s.setRpos v).port = s.port := rfl
@[simp] theorem State.setRpos_response (s : State) (v : BitVec 32) : (s.setRpos v).response = s.response := rfl
@[simp] theorem State.setRpos_draws (s : State) (v : BitVec 32) : (s.setRpos v).draws = s.draws := rfl

@[simp] theorem State.setCrcKind_cfg (s : State) (v : BitVec 1) : (s.setCrcKind v).cfg = s.cfg := rfl
@[simp] theorem State.setCrcKind_obuf (s : State) (v : BitVec 1) : (s.setCrcKind v).obuf = s.obuf := rfl
@[simp] theorem State.setCrcKind_wpos (s : State) (v : BitVec 1) : (s.setCrcKind v).wpos = s.wpos := rfl
@[simp] theorem State.setCrcKind_ibuf (s : State) (v : BitVec 1) : (s.setCrcKind v).ibuf = s.ibuf := rfl
@[simp] theorem State.setCrcKind_rlen (s : State) (v : BitVec 1) : (s.setCrcKind v).rlen = s.rlen := rfl
@[simp] theorem State.setCrcKind_rpos (s : State) (v : BitVec 1) : (s.setCrcKind v).rpos = s.rpos := rfl
@[simp] theorem State.setCrcKind_crcKind (s : State) (v : BitVec 1) : (s.setCrcKind v).crcKind = v := rfl
@[simp] theorem State.setCrcKind_crcAcc (s : State) (v : BitVec 1) : (s.setCrcKind v).crcAcc = s.crcAcc := rfl
@[simp] theorem State.setCrcKind_desc (s : State) (v : BitVec 1) : (s.setCrcKind v).desc = s.desc := rfl
@[simp] theorem State.setCrcKind_msgNfields (s : State) (v : BitVec 1) : (s.setCrcKind v).msgNfields = s.msgNfields := rfl
@[simp] theorem State.setCrcKind_msgTypeId (s : State) (v : BitVec 1) : (s.setCrcKind v).msgTypeId = s.msgTypeId := rfl
@[simp] theorem State.setCrcKind_msgMaxb (s : State) (v : BitVec 1) : (s.setCrcKind v).msgMaxb = s.msgMaxb := rfl
@[simp] theorem State.setCrcKind_val (s : State) (v : BitVec 1) : (s.setCrcKind v).val = s.val := rfl
@[simp] theorem State.setCrcKind_vb (s : State) (v : BitVec 1) : (s.setCrcKind v).vb = s.vb := rfl
@[simp] theorem State.setCrcKind_routeTx (s : State) (v : BitVec 1) : (s.setCrcKind v).routeTx = s.routeTx := rfl
@[simp] theorem State.setCrcKind_routeRx (s : State) (v : BitVec 1) : (s.setCrcKind v).routeRx = s.routeRx := rfl
@[simp] theorem State.setCrcKind_tagRx (s : State) (v : BitVec 1) : (s.setCrcKind v).tagRx = s.tagRx := rfl
@[simp] theorem State.setCrcKind_port (s : State) (v : BitVec 1) : (s.setCrcKind v).port = s.port := rfl
@[simp] theorem State.setCrcKind_response (s : State) (v : BitVec 1) : (s.setCrcKind v).response = s.response := rfl
@[simp] theorem State.setCrcKind_draws (s : State) (v : BitVec 1) : (s.setCrcKind v).draws = s.draws := rfl

@[simp] theorem State.setCrcAcc_cfg (s : State) (v : BitVec 32) : (s.setCrcAcc v).cfg = s.cfg := rfl
@[simp] theorem State.setCrcAcc_obuf (s : State) (v : BitVec 32) : (s.setCrcAcc v).obuf = s.obuf := rfl
@[simp] theorem State.setCrcAcc_wpos (s : State) (v : BitVec 32) : (s.setCrcAcc v).wpos = s.wpos := rfl
@[simp] theorem State.setCrcAcc_ibuf (s : State) (v : BitVec 32) : (s.setCrcAcc v).ibuf = s.ibuf := rfl
@[simp] theorem State.setCrcAcc_rlen (s : State) (v : BitVec 32) : (s.setCrcAcc v).rlen = s.rlen := rfl
@[simp] theorem State.setCrcAcc_rpos (s : State) (v : BitVec 32) : (s.setCrcAcc v).rpos = s.rpos := rfl
@[simp] theorem State.setCrcAcc_crcKind (s : State) (v : BitVec 32) : (s.setCrcAcc v).crcKind = s.crcKind := rfl
@[simp] theorem State.setCrcAcc_crcAcc (s : State) (v : BitVec 32) : (s.setCrcAcc v).crcAcc = v := rfl
@[simp] theorem State.setCrcAcc_desc (s : State) (v : BitVec 32) : (s.setCrcAcc v).desc = s.desc := rfl
@[simp] theorem State.setCrcAcc_msgNfields (s : State) (v : BitVec 32) : (s.setCrcAcc v).msgNfields = s.msgNfields := rfl
@[simp] theorem State.setCrcAcc_msgTypeId (s : State) (v : BitVec 32) : (s.setCrcAcc v).msgTypeId = s.msgTypeId := rfl
@[simp] theorem State.setCrcAcc_msgMaxb (s : State) (v : BitVec 32) : (s.setCrcAcc v).msgMaxb = s.msgMaxb := rfl
@[simp] theorem State.setCrcAcc_val (s : State) (v : BitVec 32) : (s.setCrcAcc v).val = s.val := rfl
@[simp] theorem State.setCrcAcc_vb (s : State) (v : BitVec 32) : (s.setCrcAcc v).vb = s.vb := rfl
@[simp] theorem State.setCrcAcc_routeTx (s : State) (v : BitVec 32) : (s.setCrcAcc v).routeTx = s.routeTx := rfl
@[simp] theorem State.setCrcAcc_routeRx (s : State) (v : BitVec 32) : (s.setCrcAcc v).routeRx = s.routeRx := rfl
@[simp] theorem State.setCrcAcc_tagRx (s : State) (v : BitVec 32) : (s.setCrcAcc v).tagRx = s.tagRx := rfl
@[simp] theorem State.setCrcAcc_port (s : State) (v : BitVec 32) : (s.setCrcAcc v).port = s.port := rfl
@[simp] theorem State.setCrcAcc_response (s : State) (v : BitVec 32) : (s.setCrcAcc v).response = s.response := rfl
@[simp] theorem State.setCrcAcc_draws (s : State) (v : BitVec 32) : (s.setCrcAcc v).draws = s.draws := rfl

@[simp] theorem State.setDesc_cfg (s : State) (v : Memory 64) : (s.setDesc v).cfg = s.cfg := rfl
@[simp] theorem State.setDesc_obuf (s : State) (v : Memory 64) : (s.setDesc v).obuf = s.obuf := rfl
@[simp] theorem State.setDesc_wpos (s : State) (v : Memory 64) : (s.setDesc v).wpos = s.wpos := rfl
@[simp] theorem State.setDesc_ibuf (s : State) (v : Memory 64) : (s.setDesc v).ibuf = s.ibuf := rfl
@[simp] theorem State.setDesc_rlen (s : State) (v : Memory 64) : (s.setDesc v).rlen = s.rlen := rfl
@[simp] theorem State.setDesc_rpos (s : State) (v : Memory 64) : (s.setDesc v).rpos = s.rpos := rfl
@[simp] theorem State.setDesc_crcKind (s : State) (v : Memory 64) : (s.setDesc v).crcKind = s.crcKind := rfl
@[simp] theorem State.setDesc_crcAcc (s : State) (v : Memory 64) : (s.setDesc v).crcAcc = s.crcAcc := rfl
@[simp] theorem State.setDesc_desc (s : State) (v : Memory 64) : (s.setDesc v).desc = v := rfl
@[simp] theorem State.setDesc_msgNfields (s : State) (v : Memory 64) : (s.setDesc v).msgNfields = s.msgNfields := rfl
@[simp] theorem State.setDesc_msgTypeId (s : State) (v : Memory 64) : (s.setDesc v).msgTypeId = s.msgTypeId := rfl
@[simp] theorem State.setDesc_msgMaxb (s : State) (v : Memory 64) : (s.setDesc v).msgMaxb = s.msgMaxb := rfl
@[simp] theorem State.setDesc_val (s : State) (v : Memory 64) : (s.setDesc v).val = s.val := rfl
@[simp] theorem State.setDesc_vb (s : State) (v : Memory 64) : (s.setDesc v).vb = s.vb := rfl
@[simp] theorem State.setDesc_routeTx (s : State) (v : Memory 64) : (s.setDesc v).routeTx = s.routeTx := rfl
@[simp] theorem State.setDesc_routeRx (s : State) (v : Memory 64) : (s.setDesc v).routeRx = s.routeRx := rfl
@[simp] theorem State.setDesc_tagRx (s : State) (v : Memory 64) : (s.setDesc v).tagRx = s.tagRx := rfl
@[simp] theorem State.setDesc_port (s : State) (v : Memory 64) : (s.setDesc v).port = s.port := rfl
@[simp] theorem State.setDesc_response (s : State) (v : Memory 64) : (s.setDesc v).response = s.response := rfl
@[simp] theorem State.setDesc_draws (s : State) (v : Memory 64) : (s.setDesc v).draws = s.draws := rfl

@[simp] theorem State.setMsgNfields_cfg (s : State) (v : BitVec 32) : (s.setMsgNfields v).cfg = s.cfg := rfl
@[simp] theorem State.setMsgNfields_obuf (s : State) (v : BitVec 32) : (s.setMsgNfields v).obuf = s.obuf := rfl
@[simp] theorem State.setMsgNfields_wpos (s : State) (v : BitVec 32) : (s.setMsgNfields v).wpos = s.wpos := rfl
@[simp] theorem State.setMsgNfields_ibuf (s : State) (v : BitVec 32) : (s.setMsgNfields v).ibuf = s.ibuf := rfl
@[simp] theorem State.setMsgNfields_rlen (s : State) (v : BitVec 32) : (s.setMsgNfields v).rlen = s.rlen := rfl
@[simp] theorem State.setMsgNfields_rpos (s : State) (v : BitVec 32) : (s.setMsgNfields v).rpos = s.rpos := rfl
@[simp] theorem State.setMsgNfields_crcKind (s : State) (v : BitVec 32) : (s.setMsgNfields v).crcKind = s.crcKind := rfl
@[simp] theorem State.setMsgNfields_crcAcc (s : State) (v : BitVec 32) : (s.setMsgNfields v).crcAcc = s.crcAcc := rfl
@[simp] theorem State.setMsgNfields_desc (s : State) (v : BitVec 32) : (s.setMsgNfields v).desc = s.desc := rfl
@[simp] theorem State.setMsgNfields_msgNfields (s : State) (v : BitVec 32) : (s.setMsgNfields v).msgNfields = v := rfl
@[simp] theorem State.setMsgNfields_msgTypeId (s : State) (v : BitVec 32) : (s.setMsgNfields v).msgTypeId = s.msgTypeId := rfl
@[simp] theorem State.setMsgNfields_msgMaxb (s : State) (v : BitVec 32) : (s.setMsgNfields v).msgMaxb = s.msgMaxb := rfl
@[simp] theorem State.setMsgNfields_val (s : State) (v : BitVec 32) : (s.setMsgNfields v).val = s.val := rfl
@[simp] theorem State.setMsgNfields_vb (s : State) (v : BitVec 32) : (s.setMsgNfields v).vb = s.vb := rfl
@[simp] theorem State.setMsgNfields_routeTx (s : State) (v : BitVec 32) : (s.setMsgNfields v).routeTx = s.routeTx := rfl
@[simp] theorem State.setMsgNfields_routeRx (s : State) (v : BitVec 32) : (s.setMsgNfields v).routeRx = s.routeRx := rfl
@[simp] theorem State.setMsgNfields_tagRx (s : State) (v : BitVec 32) : (s.setMsgNfields v).tagRx = s.tagRx := rfl
@[simp] theorem State.setMsgNfields_port (s : State) (v : BitVec 32) : (s.setMsgNfields v).port = s.port := rfl
@[simp] theorem State.setMsgNfields_response (s : State) (v : BitVec 32) : (s.setMsgNfields v).response = s.response := rfl
@[simp] theorem State.setMsgNfields_draws (s : State) (v : BitVec 32) : (s.setMsgNfields v).draws = s.draws := rfl

@[simp] theorem State.setMsgTypeId_cfg (s : State) (v : BitVec 17) : (s.setMsgTypeId v).cfg = s.cfg := rfl
@[simp] theorem State.setMsgTypeId_obuf (s : State) (v : BitVec 17) : (s.setMsgTypeId v).obuf = s.obuf := rfl
@[simp] theorem State.setMsgTypeId_wpos (s : State) (v : BitVec 17) : (s.setMsgTypeId v).wpos = s.wpos := rfl
@[simp] theorem State.setMsgTypeId_ibuf (s : State) (v : BitVec 17) : (s.setMsgTypeId v).ibuf = s.ibuf := rfl
@[simp] theorem State.setMsgTypeId_rlen (s : State) (v : BitVec 17) : (s.setMsgTypeId v).rlen = s.rlen := rfl
@[simp] theorem State.setMsgTypeId_rpos (s : State) (v : BitVec 17) : (s.setMsgTypeId v).rpos = s.rpos := rfl
@[simp] theorem State.setMsgTypeId_crcKind (s : State) (v : BitVec 17) : (s.setMsgTypeId v).crcKind = s.crcKind := rfl
@[simp] theorem State.setMsgTypeId_crcAcc (s : State) (v : BitVec 17) : (s.setMsgTypeId v).crcAcc = s.crcAcc := rfl
@[simp] theorem State.setMsgTypeId_desc (s : State) (v : BitVec 17) : (s.setMsgTypeId v).desc = s.desc := rfl
@[simp] theorem State.setMsgTypeId_msgNfields (s : State) (v : BitVec 17) : (s.setMsgTypeId v).msgNfields = s.msgNfields := rfl
@[simp] theorem State.setMsgTypeId_msgTypeId (s : State) (v : BitVec 17) : (s.setMsgTypeId v).msgTypeId = v := rfl
@[simp] theorem State.setMsgTypeId_msgMaxb (s : State) (v : BitVec 17) : (s.setMsgTypeId v).msgMaxb = s.msgMaxb := rfl
@[simp] theorem State.setMsgTypeId_val (s : State) (v : BitVec 17) : (s.setMsgTypeId v).val = s.val := rfl
@[simp] theorem State.setMsgTypeId_vb (s : State) (v : BitVec 17) : (s.setMsgTypeId v).vb = s.vb := rfl
@[simp] theorem State.setMsgTypeId_routeTx (s : State) (v : BitVec 17) : (s.setMsgTypeId v).routeTx = s.routeTx := rfl
@[simp] theorem State.setMsgTypeId_routeRx (s : State) (v : BitVec 17) : (s.setMsgTypeId v).routeRx = s.routeRx := rfl
@[simp] theorem State.setMsgTypeId_tagRx (s : State) (v : BitVec 17) : (s.setMsgTypeId v).tagRx = s.tagRx := rfl
@[simp] theorem State.setMsgTypeId_port (s : State) (v : BitVec 17) : (s.setMsgTypeId v).port = s.port := rfl
@[simp] theorem State.setMsgTypeId_response (s : State) (v : BitVec 17) : (s.setMsgTypeId v).response = s.response := rfl
@[simp] theorem State.setMsgTypeId_draws (s : State) (v : BitVec 17) : (s.setMsgTypeId v).draws = s.draws := rfl

@[simp] theorem State.setMsgMaxb_cfg (s : State) (v : BitVec 33) : (s.setMsgMaxb v).cfg = s.cfg := rfl
@[simp] theorem State.setMsgMaxb_obuf (s : State) (v : BitVec 33) : (s.setMsgMaxb v).obuf = s.obuf := rfl
@[simp] theorem State.setMsgMaxb_wpos (s : State) (v : BitVec 33) : (s.setMsgMaxb v).wpos = s.wpos := rfl
@[simp] theorem State.setMsgMaxb_ibuf (s : State) (v : BitVec 33) : (s.setMsgMaxb v).ibuf = s.ibuf := rfl
@[simp] theorem State.setMsgMaxb_rlen (s : State) (v : BitVec 33) : (s.setMsgMaxb v).rlen = s.rlen := rfl
@[simp] theorem State.setMsgMaxb_rpos (s : State) (v : BitVec 33) : (s.setMsgMaxb v).rpos = s.rpos := rfl
@[simp] theorem State.setMsgMaxb_crcKind (s : State) (v : BitVec 33) : (s.setMsgMaxb v).crcKind = s.crcKind := rfl
@[simp] theorem State.setMsgMaxb_crcAcc (s : State) (v : BitVec 33) : (s.setMsgMaxb v).crcAcc = s.crcAcc := rfl
@[simp] theorem State.setMsgMaxb_desc (s : State) (v : BitVec 33) : (s.setMsgMaxb v).desc = s.desc := rfl
@[simp] theorem State.setMsgMaxb_msgNfields (s : State) (v : BitVec 33) : (s.setMsgMaxb v).msgNfields = s.msgNfields := rfl
@[simp] theorem State.setMsgMaxb_msgTypeId (s : State) (v : BitVec 33) : (s.setMsgMaxb v).msgTypeId = s.msgTypeId := rfl
@[simp] theorem State.setMsgMaxb_msgMaxb (s : State) (v : BitVec 33) : (s.setMsgMaxb v).msgMaxb = v := rfl
@[simp] theorem State.setMsgMaxb_val (s : State) (v : BitVec 33) : (s.setMsgMaxb v).val = s.val := rfl
@[simp] theorem State.setMsgMaxb_vb (s : State) (v : BitVec 33) : (s.setMsgMaxb v).vb = s.vb := rfl
@[simp] theorem State.setMsgMaxb_routeTx (s : State) (v : BitVec 33) : (s.setMsgMaxb v).routeTx = s.routeTx := rfl
@[simp] theorem State.setMsgMaxb_routeRx (s : State) (v : BitVec 33) : (s.setMsgMaxb v).routeRx = s.routeRx := rfl
@[simp] theorem State.setMsgMaxb_tagRx (s : State) (v : BitVec 33) : (s.setMsgMaxb v).tagRx = s.tagRx := rfl
@[simp] theorem State.setMsgMaxb_port (s : State) (v : BitVec 33) : (s.setMsgMaxb v).port = s.port := rfl
@[simp] theorem State.setMsgMaxb_response (s : State) (v : BitVec 33) : (s.setMsgMaxb v).response = s.response := rfl
@[simp] theorem State.setMsgMaxb_draws (s : State) (v : BitVec 33) : (s.setMsgMaxb v).draws = s.draws := rfl

@[simp] theorem State.setVal_cfg (s : State) (v : Memory 64) : (s.setVal v).cfg = s.cfg := rfl
@[simp] theorem State.setVal_obuf (s : State) (v : Memory 64) : (s.setVal v).obuf = s.obuf := rfl
@[simp] theorem State.setVal_wpos (s : State) (v : Memory 64) : (s.setVal v).wpos = s.wpos := rfl
@[simp] theorem State.setVal_ibuf (s : State) (v : Memory 64) : (s.setVal v).ibuf = s.ibuf := rfl
@[simp] theorem State.setVal_rlen (s : State) (v : Memory 64) : (s.setVal v).rlen = s.rlen := rfl
@[simp] theorem State.setVal_rpos (s : State) (v : Memory 64) : (s.setVal v).rpos = s.rpos := rfl
@[simp] theorem State.setVal_crcKind (s : State) (v : Memory 64) : (s.setVal v).crcKind = s.crcKind := rfl
@[simp] theorem State.setVal_crcAcc (s : State) (v : Memory 64) : (s.setVal v).crcAcc = s.crcAcc := rfl
@[simp] theorem State.setVal_desc (s : State) (v : Memory 64) : (s.setVal v).desc = s.desc := rfl
@[simp] theorem State.setVal_msgNfields (s : State) (v : Memory 64) : (s.setVal v).msgNfields = s.msgNfields := rfl
@[simp] theorem State.setVal_msgTypeId (s : State) (v : Memory 64) : (s.setVal v).msgTypeId = s.msgTypeId := rfl
@[simp] theorem State.setVal_msgMaxb (s : State) (v : Memory 64) : (s.setVal v).msgMaxb = s.msgMaxb := rfl
@[simp] theorem State.setVal_val (s : State) (v : Memory 64) : (s.setVal v).val = v := rfl
@[simp] theorem State.setVal_vb (s : State) (v : Memory 64) : (s.setVal v).vb = s.vb := rfl
@[simp] theorem State.setVal_routeTx (s : State) (v : Memory 64) : (s.setVal v).routeTx = s.routeTx := rfl
@[simp] theorem State.setVal_routeRx (s : State) (v : Memory 64) : (s.setVal v).routeRx = s.routeRx := rfl
@[simp] theorem State.setVal_tagRx (s : State) (v : Memory 64) : (s.setVal v).tagRx = s.tagRx := rfl
@[simp] theorem State.setVal_port (s : State) (v : Memory 64) : (s.setVal v).port = s.port := rfl
@[simp] theorem State.setVal_response (s : State) (v : Memory 64) : (s.setVal v).response = s.response := rfl
@[simp] theorem State.setVal_draws (s : State) (v : Memory 64) : (s.setVal v).draws = s.draws := rfl

@[simp] theorem State.setVb_cfg (s : State) (v : Memory 8) : (s.setVb v).cfg = s.cfg := rfl
@[simp] theorem State.setVb_obuf (s : State) (v : Memory 8) : (s.setVb v).obuf = s.obuf := rfl
@[simp] theorem State.setVb_wpos (s : State) (v : Memory 8) : (s.setVb v).wpos = s.wpos := rfl
@[simp] theorem State.setVb_ibuf (s : State) (v : Memory 8) : (s.setVb v).ibuf = s.ibuf := rfl
@[simp] theorem State.setVb_rlen (s : State) (v : Memory 8) : (s.setVb v).rlen = s.rlen := rfl
@[simp] theorem State.setVb_rpos (s : State) (v : Memory 8) : (s.setVb v).rpos = s.rpos := rfl
@[simp] theorem State.setVb_crcKind (s : State) (v : Memory 8) : (s.setVb v).crcKind = s.crcKind := rfl
@[simp] theorem State.setVb_crcAcc (s : State) (v : Memory 8) : (s.setVb v).crcAcc = s.crcAcc := rfl
@[simp] theorem State.setVb_desc (s : State) (v : Memory 8) : (s.setVb v).desc = s.desc := rfl
@[simp] theorem State.setVb_msgNfields (s : State) (v : Memory 8) : (s.setVb v).msgNfields = s.msgNfields := rfl
@[simp] theorem State.setVb_msgTypeId (s : State) (v : Memory 8) : (s.setVb v).msgTypeId = s.msgTypeId := rfl
@[simp] theorem State.setVb_msgMaxb (s : State) (v : Memory 8) : (s.setVb v).msgMaxb = s.msgMaxb := rfl
@[simp] theorem State.setVb_val (s : State) (v : Memory 8) : (s.setVb v).val = s.val := rfl
@[simp] theorem State.setVb_vb (s : State) (v : Memory 8) : (s.setVb v).vb = v := rfl
@[simp] theorem State.setVb_routeTx (s : State) (v : Memory 8) : (s.setVb v).routeTx = s.routeTx := rfl
@[simp] theorem State.setVb_routeRx (s : State) (v : Memory 8) : (s.setVb v).routeRx = s.routeRx := rfl
@[simp] theorem State.setVb_tagRx (s : State) (v : Memory 8) : (s.setVb v).tagRx = s.tagRx := rfl
@[simp] theorem State.setVb_port (s : State) (v : Memory 8) : (s.setVb v).port = s.port := rfl
@[simp] theorem State.setVb_response (s : State) (v : Memory 8) : (s.setVb v).response = s.response := rfl
@[simp] theorem State.setVb_draws (s : State) (v : Memory 8) : (s.setVb v).draws = s.draws := rfl

@[simp] theorem State.setRouteTx_cfg (s : State) (v : BitVec 19) : (s.setRouteTx v).cfg = s.cfg := rfl
@[simp] theorem State.setRouteTx_obuf (s : State) (v : BitVec 19) : (s.setRouteTx v).obuf = s.obuf := rfl
@[simp] theorem State.setRouteTx_wpos (s : State) (v : BitVec 19) : (s.setRouteTx v).wpos = s.wpos := rfl
@[simp] theorem State.setRouteTx_ibuf (s : State) (v : BitVec 19) : (s.setRouteTx v).ibuf = s.ibuf := rfl
@[simp] theorem State.setRouteTx_rlen (s : State) (v : BitVec 19) : (s.setRouteTx v).rlen = s.rlen := rfl
@[simp] theorem State.setRouteTx_rpos (s : State) (v : BitVec 19) : (s.setRouteTx v).rpos = s.rpos := rfl
@[simp] theorem State.setRouteTx_crcKind (s : State) (v : BitVec 19) : (s.setRouteTx v).crcKind = s.crcKind := rfl
@[simp] theorem State.setRouteTx_crcAcc (s : State) (v : BitVec 19) : (s.setRouteTx v).crcAcc = s.crcAcc := rfl
@[simp] theorem State.setRouteTx_desc (s : State) (v : BitVec 19) : (s.setRouteTx v).desc = s.desc := rfl
@[simp] theorem State.setRouteTx_msgNfields (s : State) (v : BitVec 19) : (s.setRouteTx v).msgNfields = s.msgNfields := rfl
@[simp] theorem State.setRouteTx_msgTypeId (s : State) (v : BitVec 19) : (s.setRouteTx v).msgTypeId = s.msgTypeId := rfl
@[simp] theorem State.setRouteTx_msgMaxb (s : State) (v : BitVec 19) : (s.setRouteTx v).msgMaxb = s.msgMaxb := rfl
@[simp] theorem State.setRouteTx_val (s : State) (v : BitVec 19) : (s.setRouteTx v).val = s.val := rfl
@[simp] theorem State.setRouteTx_vb (s : State) (v : BitVec 19) : (s.setRouteTx v).vb = s.vb := rfl
@[simp] theorem State.setRouteTx_routeTx (s : State) (v : BitVec 19) : (s.setRouteTx v).routeTx = v := rfl
@[simp] theorem State.setRouteTx_routeRx (s : State) (v : BitVec 19) : (s.setRouteTx v).routeRx = s.routeRx := rfl
@[simp] theorem State.setRouteTx_tagRx (s : State) (v : BitVec 19) : (s.setRouteTx v).tagRx = s.tagRx := rfl
@[simp] theorem State.setRouteTx_port (s : State) (v : BitVec 19) : (s.setRouteTx v).port = s.port := rfl
@[simp] theorem State.setRouteTx_response (s : State) (v : BitVec 19) : (s.setRouteTx v).response = s.response := rfl
@[simp] theorem State.setRouteTx_draws (s : State) (v : BitVec 19) : (s.setRouteTx v).draws = s.draws := rfl

@[simp] theorem State.setRouteRx_cfg (s : State) (v : BitVec 19) : (s.setRouteRx v).cfg = s.cfg := rfl
@[simp] theorem State.setRouteRx_obuf (s : State) (v : BitVec 19) : (s.setRouteRx v).obuf = s.obuf := rfl
@[simp] theorem State.setRouteRx_wpos (s : State) (v : BitVec 19) : (s.setRouteRx v).wpos = s.wpos := rfl
@[simp] theorem State.setRouteRx_ibuf (s : State) (v : BitVec 19) : (s.setRouteRx v).ibuf = s.ibuf := rfl
@[simp] theorem State.setRouteRx_rlen (s : State) (v : BitVec 19) : (s.setRouteRx v).rlen = s.rlen := rfl
@[simp] theorem State.setRouteRx_rpos (s : State) (v : BitVec 19) : (s.setRouteRx v).rpos = s.rpos := rfl
@[simp] theorem State.setRouteRx_crcKind (s : State) (v : BitVec 19) : (s.setRouteRx v).crcKind = s.crcKind := rfl
@[simp] theorem State.setRouteRx_crcAcc (s : State) (v : BitVec 19) : (s.setRouteRx v).crcAcc = s.crcAcc := rfl
@[simp] theorem State.setRouteRx_desc (s : State) (v : BitVec 19) : (s.setRouteRx v).desc = s.desc := rfl
@[simp] theorem State.setRouteRx_msgNfields (s : State) (v : BitVec 19) : (s.setRouteRx v).msgNfields = s.msgNfields := rfl
@[simp] theorem State.setRouteRx_msgTypeId (s : State) (v : BitVec 19) : (s.setRouteRx v).msgTypeId = s.msgTypeId := rfl
@[simp] theorem State.setRouteRx_msgMaxb (s : State) (v : BitVec 19) : (s.setRouteRx v).msgMaxb = s.msgMaxb := rfl
@[simp] theorem State.setRouteRx_val (s : State) (v : BitVec 19) : (s.setRouteRx v).val = s.val := rfl
@[simp] theorem State.setRouteRx_vb (s : State) (v : BitVec 19) : (s.setRouteRx v).vb = s.vb := rfl
@[simp] theorem State.setRouteRx_routeTx (s : State) (v : BitVec 19) : (s.setRouteRx v).routeTx = s.routeTx := rfl
@[simp] theorem State.setRouteRx_routeRx (s : State) (v : BitVec 19) : (s.setRouteRx v).routeRx = v := rfl
@[simp] theorem State.setRouteRx_tagRx (s : State) (v : BitVec 19) : (s.setRouteRx v).tagRx = s.tagRx := rfl
@[simp] theorem State.setRouteRx_port (s : State) (v : BitVec 19) : (s.setRouteRx v).port = s.port := rfl
@[simp] theorem State.setRouteRx_response (s : State) (v : BitVec 19) : (s.setRouteRx v).response = s.response := rfl
@[simp] theorem State.setRouteRx_draws (s : State) (v : BitVec 19) : (s.setRouteRx v).draws = s.draws := rfl

@[simp] theorem State.setTagRx_cfg (s : State) (v : BitVec 16) : (s.setTagRx v).cfg = s.cfg := rfl
@[simp] theorem State.setTagRx_obuf (s : State) (v : BitVec 16) : (s.setTagRx v).obuf = s.obuf := rfl
@[simp] theorem State.setTagRx_wpos (s : State) (v : BitVec 16) : (s.setTagRx v).wpos = s.wpos := rfl
@[simp] theorem State.setTagRx_ibuf (s : State) (v : BitVec 16) : (s.setTagRx v).ibuf = s.ibuf := rfl
@[simp] theorem State.setTagRx_rlen (s : State) (v : BitVec 16) : (s.setTagRx v).rlen = s.rlen := rfl
@[simp] theorem State.setTagRx_rpos (s : State) (v : BitVec 16) : (s.setTagRx v).rpos = s.rpos := rfl
@[simp] theorem State.setTagRx_crcKind (s : State) (v : BitVec 16) : (s.setTagRx v).crcKind = s.crcKind := rfl
@[simp] theorem State.setTagRx_crcAcc (s : State) (v : BitVec 16) : (s.setTagRx v).crcAcc = s.crcAcc := rfl
@[simp] theorem State.setTagRx_desc (s : State) (v : BitVec 16) : (s.setTagRx v).desc = s.desc := rfl
@[simp] theorem State.setTagRx_msgNfields (s : State) (v : BitVec 16) : (s.setTagRx v).msgNfields = s.msgNfields := rfl
@[simp] theorem State.setTagRx_msgTypeId (s : State) (v : BitVec 16) : (s.setTagRx v).msgTypeId = s.msgTypeId := rfl
@[simp] theorem State.setTagRx_msgMaxb (s : State) (v : BitVec 16) : (s.setTagRx v).msgMaxb = s.msgMaxb := rfl
@[simp] theorem State.setTagRx_val (s : State) (v : BitVec 16) : (s.setTagRx v).val = s.val := rfl
@[simp] theorem State.setTagRx_vb (s : State) (v : BitVec 16) : (s.setTagRx v).vb = s.vb := rfl
@[simp] theorem State.setTagRx_routeTx (s : State) (v : BitVec 16) : (s.setTagRx v).routeTx = s.routeTx := rfl
@[simp] theorem State.setTagRx_routeRx (s : State) (v : BitVec 16) : (s.setTagRx v).routeRx = s.routeRx := rfl
@[simp] theorem State.setTagRx_tagRx (s : State) (v : BitVec 16) : (s.setTagRx v).tagRx = v := rfl
@[simp] theorem State.setTagRx_port (s : State) (v : BitVec 16) : (s.setTagRx v).port = s.port := rfl
@[simp] theorem State.setTagRx_response (s : State) (v : BitVec 16) : (s.setTagRx v).response = s.response := rfl
@[simp] theorem State.setTagRx_draws (s : State) (v : BitVec 16) : (s.setTagRx v).draws = s.draws := rfl

@[simp] theorem State.setPort_cfg (s : State) (v : List PortInput) : (s.setPort v).cfg = s.cfg := rfl
@[simp] theorem State.setPort_obuf (s : State) (v : List PortInput) : (s.setPort v).obuf = s.obuf := rfl
@[simp] theorem State.setPort_wpos (s : State) (v : List PortInput) : (s.setPort v).wpos = s.wpos := rfl
@[simp] theorem State.setPort_ibuf (s : State) (v : List PortInput) : (s.setPort v).ibuf = s.ibuf := rfl
@[simp] theorem State.setPort_rlen (s : State) (v : List PortInput) : (s.setPort v).rlen = s.rlen := rfl
@[simp] theorem State.setPort_rpos (s : State) (v : List PortInput) : (s.setPort v).rpos = s.rpos := rfl
@[simp] theorem State.setPort_crcKind (s : State) (v : List PortInput) : (s.setPort v).crcKind = s.crcKind := rfl
@[simp] theorem State.setPort_crcAcc (s : State) (v : List PortInput) : (s.setPort v).crcAcc = s.crcAcc := rfl
@[simp] theorem State.setPort_desc (s : State) (v : List PortInput) : (s.setPort v).desc = s.desc := rfl
@[simp] theorem State.setPort_msgNfields (s : State) (v : List PortInput) : (s.setPort v).msgNfields = s.msgNfields := rfl
@[simp] theorem State.setPort_msgTypeId (s : State) (v : List PortInput) : (s.setPort v).msgTypeId = s.msgTypeId := rfl
@[simp] theorem State.setPort_msgMaxb (s : State) (v : List PortInput) : (s.setPort v).msgMaxb = s.msgMaxb := rfl
@[simp] theorem State.setPort_val (s : State) (v : List PortInput) : (s.setPort v).val = s.val := rfl
@[simp] theorem State.setPort_vb (s : State) (v : List PortInput) : (s.setPort v).vb = s.vb := rfl
@[simp] theorem State.setPort_routeTx (s : State) (v : List PortInput) : (s.setPort v).routeTx = s.routeTx := rfl
@[simp] theorem State.setPort_routeRx (s : State) (v : List PortInput) : (s.setPort v).routeRx = s.routeRx := rfl
@[simp] theorem State.setPort_tagRx (s : State) (v : List PortInput) : (s.setPort v).tagRx = s.tagRx := rfl
@[simp] theorem State.setPort_port (s : State) (v : List PortInput) : (s.setPort v).port = v := rfl
@[simp] theorem State.setPort_response (s : State) (v : List PortInput) : (s.setPort v).response = s.response := rfl
@[simp] theorem State.setPort_draws (s : State) (v : List PortInput) : (s.setPort v).draws = s.draws := rfl

@[simp] theorem State.setResponse_cfg (s : State) (v : Option Response) : (s.setResponse v).cfg = s.cfg := rfl
@[simp] theorem State.setResponse_obuf (s : State) (v : Option Response) : (s.setResponse v).obuf = s.obuf := rfl
@[simp] theorem State.setResponse_wpos (s : State) (v : Option Response) : (s.setResponse v).wpos = s.wpos := rfl
@[simp] theorem State.setResponse_ibuf (s : State) (v : Option Response) : (s.setResponse v).ibuf = s.ibuf := rfl
@[simp] theorem State.setResponse_rlen (s : State) (v : Option Response) : (s.setResponse v).rlen = s.rlen := rfl
@[simp] theorem State.setResponse_rpos (s : State) (v : Option Response) : (s.setResponse v).rpos = s.rpos := rfl
@[simp] theorem State.setResponse_crcKind (s : State) (v : Option Response) : (s.setResponse v).crcKind = s.crcKind := rfl
@[simp] theorem State.setResponse_crcAcc (s : State) (v : Option Response) : (s.setResponse v).crcAcc = s.crcAcc := rfl
@[simp] theorem State.setResponse_desc (s : State) (v : Option Response) : (s.setResponse v).desc = s.desc := rfl
@[simp] theorem State.setResponse_msgNfields (s : State) (v : Option Response) : (s.setResponse v).msgNfields = s.msgNfields := rfl
@[simp] theorem State.setResponse_msgTypeId (s : State) (v : Option Response) : (s.setResponse v).msgTypeId = s.msgTypeId := rfl
@[simp] theorem State.setResponse_msgMaxb (s : State) (v : Option Response) : (s.setResponse v).msgMaxb = s.msgMaxb := rfl
@[simp] theorem State.setResponse_val (s : State) (v : Option Response) : (s.setResponse v).val = s.val := rfl
@[simp] theorem State.setResponse_vb (s : State) (v : Option Response) : (s.setResponse v).vb = s.vb := rfl
@[simp] theorem State.setResponse_routeTx (s : State) (v : Option Response) : (s.setResponse v).routeTx = s.routeTx := rfl
@[simp] theorem State.setResponse_routeRx (s : State) (v : Option Response) : (s.setResponse v).routeRx = s.routeRx := rfl
@[simp] theorem State.setResponse_tagRx (s : State) (v : Option Response) : (s.setResponse v).tagRx = s.tagRx := rfl
@[simp] theorem State.setResponse_port (s : State) (v : Option Response) : (s.setResponse v).port = s.port := rfl
@[simp] theorem State.setResponse_response (s : State) (v : Option Response) : (s.setResponse v).response = v := rfl
@[simp] theorem State.setResponse_draws (s : State) (v : Option Response) : (s.setResponse v).draws = s.draws := rfl

@[simp] theorem State.setDraws_cfg (s : State) (v : Nat) : (s.setDraws v).cfg = s.cfg := rfl
@[simp] theorem State.setDraws_obuf (s : State) (v : Nat) : (s.setDraws v).obuf = s.obuf := rfl
@[simp] theorem State.setDraws_wpos (s : State) (v : Nat) : (s.setDraws v).wpos = s.wpos := rfl
@[simp] theorem State.setDraws_ibuf (s : State) (v : Nat) : (s.setDraws v).ibuf = s.ibuf := rfl
@[simp] theorem State.setDraws_rlen (s : State) (v : Nat) : (s.setDraws v).rlen = s.rlen := rfl
@[simp] theorem State.setDraws_rpos (s : State) (v : Nat) : (s.setDraws v).rpos = s.rpos := rfl
@[simp] theorem State.setDraws_crcKind (s : State) (v : Nat) : (s.setDraws v).crcKind = s.crcKind := rfl
@[simp] theorem State.setDraws_crcAcc (s : State) (v : Nat) : (s.setDraws v).crcAcc = s.crcAcc := rfl
@[simp] theorem State.setDraws_desc (s : State) (v : Nat) : (s.setDraws v).desc = s.desc := rfl
@[simp] theorem State.setDraws_msgNfields (s : State) (v : Nat) : (s.setDraws v).msgNfields = s.msgNfields := rfl
@[simp] theorem State.setDraws_msgTypeId (s : State) (v : Nat) : (s.setDraws v).msgTypeId = s.msgTypeId := rfl
@[simp] theorem State.setDraws_msgMaxb (s : State) (v : Nat) : (s.setDraws v).msgMaxb = s.msgMaxb := rfl
@[simp] theorem State.setDraws_val (s : State) (v : Nat) : (s.setDraws v).val = s.val := rfl
@[simp] theorem State.setDraws_vb (s : State) (v : Nat) : (s.setDraws v).vb = s.vb := rfl
@[simp] theorem State.setDraws_routeTx (s : State) (v : Nat) : (s.setDraws v).routeTx = s.routeTx := rfl
@[simp] theorem State.setDraws_routeRx (s : State) (v : Nat) : (s.setDraws v).routeRx = s.routeRx := rfl
@[simp] theorem State.setDraws_tagRx (s : State) (v : Nat) : (s.setDraws v).tagRx = s.tagRx := rfl
@[simp] theorem State.setDraws_port (s : State) (v : Nat) : (s.setDraws v).port = s.port := rfl
@[simp] theorem State.setDraws_response (s : State) (v : Nat) : (s.setDraws v).response = s.response := rfl
@[simp] theorem State.setDraws_draws (s : State) (v : Nat) : (s.setDraws v).draws = v := rfl

end Sys2Proof.Machine
end

