-- ==== Sys2Proof/Laws/Ops.lean ====
section
/-! SUPPORT. The laws of the shared operations: what the steps of a command can come to, what PutBits and GetBits can
do, said once, and what answering, clearing and resetting leave. -/

namespace Sys2Proof.Machine

/-! ### Steps -/

@[simp] theorem Eff.bind_ok {α β : Type} (a : α) (s : State) (f : α → State → Eff β) :
    (Eff.ok a s).bind f = f a s := rfl

@[simp] theorem Eff.bind_raise {α β : Type} (e : CmdError) (s : State) (f : α → State → Eff β) :
    (Eff.raise e s : Eff α).bind f = .raise e s := rfl

/-- Two steps complete exactly when the first does and the second does from there. -/
theorem Eff.bind_eq_ok {α β : Type} {x : Eff α} {f : α → State → Eff β} {b : β} {t : State} :
    x.bind f = .ok b t ↔ ∃ a u, x = .ok a u ∧ f a u = .ok b t := by
  cases x with
  | ok a u => simp
  | raise e u => simp

/-- Two steps raise an error exactly when the first does, or the second does after it. -/
theorem Eff.bind_eq_raise {α β : Type} {x : Eff α} {f : α → State → Eff β} {e : CmdError} {t : State} :
    x.bind f = .raise e t ↔ x = .raise e t ∨ ∃ a u, x = .ok a u ∧ f a u = .raise e t := by
  cases x with
  | ok a u => simp
  | raise e u => simp

@[simp] theorem Eff.state_ok {α : Type} (a : α) (s : State) : (Eff.ok a s).state = s := rfl
@[simp] theorem Eff.state_raise {α : Type} (e : CmdError) (s : State) : (Eff.raise e s : Eff α).state = s := rfl

/-! ### Answers -/

@[simp] theorem answer_ok (v : Word64) (s : State) : answer (.ok v s) = s.setResponse (some (okResponse v)) := rfl
@[simp] theorem answer_raise (e : CmdError) (s : State) :
    answer (.raise e s) = s.setResponse (some (errorResponse e)) := rfl

/-- A command ends in a next state, which is that of its steps but for the response. -/
theorem respond_eq (x : Eff Word64) : ∃ r, respond x = .next (x.state.setResponse (some r)) := by
  cases x with
  | ok v s => exact ⟨_, rfl⟩
  | raise e s => exact ⟨_, rfl⟩

@[simp] theorem okResponse_status (v : Word64) : (okResponse v).status = 0#32 := rfl
@[simp] theorem okResponse_result (v : Word64) : (okResponse v).result = v := rfl
@[simp] theorem errorResponse_result (e : CmdError) : (errorResponse e).result = 0#64 := rfl
@[simp] theorem errorResponse_status (e : CmdError) : (errorResponse e).status = statusWord e := rfl

/-! ### PutBits and GetBits -/

/-- The state after PutBits has written `n` bits of `v`. -/
theorem putBits_fits {v n : Nat} {st : Stage} {f : Nat} {s : State} (h : s.wpos.toNat + n ≤ 8 * s.cfg.obufBytes) :
    putBits v n st f s =
      .ok () ((s.setObuf (writeBits s.obuf s.wpos.toNat v n)).setWpos (BitVec.ofNat 32 (s.wpos.toNat + n))) := by
  rw [putBits, if_neg (by omega)]

theorem putBits_full {v n : Nat} {st : Stage} {f : Nat} {s : State} (h : 8 * s.cfg.obufBytes < s.wpos.toNat + n) :
    putBits v n st f s = .raise ⟨.capacityObufFull, st, f⟩ s := by
  rw [putBits, if_pos h]

/-- All that PutBits can do when it completes. -/
theorem putBits_eq_ok {v n : Nat} {st : Stage} {f : Nat} {s t : State} {u : Unit} :
    putBits v n st f s = .ok u t ↔ s.wpos.toNat + n ≤ 8 * s.cfg.obufBytes ∧
      t = (s.setObuf (writeBits s.obuf s.wpos.toNat v n)).setWpos (BitVec.ofNat 32 (s.wpos.toNat + n)) := by
  by_cases h : s.wpos.toNat + n ≤ 8 * s.cfg.obufBytes
  · rw [putBits_fits h]; simp [h, eq_comm]
  · rw [putBits_full (by omega)]; simp [h]

theorem getBits_fits {n : Nat} {e : CmdError} {s : State} (h : s.rpos.toNat + n ≤ 8 * s.rlen.toNat) :
    getBits n e s =
      .ok (readBits s.ibufAt s.rpos.toNat n) (s.setRpos (BitVec.ofNat 32 (s.rpos.toNat + n))) := by
  rw [getBits, if_neg (by omega)]

theorem getBits_short {n : Nat} {e : CmdError} {s : State} (h : 8 * s.rlen.toNat < s.rpos.toNat + n) :
    getBits n e s = .raise e s := by
  rw [getBits, if_pos h]

/-- All that GetBits can do when it completes. -/
theorem getBits_eq_ok {n : Nat} {e : CmdError} {s t : State} {v : Nat} :
    getBits n e s = .ok v t ↔ s.rpos.toNat + n ≤ 8 * s.rlen.toNat ∧ v = readBits s.ibufAt s.rpos.toNat n ∧
      t = s.setRpos (BitVec.ofNat 32 (s.rpos.toNat + n)) := by
  by_cases h : s.rpos.toNat + n ≤ 8 * s.rlen.toNat
  · rw [getBits_fits h]; simp [h, eq_comm]
  · rw [getBits_short (by omega)]; simp [h]

/-! ### Reads after writes -/

@[simp] theorem State.obufAt_eq (s : State) : s.obufAt = obufByte s.obuf := rfl

/-- IBUF after a byte is written to it. -/
theorem State.ibufAt_writeIbuf (s : State) (a : Nat) (v : Byte) (b : Nat) :
    (s.writeIbuf a v).ibufAt b = if a = b then v else s.ibufAt b := ramRead_memWrite _ _ _ _ _

/-- VAL after a slot is written. -/
theorem State.valAt_writeVal (s : State) (a : Nat) (v : Word64) (b : Nat) :
    (s.writeVal a v).valAt b = if a = b then v else s.valAt b := ramRead_memWrite _ _ _ _ _

/-- DESC after a word is written, for words below 65536. -/
theorem State.descAt_writeDesc (s : State) (slot word : Nat) (v : Word64) (i j : Nat) (hw : word < 65536)
    (hj : j < 65536) :
    (s.writeDesc slot word v).descAt i j = if slot = i ∧ word = j then v else s.descAt i j := by
  rw [State.descAt, State.writeDesc, State.setDesc_desc, ramRead_memWrite]
  unfold descKey
  by_cases h : slot = i ∧ word = j
  · rw [if_pos (by rw [h.1, h.2]), if_pos h]
  · rw [if_neg (by omega), if_neg h]; rfl

/-- VB after a byte is written, for bytes below 65536. -/
theorem State.vbAt_writeVb (s : State) (slot k : Nat) (v : Byte) (i j : Nat) (hk : k < 65536) (hj : j < 65536) :
    (s.writeVb slot k v).vbAt i j = if slot = i ∧ k = j then v else s.vbAt i j := by
  rw [State.vbAt, State.writeVb, State.setVb_vb, ramRead_memWrite]
  unfold vbKey
  by_cases h : slot = i ∧ k = j
  · rw [if_pos (by rw [h.1, h.2]), if_pos h]
  · rw [if_neg (by omega), if_neg h]; rfl

/-! ### Clearing and resetting -/

theorem clearWriter_eq (s : State) : clearWriter s = (s.setObuf []).setWpos 0#32 := rfl

/-- A cleared OBUF reads 0 everywhere. -/
@[simp] theorem obufByte_nil (a : Nat) : obufByte [] a = 0#8 := rfl

@[simp] theorem streamBit_obuf_nil (p : Nat) : streamBit (obufByte []) p = false := by
  simp [streamBit]

/-- Reset as updates of single fields (70_reset_and_hazards.md R340). -/
theorem performReset_eq (s : State) :
    performReset s =
      ((((((((((((s.setObuf []).setWpos 0#32).setRlen 0#32).setRpos 0#32).setCrcKind 0#1).setCrcAcc
        0x0000FFFF#32).setMsgNfields 0#32).setMsgTypeId 0#17).setMsgMaxb 0#33).setRouteTx 0#19).setRouteRx
        0#19).setTagRx 0#16) := rfl

end Sys2Proof.Machine
end

