-- ==== Sys2Proof/Laws/Exec.lean ====
section
/-! SUPPORT. What every command has in common, and one equation of the step function for each kind of port input. -/

namespace Sys2Proof.Machine

/-- Every instruction answers, in a next state (60_exceptions.md R300). -/
theorem exec_eq_respond (i : Instr) (s : State) : ∃ x, exec i s = respond x := by
  cases i <;> exact ⟨_, rfl⟩

theorem exec_next (i : Instr) (s : State) : ∃ t, exec i s = .next t := by
  obtain ⟨x, h⟩ := exec_eq_respond i s
  exact ⟨answer x, h⟩

/-! ### One equation for each instruction: `exec` of it is its meaning -/

theorem exec_nop (s : State) : exec .nop s = respond (.ok 0#64 s) := rfl

theorem exec_wClear (s : State) : exec .wClear s = respond (.ok 0#64 (clearWriter s)) := rfl

theorem exec_wBool (bit : BitVec 1) (s : State) :
    exec (.wBool bit) s = respond (putPlain (opUnsigned bit) 1 s) := rfl

theorem exec_wUint (n : BitVec 8) (w : Word64) (s : State) :
    exec (.wUint n w) s = respond (putUint (opUnsigned n) (opUnsigned w) s) := rfl

theorem exec_wInt (n : BitVec 8) (w : Word64) (s : State) :
    exec (.wInt n w) s = respond (putInt (opUnsigned n) (opSigned w) s) := rfl

theorem exec_wByte (byte : Byte) (s : State) :
    exec (.wByte byte) s = respond (putPlain (opUnsigned byte) 8 s) := rfl

theorem exec_wFinish (s : State) : exec .wFinish s = respond (.ok (BitVec.ofNat 64 s.outLen) s) := rfl

theorem exec_wPos (s : State) : exec .wPos s = respond (.ok (s.wpos.setWidth 64) s) := rfl

theorem exec_rRewind (s : State) : exec .rRewind s = respond (.ok 0#64 (s.setRpos 0#32)) := rfl

theorem exec_rBool (s : State) : exec .rBool s = respond (getZext 1 s) := rfl

theorem exec_rUint (n : BitVec 8) (s : State) : exec (.rUint n) s = respond (getUint (opUnsigned n) s) := rfl

theorem exec_rInt (n : BitVec 8) (s : State) : exec (.rInt n) s = respond (getInt (opUnsigned n) s) := rfl

theorem exec_rByte (s : State) : exec .rByte s = respond (getZext 8 s) := rfl

theorem exec_rPos (s : State) : exec .rPos s = respond (.ok (s.rpos.setWidth 64) s) := rfl

theorem exec_crcInit (kind : BitVec 1) (s : State) :
    exec (.crcInit kind) s = respond (.ok 0#64 ((s.setCrcKind kind).setCrcAcc (crcStart kind))) := rfl

theorem exec_crcByte (byte : Byte) (s : State) :
    exec (.crcByte byte) s = respond (.ok 0#64 (s.setCrcAcc (crcStep s.crcKind s.crcAcc byte))) := rfl

theorem exec_crcRead (s : State) : exec .crcRead s = respond (.ok (crcValue s.crcKind s.crcAcc) s) := rfl

theorem exec_crcCheck (v : Word64) (s : State) :
    exec (.crcCheck v) s =
      respond
        (if opUnsigned v ≠ opUnsigned (crcValue s.crcKind s.crcAcc) then .raise (plainError .framingCrcMismatch) s
         else .ok (crcValue s.crcKind s.crcAcc) s) := rfl

theorem exec_crcObuf (s : State) :
    exec .crcObuf s = respond (.ok 0#64 (s.setCrcAcc (crcFeed s.crcKind s.obufAt 0 s.outLen s.crcAcc))) := rfl

theorem exec_crcIbuf (w : Word64) (s : State) :
    exec (.crcIbuf w) s =
      respond
        (if s.rlen.toNat < spanStart w + spanCount w then .raise (plainError .rangeSpan) s
         else .ok 0#64 (s.setCrcAcc (crcFeed s.crcKind s.ibufAt (spanStart w) (spanCount w) s.crcAcc))) := rfl

theorem exec_encodeMsg (mode : BitVec 2) (s : State) :
    exec (.encodeMsg mode) s = respond (runEncode (opUnsigned mode) s) := rfl

theorem exec_decodeMsg (mode : BitVec 2) (s : State) :
    exec (.decodeMsg mode) s = respond (runDecode (opUnsigned mode) s) := rfl

theorem exec_peekTag (s : State) :
    exec .peekTag s =
      respond
        (if s.rlen.toNat = 0 then .raise ⟨.decEmptyInput, .tag, 0⟩ s
         else (decTag (s.setRpos 0#32)).bind fun id t => .ok (BitVec.ofNat 64 id) (t.setTagRx (BitVec.ofNat 16 id))) := rfl

theorem exec_width (slot : BitVec 8) (s : State) :
    exec (.width slot) s =
      respond
        (if !slotOk s slot then .raise (plainError .rangeAddr) s
         else
           match validateField s (opUnsigned slot) with
           | .error e => .raise e s
           | .ok k => .ok (BitVec.ofNat 64 (fieldWidth k)) s) := rfl

theorem exec_csrRd (csr : BitVec 16) (s : State) :
    exec (.csrRd csr) s =
      respond
        (match csrOfNumber csr with
         | none => .raise (plainError .illegalCsr) s
         | some c => .ok (csrValue s c) s) := rfl

theorem exec_csrWr (csr : BitVec 16) (v : Word64) (s : State) :
    exec (.csrWr csr v) s =
      respond
        (match csrOfNumber csr with
         | none => .raise (plainError .illegalCsr) s
         | some c => csrWrite s v c) := rfl

theorem exec_ibWr (addr : BitVec 24) (v : Word64) (s : State) :
    exec (.ibWr addr v) s =
      respond
        (if s.cfg.ibufBytes ≤ opUnsigned addr then .raise (plainError .rangeAddr) s
         else if 255 < opUnsigned v then .raise (plainError .rangeByte) s
         else .ok 0#64 (s.writeIbuf (opUnsigned addr) (operandByte v))) := rfl

theorem exec_ibRd (addr : BitVec 24) (s : State) :
    exec (.ibRd addr) s =
      respond
        (if s.cfg.ibufBytes ≤ opUnsigned addr then .raise (plainError .rangeAddr) s
         else .ok ((s.ibufAt (opUnsigned addr)).setWidth 64) s) := rfl

theorem exec_obRd (addr : BitVec 24) (s : State) :
    exec (.obRd addr) s =
      respond
        (if s.cfg.obufBytes ≤ opUnsigned addr then .raise (plainError .rangeAddr) s
         else .ok ((s.obufAt (opUnsigned addr)).setWidth 64) s) := rfl

theorem exec_descWr (slot : BitVec 8) (word : BitVec 16) (v : Word64) (s : State) :
    exec (.descWr slot word v) s =
      respond
        (if !descOk s slot word then .raise (plainError .rangeAddr) s
         else .ok 0#64 (s.writeDesc (opUnsigned slot) (opUnsigned word) v)) := rfl

theorem exec_descRd (slot : BitVec 8) (word : BitVec 16) (s : State) :
    exec (.descRd slot word) s =
      respond
        (if !descOk s slot word then .raise (plainError .rangeAddr) s
         else .ok (s.descAt (opUnsigned slot) (opUnsigned word)) s) := rfl

theorem exec_valWr (slot : BitVec 8) (v : Word64) (s : State) :
    exec (.valWr slot v) s =
      respond
        (if !slotOk s slot then .raise (plainError .rangeAddr) s else .ok 0#64 (s.writeVal (opUnsigned slot) v)) := rfl

theorem exec_valRd (slot : BitVec 8) (s : State) :
    exec (.valRd slot) s = respond (if !slotOk s slot then .raise (plainError .rangeAddr) s else .ok (s.valAt (opUnsigned slot)) s) := rfl

theorem exec_vbWr (slot : BitVec 8) (k : BitVec 16) (v : Word64) (s : State) :
    exec (.vbWr slot k v) s =
      respond
        (if !vbOk s slot k then .raise (plainError .rangeAddr) s
         else if 255 < opUnsigned v then .raise (plainError .rangeByte) s
         else .ok 0#64 (s.writeVb (opUnsigned slot) (opUnsigned k) (operandByte v))) := rfl

theorem exec_vbRd (slot : BitVec 8) (k : BitVec 16) (s : State) :
    exec (.vbRd slot k) s =
      respond
        (if !vbOk s slot k then .raise (plainError .rangeAddr) s
         else .ok ((s.vbAt (opUnsigned slot) (opUnsigned k)).setWidth 64) s) := rfl

theorem exec_reset (s : State) : exec .reset s = respond (.ok 0#64 (performReset s)) := rfl

/-! ### The step function -/

/-- A command that decodes is run. -/
theorem runCommand_ok {c : Command} {i : Instr} (s : State) (h : decode c = .ok i) : runCommand c s = exec i s := by
  rw [runCommand, h]

/-- A command that fails a decode check is answered. -/
theorem runCommand_error {c : Command} {r : Reject} (s : State) (h : decode c = .error r) :
    runCommand c s = respondReject r s := by
  rw [runCommand, h]

theorem runCommand_next (c : Command) (s : State) : ∃ t, runCommand c s = .next t := by
  cases h : decode c with
  | ok i => rw [runCommand_ok s h]; exact exec_next i s
  | error r => rw [runCommand_error s h]; exact ⟨_, rfl⟩

theorem step_idle {s : State} (h : s.port = []) : step s = .next s := by
  rw [step, h]

theorem step_command {s : State} {c : Command} {rest : List PortInput} (h : s.port = .command c :: rest) :
    step s = runCommand c (s.setPort rest) := by
  rw [step, h]; rfl

theorem step_resetInput {s : State} {rest : List PortInput} (h : s.port = .resetInput :: rest) :
    step s = .next (applyResetInput (s.setPort rest)) := by
  rw [step, h]; rfl

theorem step_resetDuring {s t : State} {c : Command} {rest : List PortInput}
    (h : s.port = .resetDuring c :: rest) (ht : runCommand c (s.setPort rest) = .next t) :
    step s = .next (abandonCommand (s.setPort rest) t) := by
  rw [step, h]
  show abandonOutcome _ (runCommand c (s.setPort rest)) = _
  rw [ht]; rfl

end Sys2Proof.Machine
end

