-- ==== Sys2Proof/Laws/Inv.lean ====
section
/-! SUPPORT. The invariant: from its checkable form, and through the operations that every command is made of. -/

namespace Sys2Proof.Safety

open Sys2Proof.Machine

/-- The zero tail of the listed bytes is the zero tail of the stream. -/
theorem zeroTail_of_listed {s : State} (h : ZeroTailListed s) (p : Nat) (hp : s.wpos.toNat ≤ p) :
    streamBit s.obufAt p = false := by
  unfold streamBit State.obufAt obufByte
  cases hm : memLookup s.obuf (p / 8) with
  | none => simp
  | some v =>
    exact h (p / 8, v) (mem_of_memLookup hm) (p % 8) (Nat.mod_lt _ (by omega)) (by omega)

theorem inv_of_check {s : State} (h : InvCheck s) : Inv s := by
  obtain ⟨hc, ⟨w1, w2, w3, w4, w5⟩, ⟨i1, i2, i3, i4, i5⟩, r1, r2, r3, r4, r5, r6⟩ := h
  exact ⟨hc, w1, w2, w3, w4, w5, i1, i2, i3, i4, i5, r1, zeroTail_of_listed r2, r3, r4, r5, r6⟩

/-- Under legal parameters WPOS is far from wrapping: a position inside OBUF fits 32 bits. -/
theorem Inv.wpos_add {s : State} (h : Inv s) {n : Nat} (hn : s.wpos.toNat + n ≤ 8 * s.cfg.obufBytes) :
    (BitVec.ofNat 32 (s.wpos.toNat + n)).toNat = s.wpos.toNat + n := by
  have := h.cfg.2.1.2
  rw [BitVec.toNat_ofNat]; exact Nat.mod_eq_of_lt (by omega)

/-- And so is RPOS. -/
theorem Inv.rpos_add {s : State} (h : Inv s) {n : Nat} (hn : s.rpos.toNat + n ≤ 8 * s.rlen.toNat) :
    (BitVec.ofNat 32 (s.rpos.toNat + n)).toNat = s.rpos.toNat + n := by
  have := h.cfg.1.2
  have := h.rlenLe
  rw [BitVec.toNat_ofNat]; exact Nat.mod_eq_of_lt (by omega)

/-- A response never matters to the invariant. -/
theorem Inv.setResponse {s : State} (h : Inv s) (r : Option Response) : Inv (s.setResponse r) := by
  cases h; constructor <;> assumption

/-- PutBits keeps the invariant. -/
theorem Inv.putBits {s t : State} (h : Inv s) {v n : Nat} {st : Stage} {f : Nat} {u : Unit}
    (ht : Machine.putBits v n st f s = .ok u t) : Inv t := by
  obtain ⟨hfit, rfl⟩ := putBits_eq_ok.1 ht
  have hw := h.wpos_add hfit
  refine ⟨h.cfg, writeBits_wf h.obufWf _ _ _, h.ibufWf, h.descWf, h.valWf, h.vbWf, ?_, h.ibufIn, h.descIn, h.valIn,
    h.vbIn, ?_, ?_, h.rlenLe, h.rposLe, h.nfieldsLe, h.crcHigh⟩
  · intro c hc
    rcases mem_writeBits hc with hc | hc
    · show c.1 < s.cfg.obufBytes
      omega
    · exact h.obufIn c hc
  · show (BitVec.ofNat 32 (s.wpos.toNat + n)).toNat ≤ 8 * s.cfg.obufBytes
    omega
  · intro p hp
    replace hp : s.wpos.toNat + n ≤ p := by
      rw [← hw]; exact hp
    show streamBit (obufByte (writeBits s.obuf s.wpos.toNat v n)) p = false
    rw [streamBit_writeBits h.obufWf, if_neg (by omega)]
    exact h.zeroTail p (by omega)

/-- GetBits keeps the invariant. -/
theorem Inv.getBits {s t : State} (h : Inv s) {n : Nat} {e : CmdError} {v : Nat}
    (ht : Machine.getBits n e s = .ok v t) : Inv t := by
  obtain ⟨hfit, -, rfl⟩ := getBits_eq_ok.1 ht
  have hw := h.rpos_add hfit
  refine ⟨h.cfg, h.obufWf, h.ibufWf, h.descWf, h.valWf, h.vbWf, h.obufIn, h.ibufIn, h.descIn, h.valIn, h.vbIn,
    h.wposLe, h.zeroTail, h.rlenLe, ?_, h.nfieldsLe, h.crcHigh⟩
  show (BitVec.ofNat 32 (s.rpos.toNat + n)).toNat ≤ 8 * s.rlen.toNat
  omega

end Sys2Proof.Safety
end

