-- ==== Sys2Proof/Laws/Wire.lean ====
section
/-! SUPPORT. Fields in a bit stream, and what one step of ENCODE or DECODE does: how far it moves its position, what it
leaves of everything else, and that such steps compose. -/

namespace Sys2Proof.Safety

open Sys2Proof.Machine

/-! ### Fields in a stream -/

/-- The field at a position is the number read there. -/
theorem fieldAt_iff {f : Nat → Byte} {p n v : Nat} : FieldAt f p n v ↔ v = readBits f p n := by
  constructor
  · rintro ⟨hv, hb⟩
    apply Nat.eq_of_testBit_eq
    intro j
    rw [testBit_readBits]
    by_cases hj : j < n
    · rw [if_pos hj, ← hb (n - 1 - j) (by omega)]; congr 1; omega
    · rw [if_neg hj, Nat.testBit_lt_two_pow (lt_of_lt_of_le hv (Nat.pow_le_pow_right (by omega) (by omega)))]
  · rintro rfl
    refine ⟨readBits_lt _ _ _, fun j hj => ?_⟩
    rw [testBit_readBits, if_pos (by omega)]; congr 2; omega

theorem fieldAt_congr {f g : Nat → Byte} {p n v : Nat} (h : ∀ q, p ≤ q → q < p + n → streamBit g q = streamBit f q)
    (hf : FieldAt f p n v) : FieldAt g p n v := by
  refine ⟨hf.1, fun j hj => ?_⟩
  rw [hf.2 j hj, h _ (by omega) (by omega)]

/-- What a field is on the wire depends only on the bits it occupies. -/
theorem fieldOnWire_congr {f g : Nat → Byte} {p i : Nat} {s : State} {k : FieldKind}
    (h : ∀ q, p ≤ q → q < p + fieldWidth k → streamBit g q = streamBit f q) (hf : FieldOnWire f p s i k) :
    FieldOnWire g p s i k := by
  cases k with
  | bool => exact fieldAt_congr h hf
  | int min max => exact fieldAt_congr h hf
  | float fmin fmax prec m =>
    obtain ⟨v, h1, h2, h3⟩ := hf
    exact ⟨v, h1, h2, fieldAt_congr h h3⟩
  | enum n => exact fieldAt_congr h hf
  | bytes len =>
    intro j hj
    exact fieldAt_congr (fun q h1 h2 => h q (by omega) (by simp only [fieldWidth]; omega)) (hf j hj)
  | str len =>
    intro j hj
    exact fieldAt_congr (fun q h1 h2 => h q (by omega) (by simp only [fieldWidth]; omega)) (hf j hj)

theorem lt_two_pow_widthFor (m : Nat) : m < 2 ^ widthFor m := by
  unfold widthFor bitlen
  split_ifs with h
  · subst h; decide
  · exact Nat.lt_log2_self

/-- The width of 0..m is the ceiling of the base-2 logarithm of m + 1, and at least 1. -/
theorem widthFor_le_iff {m w : Nat} (hw : 1 ≤ w) : widthFor m ≤ w ↔ m < 2 ^ w := by
  constructor
  · exact fun h => lt_of_lt_of_le (lt_two_pow_widthFor m) (Nat.pow_le_pow_right (by omega) h)
  · intro h
    unfold widthFor bitlen
    split_ifs with h0
    · exact hw
    · exact (Nat.log2_lt h0).2 h

/-! ### Steps that write -/

/-- `t` is `s` with `n` more bits written: only OBUF and WPOS differ, and no bit below the old WPOS does. -/
structure Wrote (s t : State) (n : Nat) : Prop where
  only : t = (s.setObuf t.obuf).setWpos t.wpos
  pos : t.wpos.toNat = s.wpos.toNat + n
  keep : ∀ p < s.wpos.toNat, streamBit t.obufAt p = streamBit s.obufAt p
  inv : Inv t

namespace Wrote

theorem refl {s : State} (h : Inv s) : Wrote s s 0 := ⟨rfl, rfl, fun _ _ => rfl, h⟩

theorem trans {s t u : State} {n m : Nat} (h1 : Wrote s t n) (h2 : Wrote t u m) : Wrote s u (n + m) := by
  refine ⟨?_, ?_, ?_, h2.inv⟩
  · calc u = (t.setObuf u.obuf).setWpos u.wpos := h2.only
      _ = (((s.setObuf t.obuf).setWpos t.wpos).setObuf u.obuf).setWpos u.wpos := by rw [← h1.only]
      _ = (s.setObuf u.obuf).setWpos u.wpos := rfl
  · rw [h2.pos, h1.pos]; omega
  · intro p hp
    rw [h2.keep p (by rw [h1.pos]; omega), h1.keep p hp]

variable {s t : State} {n : Nat}

theorem cfg (h : Wrote s t n) : t.cfg = s.cfg := by rw [h.only]; rfl
theorem valAt (h : Wrote s t n) (i : Nat) : t.valAt i = s.valAt i := by rw [h.only]; rfl
theorem vbAt (h : Wrote s t n) (i k : Nat) : t.vbAt i k = s.vbAt i k := by rw [h.only]; rfl
theorem vbBytes (h : Wrote s t n) (i len : Nat) : Machine.vbBytes t i len = Machine.vbBytes s i len := by
  rw [h.only]; rfl
theorem typeId (h : Wrote s t n) : t.typeId = s.typeId := by rw [h.only]; rfl
theorem typeIdValid (h : Wrote s t n) : t.typeIdValid = s.typeIdValid := by rw [h.only]; rfl
theorem maxBytes (h : Wrote s t n) : t.maxBytes = s.maxBytes := by rw [h.only]; rfl
theorem maxBytesValid (h : Wrote s t n) : t.maxBytesValid = s.maxBytesValid := by rw [h.only]; rfl
theorem routeTx (h : Wrote s t n) : t.routeTx = s.routeTx := by rw [h.only]; rfl

/-- What a field is on the wire is the same seen from either state. -/
theorem fieldOnWire (h : Wrote s t n) {f : Nat → Byte} {p i : Nat} {k : FieldKind} :
    FieldOnWire f p t i k ↔ FieldOnWire f p s i k := by
  rw [h.only]; cases k <;> exact Iff.rfl

theorem valueOk (h : Wrote s t n) {i : Nat} {k : FieldKind} : ValueOk t i k ↔ ValueOk s i k := by
  rw [h.only]; cases k <;> exact Iff.rfl

end Wrote

/-- PutBits, where its bits fit, appends them. -/
theorem putBits_wrote {s : State} (hi : Inv s) {v n : Nat} (hv : v < 2 ^ n) (st : Stage) (f : Nat)
    (hfit : s.wpos.toNat + n ≤ 8 * s.cfg.obufBytes) :
    ∃ t, putBits v n st f s = .ok () t ∧ Wrote s t n ∧ FieldAt t.obufAt s.wpos.toNat n v := by
  refine ⟨_, putBits_fits hfit, ⟨rfl, hi.wpos_add hfit, ?_, hi.putBits (putBits_fits (v := v) (st := st) (f := f) hfit)⟩,
    ?_⟩
  · intro p hp
    show streamBit (obufByte (writeBits s.obuf s.wpos.toNat v n)) p = _
    rw [streamBit_writeBits hi.obufWf, if_neg (by omega)]; rfl
  · exact fieldAt_iff.2 (readBits_writeBits hi.obufWf hv).symm

/-! ### Steps that read -/

/-- `t` is `s` with `n` more bits consumed: only RPOS, VAL and VB differ. -/
structure Took (s t : State) (n : Nat) : Prop where
  only : t = ((s.setRpos t.rpos).setVal t.val).setVb t.vb
  pos : t.rpos.toNat = s.rpos.toNat + n
  inv : Inv t

namespace Took

theorem refl {s : State} (h : Inv s) : Took s s 0 := ⟨rfl, rfl, h⟩

theorem trans {s t u : State} {n m : Nat} (h1 : Took s t n) (h2 : Took t u m) : Took s u (n + m) := by
  refine ⟨?_, ?_, h2.inv⟩
  · calc u = ((t.setRpos u.rpos).setVal u.val).setVb u.vb := h2.only
      _ = (((((s.setRpos t.rpos).setVal t.val).setVb t.vb).setRpos u.rpos).setVal u.val).setVb u.vb := by
        rw [← h1.only]
      _ = ((s.setRpos u.rpos).setVal u.val).setVb u.vb := rfl
  · rw [h2.pos, h1.pos]; omega

variable {s t : State} {n : Nat}

theorem cfg (h : Took s t n) : t.cfg = s.cfg := by rw [h.only]; rfl
theorem ibufAt (h : Took s t n) : t.ibufAt = s.ibufAt := by rw [h.only]; rfl
theorem rlen (h : Took s t n) : t.rlen = s.rlen := by rw [h.only]; rfl

end Took

/-- GetBits, where enough bits are left, answers the field at RPOS. -/
theorem getBits_took {s : State} (hi : Inv s) {n : Nat} (e : CmdError)
    (hfit : s.rpos.toNat + n ≤ 8 * s.rlen.toNat) :
    ∃ t, getBits n e s = .ok (readBits s.ibufAt s.rpos.toNat n) t ∧ Took s t n ∧ t.val = s.val ∧ t.vb = s.vb :=
  ⟨_, getBits_fits hfit, ⟨rfl, hi.rpos_add hfit, hi.getBits (getBits_fits (e := e) hfit)⟩, rfl, rfl⟩

end Sys2Proof.Safety
end

