-- ==== Sys2Proof/Laws/DecodeField.lean ====
section
/-! SUPPORT. What DecField does (44_descriptors.md R213), said once for each way it can end. -/

namespace Sys2Proof.Safety

open Sys2Proof.Machine

/-- Writing a value slot that exists keeps the invariant. -/
theorem Inv.writeVal {s : State} (h : Inv s) {i : Nat} (v : Word64) (hi : i < s.cfg.maxFields) :
    Inv (s.writeVal i v) := by
  refine ⟨h.cfg, h.obufWf, h.ibufWf, h.descWf, memWrite_wf _ _ h.valWf, h.vbWf, h.obufIn, h.ibufIn, h.descIn, ?_,
    h.vbIn, h.wposLe, h.zeroTail, h.rlenLe, h.rposLe, h.nfieldsLe, h.crcHigh⟩
  intro c hc
  replace hc : c ∈ memWrite ramUnlisted s.val i v := hc
  rcases mem_memWrite hc with hc | hc
  · rw [hc]; exact hi
  · exact h.valIn c hc

/-- Writing a byte that exists keeps the invariant. -/
theorem Inv.writeVb {s : State} (h : Inv s) {i k : Nat} (v : Byte) (hi : i < s.cfg.maxFields)
    (hk : k < s.cfg.maxFieldBytes) : Inv (s.writeVb i k v) := by
  have hb := h.cfg.2.2.2.2
  refine ⟨h.cfg, h.obufWf, h.ibufWf, h.descWf, h.valWf, memWrite_wf _ _ h.vbWf, h.obufIn, h.ibufIn, h.descIn, h.valIn,
    ?_, h.wposLe, h.zeroTail, h.rlenLe, h.rposLe, h.nfieldsLe, h.crcHigh⟩
  intro c hc
  replace hc : c ∈ memWrite ramUnlisted s.vb (vbKey i k) v := hc
  rcases mem_memWrite hc with hc | hc
  · rw [hc]
    show vbKey i k / 65536 < s.cfg.maxFields ∧ vbKey i k % 65536 < s.cfg.maxFieldBytes
    unfold vbKey
    rw [show (i * 65536 + k) / 65536 = i by omega, show (i * 65536 + k) % 65536 = k by omega]
    exact ⟨hi, hk⟩
  · exact h.vbIn c hc

/-- What DecField of slot `i` leaves of the value slots: every other slot, and of its own slot the bytes from `len` on. -/
structure SlotOnly (s t : State) (i len : Nat) : Prop where
  val : ∀ j, j ≠ i → t.valAt j = s.valAt j
  vb : ∀ j l, l < 65536 → (j ≠ i ∨ len ≤ l) → t.vbAt j l = s.vbAt j l

theorem SlotOnly.of_eq {s t : State} {i len : Nat} (hv : t.val = s.val) (hb : t.vb = s.vb) : SlotOnly s t i len :=
  ⟨fun j _ => by rw [State.valAt, hv]; rfl, fun j l _ _ => by rw [State.vbAt, hb]; rfl⟩

theorem SlotOnly.trans {s t u : State} {i len : Nat} (h1 : SlotOnly s t i len) (h2 : SlotOnly t u i len) :
    SlotOnly s u i len :=
  ⟨fun j hj => (h2.val j hj).trans (h1.val j hj), fun j l hl h => (h2.vb j l hl h).trans (h1.vb j l hl h)⟩

theorem Took.writeVal {s t : State} {n i : Nat} (h : Took s t n) (v : Word64) (hi : i < s.cfg.maxFields) :
    Took s (t.writeVal i v) n := by
  refine ⟨?_, h.pos, h.inv.writeVal v (by rw [h.cfg]; exact hi)⟩
  conv_lhs => rw [h.only]
  rfl

theorem Took.writeVb {s t : State} {n i k : Nat} (h : Took s t n) (v : Byte) (hi : i < s.cfg.maxFields)
    (hk : k < s.cfg.maxFieldBytes) : Took s (t.writeVb i k v) n := by
  refine ⟨?_, h.pos, h.inv.writeVb v (by rw [h.cfg]; exact hi) (by rw [h.cfg]; exact hk)⟩
  conv_lhs => rw [h.only]
  rfl

theorem slotOnly_writeVal (s : State) (i len : Nat) (v : Word64) : SlotOnly s (s.writeVal i v) i len :=
  ⟨fun j hj => by rw [State.valAt_writeVal, if_neg (Ne.symm hj)], fun _ _ _ _ => rfl⟩

@[simp] theorem valAt_writeVal_self (s : State) (i : Nat) (v : Word64) : (s.writeVal i v).valAt i = v := by
  rw [State.valAt_writeVal, if_pos rfl]

/-- A byte kind's bytes, where enough input is left, are read into the slot in order. -/
theorem getVbBytes_took {i : Nat} (count j : Nat) {s : State} (hi : Inv s) (hslot : i < s.cfg.maxFields)
    (hlen : j + count ≤ s.cfg.maxFieldBytes) (hfit : s.rpos.toNat + 8 * count ≤ 8 * s.rlen.toNat) :
    ∃ t, getVbBytes i j count s = .ok () t ∧ Took s t (8 * count) ∧ t.val = s.val ∧
      (∀ a < count, t.vbAt i (j + a) = BitVec.ofNat 8 (readBits s.ibufAt (s.rpos.toNat + 8 * a) 8)) ∧
      ∀ b l, l < 65536 → (b ≠ i ∨ l < j ∨ j + count ≤ l) → t.vbAt b l = s.vbAt b l := by
  have hb := hi.cfg.2.2.2.2
  induction count generalizing j s with
  | zero => exact ⟨s, rfl, Took.refl hi, rfl, fun a ha => absurd ha (Nat.not_lt_zero _), fun _ _ _ _ => rfl⟩
  | succ count ih =>
    obtain ⟨t, ht, tt, hv, hvb⟩ := getBits_took hi (n := 8) ⟨.decTruncated, .field, i⟩ (by omega)
    have tw := tt.writeVb (i := i) (k := j) (BitVec.ofNat 8 (readBits s.ibufAt s.rpos.toNat 8)) hslot (by omega)
    have hcfg : (t.writeVb i j (BitVec.ofNat 8 (readBits s.ibufAt s.rpos.toNat 8))).cfg = s.cfg := tw.cfg
    obtain ⟨u, hu, tu, huv, hub, huf⟩ := ih (j + 1) tw.inv (by rw [hcfg]; exact hslot) (by rw [hcfg]; omega)
      (by rw [tw.pos, tw.rlen]; omega) (by rw [hcfg]; exact hb)
    have hat : ∀ b l, l < 65536 → (t.writeVb i j (BitVec.ofNat 8 (readBits s.ibufAt s.rpos.toNat 8))).vbAt b l =
        if i = b ∧ j = l then BitVec.ofNat 8 (readBits s.ibufAt s.rpos.toNat 8) else s.vbAt b l := by
      intro b l hl
      rw [State.vbAt_writeVb _ _ _ _ _ _ (by omega) hl]
      split_ifs
      · rfl
      · rw [State.vbAt, hvb]; rfl
    refine ⟨u, by rw [getVbBytes, ht]; exact hu, ?_, huv.trans hv, ?_, ?_⟩
    · have := tw.trans tu
      rwa [show 8 * (count + 1) = 8 + 8 * count by omega]
    · intro a ha
      cases a with
      | zero =>
        rw [huf i (j + 0) (by omega) (by omega), hat _ _ (by omega), if_pos ⟨rfl, rfl⟩]; rfl
      | succ a =>
        have := hub a (by omega)
        rw [tw.ibufAt, tw.pos] at this
        rw [show j + (a + 1) = j + 1 + a by omega, this,
          show s.rpos.toNat + 8 * (a + 1) = s.rpos.toNat + 8 + 8 * a by omega]
    · intro b l hl h
      rw [huf b l hl (by omega), hat b l hl, if_neg (by omega)]

theorem vbBytes_eq_wireBytes {t : State} {f : Nat → Byte} {i p len : Nat}
    (h : ∀ a < len, t.vbAt i a = BitVec.ofNat 8 (readBits f (p + 8 * a) 8)) : vbBytes t i len = wireBytes f p len := by
  unfold vbBytes wireBytes
  exact List.map_congr_left fun a ha => h a (List.mem_range.1 ha)

/-- A field that is all there and reads is put in its slot. -/
theorem decField_took {k : FieldKind} {i : Nat} {s : State} (hi : Inv s) (hslot : i < s.cfg.maxFields)
    (hlen : valueBytes k ≤ s.cfg.maxFieldBytes) (hr : FieldReads s.ibufAt s.rpos.toNat k)
    (hfit : s.rpos.toNat + fieldWidth k ≤ 8 * s.rlen.toNat) :
    ∃ t, decField k i s = .ok () t ∧ Took s t (fieldWidth k) ∧ FieldDecoded s.ibufAt s.rpos.toNat t i k ∧
      SlotOnly s t i (valueBytes k) := by
  cases k with
  | bool =>
    obtain ⟨t, ht, tt, hv, hb⟩ := getBits_took hi (n := 1) ⟨.decTruncated, .field, i⟩ hfit
    refine ⟨t.writeVal i (BitVec.ofNat 64 (readBits s.ibufAt s.rpos.toNat 1)), ?_, tt.writeVal _ hslot, ?_,
      (SlotOnly.of_eq hv hb).trans (slotOnly_writeVal _ _ _ _)⟩
    · rw [decField, if_neg (by omega)]; simp only [ht, Eff.bind_ok]
    · exact valAt_writeVal_self _ _ _
  | int min max =>
    have hr' : (readBits s.ibufAt s.rpos.toNat (fieldWidth (.int min max)) : Int) ≤ max - min := hr
    obtain ⟨t, ht, tt, hv, hb⟩ := getBits_took hi (n := fieldWidth (.int min max)) ⟨.decTruncated, .field, i⟩ hfit
    refine ⟨t.writeVal i (BitVec.ofInt 64 (min + readBits s.ibufAt s.rpos.toNat (fieldWidth (.int min max)))), ?_,
      tt.writeVal _ hslot, ?_, (SlotOnly.of_eq hv hb).trans (slotOnly_writeVal _ _ _ _)⟩
    · rw [decField, if_neg (by omega)]; simp only [ht, Eff.bind_ok]; rw [if_neg (by omega)]
    · exact valAt_writeVal_self _ _ _
  | float fmin fmax p m =>
    obtain ⟨h1, h2, h3⟩ := hr
    obtain ⟨t, ht, tt, hv, hb⟩ := getBits_took hi (n := fieldWidth (.float fmin fmax p m))
      ⟨.decTruncated, .field, i⟩ hfit
    refine ⟨t.writeVal i (bits64 (unscale fmin p (readBits s.ibufAt s.rpos.toNat (fieldWidth (.float fmin fmax p m))))),
      ?_, tt.writeVal _ hslot, ?_, (SlotOnly.of_eq hv hb).trans (slotOnly_writeVal _ _ _ _)⟩
    · rw [decField, if_neg (by omega)]; simp only [ht, Eff.bind_ok]
      rw [if_neg (by omega), if_neg (by rw [h2, h3]; decide)]
    · exact valAt_writeVal_self _ _ _
  | enum n =>
    obtain ⟨t, ht, tt, hv, hb⟩ := getBits_took hi (n := fieldWidth (.enum n)) ⟨.decTruncated, .field, i⟩ hfit
    refine ⟨t.writeVal i (BitVec.ofNat 64 (readBits s.ibufAt s.rpos.toNat (fieldWidth (.enum n)))), ?_,
      tt.writeVal _ hslot, ?_, (SlotOnly.of_eq hv hb).trans (slotOnly_writeVal _ _ _ _)⟩
    · rw [decField, if_neg (by omega)]; simp only [ht, Eff.bind_ok]
    · exact valAt_writeVal_self _ _ _
  | bytes len =>
    obtain ⟨t, ht, tt, hv, hb, hf⟩ := getVbBytes_took (i := i) len 0 hi hslot (by rw [Nat.zero_add]; exact hlen) hfit
    refine ⟨t.writeVal i (BitVec.ofNat 64 len), ?_, tt.writeVal _ hslot, ⟨valAt_writeVal_self _ _ _, ?_⟩, ?_⟩
    · rw [decField, if_neg (by omega)]; simp only [ht, Eff.bind_ok]
    · refine vbBytes_eq_wireBytes fun a ha => ?_
      have := hb a ha
      rwa [Nat.zero_add] at this
    · refine SlotOnly.trans ⟨fun j _ => ?_, fun j l hl h => ?_⟩ (slotOnly_writeVal _ _ _ _)
      · rw [State.valAt, hv]; rfl
      · exact hf j l hl (by rcases h with h | h; exacts [.inl h, .inr (.inr (by rw [Nat.zero_add]; exact h))])
  | str len =>
    obtain ⟨t, ht, tt, hv, hb, hf⟩ := getVbBytes_took (i := i) len 0 hi hslot (by rw [Nat.zero_add]; exact hlen) hfit
    have hbytes : vbBytes t i len = wireBytes s.ibufAt s.rpos.toNat len := by
      refine vbBytes_eq_wireBytes fun a ha => ?_
      have := hb a ha
      rwa [Nat.zero_add] at this
    have hr' : utf8Valid (wireBytes s.ibufAt s.rpos.toNat len) = true := hr
    refine ⟨t.writeVal i (BitVec.ofNat 64 len), ?_, tt.writeVal _ hslot, ⟨valAt_writeVal_self _ _ _, hbytes⟩, ?_⟩
    · rw [decField, if_neg (by omega)]; simp only [ht, Eff.bind_ok]
      rw [if_neg (by rw [hbytes, hr']; decide)]
    · refine SlotOnly.trans ⟨fun j _ => ?_, fun j l hl h => ?_⟩ (slotOnly_writeVal _ _ _ _)
      · rw [State.valAt, hv]; rfl
      · exact hf j l hl (by rcases h with h | h; exacts [.inl h, .inr (.inr (by rw [Nat.zero_add]; exact h))])

/-- A field that is not all there ends the command before anything of it is consumed. -/
theorem decField_short {k : FieldKind} {i : Nat} {s : State} (hover : 8 * s.rlen.toNat < s.rpos.toNat + fieldWidth k) :
    decField k i s = .raise ⟨.decTruncated, .field, i⟩ s := by
  unfold decField; rw [if_pos hover]

/-- A field that is all there and does not read ends the command with its bits consumed and its value slot as before. -/
theorem decField_bad {k : FieldKind} {i : Nat} {s : State} (hi : Inv s) (hslot : i < s.cfg.maxFields)
    (hlen : valueBytes k ≤ s.cfg.maxFieldBytes) (hr : ¬ FieldReads s.ibufAt s.rpos.toNat k)
    (hfit : s.rpos.toNat + fieldWidth k ≤ 8 * s.rlen.toNat) :
    ∃ t, decField k i s = .raise ⟨fieldCause k, .field, i⟩ t ∧ Took s t (fieldWidth k) ∧ t.valAt i = s.valAt i ∧
      SlotOnly s t i (valueBytes k) := by
  cases k with
  | bool => exact absurd trivial hr
  | enum n => exact absurd trivial hr
  | bytes len => exact absurd trivial hr
  | int min max =>
    have hr' : ¬ (readBits s.ibufAt s.rpos.toNat (fieldWidth (.int min max)) : Int) ≤ max - min := hr
    obtain ⟨t, ht, tt, hv, hb⟩ := getBits_took hi (n := fieldWidth (.int min max)) ⟨.decTruncated, .field, i⟩ hfit
    refine ⟨t, ?_, tt, by rw [State.valAt, hv]; rfl, SlotOnly.of_eq hv hb⟩
    rw [decField, if_neg (by omega)]; simp only [ht, Eff.bind_ok]; rw [if_pos (by omega)]; rfl
  | float fmin fmax p m =>
    obtain ⟨t, ht, tt, hv, hb⟩ := getBits_took hi (n := fieldWidth (.float fmin fmax p m))
      ⟨.decTruncated, .field, i⟩ hfit
    refine ⟨t, ?_, tt, by rw [State.valAt, hv]; rfl, SlotOnly.of_eq hv hb⟩
    rw [decField, if_neg (by omega)]; simp only [ht, Eff.bind_ok]
    by_cases h1 : readBits s.ibufAt s.rpos.toNat (fieldWidth (.float fmin fmax p m)) ≤ m
    · rw [if_neg (by omega), if_pos]
      · rfl
      · rw [Bool.not_eq_true', Bool.and_eq_false_iff]
        by_contra h
        rw [not_or, Bool.not_eq_false, Bool.not_eq_false] at h
        exact hr ⟨h1, h.1, h.2⟩
    · rw [if_pos (by omega)]; rfl
  | str len =>
    obtain ⟨t, ht, tt, hv, hb, hf⟩ := getVbBytes_took (i := i) len 0 hi hslot (by rw [Nat.zero_add]; exact hlen) hfit
    have hbytes : vbBytes t i len = wireBytes s.ibufAt s.rpos.toNat len := by
      refine vbBytes_eq_wireBytes fun a ha => ?_
      have := hb a ha
      rwa [Nat.zero_add] at this
    have hr' : ¬ utf8Valid (wireBytes s.ibufAt s.rpos.toNat len) = true := hr
    refine ⟨t, ?_, tt, by rw [State.valAt, hv]; rfl, fun j _ => by rw [State.valAt, hv]; rfl, fun j l hl h => ?_⟩
    · rw [decField, if_neg (by omega)]; simp only [ht, Eff.bind_ok]
      rw [if_pos (by rw [hbytes]; simpa using hr')]; rfl
    · exact hf j l hl (by rcases h with h | h; exacts [.inl h, .inr (.inr (by rw [Nat.zero_add]; exact h))])

/-- What was decoded into a slot stays there when only other slots are written. -/
theorem fieldDecoded_congr {f : Nat → Byte} {p i : Nat} {t u : State} {k : FieldKind} (hv : u.valAt i = t.valAt i)
    (hb : ∀ l < valueBytes k, u.vbAt i l = t.vbAt i l) (h : FieldDecoded f p t i k) : FieldDecoded f p u i k := by
  have hbytes : ∀ len, (∀ l < len, u.vbAt i l = t.vbAt i l) → vbBytes u i len = vbBytes t i len := by
    intro len hl
    unfold vbBytes
    exact List.map_congr_left fun a ha => hl a (List.mem_range.1 ha)
  cases k with
  | bool => exact hv.trans h
  | int min max => exact hv.trans h
  | float fmin fmax p m => exact hv.trans h
  | enum n => exact hv.trans h
  | bytes len => exact ⟨hv.trans h.1, (hbytes len hb).trans h.2⟩
  | str len => exact ⟨hv.trans h.1, (hbytes len hb).trans h.2⟩

/-- Fields one after another: all there and all reading, each is put in its slot, and no other slot is touched. -/
theorem decFields_took {ks : List FieldKind} {i : Nat} {s : State} (hi : Inv s)
    (hslots : i + ks.length ≤ s.cfg.maxFields) (hlen : ∀ (j : Nat) (k : FieldKind), ks[j]? = some k → valueBytes k ≤ s.cfg.maxFieldBytes)
    (hr : ∀ j k, ks[j]? = some k → FieldReads s.ibufAt (fieldStart s.rpos.toNat ks j) k)
    (hfit : s.rpos.toNat + bodyBits ks ≤ 8 * s.rlen.toNat) :
    ∃ t, decFields ks i s = .ok () t ∧ Took s t (bodyBits ks) ∧
      (∀ j k, ks[j]? = some k → FieldDecoded s.ibufAt (fieldStart s.rpos.toNat ks j) t (i + j) k) ∧
      (∀ j, (j < i ∨ i + ks.length ≤ j) → t.valAt j = s.valAt j) ∧
      (∀ j l, l < 65536 → (j < i ∨ ∀ k, ks[j - i]? = some k → valueBytes k ≤ l) → t.vbAt j l = s.vbAt j l) := by
  have hbnd := hi.cfg.2.2.2.2
  induction ks generalizing i s with
  | nil => exact ⟨s, rfl, Took.refl hi, fun j k h => by simp at h, fun _ _ => rfl, fun _ _ _ _ => rfl⟩
  | cons k ks ih =>
    rw [show bodyBits (k :: ks) = fieldWidth k + bodyBits ks from rfl] at hfit ⊢
    rw [List.length_cons] at hslots
    have hstart : ∀ p j, fieldStart p (k :: ks) (j + 1) = fieldStart (p + fieldWidth k) ks j := by
      intro p j; simp [fieldStart, bodyBits]; omega
    have h0 := hr 0 k rfl
    rw [show fieldStart s.rpos.toNat (k :: ks) 0 = s.rpos.toNat by simp [fieldStart, bodyBits]] at h0
    obtain ⟨t, ht, tt, dt, ot⟩ := decField_took hi (i := i) (by omega) (hlen 0 k rfl) h0 (by omega)
    obtain ⟨u, hu, tu, du, uv, ub⟩ := ih (i := i + 1) (s := t) tt.inv (by rw [tt.cfg]; omega)
      (fun j k' h => by rw [tt.cfg]; exact hlen (j + 1) k' h)
      (fun j k' h => by rw [tt.ibufAt, tt.pos, ← hstart]; exact hr (j + 1) k' h)
      (by rw [tt.pos, tt.rlen]; omega) (by rw [tt.cfg]; exact hbnd)
    refine ⟨u, by rw [decFields, show decField k i s = _ from ht]; exact hu, tt.trans tu, ?_, ?_, ?_⟩
    · intro j k' h
      cases j with
      | zero =>
        simp only [List.getElem?_cons_zero, Option.some.injEq] at h
        subst h
        rw [show fieldStart s.rpos.toNat (k :: ks) 0 = s.rpos.toNat by simp [fieldStart, bodyBits]]
        have hl := hlen 0 k rfl
        exact fieldDecoded_congr (uv _ (by omega)) (fun l hl' => ub _ _ (by omega) (by omega)) dt
      | succ j =>
        have := du j k' h
        rw [tt.ibufAt, tt.pos, ← hstart] at this
        rwa [show i + (j + 1) = i + 1 + j by omega]
    · intro j hj
      rw [List.length_cons] at hj
      rw [uv j (by omega), ot.val j (by omega)]
    · intro j l hl h
      by_cases hji : j = i
      · subst hji
        rw [ub j l hl (by omega), ot.vb j l hl]
        rcases h with h | h
        · omega
        · exact .inr (h k (by simp))
      · by_cases hlt : j < i
        · rw [ub j l hl (by omega), ot.vb j l hl (.inl hji)]
        · rw [ub j l hl, ot.vb j l hl (.inl hji)]
          refine .inr fun k' h' => ?_
          rcases h with h | h
          · omega
          · refine h k' ?_
            rw [show j - i = j - (i + 1) + 1 by omega]
            simpa using h'

theorem decFields_append (ks ls : List FieldKind) (i : Nat) (s : State) :
    decFields (ks ++ ls) i s = (decFields ks i s).bind fun _ t => decFields ls (i + ks.length) t := by
  induction ks generalizing i s with
  | nil => rfl
  | cons k ks ih =>
    rw [List.cons_append, decFields, decFields]
    cases decField k i s with
    | raise e u => rfl
    | ok a u =>
      show decFields (ks ++ ls) (i + 1) u = (decFields ks (i + 1) u).bind _
      rw [ih, List.length_cons, show i + 1 + ks.length = i + (ks.length + 1) by omega]

end Sys2Proof.Safety
end

