-- ==== Sys2Proof/Laws/EncodeField.lean ====
section
/-! SUPPORT. What EncField does (44_descriptors.md R212), said once for each way it can end. -/

namespace Sys2Proof.Safety

open Sys2Proof.Machine

/-- The scaled integer of a BoundedFloat field exists and is at most its maximum; other kinds have none. -/
def ScaledOk (s : State) (i : Nat) : FieldKind → Prop
  | .float fmin _ prec m => ∃ v, scaledInt fmin (f64 (s.valAt i)) prec = some v ∧ v ≤ m
  | .bool => True
  | .int _ _ => True
  | .enum _ => True
  | .bytes _ => True
  | .str _ => True

theorem Wrote.scaledOk {s t : State} {n : Nat} (h : Wrote s t n) {i : Nat} {k : FieldKind} :
    ScaledOk t i k ↔ ScaledOk s i k := by
  rw [h.only]; cases k <;> exact Iff.rfl

/-- The bytes of a slot, where they fit, are appended in order. -/
theorem putVbBytes_wrote {i : Nat} (count j : Nat) {s : State} (hi : Inv s)
    (hfit : s.wpos.toNat + 8 * count ≤ 8 * s.cfg.obufBytes) :
    ∃ t, putVbBytes i j count s = .ok () t ∧ Wrote s t (8 * count) ∧
      ∀ a < count, FieldAt t.obufAt (s.wpos.toNat + 8 * a) 8 (s.vbAt i (j + a)).toNat := by
  induction count generalizing j s with
  | zero => exact ⟨s, rfl, Wrote.refl hi, fun a ha => absurd ha (Nat.not_lt_zero _)⟩
  | succ count ih =>
    obtain ⟨t, ht, wt, ft⟩ := putBits_wrote hi (s.vbAt i j).isLt .field i (by omega)
    obtain ⟨u, hu, wu, fu⟩ := ih (j + 1) (s := t) wt.inv (by rw [wt.pos, wt.cfg]; omega)
    refine ⟨u, by rw [putVbBytes, ht]; exact hu, ?_, ?_⟩
    · have := wt.trans wu
      rwa [show 8 * (count + 1) = 8 + 8 * count by omega]
    · intro a ha
      cases a with
      | zero =>
        refine fieldAt_congr (fun q h1 h2 => wu.keep q ?_) ft
        rw [wt.pos]; simpa using h2
      | succ a =>
        have := fu a (by omega)
        rw [wt.pos, wt.vbAt] at this
        rwa [show s.wpos.toNat + 8 * (a + 1) = s.wpos.toNat + 8 + 8 * a by omega,
          show j + (a + 1) = j + 1 + a by omega]

/-- The bytes of a slot that do not fit: those that do are appended, and the first that does not ends the command. -/
theorem putVbBytes_full {i : Nat} (count j : Nat) {s : State} (hi : Inv s)
    (hover : 8 * s.cfg.obufBytes < s.wpos.toNat + 8 * count) :
    ∃ t, putVbBytes i j count s = .raise ⟨.capacityObufFull, .field, i⟩ t ∧
      Wrote s t (8 * ((8 * s.cfg.obufBytes - s.wpos.toNat) / 8)) := by
  induction count generalizing j s with
  | zero => have := hi.wposLe; omega
  | succ count ih =>
    have hle := hi.wposLe
    by_cases h8 : s.wpos.toNat + 8 ≤ 8 * s.cfg.obufBytes
    · obtain ⟨t, ht, wt, -⟩ := putBits_wrote hi (s.vbAt i j).isLt .field i h8
      obtain ⟨u, hu, wu⟩ := ih (j + 1) (s := t) wt.inv (by rw [wt.pos, wt.cfg]; omega)
      refine ⟨u, by rw [putVbBytes, ht]; exact hu, ?_⟩
      have := wt.trans wu
      rw [wt.pos, wt.cfg] at this
      rwa [show 8 * ((8 * s.cfg.obufBytes - s.wpos.toNat) / 8) =
        8 + 8 * ((8 * s.cfg.obufBytes - (s.wpos.toNat + 8)) / 8) by omega]
    · refine ⟨s, ?_, ?_⟩
      · rw [putVbBytes, putBits_full (by omega)]; rfl
      · rw [show 8 * ((8 * s.cfg.obufBytes - s.wpos.toNat) / 8) = 0 by omega]; exact Wrote.refl hi

/-- A field whose value is accepted and that fits is appended. -/
theorem encField_wrote {k : FieldKind} {i : Nat} {s : State} (hi : Inv s) (hv : ValueOk s i k) (hs : ScaledOk s i k)
    (hfit : s.wpos.toNat + fieldWidth k ≤ 8 * s.cfg.obufBytes) :
    ∃ t, encField k i s = .ok () t ∧ Wrote s t (fieldWidth k) ∧ FieldOnWire t.obufAt s.wpos.toNat s i k := by
  cases k with
  | bool =>
    have hv' : (s.valAt i).toNat ≤ 1 := hv
    obtain ⟨t, ht, wt, ft⟩ := putBits_wrote hi (v := (s.valAt i).toNat) (n := 1) (by omega) .field i hfit
    exact ⟨t, by rw [encField, if_neg (by omega)]; exact ht, wt, ft⟩
  | int min max =>
    have hv' : min ≤ (s.valAt i).toInt ∧ (s.valAt i).toInt ≤ max := hv
    obtain ⟨t, ht, wt, ft⟩ := putBits_wrote hi (v := ((s.valAt i).toInt - min).toNat)
      (n := fieldWidth (.int min max))
      (lt_of_le_of_lt (by omega) (lt_two_pow_widthFor (max - min).toNat)) .field i hfit
    exact ⟨t, by rw [encField, if_neg (by omega)]; exact ht, wt, ft⟩
  | float fmin fmax p m =>
    have hv' : fle64 fmin (f64 (s.valAt i)) = true ∧ fle64 (f64 (s.valAt i)) fmax = true := hv
    obtain ⟨v, h1, h2⟩ : ∃ v, scaledInt fmin (f64 (s.valAt i)) p = some v ∧ v ≤ m := hs
    obtain ⟨t, ht, wt, ft⟩ := putBits_wrote hi (v := v) (n := fieldWidth (.float fmin fmax p m))
      (lt_of_le_of_lt h2 (lt_two_pow_widthFor m)) .field i hfit
    refine ⟨t, ?_, wt, v, h1, h2, ft⟩
    rw [encField, if_neg (by simp [hv'.1, hv'.2])]
    simp only [h1]; exact ht
  | enum n =>
    have hv' : (s.valAt i).toNat < n := hv
    obtain ⟨t, ht, wt, ft⟩ := putBits_wrote hi (v := (s.valAt i).toNat) (n := fieldWidth (.enum n))
      (lt_of_le_of_lt (by omega) (lt_two_pow_widthFor (n - 1))) .field i hfit
    exact ⟨t, by rw [encField, if_neg (by omega)]; exact ht, wt, ft⟩
  | bytes len =>
    have hv' : (s.valAt i).toNat = len := hv
    obtain ⟨t, ht, wt, ft⟩ := putVbBytes_wrote (i := i) len 0 hi hfit
    refine ⟨t, by rw [encField, if_neg (by omega)]; exact ht, wt, fun j hj => ?_⟩
    have := ft j hj
    rwa [Nat.zero_add] at this
  | str len =>
    have hv' : (s.valAt i).toNat = len ∧ utf8Valid (vbBytes s i len) = true := hv
    obtain ⟨t, ht, wt, ft⟩ := putVbBytes_wrote (i := i) len 0 hi hfit
    refine ⟨t, by rw [encField, if_neg (by omega), if_neg (by simp [hv'.2])]; exact ht, wt, fun j hj => ?_⟩
    have := ft j hj
    rwa [Nat.zero_add] at this

/-- A value that is not accepted ends the command before anything of the field is written. -/
theorem encField_bad {k : FieldKind} {i : Nat} {s : State} (hv : ¬ ValueOk s i k) :
    encField k i s = .raise ⟨valueCause s i k, .field, i⟩ s := by
  cases k with
  | bool =>
    have hv' : ¬ (s.valAt i).toNat ≤ 1 := hv
    rw [encField, if_pos (by omega)]; rfl
  | int min max =>
    have hv' : ¬ (min ≤ (s.valAt i).toInt ∧ (s.valAt i).toInt ≤ max) := hv
    rw [encField, if_pos (by omega)]; rfl
  | float fmin fmax p m =>
    have hv' : ¬ (fle64 fmin (f64 (s.valAt i)) = true ∧ fle64 (f64 (s.valAt i)) fmax = true) := hv
    rw [encField, if_pos (by rw [Bool.not_eq_true', Bool.and_eq_false_iff]; by_contra h; simp_all)]; rfl
  | enum n =>
    have hv' : ¬ (s.valAt i).toNat < n := hv
    rw [encField, if_pos (by omega)]; rfl
  | bytes len =>
    have hv' : ¬ (s.valAt i).toNat = len := hv
    rw [encField, if_pos hv']; rfl
  | str len =>
    have hv' : ¬ ((s.valAt i).toNat = len ∧ utf8Valid (vbBytes s i len) = true) := hv
    by_cases h : (s.valAt i).toNat = len
    · have h2 : utf8Valid (vbBytes s i len) ≠ true := fun hu => hv' ⟨h, hu⟩
      rw [encField, if_neg (not_not.2 h), if_pos (by simpa using h2), valueCause, if_pos h]
    · rw [encField, if_pos h, valueCause, if_neg h]

/-- A field that does not fit ends the command; of a byte kind, the bytes that fit are written. -/
theorem encField_full {k : FieldKind} {i : Nat} {s : State} (hi : Inv s) (hv : ValueOk s i k) (hs : ScaledOk s i k)
    (hover : 8 * s.cfg.obufBytes < s.wpos.toNat + fieldWidth k) :
    ∃ t, encField k i s = .raise ⟨.capacityObufFull, .field, i⟩ t ∧
      Wrote s t (8 * min (valueBytes k) ((8 * s.cfg.obufBytes - s.wpos.toNat) / 8)) := by
  have hzero : Wrote s s (8 * min 0 ((8 * s.cfg.obufBytes - s.wpos.toNat) / 8)) := by
    rw [Nat.zero_min]; exact Wrote.refl hi
  have hle := hi.wposLe
  cases k with
  | bool =>
    have hv' : (s.valAt i).toNat ≤ 1 := hv
    exact ⟨s, by rw [encField, if_neg (by omega)]; exact putBits_full hover, hzero⟩
  | int min max =>
    have hv' : min ≤ (s.valAt i).toInt ∧ (s.valAt i).toInt ≤ max := hv
    exact ⟨s, by rw [encField, if_neg (by omega), putBits_full hover], hzero⟩
  | float fmin fmax p m =>
    have hv' : fle64 fmin (f64 (s.valAt i)) = true ∧ fle64 (f64 (s.valAt i)) fmax = true := hv
    obtain ⟨v, h1, h2⟩ : ∃ v, scaledInt fmin (f64 (s.valAt i)) p = some v ∧ v ≤ m := hs
    refine ⟨s, ?_, hzero⟩
    rw [encField, if_neg (by simp [hv'.1, hv'.2])]
    simp only [h1]; exact putBits_full hover
  | enum n =>
    have hv' : (s.valAt i).toNat < n := hv
    exact ⟨s, by rw [encField, if_neg (by omega), putBits_full hover], hzero⟩
  | bytes len =>
    have hv' : (s.valAt i).toNat = len := hv
    obtain ⟨t, ht, wt⟩ := putVbBytes_full (i := i) len 0 hi hover
    refine ⟨t, by rw [encField, if_neg (by omega)]; exact ht, ?_⟩
    rw [valueBytes, min_eq_right (by simp only [fieldWidth] at hover; omega)]; exact wt
  | str len =>
    have hv' : (s.valAt i).toNat = len ∧ utf8Valid (vbBytes s i len) = true := hv
    obtain ⟨t, ht, wt⟩ := putVbBytes_full (i := i) len 0 hi hover
    refine ⟨t, by rw [encField, if_neg (by omega), if_neg (by simp [hv'.2])]; exact ht, ?_⟩
    rw [valueBytes, min_eq_right (by simp only [fieldWidth] at hover; omega)]; exact wt

/-- Fields one after another: all accepted and all fitting, they are all appended, each where the ones before it end. -/
theorem encFields_wrote {ks : List FieldKind} {i : Nat} {s : State} (hi : Inv s)
    (hv : ∀ j k, ks[j]? = some k → ValueOk s (i + j) k ∧ ScaledOk s (i + j) k)
    (hfit : s.wpos.toNat + bodyBits ks ≤ 8 * s.cfg.obufBytes) :
    ∃ t, encFields ks i s = .ok () t ∧ Wrote s t (bodyBits ks) ∧
      ∀ j k, ks[j]? = some k → FieldOnWire t.obufAt (fieldStart s.wpos.toNat ks j) s (i + j) k := by
  induction ks generalizing i s with
  | nil => exact ⟨s, rfl, Wrote.refl hi, fun j k h => by simp at h⟩
  | cons k ks ih =>
    rw [show bodyBits (k :: ks) = fieldWidth k + bodyBits ks from rfl] at hfit ⊢
    have h0 := hv 0 k rfl
    obtain ⟨t, ht, wt, ft⟩ := encField_wrote hi h0.1 h0.2 (by omega)
    obtain ⟨u, hu, wu, fu⟩ := ih (i := i + 1) (s := t) wt.inv
      (fun j k' h => by
        rw [wt.valueOk, wt.scaledOk, Nat.add_assoc, Nat.add_comm 1 j]; exact hv (j + 1) k' h)
      (by rw [wt.pos, wt.cfg]; omega)
    refine ⟨u, by rw [encFields, show encField k i s = _ from ht]; exact hu, wt.trans wu, ?_⟩
    intro j k' h
    cases j with
    | zero =>
      simp only [List.getElem?_cons_zero, Option.some.injEq] at h
      subst h
      exact fieldOnWire_congr (fun q h1 h2 => wu.keep q (by rw [wt.pos]; simpa [fieldStart, bodyBits] using h2)) ft
    | succ j =>
      have := fu j k' h
      rw [wt.fieldOnWire, wt.pos] at this
      rw [show fieldStart s.wpos.toNat (k :: ks) (j + 1) = fieldStart (s.wpos.toNat + fieldWidth k) ks j by
        simp [fieldStart, bodyBits]; omega, show i + (j + 1) = i + 1 + j by omega]
      exact this

theorem encFields_append (ks ls : List FieldKind) (i : Nat) (s : State) :
    encFields (ks ++ ls) i s = (encFields ks i s).bind fun _ t => encFields ls (i + ks.length) t := by
  induction ks generalizing i s with
  | nil => rfl
  | cons k ks ih =>
    rw [List.cons_append, encFields, encFields]
    cases encField k i s with
    | raise e u => rfl
    | ok a u =>
      show encFields (ks ++ ls) (i + 1) u = (encFields ks (i + 1) u).bind _
      rw [ih, List.length_cons, show i + 1 + ks.length = i + (ks.length + 1) by omega]

end Sys2Proof.Safety
end

