-- ==== Sys2Proof/Laws/CodecStages.lean ====
section
/-! SUPPORT. What the stages of ENCODE and DECODE before the fields do (45_codec.md R240, R245, R246, R253, R255). -/

namespace Sys2Proof.Safety

open Sys2Proof.Machine

/-! ### Validation -/

/-- The descriptors that validated are those of the slots, in order. -/
theorem validateFrom_get {s : State} {count i : Nat} {ks : List FieldKind} (h : validateFrom s i count = .ok ks) :
    ks.length = count ∧ ∀ j k, ks[j]? = some k → validateField s (i + j) = .ok k := by
  induction count generalizing i ks with
  | zero =>
    simp only [validateFrom, Except.ok.injEq] at h
    subst h; exact ⟨rfl, fun j k h => by simp at h⟩
  | succ count ih =>
    rw [validateFrom] at h
    split at h
    · cases h
    · split at h
      · cases h
      · rename_i k hk _ ks' hks
        cases h
        obtain ⟨hl, hg⟩ := ih hks
        refine ⟨by rw [List.length_cons, hl], fun j k' h => ?_⟩
        cases j with
        | zero =>
          simp only [List.getElem?_cons_zero, Option.some.injEq] at h
          subst h; exact hk
        | succ j =>
          rw [show i + (j + 1) = i + 1 + j by omega]; exact hg j k' h

/-- The first slot that does not validate decides. -/
theorem validateFrom_error {s : State} {count i j : Nat} {e : CmdError} (hj : j < count)
    (hok : ∀ l < j, ∃ k, validateField s (i + l) = .ok k) (he : validateField s (i + j) = .error e) :
    validateFrom s i count = .error e := by
  induction count generalizing i j with
  | zero => omega
  | succ count ih =>
    rw [validateFrom]
    cases j with
    | zero => rw [show validateField s i = .error e from he]
    | succ j =>
      obtain ⟨k, hk⟩ := hok 0 (by omega)
      rw [show validateField s i = .ok k from hk]
      simp only
      rw [ih (j := j) (by omega) (fun l hl => by
        rw [show i + 1 + l = i + (l + 1) by omega]; exact hok (l + 1) (by omega))
        (by rw [show i + 1 + j = i + (j + 1) by omega]; exact he)]

theorem validateField_error {s : State} {i : Nat} {e : CmdError} (h : validateField s i = .error e) :
    e.stage = .schemaCheck ∧ e.field = i := by
  unfold validateField at h
  split at h
  · cases h
  · cases h; exact ⟨rfl, rfl⟩

/-- What a descriptor that validated is. -/
theorem validateField_ok {s : State} {i : Nat} {k : FieldKind} (h : validateField s i = .ok k) :
    parseField s.cfg.maxFieldBytes (s.descAt i 0) (s.descAt i 1) (s.descAt i 2) = .ok k := by
  unfold validateField at h
  split at h
  · rename_i k' hk
    cases h; exact hk
  · cases h

theorem parseFloat_ok {p : Nat} {fmin fmax : F64} {k : FieldKind} (h : parseFloat p fmin fmax = .ok k) :
    ∃ m, k = .float fmin fmax p m ∧ p ≤ 6 ∧ fmin.isFinite = true ∧ fmax.isFinite = true ∧ fle64 fmin fmax = true ∧
      scaledInt fmin fmax p = some m ∧ widthFor m ≤ 64 := by
  unfold parseFloat at h
  split_ifs at h with h1 h2 h3
  · split at h
    · cases h
    · split_ifs at h with h4
      rename_i m hm
      cases h
      simp only [Bool.not_eq_true, Bool.not_eq_false', Bool.and_eq_true] at h2 h3
      exact ⟨m, rfl, by omega, h2.1, h2.2, h3, hm, by omega⟩

/-- Every check of R204 that a valid descriptor has passed. -/
theorem parseField_ok {b : Nat} {w0 w1 w2 : Word64} {k : FieldKind} (h : parseField b w0 w1 w2 = .ok k) :
    match k with
    | .bool => descKind w0 = 0
    | .int min max => descKind w0 = 1 ∧ min = w1.toInt ∧ max = w2.toInt ∧ min ≤ max
    | .float fmin fmax p m => descKind w0 = 2 ∧ fmin = f64 w1 ∧ fmax = f64 w2 ∧ p = descPrec w0 ∧ p ≤ 6 ∧
        fmin.isFinite = true ∧ fmax.isFinite = true ∧ fle64 fmin fmax = true ∧ scaledInt fmin fmax p = some m ∧
        widthFor m ≤ 64
    | .enum n => descKind w0 = 3 ∧ n = w1.toNat ∧ 1 ≤ n
    | .bytes len => descKind w0 = 4 ∧ len = w1.toNat ∧ len ≤ b
    | .str len => descKind w0 = 5 ∧ len = w1.toNat ∧ len ≤ b := by
  unfold parseField at h
  split at h
  · cases h; assumption
  · split_ifs at h with h1
    cases h; exact ⟨by assumption, rfl, rfl, by omega⟩
  · obtain ⟨m, rfl, hp, h1, h2, h3, h4, h5⟩ := parseFloat_ok h
    exact ⟨by assumption, rfl, rfl, rfl, hp, h1, h2, h3, h4, h5⟩
  · split_ifs at h with h1
    cases h; exact ⟨by assumption, rfl, by omega⟩
  · split_ifs at h with h1
    cases h; exact ⟨by assumption, rfl, by omega⟩
  · split_ifs at h with h1
    cases h; exact ⟨by assumption, rfl, by omega⟩
  · cases h

theorem validateField_bytes {s : State} {i : Nat} {k : FieldKind} (h : validateField s i = .ok k) :
    valueBytes k ≤ s.cfg.maxFieldBytes := by
  have := parseField_ok (validateField_ok h)
  cases k with
  | bool => exact Nat.zero_le _
  | int min max => exact Nat.zero_le _
  | float fmin fmax p m => exact Nat.zero_le _
  | enum n => exact Nat.zero_le _
  | bytes len => exact this.2.2
  | str len => exact this.2.2

/-! ### The stages of ENCODE -/

theorem routeSrc_lt (r : BitVec 19) : routeSrc r < 2 ^ 8 := (r.extractLsb' 0 8).isLt
theorem routeDst_lt (r : BitVec 19) : routeDst r < 2 ^ 8 := (r.extractLsb' 8 8).isLt
theorem routePri_lt (r : BitVec 19) : routePri r < 2 ^ 2 := (r.extractLsb' 16 2).isLt
theorem routeAck_lt (r : BitVec 19) : routeAck r < 2 ^ 1 := (r.extractLsb' 18 1).isLt

/-- The routing header, where it fits, is appended: source, destination, priority, acknowledge. -/
theorem encRoute_wrote {s : State} (hi : Inv s) (hfit : s.wpos.toNat + 19 ≤ 8 * s.cfg.obufBytes) :
    ∃ t, encRoute s = .ok () t ∧ Wrote s t 19 ∧ FieldAt t.obufAt s.wpos.toNat 8 (routeSrc s.routeTx) ∧
      FieldAt t.obufAt (s.wpos.toNat + 8) 8 (routeDst s.routeTx) ∧
      FieldAt t.obufAt (s.wpos.toNat + 16) 2 (routePri s.routeTx) ∧
      FieldAt t.obufAt (s.wpos.toNat + 18) 1 (routeAck s.routeTx) := by
  obtain ⟨t1, e1, w1, f1⟩ := putBits_wrote hi (routeSrc_lt s.routeTx) .route 0 (by omega)
  obtain ⟨t2, e2, w2, f2⟩ := putBits_wrote w1.inv (routeDst_lt t1.routeTx) .route 0 (by rw [w1.pos, w1.cfg]; omega)
  have w12 := w1.trans w2
  obtain ⟨t3, e3, w3, f3⟩ := putBits_wrote w2.inv (routePri_lt t2.routeTx) .route 0 (by rw [w12.pos, w12.cfg]; omega)
  have w13 := w12.trans w3
  obtain ⟨t4, e4, w4, f4⟩ := putBits_wrote w3.inv (routeAck_lt t3.routeTx) .route 0 (by rw [w13.pos, w13.cfg]; omega)
  have w24 := w2.trans (w3.trans w4)
  have w34 := w3.trans w4
  rw [w1.routeTx, w1.pos] at f2
  rw [w12.routeTx, w12.pos] at f3
  rw [w13.routeTx, w13.pos] at f4
  refine ⟨t4, ?_, w13.trans w4, ?_, ?_, ?_, f4⟩
  · unfold encRoute; simp only [e1, Eff.bind_ok, e2, e3, e4]
  · exact fieldAt_congr (fun q h1 h2 => w24.keep q (by rw [w1.pos]; omega)) f1
  · exact fieldAt_congr (fun q h1 h2 => w34.keep q (by rw [w12.pos]; omega)) f2
  · exact fieldAt_congr (fun q h1 h2 => w4.keep q (by rw [w13.pos]; omega)) f3

/-- The tag, where it fits, is appended: the flag, then the ID in 7 or 15 bits. -/
theorem encTag_wrote {s : State} (hi : Inv s) (hvalid : s.typeIdValid = true) (hid : s.typeId < 32768)
    (hfit : s.wpos.toNat + (if s.typeId < 128 then 8 else 16) ≤ 8 * s.cfg.obufBytes) :
    ∃ t, encTag s = .ok () t ∧ Wrote s t (if s.typeId < 128 then 8 else 16) ∧
      (s.typeId < 128 → FieldAt t.obufAt s.wpos.toNat 1 0 ∧ FieldAt t.obufAt (s.wpos.toNat + 1) 7 s.typeId) ∧
      (128 ≤ s.typeId → FieldAt t.obufAt s.wpos.toNat 1 1 ∧ FieldAt t.obufAt (s.wpos.toNat + 1) 15 s.typeId) := by
  by_cases h : s.typeId < 128
  · rw [if_pos h] at hfit ⊢
    obtain ⟨t1, e1, w1, f1⟩ := putBits_wrote hi (v := 0) (n := 1) (by omega) .tag 0 (by omega)
    obtain ⟨t2, e2, w2, f2⟩ := putBits_wrote w1.inv (v := t1.typeId) (n := 7) (by rw [w1.typeId]; omega) .tag 0
      (by rw [w1.pos, w1.cfg]; omega)
    rw [w1.typeId, w1.pos] at f2
    refine ⟨t2, ?_, w1.trans w2, fun _ => ⟨?_, f2⟩, fun h' => by omega⟩
    · unfold encTag; rw [if_neg (by simp [hvalid]), if_pos h]; simp only [e1, Eff.bind_ok, e2]
    · exact fieldAt_congr (fun q h1 h2 => w2.keep q (by rw [w1.pos]; omega)) f1
  · rw [if_neg h] at hfit ⊢
    obtain ⟨t1, e1, w1, f1⟩ := putBits_wrote hi (v := 1) (n := 1) (by omega) .tag 0 (by omega)
    obtain ⟨t2, e2, w2, f2⟩ := putBits_wrote w1.inv (v := t1.typeId) (n := 15) (by rw [w1.typeId]; omega) .tag 0
      (by rw [w1.pos, w1.cfg]; omega)
    rw [w1.typeId, w1.pos] at f2
    refine ⟨t2, ?_, w1.trans w2, fun h' => by omega, fun _ => ⟨?_, f2⟩⟩
    · unfold encTag; rw [if_neg (by simp [hvalid]), if_neg h, if_pos hid]; simp only [e1, Eff.bind_ok, e2]
    · exact fieldAt_congr (fun q h1 h2 => w2.keep q (by rw [w1.pos]; omega)) f1

/-! ### The stages of DECODE -/

theorem packRoute_toNat {src dst pri ack : Nat} (hs : src < 2 ^ 8) (hd : dst < 2 ^ 8) (hp : pri < 2 ^ 2)
    (ha : ack < 2 ^ 1) :
    routeSrc (packRoute src dst pri ack) = src ∧ routeDst (packRoute src dst pri ack) = dst ∧
      routePri (packRoute src dst pri ack) = pri ∧ routeAck (packRoute src dst pri ack) = ack := by
  have ht : (packRoute src dst pri ack).toNat = ack * 2 ^ 18 + pri * 2 ^ 16 + dst * 2 ^ 8 + src := by
    unfold packRoute
    simp only [BitVec.toNat_append, BitVec.toNat_ofNat, Nat.mod_eq_of_lt hs, Nat.mod_eq_of_lt hd,
      Nat.mod_eq_of_lt hp, Nat.mod_eq_of_lt ha]
    rw [← Nat.shiftLeft_add_eq_or_of_lt hp, ← Nat.shiftLeft_add_eq_or_of_lt hd, ← Nat.shiftLeft_add_eq_or_of_lt hs]
    simp only [Nat.shiftLeft_eq]
    ring
  unfold routeSrc routeDst routePri routeAck
  simp only [BitVec.extractLsb'_toNat, ht, Nat.shiftRight_eq_div_pow]
  omega

/-- The routing header, where it is all there, is put in ROUTE_RX. -/
theorem decRoute_ok {s : State} (hi : Inv s) (hfit : s.rpos.toNat + 19 ≤ 8 * s.rlen.toNat) :
    ∃ t, decRoute s = .ok () t ∧ t = (s.setRpos t.rpos).setRouteRx t.routeRx ∧
      t.rpos.toNat = s.rpos.toNat + 19 ∧ Inv t ∧
      routeSrc t.routeRx = readBits s.ibufAt s.rpos.toNat 8 ∧
      routeDst t.routeRx = readBits s.ibufAt (s.rpos.toNat + 8) 8 ∧
      routePri t.routeRx = readBits s.ibufAt (s.rpos.toNat + 16) 2 ∧
      routeAck t.routeRx = readBits s.ibufAt (s.rpos.toNat + 18) 1 := by
  have e1 := getBits_fits (n := 8) (e := ⟨.decTruncated, .route, 0⟩) (s := s) (by omega)
  have p1 := hi.rpos_add (n := 8) (by omega)
  have p2 := hi.rpos_add (n := 16) (by omega)
  have p3 := hi.rpos_add (n := 18) (by omega)
  have p4 := hi.rpos_add (n := 19) (by omega)
  have e2 := getBits_fits (n := 8) (e := ⟨.decTruncated, .route, 0⟩)
    (s := s.setRpos (BitVec.ofNat 32 (s.rpos.toNat + 8))) (by
      show (BitVec.ofNat 32 (s.rpos.toNat + 8)).toNat + 8 ≤ 8 * s.rlen.toNat
      omega)
  have e3 := getBits_fits (n := 2) (e := ⟨.decTruncated, .route, 0⟩)
    (s := s.setRpos (BitVec.ofNat 32 (s.rpos.toNat + 16))) (by
      show (BitVec.ofNat 32 (s.rpos.toNat + 16)).toNat + 2 ≤ 8 * s.rlen.toNat
      omega)
  have e4 := getBits_fits (n := 1) (e := ⟨.decTruncated, .route, 0⟩)
    (s := s.setRpos (BitVec.ofNat 32 (s.rpos.toNat + 18))) (by
      show (BitVec.ofNat 32 (s.rpos.toNat + 18)).toNat + 1 ≤ 8 * s.rlen.toNat
      omega)
  simp only [State.setRpos_rpos, p1, p2, p3] at e2 e3 e4
  have l1 := readBits_lt s.ibufAt s.rpos.toNat 8
  have l2 := readBits_lt s.ibufAt (s.rpos.toNat + 8) 8
  have l3 := readBits_lt s.ibufAt (s.rpos.toNat + 16) 2
  have l4 := readBits_lt s.ibufAt (s.rpos.toNat + 18) 1
  obtain ⟨r1, r2, r3, r4⟩ := packRoute_toNat l1 l2 l3 l4
  refine ⟨(s.setRpos (BitVec.ofNat 32 (s.rpos.toNat + 19))).setRouteRx
    (packRoute (readBits s.ibufAt s.rpos.toNat 8) (readBits s.ibufAt (s.rpos.toNat + 8) 8)
      (readBits s.ibufAt (s.rpos.toNat + 16) 2) (readBits s.ibufAt (s.rpos.toNat + 18) 1)), ?_, rfl, p4, ?_, r1, r2,
    r3, r4⟩
  · unfold decRoute
    rw [if_neg (by omega), e1]
    simp only [Eff.bind_ok]
    rw [e2]
    simp only [Eff.bind_ok]
    have : ∀ a b : BitVec 32, (s.setRpos a).setRpos b = s.setRpos b := fun _ _ => rfl
    rw [this, show s.rpos.toNat + 8 + 8 = s.rpos.toNat + 16 by omega, e3]
    simp only [Eff.bind_ok]
    rw [this, show s.rpos.toNat + 16 + 2 = s.rpos.toNat + 18 by omega, e4]
    simp only [Eff.bind_ok]
    rw [this, show s.rpos.toNat + 18 + 1 = s.rpos.toNat + 19 by omega]
    rw [if_neg]
    · rfl
    · show ¬ (255 < readBits s.ibufAt s.rpos.toNat 8 ∨ 255 < readBits s.ibufAt (s.rpos.toNat + 8) 8 ∨
        3 < readBits s.ibufAt (s.rpos.toNat + 16) 2)
      omega
  · have hg := hi.getBits (getBits_fits (n := 19) (e := ⟨.decTruncated, .route, 0⟩) hfit)
    cases hg; constructor <;> assumption

theorem decRoute_short {s : State} (hover : 8 * s.rlen.toNat < s.rpos.toNat + 19) :
    decRoute s = .raise ⟨.decTruncated, .route, 0⟩ s := by
  rw [decRoute, if_pos hover]

theorem tagWidth_eq (s : State) : tagWidth s = tagBitsAt s.ibufAt s.rpos.toNat := rfl

/-- The tag, where it is all there, is consumed, and its ID answered. -/
theorem decTag_took {s : State} (hi : Inv s)
    (hfit : s.rpos.toNat + tagBitsAt s.ibufAt s.rpos.toNat ≤ 8 * s.rlen.toNat) :
    ∃ t, decTag s = .ok (tagIdAt s.ibufAt s.rpos.toNat) t ∧ Took s t (tagBitsAt s.ibufAt s.rpos.toNat) ∧
      t = s.setRpos t.rpos := by
  have h8 : 8 ≤ tagBitsAt s.ibufAt s.rpos.toNat := by unfold tagBitsAt; split_ifs <;> omega
  obtain ⟨t, ht, tt, hv, hb⟩ := getBits_took hi ⟨.decTruncated, .tag, 0⟩ hfit
  refine ⟨t, ?_, tt, ?_⟩
  · unfold decTag
    rw [tagWidth_eq, if_neg (by omega), if_neg (by omega), ht, Eff.bind_ok]
    congr 1
    obtain ⟨b, hbits⟩ : ∃ b, tagBitsAt s.ibufAt s.rpos.toNat = 1 + b :=
      ⟨tagBitsAt s.ibufAt s.rpos.toNat - 1, by omega⟩
    unfold tagIdAt
    rw [hbits, show 1 + b - 1 = b by omega, readBits_add, Nat.mul_comm, Nat.mul_add_mod,
      Nat.mod_eq_of_lt (readBits_lt _ _ _)]
  · rw [getBits_eq_ok] at ht; rw [ht.2.2]; rfl

/-- A tag that is cut short ends the command with nothing consumed. -/
theorem decTag_short {s : State} (hover : 8 * s.rlen.toNat < s.rpos.toNat + tagBitsAt s.ibufAt s.rpos.toNat) :
    decTag s = .raise ⟨.decTruncated, .tag, 0⟩ s := by
  unfold decTag
  rw [tagWidth_eq]
  split_ifs <;> rfl

theorem tagIdAt_lt (f : Nat → Byte) (p : Nat) : tagIdAt f p < 2 ^ 15 := by
  unfold tagIdAt
  refine lt_of_lt_of_le (readBits_lt _ _ _) (Nat.pow_le_pow_right (by omega) ?_)
  unfold tagBitsAt; split_ifs <;> omega

end Sys2Proof.Safety
end

