-- ==== Sys2Proof/Laws/CodecRuns.lean ====
section
/-! SUPPORT. ENCODE and DECODE as their stages one after another (45_codec.md R241, R250): what stands in the stream
after the header and the fields, and what is read before the fields and by them. -/

namespace Sys2Proof.Safety

open Sys2Proof.Machine

/-! ### ENCODE -/

theorem Inv.clearWriter {s : State} (h : Inv s) : Inv (clearWriter s) :=
  ⟨h.cfg, ⟨List.Pairwise.nil, fun _ hc => absurd hc List.not_mem_nil⟩, h.ibufWf, h.descWf, h.valWf, h.vbWf,
    fun _ hc => absurd hc List.not_mem_nil, h.ibufIn, h.descIn, h.valIn, h.vbIn, Nat.zero_le _,
    fun p _ => streamBit_obuf_nil p, h.rlenLe, h.rposLe, h.nfieldsLe, h.crcHigh⟩

/-- The stages of ENCODE before the fields. -/
def encHeader (mode : Nat) (s : State) : Eff Unit :=
  (if mode = 3 then encRoute s else .ok () s).bind fun _ t => if 2 ≤ mode then encTag t else .ok () t

theorem encMessage_eq (mode : Nat) (kinds : List FieldKind) (s : State) :
    encMessage mode kinds s =
      (encHeader mode s).bind fun _ t => (encFields kinds 0 t).bind fun _ t => encFinish t := by
  unfold encMessage encHeader
  split_ifs
  · cases encRoute s <;> simp
  · cases encRoute s <;> simp
  · rfl
  · rfl

theorem runEncode_eq {s : State} {mode : Nat} {kinds : List FieldKind} (hm : mode ≠ 0)
    (hv : validateFrom s 0 s.msgNfields.toNat = .ok kinds) :
    runEncode mode s = encMessage mode kinds (Machine.clearWriter s) := by
  unfold runEncode; rw [if_neg hm, hv]

/-- A routing header that stands in a stream stands in one that agrees on its 19 bits. -/
theorem routeOnWire_congr {f g : Nat → Byte} {r : BitVec 19} (h : ∀ q, q < 19 → streamBit g q = streamBit f q)
    (hr : RouteOnWire f r) : RouteOnWire g r :=
  ⟨fieldAt_congr (fun q _ hq => h q (by omega)) hr.1, fieldAt_congr (fun q _ hq => h q (by omega)) hr.2.1,
    fieldAt_congr (fun q _ hq => h q (by omega)) hr.2.2.1, fieldAt_congr (fun q _ hq => h q (by omega)) hr.2.2.2⟩

/-- The header of a message, where it fits a cleared writer, is appended and is the message of no fields. -/
theorem encHeader_wrote {s : State} (hi : Inv s) (hz : s.wpos.toNat = 0) {mode : Nat}
    (hid : 2 ≤ mode → s.typeIdValid = true ∧ s.typeId < 32768)
    (hfit : routeBits mode + tagBits mode s.typeId ≤ 8 * s.cfg.obufBytes) :
    ∃ t, encHeader mode s = .ok () t ∧ Wrote s t (routeBits mode + tagBits mode s.typeId) ∧
      MessageOnWire t.obufAt mode s [] := by
  have zt : ∀ {u : State} {n : Nat}, Wrote s u n → ∀ p, n ≤ p → streamBit u.obufAt p = false := by
    intro u n w p hp
    exact w.inv.zeroTail p (by rw [w.pos, hz]; omega)
  have nof : ∀ (f : Nat → Byte) (i : Nat) (k : FieldKind), ([] : List FieldKind)[i]? = some k →
      FieldOnWire f (fieldStart (routeBits mode + tagBits mode s.typeId) [] i) s i k := by
    intro f i k h; simp at h
  have mb : messageBits mode s [] = routeBits mode + tagBits mode s.typeId := rfl
  unfold encHeader
  by_cases h2 : 2 ≤ mode
  · obtain ⟨hval, hlt⟩ := hid h2
    have htb : tagBits mode s.typeId = if s.typeId < 128 then 8 else 16 := by unfold tagBits; rw [if_neg (by omega)]
    by_cases h3 : mode = 3
    · have hrb : routeBits mode = 19 := by unfold routeBits; rw [if_pos h3]
      rw [htb, hrb] at hfit mb
      obtain ⟨t, et, wt, f1, f2, f3, f4⟩ := encRoute_wrote hi (by omega)
      obtain ⟨u, eu, wu, g1, g2⟩ := encTag_wrote wt.inv (by rw [wt.typeIdValid]; exact hval)
        (by rw [wt.typeId]; exact hlt) (by rw [wt.typeId, wt.pos, wt.cfg, hz]; omega)
      rw [wt.typeId] at wu
      rw [wt.typeId, wt.pos, hz] at g1 g2
      rw [hz] at f1 f2 f3 f4
      have w := wt.trans wu
      rw [htb, hrb]
      refine ⟨u, by rw [if_pos h3, et, Eff.bind_ok, if_pos h2, eu], w, ?_⟩
      have kp : ∀ q, q < 19 → streamBit u.obufAt q = streamBit t.obufAt q :=
        fun q hq => wu.keep q (by rw [wt.pos]; omega)
      refine ⟨⟨fun _ => routeOnWire_congr kp ⟨f1, f2, f3, f4⟩, fun _ h => ?_, fun _ h => ?_, nof _⟩, ?_⟩
      · rw [hrb]; exact g1 h
      · rw [hrb]; exact g2 h
      · intro p hp
        exact zt w p (by rw [mb] at hp; exact hp)
    · have hrb : routeBits mode = 0 := by unfold routeBits; rw [if_neg h3]
      rw [htb, hrb] at hfit mb
      obtain ⟨u, eu, wu, g1, g2⟩ := encTag_wrote hi hval hlt (by omega)
      rw [hz] at g1 g2
      rw [htb, hrb]
      refine ⟨u, by rw [if_neg h3, Eff.bind_ok, if_pos h2, eu], by rw [Nat.zero_add]; exact wu, ?_⟩
      refine ⟨⟨fun h => absurd h h3, fun _ h => ?_, fun _ h => ?_, nof _⟩, ?_⟩
      · rw [hrb]; exact g1 h
      · rw [hrb]; exact g2 h
      · intro p hp
        exact zt wu p (by rw [mb, Nat.zero_add] at hp; exact hp)
  · have htb : tagBits mode s.typeId = 0 := by unfold tagBits; rw [if_pos (by omega)]
    have hrb : routeBits mode = 0 := by unfold routeBits; rw [if_neg (by omega)]
    have h3 : mode ≠ 3 := by omega
    rw [htb, hrb]
    refine ⟨s, by rw [if_neg h3, Eff.bind_ok, if_neg h2], Wrote.refl hi, ?_⟩
    exact ⟨⟨fun h => absurd h h3, fun h => absurd h h2, fun h => absurd h h2, nof _⟩,
      fun p hp => hi.zeroTail p (by omega)⟩

/-- Header and fields, where the values are accepted and all fits a cleared writer, are the message. -/
theorem encBody_wrote {s : State} (hi : Inv s) (hz : s.wpos.toNat = 0) {mode : Nat} {kinds : List FieldKind}
    (hid : 2 ≤ mode → s.typeIdValid = true ∧ s.typeId < 32768)
    (hv : ∀ j k, kinds[j]? = some k → ValueOk s j k ∧ ScaledOk s j k)
    (hfit : messageBits mode s kinds ≤ 8 * s.cfg.obufBytes) :
    ∃ t u, encHeader mode s = .ok () t ∧ encFields kinds 0 t = .ok () u ∧
      Wrote s u (messageBits mode s kinds) ∧ MessageOnWire u.obufAt mode s kinds := by
  unfold messageBits at hfit
  obtain ⟨t, et, wt, mt⟩ := encHeader_wrote hi hz hid (by omega)
  obtain ⟨u, eu, wu, fu⟩ := encFields_wrote (ks := kinds) (i := 0) wt.inv
    (by intro j k h; rw [wt.valueOk, wt.scaledOk, Nat.zero_add]; exact hv j k h) (by rw [wt.pos, wt.cfg, hz]; omega)
  have w := wt.trans wu
  refine ⟨t, u, et, eu, w, ?_⟩
  have kp : ∀ q, q < routeBits mode + tagBits mode s.typeId → streamBit u.obufAt q = streamBit t.obufAt q :=
    fun q hq => wu.keep q (by rw [wt.pos, hz]; omega)
  have hr3 : mode = 3 → routeBits mode = 19 := fun h => by unfold routeBits; rw [if_pos h]
  have ht1 : 2 ≤ mode → s.typeId < 128 → tagBits mode s.typeId = 8 := fun h h' => by
    unfold tagBits; rw [if_neg (by omega), if_pos h']
  have ht2 : 2 ≤ mode → 128 ≤ s.typeId → tagBits mode s.typeId = 16 := fun h h' => by
    unfold tagBits; rw [if_neg (by omega), if_neg (by omega)]
  refine ⟨⟨fun h => ?_, fun h h' => ?_, fun h h' => ?_, fun i k h => ?_⟩, fun p hp => ?_⟩
  · exact routeOnWire_congr (fun q hq => kp q (by have := hr3 h; omega)) (mt.route h)
  · have := ht1 h h'
    exact ⟨fieldAt_congr (fun q _ hq => kp q (by omega)) (mt.shortTag h h').1,
      fieldAt_congr (fun q _ hq => kp q (by omega)) (mt.shortTag h h').2⟩
  · have := ht2 h h'
    exact ⟨fieldAt_congr (fun q _ hq => kp q (by omega)) (mt.longTag h h').1,
      fieldAt_congr (fun q _ hq => kp q (by omega)) (mt.longTag h h').2⟩
  · have := fu i k h
    rw [wt.fieldOnWire, wt.pos, hz, Nat.zero_add, Nat.zero_add] at this
    exact this
  · refine w.inv.zeroTail p ?_
    rw [w.pos, hz]; simpa [messageBits] using hp

/-! ### DECODE -/

theorem Inv.rewind {s : State} (h : Inv s) : Inv (s.setRpos 0#32) :=
  ⟨h.cfg, h.obufWf, h.ibufWf, h.descWf, h.valWf, h.vbWf, h.obufIn, h.ibufIn, h.descIn, h.valIn, h.vbIn, h.wposLe,
    h.zeroTail, h.rlenLe, Nat.zero_le _, h.nfieldsLe, h.crcHigh⟩

theorem Inv.setTagRx {s : State} (h : Inv s) (v : BitVec 16) : Inv (s.setTagRx v) :=
  ⟨h.cfg, h.obufWf, h.ibufWf, h.descWf, h.valWf, h.vbWf, h.obufIn, h.ibufIn, h.descIn, h.valIn, h.vbIn, h.wposLe,
    h.zeroTail, h.rlenLe, h.rposLe, h.nfieldsLe, h.crcHigh⟩

/-- The stages of DECODE before the fields. -/
def decHeader (mode : Nat) (s : State) : Eff Unit :=
  (if mode = 3 then decRoute s else .ok () s).bind fun _ t => if 2 ≤ mode then decTagStage t else .ok () t

theorem decMessage_eq (mode : Nat) (kinds : List FieldKind) (s : State) :
    decMessage mode kinds s =
      (decHeader mode s).bind fun _ t => (decFields kinds 0 t).bind fun _ t =>
        (checkOrdinals kinds 0 t).bind fun _ t => .ok (t.rpos.setWidth 64) t := by
  unfold decMessage decHeader
  split_ifs
  · cases decRoute s <;> simp
  · cases decRoute s <;> simp
  · rfl
  · rfl

theorem runDecode_eq {s : State} {mode : Nat} {kinds : List FieldKind} (hm : mode ≠ 0)
    (hv : validateFrom s 0 s.msgNfields.toNat = .ok kinds) :
    runDecode mode s = decMessage mode kinds (s.setRpos 0#32) := by
  unfold runDecode; rw [if_neg hm, hv]

/-- The tag stage, where the tag is all there: TAG_RX has the ID, whether or not it is the one declared. -/
theorem decTagStage_cases {s : State} (hi : Inv s)
    (hfit : s.rpos.toNat + tagBitsAt s.ibufAt s.rpos.toNat ≤ 8 * s.rlen.toNat) :
    ∃ t : State, t = (s.setRpos t.rpos).setTagRx t.tagRx ∧
      t.rpos.toNat = s.rpos.toNat + tagBitsAt s.ibufAt s.rpos.toNat ∧
      t.tagRx.toNat = tagIdAt s.ibufAt s.rpos.toNat ∧ Inv t ∧
      decTagStage s =
        if s.typeIdValid = true ∧ tagIdAt s.ibufAt s.rpos.toNat ≠ s.typeId then
          .raise ⟨.decTypeIdMismatch, .tag, 0⟩ t
        else .ok () t := by
  obtain ⟨t, ht, tt, he⟩ := decTag_took hi hfit
  refine ⟨t.setTagRx (BitVec.ofNat 16 (tagIdAt s.ibufAt s.rpos.toNat)), ?_, tt.pos, ?_, tt.inv.setTagRx _, ?_⟩
  · conv_lhs => rw [he]
    rfl
  · show (BitVec.ofNat 16 _).toNat = _
    rw [BitVec.toNat_ofNat, Nat.mod_eq_of_lt (lt_of_lt_of_le (tagIdAt_lt _ _) (by decide))]
  · unfold decTagStage
    rw [ht, Eff.bind_ok]
    have h1 : (t.setTagRx (BitVec.ofNat 16 (tagIdAt s.ibufAt s.rpos.toNat))).typeIdValid = s.typeIdValid := by
      rw [he]; rfl
    have h2 : (t.setTagRx (BitVec.ofNat 16 (tagIdAt s.ibufAt s.rpos.toNat))).typeId = s.typeId := by rw [he]; rfl
    rw [h1, h2]
    simp only [Bool.and_eq_true, decide_eq_true_eq]

/-- What the stages before the fields leave: RPOS where the fields start, the routing header in ROUTE_RX in Mode 3 and
the ID in TAG_RX in Modes 2 and 3. -/
structure HeaderRead (mode : Nat) (s t : State) : Prop where
  only : t = ((s.setRpos t.rpos).setRouteRx t.routeRx).setTagRx t.tagRx
  pos : t.rpos.toNat = bodyStart mode s
  inv : Inv t
  route : mode = 3 → routeSrc t.routeRx = readBits s.ibufAt 0 8 ∧ routeDst t.routeRx = readBits s.ibufAt 8 8 ∧
    routePri t.routeRx = readBits s.ibufAt 16 2 ∧ routeAck t.routeRx = readBits s.ibufAt 18 1
  tag : 2 ≤ mode → t.tagRx.toNat = tagIdAt s.ibufAt (routeBits mode)
  routeKept : mode ≠ 3 → t.routeRx = s.routeRx
  tagKept : mode < 2 → t.tagRx = s.tagRx

/-- A header that is all there, with the ID the message declares, is read. -/
theorem decHeader_read {s : State} (hi : Inv s) {mode : Nat} (h0 : s.rpos = 0#32)
    (hfit : bodyStart mode s ≤ 8 * s.rlen.toNat)
    (hident : 2 ≤ mode → s.typeIdValid = true → tagIdAt s.ibufAt (routeBits mode) = s.typeId) :
    ∃ t, decHeader mode s = .ok () t ∧ HeaderRead mode s t := by
  have hz : s.rpos.toNat = 0 := by rw [h0]; rfl
  unfold bodyStart at hfit
  unfold decHeader
  by_cases h3 : mode = 3
  · have hrb : routeBits mode = 19 := by unfold routeBits; rw [if_pos h3]
    rw [hrb, if_neg (by omega)] at hfit
    obtain ⟨t, et, ot, pt, it, r1, r2, r3, r4⟩ := decRoute_ok hi (by omega)
    have hib : t.ibufAt = s.ibufAt := by rw [ot]; rfl
    have hrl : t.rlen = s.rlen := by rw [ot]; rfl
    obtain ⟨u, ou, pu, tn, iu, eu⟩ := decTagStage_cases it (by rw [pt, hib, hrl, hz]; omega)
    rw [hib, pt, hz, Nat.zero_add] at eu tn pu
    rw [hz, Nat.zero_add] at r2 r3 r4
    rw [hz] at r1
    have hid := hident (by omega)
    rw [hrb] at hid
    refine ⟨u, ?_, ?_⟩
    · rw [if_pos h3, et, Eff.bind_ok, if_pos (by omega), eu, if_neg]
      have e1 : t.typeIdValid = s.typeIdValid := by rw [ot]; rfl
      have e2 : t.typeId = s.typeId := by rw [ot]; rfl
      rw [e1, e2]; rintro ⟨a, b⟩; exact b (hid a)
    · have hr : u.routeRx = t.routeRx := by rw [ou]; rfl
      refine ⟨?_, ?_, iu, fun _ => ?_, fun _ => ?_, fun h => absurd h3 h, fun h => by omega⟩
      · conv_lhs => rw [ou, ot]
        rw [hr]; rfl
      · unfold bodyStart; rw [hrb, if_neg (by omega)]; exact pu
      · rw [hr]; exact ⟨r1, r2, r3, r4⟩
      · rw [hrb]; exact tn
  · have hrb : routeBits mode = 0 := by unfold routeBits; rw [if_neg h3]
    rw [if_neg h3, Eff.bind_ok]
    by_cases h2 : 2 ≤ mode
    · rw [hrb, if_neg (by omega)] at hfit
      obtain ⟨u, ou, pu, tn, iu, eu⟩ := decTagStage_cases hi (by rw [hz]; exact hfit)
      rw [hz] at eu tn pu
      have hid := hident h2
      rw [hrb] at hid
      refine ⟨u, ?_, ?_⟩
      · rw [if_pos h2, eu, if_neg]
        rintro ⟨a, b⟩; exact b (hid a)
      · have hr : u.routeRx = s.routeRx := by rw [ou]; rfl
        refine ⟨?_, ?_, iu, fun h => absurd h h3, fun _ => ?_, fun _ => hr, fun h => by omega⟩
        · conv_lhs => rw [ou]
          rw [hr]; rfl
        · unfold bodyStart; rw [hrb, if_neg (by omega)]; exact pu
        · rw [hrb]; exact tn
    · rw [if_neg h2]
      refine ⟨s, rfl, rfl, ?_, hi, fun h => absurd h h3, fun h => absurd h h2, fun _ => rfl, fun _ => rfl⟩
      unfold bodyStart; rw [hrb, if_pos (by omega)]; exact hz

/-- Header and a first part `ks` of the fields, all there and reading, are read into their slots, and no other slot is
touched. -/
theorem decBody_read {s : State} (hi : Inv s) {mode : Nat} {kinds ks : List FieldKind}
    (hh : HeaderReads mode s kinds)
    (hpre : ∀ (j : Nat) (k : FieldKind), ks[j]? = some k → kinds[j]? = some k)
    (hr : ∀ i k, ks[i]? = some k → FieldReads s.ibufAt (fieldStart (bodyStart mode s) ks i) k)
    (hfit : bodyStart mode s + bodyBits ks ≤ 8 * s.rlen.toNat) :
    ∃ t u, decHeader mode (s.setRpos 0#32) = .ok () t ∧ HeaderRead mode (s.setRpos 0#32) t ∧
      decFields ks 0 t = .ok () u ∧ Took t u (bodyBits ks) ∧ u.rpos.toNat = bodyStart mode s + bodyBits ks ∧
      (∀ i k, ks[i]? = some k → FieldDecoded s.ibufAt (fieldStart (bodyStart mode s) ks i) u i k) ∧
      (∀ j, ks.length ≤ j → u.valAt j = s.valAt j) ∧
      (∀ j l, l < 65536 → (∀ k, ks[j]? = some k → valueBytes k ≤ l) → u.vbAt j l = s.vbAt j l) := by
  obtain ⟨hlen, hg⟩ := validateFrom_get hh.valid
  simp only [Nat.zero_add] at hg
  obtain ⟨t, et, ot⟩ := decHeader_read hi.rewind (mode := mode) rfl (by
    show bodyStart mode s ≤ 8 * s.rlen.toNat
    omega) hh.ident
  have pt : t.rpos.toNat = bodyStart mode s := ot.pos
  have hib : t.ibufAt = s.ibufAt := by rw [ot.only]; rfl
  have hrl : t.rlen = s.rlen := by rw [ot.only]; rfl
  have hcf : t.cfg = s.cfg := by rw [ot.only]; rfl
  have hl : ks.length ≤ kinds.length := by
    by_contra h
    have h1 : ks[kinds.length]? = some (ks[kinds.length]'(by omega)) := List.getElem?_eq_getElem (by omega)
    have := hpre _ _ h1
    rw [List.getElem?_eq_none (by omega)] at this; cases this
  have hnf := hi.nfieldsLe
  obtain ⟨u, eu, tu, du, uv, ub⟩ := decFields_took (ks := ks) (i := 0) ot.inv (by rw [hcf]; omega)
    (fun j k h => by rw [hcf]; exact validateField_bytes (hg j k (hpre j k h)))
    (fun j k h => by rw [hib, pt]; exact hr j k h) (by rw [pt, hrl]; exact hfit)
  refine ⟨t, u, et, ot, eu, tu, by rw [tu.pos, pt], fun i k h => ?_, fun j hj => ?_, fun j l hl h => ?_⟩
  · have := du i k h
    rwa [hib, pt, Nat.zero_add] at this
  · rw [uv j (by omega)]; rw [ot.only]; rfl
  · rw [ub j l hl (.inr h)]; rw [ot.only]; rfl

/-- The reconstruction check passes when every ordinal does. -/
theorem checkOrdinals_ok {ks : List FieldKind} {i : Nat} {s : State}
    (h : ∀ j k, ks[j]? = some k → ordinalOk k (s.valAt (i + j)) = true) : checkOrdinals ks i s = .ok () s := by
  induction ks generalizing i with
  | nil => rfl
  | cons k ks ih =>
    rw [checkOrdinals, if_pos (show ordinalOk k (s.valAt i) = true from h 0 k rfl)]
    exact ih fun j k' hk => by rw [show i + 1 + j = i + (j + 1) by omega]; exact h (j + 1) k' hk

/-- The reconstruction check names the first ordinal that does not pass. -/
theorem checkOrdinals_bad {ks : List FieldKind} {i n : Nat} {s : State} {k : FieldKind} (hk : ks[n]? = some k)
    (h : ∀ j k', j < n → ks[j]? = some k' → ordinalOk k' (s.valAt (i + j)) = true)
    (hb : ordinalOk k (s.valAt (i + n)) = false) :
    checkOrdinals ks i s = .raise ⟨.decEnumOrdinal, .reconstruct, i + n⟩ s := by
  induction ks generalizing i n with
  | nil => simp at hk
  | cons k' ks ih =>
    cases n with
    | zero =>
      simp only [List.getElem?_cons_zero, Option.some.injEq] at hk
      subst hk
      rw [Nat.add_zero] at hb ⊢
      rw [checkOrdinals, if_neg (by simp [hb])]
    | succ n =>
      rw [checkOrdinals, if_pos (show ordinalOk k' (s.valAt i) = true from h 0 k' (by omega) rfl),
        ih (n := n) (by simpa using hk), show i + 1 + n = i + (n + 1) by omega]
      · intro j k'' hj hk''
        rw [show i + 1 + j = i + (j + 1) by omega]; exact h (j + 1) k'' (by omega) hk''
      · rw [show i + 1 + n = i + (n + 1) by omega]; exact hb

/-- For a slot that was decoded, the reconstruction check is about the ordinal read. -/
theorem ordinalOk_iff {f : Nat → Byte} {p i j : Nat} {s t : State} {k : FieldKind}
    (hv : validateField s j = .ok k) (h : FieldDecoded f p t i k) :
    ordinalOk k (t.valAt i) = true ↔ OrdinalReads f p k := by
  cases k with
  | enum n =>
    have hp := parseField_ok (validateField_ok hv)
    have hw : fieldWidth (.enum n) ≤ 64 := by
      show widthFor (n - 1) ≤ 64
      rw [widthFor_le_iff (by omega)]
      have := (s.descAt j 1).isLt
      have := hp.2.1
      omega
    have h' : t.valAt i = BitVec.ofNat 64 (readBits f p (fieldWidth (.enum n))) := h
    have hn : (t.valAt i).toNat = readBits f p (fieldWidth (.enum n)) := by
      rw [h', BitVec.toNat_ofNat, Nat.mod_eq_of_lt]
      exact lt_of_lt_of_le (readBits_lt _ _ _) (Nat.pow_le_pow_right (by omega) hw)
    simp only [ordinalOk, OrdinalReads, decide_eq_true_eq, hn]
  | bool => simp [ordinalOk, OrdinalReads]
  | int min max => simp [ordinalOk, OrdinalReads]
  | float fmin fmax prec m => simp [ordinalOk, OrdinalReads]
  | bytes len => simp [ordinalOk, OrdinalReads]
  | str len => simp [ordinalOk, OrdinalReads]

end Sys2Proof.Safety
end

