-- ==== Sys2Proof/Laws/Commands.lean ====
section
/-! SUPPORT. The laws of the operations that commands share beside PutBits and GetBits: the writer's and the reader's
checks, address checks, the CSR map, feeding the CRC register, and the width of a number's range. -/

namespace Sys2Proof.Machine

/-! ### The writer -/

/-- All that a primitive write can do. -/
theorem putPlain_eq (v n : Nat) (s : State) :
    putPlain v n s =
      if s.wpos.toNat + n ≤ 8 * s.cfg.obufBytes then
        .ok 0#64 ((s.setObuf (writeBits s.obuf s.wpos.toNat v n)).setWpos (BitVec.ofNat 32 (s.wpos.toNat + n)))
      else .raise (plainError .capacityObufFull) s := by
  unfold putPlain
  split
  · next h => rw [putBits_fits h]; rfl
  · next h => rw [putBits_full (by omega)]; rfl

/-- All that W_UINT can do: the width, the value, then the write. -/
theorem putUint_eq (n v : Nat) (s : State) :
    putUint n v s =
      if ¬(1 ≤ n ∧ n ≤ 64) then .raise (plainError .rangeWidth) s
      else if 2 ^ n ≤ v then .raise (plainError .rangeValue) s
      else putPlain v n s := by
  unfold putUint
  have : 0 < 2 ^ n := Nat.two_pow_pos n
  split_ifs <;> first | rfl | omega

/-- All that W_INT can do. -/
theorem putInt_eq (n : Nat) (v : Int) (s : State) :
    putInt n v s =
      if ¬(2 ≤ n ∧ n ≤ 64) then .raise (plainError .rangeWidth) s
      else if ¬(-(2 ^ (n - 1) : Int) ≤ v ∧ v ≤ (2 ^ (n - 1) : Int) - 1) then .raise (plainError .rangeValue) s
      else putPlain (v % 2 ^ n).toNat n s := by
  unfold putInt truncBits
  split_ifs <;> first | rfl | omega

/-! ### The reader -/

/-- All that a primitive read can do. -/
theorem getPlain_eq (n : Nat) (s : State) :
    getPlain n s =
      if s.rpos.toNat + n ≤ 8 * s.rlen.toNat then
        .ok (readBits s.ibufAt s.rpos.toNat n) (s.setRpos (BitVec.ofNat 32 (s.rpos.toNat + n)))
      else .raise (plainError .truncInsufficient) s := by
  unfold getPlain
  split
  · next h => exact getBits_fits h
  · next h => exact getBits_short (by omega)

/-- All that R_BOOL, R_BYTE, and R_UINT after its check, can do. -/
theorem getZext_eq (n : Nat) (s : State) :
    getZext n s =
      if s.rpos.toNat + n ≤ 8 * s.rlen.toNat then
        .ok (BitVec.ofNat 64 (readBits s.ibufAt s.rpos.toNat n)) (s.setRpos (BitVec.ofNat 32 (s.rpos.toNat + n)))
      else .raise (plainError .truncInsufficient) s := by
  unfold getZext
  rw [getPlain_eq]
  split <;> rfl

theorem getUint_eq (n : Nat) (s : State) :
    getUint n s = if 1 ≤ n ∧ n ≤ 64 then getZext n s else .raise (plainError .rangeWidth) s := by
  unfold getUint
  split <;> split <;> first | rfl | omega

theorem getInt_eq (n : Nat) (s : State) :
    getInt n s =
      if 2 ≤ n ∧ n ≤ 64 then
        if s.rpos.toNat + n ≤ 8 * s.rlen.toNat then
          .ok (BitVec.ofInt 64 (windowValue n (readBits s.ibufAt s.rpos.toNat n)))
            (s.setRpos (BitVec.ofNat 32 (s.rpos.toNat + n)))
        else .raise (plainError .truncInsufficient) s
      else .raise (plainError .rangeWidth) s := by
  unfold getInt
  rw [getPlain_eq]
  split_ifs <;> first | rfl | omega

/-! ### Addresses -/

theorem slotOk_iff {s : State} {slot : BitVec 8} : slotOk s slot = true ↔ slot.toNat < s.cfg.maxFields := by
  simp [slotOk]

theorem descOk_iff {s : State} {slot : BitVec 8} {word : BitVec 16} :
    descOk s slot word = true ↔ slot.toNat < s.cfg.maxFields ∧ word.toNat ≤ 2 := by
  simp [descOk, slotOk_iff]

theorem vbOk_iff {s : State} {slot : BitVec 8} {k : BitVec 16} :
    vbOk s slot k = true ↔ slot.toNat < s.cfg.maxFields ∧ k.toNat < s.cfg.maxFieldBytes := by
  simp [vbOk, slotOk_iff]

/-! ### The CSR map -/

/-- A number outside the map (10_state.md R21) is no CSR. -/
theorem csrOfNumber_none {n : BitVec 16}
    (h : n ∉ [0x0000#16, 0x0001#16, 0x0002#16, 0x0010#16, 0x0011#16, 0x0020#16, 0x0021#16, 0x0030#16, 0x0031#16,
      0x0040#16, 0x0041#16, 0x0042#16, 0x0050#16, 0x0051#16, 0x0052#16]) : csrOfNumber n = none := by
  unfold csrOfNumber
  split <;> first
    | rfl
    | next hn =>
      exfalso
      apply h
      rw [show n = BitVec.ofNat 16 n.toNat by simp, hn]
      decide

/-! ### The CRC register -/

/-- Feeding a span is folding the step over its bytes. -/
theorem crcFeed_eq (kind : BitVec 1) (f : Nat → Byte) (start count : Nat) (acc : BitVec 32) :
    crcFeed kind f start count acc =
      ((List.range count).map fun k => f (start + k)).foldl (crcStep kind) acc := by
  induction count generalizing start acc with
  | zero => rfl
  | succ count ih =>
    rw [crcFeed, ih, List.range_succ_eq_map]
    simp only [List.map_cons, List.map_map, List.foldl_cons, Nat.add_zero]
    congr 2
    funext k
    simp only [Function.comp_apply]
    congr 1
    omega

theorem crcFeed_ibuf (s : State) (start count : Nat) :
    crcFeed s.crcKind s.ibufAt start count s.crcAcc =
      (inputBytes s start count).foldl (crcStep s.crcKind) s.crcAcc := crcFeed_eq ..

theorem crcFeed_obuf (s : State) :
    crcFeed s.crcKind s.obufAt 0 s.outLen s.crcAcc = (imageBytes s).foldl (crcStep s.crcKind) s.crcAcc := by
  rw [crcFeed_eq, imageBytes]; simp

theorem spanStart_eq (w : Word64) : spanStart w = w.toNat % 2 ^ 32 := by simp [spanStart]

theorem spanCount_eq (w : Word64) : spanCount w = w.toNat / 2 ^ 32 := by
  have := w.isLt
  simp only [spanCount, BitVec.extractLsb'_toNat, Nat.shiftRight_eq_div_pow]
  omega

/-! ### Descriptors -/

theorem descKind_eq (w : Word64) : descKind w = w.toNat % 8 := by simp [descKind]

theorem descPrec_eq (w : Word64) : descPrec w = w.toNat / 16 % 8 := by
  simp [descPrec, Nat.shiftRight_eq_div_pow]

/-- The width that holds 0..n-1 is `max(1, ceil(log2 n))`. -/
theorem widthFor_eq_clog {n : Nat} (hn : 1 ≤ n) : widthFor (n - 1) = max 1 (Nat.clog 2 n) := by
  obtain rfl | hn' : n = 1 ∨ 2 ≤ n := by omega
  · simp [widthFor]
  · have h1 : n - 1 ≠ 0 := by omega
    rw [widthFor, if_neg h1, bitlen, if_neg h1, Nat.log2_eq_log_two]
    have h2 : Nat.clog 2 n = Nat.log 2 (n - 1) + 1 := by
      apply Nat.le_antisymm
      · rw [Nat.clog_le_iff_le_pow (by norm_num)]
        have := Nat.lt_pow_succ_log_self (b := 2) (by norm_num) (n - 1)
        omega
      · by_contra hc
        have h3 : n ≤ 2 ^ Nat.log 2 (n - 1) := (Nat.clog_le_iff_le_pow (by norm_num)).1 (by omega)
        have := Nat.pow_log_le_self 2 h1
        omega
    rw [h2]; omega

end Sys2Proof.Machine
end

