-- ==== Sys2Proof/Laws/Header.lean ====
section
/-! SUPPORT. The fields of a header word built from its parts (30_encoding.md R91, R94), and what the rows of the
opcode map ask of them. -/

namespace Sys2Proof

@[simp] theorem headerOp_mkHeader (op a : BitVec 8) (b : BitVec 16) : headerOp (mkHeader op a b) = op := by
  apply BitVec.eq_of_getLsbD_eq
  intro i hi
  simp only [headerOp, mkHeader, BitVec.getLsbD_extractLsb', BitVec.getLsbD_append]
  simp [hi, show ¬ 24 + i < 16 by omega, show ¬ 24 + i - 16 < 8 by omega, show 24 + i - 16 - 8 = i by omega]

@[simp] theorem headerA_mkHeader (op a : BitVec 8) (b : BitVec 16) : headerA (mkHeader op a b) = a := by
  apply BitVec.eq_of_getLsbD_eq
  intro i hi
  simp only [headerA, mkHeader, BitVec.getLsbD_extractLsb', BitVec.getLsbD_append]
  simp [hi, show ¬ 16 + i < 16 by omega, show 16 + i - 16 = i by omega]

@[simp] theorem headerB_mkHeader (op a : BitVec 8) (b : BitVec 16) : headerB (mkHeader op a b) = b := by
  apply BitVec.eq_of_getLsbD_eq
  intro i hi
  simp only [headerB, mkHeader, BitVec.getLsbD_extractLsb', BitVec.getLsbD_append]
  simp [hi]

/-- A header word is made of its three fields. -/
theorem mkHeader_fields (h : Word32) : mkHeader (headerOp h) (headerA h) (headerB h) = h := by
  apply BitVec.eq_of_getLsbD_eq
  intro i hi
  simp only [headerOp, headerA, headerB, mkHeader, BitVec.getLsbD_extractLsb', BitVec.getLsbD_append]
  by_cases h1 : i < 16
  · simp [h1]
  · by_cases h2 : i < 24
    · simp [h1, show i - 16 < 8 by omega, show 16 + (i - 16) = i by omega]
    · simp [h1, show ¬ i - 16 < 8 by omega, show i - 16 - 8 < 8 by omega, show 24 + (i - 16 - 8) = i by omega]

/-- The high bits of a zero-extended field are 0. -/
theorem extractLsb'_setWidth_high {n : Nat} (x : BitVec n) : (x.setWidth 16).extractLsb' n (16 - n) = 0#(16 - n) := by
  apply BitVec.eq_of_getLsbD_eq
  intro i hi
  simp only [BitVec.getLsbD_extractLsb', BitVec.getLsbD_setWidth, BitVec.getLsbD_zero]
  rw [BitVec.getLsbD_of_ge x (n + i) (by omega)]; simp

/-- The low bits of a zero-extended field are the field. -/
theorem extractLsb'_setWidth_low {n : Nat} (hn : n ≤ 16) (x : BitVec n) :
    (x.setWidth 16).extractLsb' 0 n = x := by
  apply BitVec.eq_of_getLsbD_eq
  intro i hi
  simp [hi, show i < 16 by omega]

/-- A 24-bit address is made of the header fields it is split into. -/
theorem append_extract_addr (x : BitVec 24) : x.extractLsb' 16 8 ++ x.extractLsb' 0 16 = x := by
  apply BitVec.eq_of_getLsbD_eq
  intro i hi
  simp only [BitVec.getLsbD_append, BitVec.getLsbD_extractLsb']
  by_cases h1 : i < 16
  · simp [h1]
  · simp [h1, show i - 16 < 8 by omega, show 16 + (i - 16) = i by omega]

end Sys2Proof
end

