-- ==== Sys2Proof/Laws/HostProcs.lean ====
section
/-! SUPPORT. Sending commands one after another: what one command sent leaves, and where a sequence that stops at its
first error response ends. -/

namespace Sys2Proof.Machine

/-- A command sent is run, and the inputs still to come are as before. -/
theorem sendCommand_of_run {c : Command} {s t : State} (h : runCommand c s = .next t) : sendCommand c s = t := by
  unfold sendCommand
  rw [step_command (s := s.setPort (.command c :: s.port)) (c := c) (rest := s.port) rfl]
  rw [show (s.setPort (.command c :: s.port)).setPort s.port = s from rfl, h]

/-- A command sent is answered. -/
theorem sendCommand_response (c : Command) (s : State) :
    (sendCommand c s).response = some (sendCommand c s).lastResponse := by
  have answered : ∀ x : Eff Word64, (answer x).response = some (answer x).lastResponse := by
    intro x; cases x <;> rfl
  cases h : decode c with
  | ok i =>
    obtain ⟨x, hx⟩ := exec_eq_respond i s
    rw [sendCommand_of_run ((runCommand_ok s h).trans hx)]
    exact answered x
  | error r =>
    rw [sendCommand_of_run (runCommand_error s h)]
    exact answered _

@[simp] theorem sendAll_nil (s : State) : sendAll [] s = ([], s) := rfl

@[simp] theorem sendUntilError_nil (s : State) : sendUntilError [] s = ([], s) := rfl

@[simp] theorem firstError_nil : firstError [] = none := rfl

/-- The first command answers OK: the rest is sent. -/
theorem sendUntilError_cons_ok {i : Instr} {is : List Instr} {s : State}
    (h : (sendCommand (encode i) s).lastResponse.status = statusOk) :
    sendUntilError (i :: is) s =
      ((sendCommand (encode i) s).lastResponse :: (sendUntilError is (sendCommand (encode i) s)).1,
        (sendUntilError is (sendCommand (encode i) s)).2) := if_pos h

/-- The first command answers an error: the rest is not sent. -/
theorem sendUntilError_cons_error {i : Instr} {is : List Instr} {s : State}
    (h : (sendCommand (encode i) s).lastResponse.status ≠ statusOk) :
    sendUntilError (i :: is) s = ([(sendCommand (encode i) s).lastResponse], sendCommand (encode i) s) := if_neg h

theorem firstError_cons_ok {r : Response} (h : r.status = statusOk) (rs : List Response) :
    firstError (r :: rs) = firstError rs := by
  unfold firstError
  rw [List.find?_cons_of_neg (by simp [h])]

theorem firstError_cons_error {r : Response} (h : r.status ≠ statusOk) (rs : List Response) :
    firstError (r :: rs) = some r := by
  unfold firstError
  rw [List.find?_cons_of_pos (by simpa using h)]

/-- No error among the responses: every command was sent, and the sequence did what sending them all does. -/
theorem sendUntilError_ok {is : List Instr} {s : State} (h : firstError (sendUntilError is s).1 = none) :
    sendUntilError is s = sendAll is s := by
  induction is generalizing s with
  | nil => rfl
  | cons i is ih =>
    by_cases hi : (sendCommand (encode i) s).lastResponse.status = statusOk
    · rw [sendUntilError_cons_ok hi] at h ⊢
      rw [ih (by rwa [firstError_cons_ok hi] at h)]
      rfl
    · rw [sendUntilError_cons_error hi, firstError_cons_error hi] at h
      exact absurd h (by simp)

/-- An error among the responses: it is the last of them, the state is the one the failing command left, and only the
commands up to it were sent. -/
theorem sendUntilError_error {is : List Instr} {s : State} {r : Response}
    (h : firstError (sendUntilError is s).1 = some r) :
    ∃ pre i post, is = pre ++ i :: post ∧ firstError (sendUntilError pre s).1 = none ∧
      sendCommand (encode i) (sendUntilError pre s).2 = (sendUntilError is s).2 ∧
      (sendUntilError is s).2.lastResponse = r ∧ (sendUntilError is s).1 = (sendUntilError pre s).1 ++ [r] := by
  induction is generalizing s with
  | nil => exact absurd h (by simp)
  | cons i is ih =>
    by_cases hi : (sendCommand (encode i) s).lastResponse.status = statusOk
    · rw [sendUntilError_cons_ok hi, firstError_cons_ok hi] at h
      obtain ⟨pre, j, post, rfl, hpre, hj, hr, hrs⟩ := ih h
      refine ⟨i :: pre, j, post, rfl, ?_, ?_, ?_, ?_⟩
      · rw [sendUntilError_cons_ok hi, firstError_cons_ok hi]; exact hpre
      · rw [sendUntilError_cons_ok hi, sendUntilError_cons_ok hi]; exact hj
      · rw [sendUntilError_cons_ok hi]; exact hr
      · rw [sendUntilError_cons_ok hi, sendUntilError_cons_ok hi]; simp only [hrs, List.cons_append]
    · rw [sendUntilError_cons_error hi, firstError_cons_error hi] at h
      cases h
      refine ⟨[], i, is, rfl, rfl, ?_⟩
      rw [sendUntilError_cons_error hi]
      exact ⟨rfl, rfl, rfl⟩

/-- A sequence in two parts: the second is sent if the first ends without an error. -/
theorem sendUntilError_append (xs ys : List Instr) (s : State) :
    sendUntilError (xs ++ ys) s =
      match firstError (sendUntilError xs s).1 with
      | none =>
        ((sendUntilError xs s).1 ++ (sendUntilError ys (sendUntilError xs s).2).1,
          (sendUntilError ys (sendUntilError xs s).2).2)
      | some _ => sendUntilError xs s := by
  induction xs generalizing s with
  | nil => rfl
  | cons i xs ih =>
    by_cases hi : (sendCommand (encode i) s).lastResponse.status = statusOk
    · rw [List.cons_append, sendUntilError_cons_ok hi, sendUntilError_cons_ok hi, firstError_cons_ok hi, ih]
      cases firstError (sendUntilError xs (sendCommand (encode i) s)).1 <;> rfl
    · rw [List.cons_append, sendUntilError_cons_error hi, sendUntilError_cons_error hi, firstError_cons_error hi]

end Sys2Proof.Machine
end

