-- ==== Sys2Proof/Laws/PerInstr.lean ====
section
/-! SUPPORT. What holds of every instruction as syntax: its words select a row of the opcode map (30_encoding.md R94)
that agrees with them on the operand word (R95) and leaves its reserved bits clear (R98). -/

namespace Sys2Proof.Laws.RowFormat

/-- The words of `i` select a row of the opcode map; they carry an operand word exactly when that row takes one, and
the bits that the row's format reserves are 0. -/
def Statement (i : Instr) : Prop :=
  ∃ r, opRowOf (headerOp (encode i).header) = some r ∧ r.operand = (encode i).operand.isSome ∧
    reservedClear r.format (headerA (encode i).header) (headerB (encode i).header) = true

theorem of_fields {op a : BitVec 8} {b : BitVec 16} {i : Instr} (hh : (encode i).header = mkHeader op a b)
    (h : ∃ r, opRowOf op = some r ∧ r.operand = (encode i).operand.isSome ∧ reservedClear r.format a b = true) :
    Statement i := by
  unfold Statement
  rw [hh]; simpa using h

theorem nop : Statement .nop :=
  of_fields rfl ⟨_, rfl, rfl, rfl⟩

theorem wClear : Statement .wClear :=
  of_fields rfl ⟨_, rfl, rfl, rfl⟩

theorem wBool (bit : BitVec 1) : Statement (.wBool bit) :=
  of_fields rfl ⟨_, rfl, rfl, by simpa [reservedClear] using extractLsb'_setWidth_high bit⟩

theorem wUint (n : BitVec 8) (w : Word64) : Statement (.wUint n w) :=
  of_fields rfl ⟨_, rfl, rfl, rfl⟩

theorem wInt (n : BitVec 8) (w : Word64) : Statement (.wInt n w) :=
  of_fields rfl ⟨_, rfl, rfl, rfl⟩

theorem wByte (byte : Byte) : Statement (.wByte byte) :=
  of_fields rfl ⟨_, rfl, rfl, by simpa [reservedClear] using extractLsb'_setWidth_high byte⟩

theorem wFinish : Statement .wFinish :=
  of_fields rfl ⟨_, rfl, rfl, rfl⟩

theorem wPos : Statement .wPos :=
  of_fields rfl ⟨_, rfl, rfl, rfl⟩

theorem rRewind : Statement .rRewind :=
  of_fields rfl ⟨_, rfl, rfl, rfl⟩

theorem rBool : Statement .rBool :=
  of_fields rfl ⟨_, rfl, rfl, rfl⟩

theorem rUint (n : BitVec 8) : Statement (.rUint n) :=
  of_fields rfl ⟨_, rfl, rfl, rfl⟩

theorem rInt (n : BitVec 8) : Statement (.rInt n) :=
  of_fields rfl ⟨_, rfl, rfl, rfl⟩

theorem rByte : Statement .rByte :=
  of_fields rfl ⟨_, rfl, rfl, rfl⟩

theorem rPos : Statement .rPos :=
  of_fields rfl ⟨_, rfl, rfl, rfl⟩

theorem crcInit (kind : BitVec 1) : Statement (.crcInit kind) :=
  of_fields rfl ⟨_, rfl, rfl, by simpa [reservedClear] using extractLsb'_setWidth_high kind⟩

theorem crcByte (byte : Byte) : Statement (.crcByte byte) :=
  of_fields rfl ⟨_, rfl, rfl, by simpa [reservedClear] using extractLsb'_setWidth_high byte⟩

theorem crcRead : Statement .crcRead :=
  of_fields rfl ⟨_, rfl, rfl, rfl⟩

theorem crcCheck (v : Word64) : Statement (.crcCheck v) :=
  of_fields rfl ⟨_, rfl, rfl, rfl⟩

theorem crcObuf : Statement .crcObuf :=
  of_fields rfl ⟨_, rfl, rfl, rfl⟩

theorem crcIbuf (w : Word64) : Statement (.crcIbuf w) :=
  of_fields rfl ⟨_, rfl, rfl, rfl⟩

theorem encodeMsg (mode : BitVec 2) : Statement (.encodeMsg mode) :=
  of_fields rfl ⟨_, rfl, rfl, by simpa [reservedClear] using extractLsb'_setWidth_high mode⟩

theorem decodeMsg (mode : BitVec 2) : Statement (.decodeMsg mode) :=
  of_fields rfl ⟨_, rfl, rfl, by simpa [reservedClear] using extractLsb'_setWidth_high mode⟩

theorem peekTag : Statement .peekTag :=
  of_fields rfl ⟨_, rfl, rfl, rfl⟩

theorem width (slot : BitVec 8) : Statement (.width slot) :=
  of_fields rfl ⟨_, rfl, rfl, rfl⟩

theorem csrRd (csr : BitVec 16) : Statement (.csrRd csr) :=
  of_fields rfl ⟨_, rfl, rfl, rfl⟩

theorem csrWr (csr : BitVec 16) (v : Word64) : Statement (.csrWr csr v) :=
  of_fields rfl ⟨_, rfl, rfl, rfl⟩

theorem ibWr (addr : BitVec 24) (v : Word64) : Statement (.ibWr addr v) :=
  of_fields rfl ⟨_, rfl, rfl, rfl⟩

theorem ibRd (addr : BitVec 24) : Statement (.ibRd addr) :=
  of_fields rfl ⟨_, rfl, rfl, rfl⟩

theorem obRd (addr : BitVec 24) : Statement (.obRd addr) :=
  of_fields rfl ⟨_, rfl, rfl, rfl⟩

theorem descWr (slot : BitVec 8) (word : BitVec 16) (v : Word64) : Statement (.descWr slot word v) :=
  of_fields rfl ⟨_, rfl, rfl, rfl⟩

theorem descRd (slot : BitVec 8) (word : BitVec 16) : Statement (.descRd slot word) :=
  of_fields rfl ⟨_, rfl, rfl, rfl⟩

theorem valWr (slot : BitVec 8) (v : Word64) : Statement (.valWr slot v) :=
  of_fields rfl ⟨_, rfl, rfl, rfl⟩

theorem valRd (slot : BitVec 8) : Statement (.valRd slot) :=
  of_fields rfl ⟨_, rfl, rfl, rfl⟩

theorem vbWr (slot : BitVec 8) (k : BitVec 16) (v : Word64) : Statement (.vbWr slot k v) :=
  of_fields rfl ⟨_, rfl, rfl, rfl⟩

theorem vbRd (slot : BitVec 8) (k : BitVec 16) : Statement (.vbRd slot k) :=
  of_fields rfl ⟨_, rfl, rfl, rfl⟩

theorem reset : Statement .reset :=
  of_fields rfl ⟨_, rfl, rfl, rfl⟩

end Sys2Proof.Laws.RowFormat
end

