-- ==== Sys2Proof/Tests/Slice0.lean ====
section
/-! SUPPORT. Tests: a word of each command written out from its encoding rule, one-step tests whose expected values
stand in the spec, and for each statement with hypotheses a state that meets them. -/

namespace Sys2Proof.Tests

open Sys2Proof Sys2Proof.Machine Sys2Proof.Safety

/-! ### Well-formedness: R100 -/

theorem test_encode_mode_0_ill_formed : (Instr.encodeMsg 0#2).wellFormed = false := by decide

theorem test_decode_mode_0_ill_formed : (Instr.decodeMsg 0#2).wellFormed = false := by decide

theorem test_encode_mode_3_well_formed : (Instr.encodeMsg 3#2).wellFormed = true := by decide

/-! ### Decoding: the words of 30_encoding.md R94, and of the vectors of 95_test_vectors.md where one is named -/

/-- The instruction a header and an operand word decode to. -/
def decoded (h : Word32) (w : Option Word64) : Option Instr := (decode ⟨h, w⟩).toOption

/-- The reason a header and an operand word do not decode. -/
def rejected (h : Word32) (w : Option Word64) : Option Reject :=
  match decode ⟨h, w⟩ with
  | .error r => some r
  | .ok _ => none

theorem test_decode_nop : decoded 0x00000000#32 none = some .nop := by decide
theorem test_decode_wClear : decoded 0x01000000#32 none = some .wClear := by decide
theorem test_decode_wBool : decoded 0x02000001#32 none = some (.wBool 1#1) := by decide
theorem test_decode_wUint : decoded 0x030D0000#32 (some 0x1ABC#64) = some (.wUint 13#8 6844#64) := by decide
theorem test_decode_wInt : decoded 0x04040000#32 (some 0xFFFFFFFFFFFFFFFD#64) = some (.wInt 4#8 (-3#64)) := by decide
theorem test_decode_wByte : decoded 0x050000FF#32 none = some (.wByte 255#8) := by decide
theorem test_decode_wFinish : decoded 0x06000000#32 none = some .wFinish := by decide
theorem test_decode_wPos : decoded 0x07000000#32 none = some .wPos := by decide
theorem test_decode_rRewind : decoded 0x08000000#32 none = some .rRewind := by decide
theorem test_decode_rBool : decoded 0x09000000#32 none = some .rBool := by decide
theorem test_decode_rUint : decoded 0x0A400000#32 none = some (.rUint 64#8) := by decide
theorem test_decode_rInt : decoded 0x0B0C0000#32 none = some (.rInt 12#8) := by decide
theorem test_decode_rByte : decoded 0x0C000000#32 none = some .rByte := by decide
theorem test_decode_rPos : decoded 0x0D000000#32 none = some .rPos := by decide
theorem test_decode_crcInit : decoded 0x10000001#32 none = some (.crcInit 1#1) := by decide
theorem test_decode_crcByte : decoded 0x11000061#32 none = some (.crcByte 0x61#8) := by decide
theorem test_decode_crcRead : decoded 0x12000000#32 none = some .crcRead := by decide
theorem test_decode_crcCheck : decoded 0x13000000#32 (some 0xC613FBDA#64) = some (.crcCheck 0xC613FBDA#64) := by decide
theorem test_decode_crcObuf : decoded 0x14000000#32 none = some .crcObuf := by decide
theorem test_decode_crcIbuf :
    decoded 0x15000000#32 (some 0x0000000800000002#64) = some (.crcIbuf (8#32 ++ 2#32)) := by decide
theorem test_decode_encode : decoded 0x18000002#32 none = some (.encodeMsg 2#2) := by decide
theorem test_decode_decode : decoded 0x19000001#32 none = some (.decodeMsg 1#2) := by decide
theorem test_decode_peekTag : decoded 0x1A000000#32 none = some .peekTag := by decide
theorem test_decode_width : decoded 0x1B030000#32 none = some (.width 3#8) := by decide
theorem test_decode_csrRd : decoded 0x20000051#32 none = some (.csrRd 0x0051#16) := by decide
theorem test_decode_csrWr : decoded 0x21000041#32 (some 0x10005#64) = some (.csrWr 0x0041#16 0x10005#64) := by decide
theorem test_decode_ibWr : decoded 0x22010002#32 (some 0x21#64) = some (.ibWr 0x010002#24 0x21#64) := by decide
theorem test_decode_ibRd : decoded 0x23000100#32 none = some (.ibRd 256#24) := by decide
theorem test_decode_obRd : decoded 0x24800001#32 none = some (.obRd 0x800001#24) := by decide
theorem test_decode_descWr : decoded 0x25030001#32 (some 7#64) = some (.descWr 3#8 1#16 7#64) := by decide
theorem test_decode_descRd : decoded 0x26030001#32 none = some (.descRd 3#8 1#16) := by decide
theorem test_decode_valWr : decoded 0x27010000#32 (some 1#64) = some (.valWr 1#8 1#64) := by decide
theorem test_decode_valRd : decoded 0x28020000#32 none = some (.valRd 2#8) := by decide
theorem test_decode_vbWr : decoded 0x29020001#32 (some 0x61#64) = some (.vbWr 2#8 1#16 0x61#64) := by decide
theorem test_decode_vbRd : decoded 0x2A020001#32 none = some (.vbRd 2#8 1#16) := by decide
theorem test_decode_reset : decoded 0x3F000000#32 none = some .reset := by decide

/-- BW-27, BW-29, HA-30. -/
theorem test_reserved_bits : rejected 0x02000002#32 none = some .reserved ∧
    rejected 0x050001FF#32 none = some .reserved ∧ rejected 0x19000004#32 none = some .reserved := by decide

/-- BW-28, and R99 the other way. -/
theorem test_operand_presence : rejected 0x03030000#32 none = some .operand ∧
    rejected 0x00000000#32 (some 0#64) = some .operand := by decide

/-- R97: the ends of the unassigned ranges. -/
theorem test_unassigned_opcodes : rejected 0x0E000000#32 none = some .opcode ∧
    rejected 0x2B000000#32 none = some .opcode ∧ rejected 0x3E000000#32 none = some .opcode ∧
    rejected 0xFF000000#32 (some 0#64) = some .opcode := by decide

/-- A table word of 32 bits runs with an operand word of zeros (W_UINT 1, 0), and one of no operand as it is. -/
theorem test_table_words : decodeTableWord 32 0x03010000 = some (.wUint 1#8 0#64) ∧
    decodeTableWord 32 0x29000000 = some (.vbWr 0#8 0#16 0#64) ∧
    decodeTableWord 32 0x1A000000 = some .peekTag := by decide

/-! ### One step -/

/-- The state after an instruction. -/
def ran (i : Instr) (s : State) : State :=
  match exec i s with
  | .next t => t
  | .fault _ => s
  | .refused _ => s

/-- An OK response. -/
def ok (v : Word64) : Option Response := some ⟨0#32, v⟩

/-- An error response. -/
def err (status : Word32) : Option Response := some ⟨status, 0#64⟩

/-- Small parameters: 8 bytes of IBUF and OBUF, 6 fields of 4 bytes. -/
def small : Config.Params := { ibufBytes := 8, obufBytes := 8, maxFields := 6, maxFieldBytes := 4 }

/-- After reset, with the small parameters. -/
def start : State := State.powerUp small

/-- Bytes from address 0 on. -/
def listed (bs : List Byte) : Memory 8 := bs.mapIdx fun k b => (k, b)

/-- With an input loaded. -/
def input (bs : List Byte) (s : State) : State := (s.setIbuf (listed bs)).setRlen (BitVec.ofNat 32 bs.length)

/-- With `n` bits written, in bytes of which none is 0. -/
def written (bs : List Byte) (n : BitVec 32) (s : State) : State := (s.setObuf (listed bs)).setWpos n

/-- With a message descriptor. -/
def fields (ds : List (Word64 × Word64 × Word64)) (s : State) : State :=
  (s.setDesc (ds.mapIdx fun i d => [(descKey i 0, d.1), (descKey i 1, d.2.1), (descKey i 2, d.2.2)]).flatten).setMsgNfields
    (BitVec.ofNat 32 ds.length)

/-- With values. -/
def values (vs : List Word64) (s : State) : State := s.setVal (vs.mapIdx fun i v => (i, v))

/-- The message of L1-1: BoundedInt(0,255) and Bool, with 42 and true. -/
def report : State := values [42#64, 1#64] (fields [(1#64, 0#64, 255#64), (0#64, 0#64, 0#64)] start)

/-- R280. -/
theorem test_nop : (ran .nop start).response = ok 0#64 := by decide

/-- BW-21. -/
theorem test_wClear : (ran .wClear (written [0x2A#8, 0x80#8] 9#32 start)).obuf = [] ∧
    (ran .wClear (written [0x2A#8, 0x80#8] 9#32 start)).wpos = 0#32 := by decide

/-- BW-17. -/
theorem test_wBool : (ran (.wBool 1#1) (written [0x2A#8] 8#32 start)).obuf = [(0, 0x2A#8), (1, 0x80#8)] := by decide

/-- BW-1, BW-2. -/
theorem test_wUint : (ran (.wUint 3#8 5#64) start).obufAt 0 = 0xA0#8 ∧
    (ran (.wUint 3#8 8#64) start).response = err 0x21#32 := by decide

/-- BW-8, BW-13. -/
theorem test_wInt : (ran (.wInt 4#8 (-3#64)) start).obufAt 0 = 0xD0#8 ∧
    (ran (.wInt 1#8 0#64) start).response = err 0x11#32 := by decide

/-- BW-16. -/
theorem test_wByte : (ran (.wByte 0xFF#8) (written [0x80#8] 1#32 start)).obuf = [(0, 0xFF#8), (1, 0x80#8)] := by decide

/-- BW-18. -/
theorem test_wFinish : (ran .wFinish (written [0x2A#8, 0x80#8] 9#32 start)).response = ok 2#64 := by decide

/-- BW-20. -/
theorem test_wPos : (ran .wPos (written [0x2A#8, 0x80#8] 9#32 start)).response = ok 9#64 := by decide

/-- R170. -/
theorem test_rRewind : (ran .rRewind ((input [1#8] start).setRpos 5#32)).rpos = 0#32 := by decide

/-- R171's example. -/
theorem test_rBool : (ran .rBool (input [0x80#8] start)).response = ok 1#64 ∧
    (ran .rBool (input [0x80#8] start)).rpos = 1#32 := by decide

/-- R172's example. -/
theorem test_rUint : (ran (.rUint 3#8) (input [0xA0#8] start)).response = ok 5#64 ∧
    (ran (.rUint 6#8) ((input [0xA0#8] start).setRpos 3#32)).response = err 0x12#32 := by decide

/-- R173's example. -/
theorem test_rInt : (ran (.rInt 4#8) (input [0xD0#8] start)).response = ok 0xFFFFFFFFFFFFFFFD#64 := by decide

/-- R174's example. -/
theorem test_rByte : (ran .rByte ((input [0xFF#8, 0x80#8] start).setRpos 1#32)).response = ok 0xFF#64 ∧
    (ran .rByte ((input [0xFF#8, 0x80#8] start).setRpos 1#32)).rpos = 9#32 := by decide

/-- R175's example. -/
theorem test_rPos : (ran .rPos ((input [0xA0#8] start).setRpos 3#32)).response = ok 3#64 := by decide

/-- R124's example. -/
theorem test_crcInit : (ran (.crcInit 1#1) start).crcAcc = 0xFFFFFFFF#32 := by decide

/-- R125's example. -/
theorem test_crcByte : (ran (.crcByte 0x61#8) start).crcAcc = 0x00009D77#32 := by decide

/-- R126: the final XOR of CRC-32, and none of CRC-16. -/
theorem test_crcRead : (ran .crcRead start).response = ok 0xFFFF#64 ∧
    (ran .crcRead ((start.setCrcKind 1#1).setCrcAcc 0xCF56DB42#32)).response = ok 0x30A924BD#64 := by decide

/-- R127's example, with the register P1 ends with. -/
theorem test_crcCheck :
    (ran (.crcCheck 0x30A924BD#64) ((start.setCrcKind 1#1).setCrcAcc 0xCF56DB42#32)).response = ok 0x30A924BD#64 ∧
      (ran (.crcCheck 0x30A924BC#64) ((start.setCrcKind 1#1).setCrcAcc 0xCF56DB42#32)).response = err 0x16#32 := by
  decide

/-- R128's example. -/
theorem test_crcObuf : (ran .crcObuf (written [0x2A#8, 0x80#8] 9#32 start)).crcAcc = 0x65AA#32 := by decide +kernel

/-- L1-4's example: the CRC-32 of 00 00 00 04 01 AC 61 62. -/
theorem test_crcIbuf :
    (ran (.crcIbuf (8#32 ++ 0#32)) ((input [0#8, 0#8, 0#8, 4#8, 1#8, 0xAC#8, 0x61#8, 0x62#8]
      ((start.setCrcKind 1#1).setCrcAcc 0xFFFFFFFF#32)))).crcAcc = ~~~0x2726E05A#32 := by decide +kernel

/-- L1-1. -/
theorem test_encode : (ran (.encodeMsg 1#2) report).response = ok 2#64 ∧
    (ran (.encodeMsg 1#2) report).obuf = [(0, 0x2A#8), (1, 0x80#8)] ∧
    (ran (.encodeMsg 1#2) report).wpos = 9#32 := by decide

/-- L1-2b, L1-2d. -/
theorem test_encode_tag : (ran (.encodeMsg 2#2) (start.setMsgTypeId 0x10080#17)).obuf = [(0, 0x80#8), (1, 0x80#8)] ∧
    (ran (.encodeMsg 2#2) (start.setMsgTypeId 0x18000#17)).response = err 0x3054#32 := by decide +kernel

/-- L1-5b. -/
theorem test_decode : (ran (.decodeMsg 1#2) (input [0x2A#8, 0x80#8] report)).response = ok 9#64 ∧
    (ran (.decodeMsg 1#2) (input [0x2A#8, 0x80#8] report)).val = [(0, 42#64), (1, 1#64)] := by decide

/-- L1-5a. -/
theorem test_decode_truncated : (ran (.decodeMsg 1#2) (input [0x2A#8] report)).response = err 0x14015#32 := by decide

/-- R262's example. -/
theorem test_peekTag : (ran .peekTag (input [0x81#8, 0x2C#8] start)).response = ok 300#64 ∧
    (ran .peekTag (input [0x81#8, 0x2C#8] start)).rpos = 16#32 := by decide

/-- R215's example; and R208's, the width of BoundedFloat(-10.0, 10.0, 2). -/
theorem test_width : (ran (.width 0#8) report).response = ok 8#64 ∧
    (ran (.width 0#8) (fields [(0x22#64, 0xC024000000000000#64, 0x4024000000000000#64)] start)).response = ok 11#64 := by
  decide +kernel

/-- HA-1. -/
theorem test_csrRd : (ran (.csrRd 0#16) start).response = ok 0x0000000755574331#64 := by decide

/-- R27, R38. -/
theorem test_csrWr : (ran (.csrWr 0x20#16 2#64) ((input [1#8] start).setRpos 3#32)).rlen = 2#32 ∧
    (ran (.csrWr 0x20#16 2#64) ((input [1#8] start).setRpos 3#32)).rpos = 0#32 ∧
    (ran (.csrWr 0x10#16 2#64) start).response = err 0x68#32 := by decide

/-- R283. -/
theorem test_ibWr : (ran (.ibWr 1#24 0x21#64) start).ibuf = [(1, 0x21#8)] ∧
    (ran (.ibWr 8#24 0x21#64) start).response = err 0x31#32 := by decide

/-- R284. -/
theorem test_ibRd : (ran (.ibRd 1#24) (input [1#8, 0xAC#8] start)).response = ok 0xAC#64 := by decide

/-- R285. -/
theorem test_obRd : (ran (.obRd 1#24) (written [0x2A#8, 0x80#8] 9#32 start)).response = ok 0x80#64 := by decide

/-- R216's example; the words of a slot are apart. -/
theorem test_descWr : (ran (.descWr 0#8 2#16 9#64) report).descAt 0 2 = 9#64 ∧
    (ran (.descWr 0#8 2#16 9#64) report).descAt 1 0 = 0#64 := by decide

/-- R217. -/
theorem test_descRd : (ran (.descRd 0#8 2#16) report).response = ok 255#64 ∧
    (ran (.descRd 0#8 3#16) report).response = err 0x31#32 := by decide

/-- R218. -/
theorem test_valWr : (ran (.valWr 1#8 7#64) report).val = [(0, 42#64), (1, 7#64)] := by decide

/-- R219. -/
theorem test_valRd : (ran (.valRd 0#8) report).response = ok 42#64 := by decide

/-- R220's example; R220: a byte above 255. -/
theorem test_vbWr : (ran (.vbWr 2#8 0#16 0x61#64) start).vbAt 2 0 = 0x61#8 ∧
    (ran (.vbWr 2#8 0#16 256#64) start).response = err 0x61#32 := by decide

/-- R221's example. -/
theorem test_vbRd : (ran (.vbRd 2#8 0#16) (start.setVb [(vbKey 2 0, 0x61#8)])).response = ok 0x61#64 := by decide

/-- R286, R340. -/
theorem test_reset : (ran .reset (written [0x2A#8] 8#32 (report.setCrcAcc 7#32))).obuf = [] ∧
    (ran .reset (written [0x2A#8] 8#32 (report.setCrcAcc 7#32))).crcAcc = 0xFFFF#32 ∧
    (ran .reset report).val = report.val := by decide

/-- The state after a step. -/
def stepped (s : State) : State :=
  match step s with
  | .next t => t
  | .fault _ => s
  | .refused _ => s

/-- A word of the opcode table runs as the first instruction after reset (W_UINT 3, 5; BW-1). -/
theorem test_fetch : (stepped (State.reset.withFetchWord 96 0x0000000503030000)).obufAt 0 = 0xA0#8 ∧
    (stepped (State.reset.withFetchWord 96 0x0000000503030000)).wpos = 3#32 := by decide

/-! ### Witnesses: for each statement with hypotheses, states and operands that meet them, clause by clause -/

/-- With inputs waiting on the port. -/
def waiting (ps : List PortInput) : State := start.setPort ps

theorem witness_DecodedCommandIsItsEncoding : decode ⟨0x03030000#32, some 5#64⟩ = .ok (.wUint 3#8 5#64) := rfl

theorem witness_DecodeChecksAnswerInOrder :
    (waiting [.command ⟨0#32, none⟩]).port = .command ⟨0#32, none⟩ :: [] ∧
    (UnassignedOp (headerOp 0x0E000000#32) ∧ UnassignedOp (headerOp 0x3E000000#32) ∧
      UnassignedOp (headerOp 0x40000000#32) ∧ UnassignedOp (headerOp 0xFF000000#32)) ∧
    (¬ UnassignedOp (headerOp 0x3F000000#32) ∧ (headerOp 0x3F000000#32 ∉ opsWithOperand) ∧
      (headerOp 0x03000000#32 ∈ opsWithOperand)) ∧
    (ReservedBitSet 0x00000001#32 ∧ ReservedBitSet 0x00800000#32 ∧ ReservedBitSet 0x18000004#32 ∧
      ¬ ReservedBitSet 0x2AFFFFFF#32) ∧
    (¬ ReservedBitSet 0x18000000#32 ∧ ¬ UnassignedOp (headerOp 0x18000000#32) ∧
      headerOp 0x18000000#32 ∉ opsWithOperand) := by
  unfold UnassignedOp ReservedBitSet
  exact ⟨rfl, by decide, by decide, by decide, by decide⟩

theorem witness_StepRunsDecodedInstruction :
    (waiting [.command ⟨0#32, none⟩]).port = .command ⟨0#32, none⟩ :: [] ∧ decode ⟨0#32, none⟩ = .ok .nop ∧
    decodeTableWord 32 0x09000000 = some .rBool ∧
    decodeTableWord 96 0x0000000503030000 = some (.wUint 3#8 5#64) := ⟨rfl, rfl, rfl, rfl⟩

theorem witness_NoInputStopsTheBlock : start.port = [] := rfl

theorem witness_FailedPrimitiveChangesNothing :
    ¬ IsEncode .rBool ∧ ¬ IsDecode .rBool ∧ Instr.rBool ≠ .peekTag ∧ ∃ t, exec .rBool start = .next t ∧ IsError t :=
  ⟨id, id, by decide, ran .rBool start, rfl, ⟨0x12#32, 0#64⟩, rfl, by decide⟩

theorem witness_LookingCommandsChangeNothing : OnlyLooks .wFinish ∧ exec .wFinish start = .next (ran .wFinish start) :=
  ⟨trivial, rfl⟩

theorem witness_OnlyNamedCommandsWriteEachPiece :
    exec .nop start = .next (ran .nop start) ∧ ¬ Appends .nop ∧ Instr.nop ≠ .wClear ∧ ¬ IsEncode .nop ∧
      Instr.nop ≠ .reset ∧ (∀ a v, Instr.nop ≠ .ibWr a v) ∧ ¬ IsCsrWrite .nop ∧ ¬ Consumes .nop ∧
      Instr.nop ≠ .rRewind ∧ ¬ IsDecode .nop ∧ Instr.nop ≠ .peekTag ∧ ¬ StartsCrc .nop ∧ ¬ FeedsCrc .nop ∧
      (∀ slot word v, Instr.nop ≠ .descWr slot word v) ∧ (∀ slot v, Instr.nop ≠ .valWr slot v) ∧
      (∀ slot k v, Instr.nop ≠ .vbWr slot k v) := by
  refine ⟨rfl, id, ?_, id, ?_, ?_, id, id, ?_, id, ?_, id, id, ?_, ?_, ?_⟩ <;> simp

/-- The smallest and the largest parameters. -/
theorem witness_InvariantHoldsAfterReset :
    Config.Params.Valid ⟨1, 1, 1, 1⟩ ∧ Config.Params.Valid ⟨2 ^ 24, 2 ^ 24, 256, 65536⟩ := by decide

theorem start_inv : Inv start := inv_of_check (by decide)

theorem reset_inv : Inv State.reset := inv_of_check (by decide)

theorem witness_StepKeepsInvariant :
    Inv (report.setPort [.command ⟨0x18000001#32, none⟩]) ∧
      step (report.setPort [.command ⟨0x18000001#32, none⟩]) =
        .next (stepped (report.setPort [.command ⟨0x18000001#32, none⟩])) :=
  ⟨inv_of_check (by decide), rfl⟩

theorem witness_ResetSetsEveryRegister : (waiting [.resetInput]).port = .resetInput :: [] := rfl

theorem witness_AbandonedCommandLeavesOldOrNew :
    (waiting [.resetDuring ⟨0x22000001#32, some 7#64⟩]).port = .resetDuring ⟨0x22000001#32, some 7#64⟩ :: [] ∧
      runCommand ⟨0x22000001#32, some 7#64⟩ (start.setPort []) =
        .next (ran (.ibWr 1#24 7#64) (start.setPort [])) := ⟨rfl, rfl⟩

/-- The last bit and the last byte of OBUF, the least and the greatest width, the ends of the signed range. -/
theorem witness_WritesAppendTheirField :
    (Inv (written [] 63#32 start) ∧ (written [] 63#32 start).wpos.toNat + 1 ≤ 8 * (written [] 63#32 start).cfg.obufBytes) ∧
    (Inv start ∧ (64#8).toNat ≤ 64 ∧ (0xFFFFFFFFFFFFFFFF#64).toNat < 2 ^ (64#8).toNat ∧
      start.wpos.toNat + (64#8).toNat ≤ 8 * start.cfg.obufBytes ∧ 1 ≤ (1#8).toNat ∧ (1#64).toNat < 2 ^ (1#8).toNat) ∧
    (2 ≤ (2#8).toNat ∧ -(2 ^ ((2#8).toNat - 1) : Int) ≤ (-2#64 : Word64).toInt ∧
      (-2#64 : Word64).toInt ≤ (2 ^ ((2#8).toNat - 1) : Int) - 1 ∧
      -(2 ^ ((64#8).toNat - 1) : Int) ≤ (0x7FFFFFFFFFFFFFFF#64).toInt ∧
      (0x7FFFFFFFFFFFFFFF#64).toInt ≤ (2 ^ ((64#8).toNat - 1) : Int) - 1) ∧
    (Inv (written [] 56#32 start) ∧ (written [] 56#32 start).wpos.toNat + 8 ≤ 8 * (written [] 56#32 start).cfg.obufBytes) :=
  ⟨⟨inv_of_check (by decide), by decide⟩, ⟨start_inv, by decide⟩, by decide, inv_of_check (by decide), by decide⟩

theorem witness_WriterErrorsInOrder :
    ((0#8).toNat < 1 ∧ 64 < (65#8).toNat ∧ (1#8).toNat < 2) ∧
    (1 ≤ (1#8).toNat ∧ 2 ^ (1#8).toNat ≤ (2#64).toNat ∧ 2 ^ (63#8).toNat ≤ (0x8000000000000000#64).toNat) ∧
    (8 * start.cfg.obufBytes < (start.setWpos 64#32).wpos.toNat + (1#8).toNat ∧ (1#64).toNat < 2 ^ (1#8).toNat) ∧
    ((-3#64 : Word64).toInt < -(2 ^ ((2#8).toNat - 1) : Int) ∧ (2 ^ ((2#8).toNat - 1) : Int) - 1 < (2#64).toInt) ∧
    (8 * start.cfg.obufBytes < (start.setWpos 57#32).wpos.toNat + 8) := by decide

theorem witness_WriterLaws :
    (Inv start ∧ (∀ x ∈ [StreamItem.uint 64#8 0xFFFFFFFFFFFFFFFF#64], x.Legal) ∧
      itemBits [.uint 64#8 0xFFFFFFFFFFFFFFFF#64] ≤ 8 * start.cfg.obufBytes) ∧
    (Appends (.wBool 1#1) ∧ exec (.wBool 1#1) (start.setWpos 64#32) = .next (ran (.wBool 1#1) (start.setWpos 64#32)) ∧
      IsError (ran (.wBool 1#1) (start.setWpos 64#32))) ∧
    (exec (.wByte 255#8) start = .next (ran (.wByte 255#8) start)) := by
  refine ⟨⟨start_inv, ?_, by decide⟩, ⟨trivial, rfl, ⟨0x17#32, 0#64⟩, rfl, by decide⟩, rfl⟩
  simp [StreamItem.Legal]

/-- One byte fits and the second does not; one byte is there and the second is not. -/
theorem witness_ByteStringsStopAtFailingByte :
    (Inv (start.setWpos 50#32) ∧ [1#8, 2#8][0]? = some 1#8 ∧
      (8 * (start.setWpos 50#32).cfg.obufBytes - (start.setWpos 50#32).wpos.toNat) / 8 = 1 ∧
      1 < [1#8, 2#8].length ∧ [1#8].length ≤ 1) ∧
    (Inv ((input [1#8, 2#8] start).setRpos 5#32) ∧
      (8 * ((input [1#8, 2#8] start).setRpos 5#32).rlen.toNat - ((input [1#8, 2#8] start).setRpos 5#32).rpos.toNat) / 8 =
        1) :=
  ⟨⟨inv_of_check (by decide), by decide⟩, inv_of_check (by decide), by decide⟩

/-- R155, D13: the third byte of W_BYTES is not sent. -/
theorem test_wBytes_stops : (runPseudo (.wBytes [1#8, 2#8, 3#8]) (start.setWpos 50#32)).1 =
    [⟨0#32, 0#64⟩, ⟨0x17#32, 0#64⟩] := by decide +kernel

/-- R176, D13: RPOS has advanced by the one byte that was there. -/
theorem test_rBytes_stops : (runPseudo (.rBytes 3) ((input [1#8, 2#8] start).setRpos 5#32)).1 =
      [⟨0#32, 0x20#64⟩, ⟨0x12#32, 0#64⟩] ∧
    (runPseudo (.rBytes 3) ((input [1#8, 2#8] start).setRpos 5#32)).2.rpos = 13#32 := by decide +kernel

/-- The last bit and the last byte of the input, the least and the greatest width. -/
theorem witness_ReadsAnswerTheirField :
    (Inv ((input [0#8] start).setRpos 7#32) ∧ 7 + 1 ≤ 8 * (input [0#8] start).rlen.toNat) ∧
    (Inv (input [0#8, 1#8, 2#8, 3#8, 4#8, 5#8, 6#8, 7#8] start) ∧
      0 + (64#8).toNat ≤ 8 * (input [0#8, 1#8, 2#8, 3#8, 4#8, 5#8, 6#8, 7#8] start).rlen.toNat ∧
      1 ≤ (1#8).toNat ∧ 2 ≤ (2#8).toNat ∧ (64#8).toNat ≤ 64) ∧
    (Inv (input [0#8] start) ∧ 0 + 8 ≤ 8 * (input [0#8] start).rlen.toNat) :=
  ⟨⟨inv_of_check (by decide), by decide⟩, ⟨inv_of_check (by decide), by decide⟩, inv_of_check (by decide), by decide⟩

theorem witness_ReaderErrorsLeaveState :
    ((0#8).toNat < 1 ∧ 64 < (65#8).toNat ∧ (1#8).toNat < 2) ∧
    (8 * start.rlen.toNat < start.rpos.toNat + (1#8).toNat) ∧ (8 * start.rlen.toNat < start.rpos.toNat + (2#8).toNat) ∧
    (8 * start.rlen.toNat < start.rpos.toNat + 1) ∧
    (8 * (input [0#8] start).rlen.toNat < ((input [0#8] start).setRpos 1#32).rpos.toNat + 8) := by decide

theorem witness_ReadBackReturnsEveryWrite :
    (Inv start ∧ (∀ x ∈ [StreamItem.int 64#8 0x8000000000000000#64], x.Legal) ∧
      itemBits [.int 64#8 0x8000000000000000#64] ≤ 8 * start.cfg.obufBytes ∧
      (itemBits [.int 64#8 0x8000000000000000#64] + 7) / 8 ≤ start.cfg.ibufBytes) ∧
    (Consumes .rByte ∧ exec .rByte start = .next (ran .rByte start) ∧ IsError (ran .rByte start)) := by
  refine ⟨⟨start_inv, ?_, by decide⟩, trivial, rfl, ⟨0x12#32, 0#64⟩, rfl, by decide⟩
  simp only [List.mem_singleton, forall_eq, StreamItem.Legal]
  decide

theorem witness_CrcCommandsForEachKind :
    start.crcKind = 0#1 ∧ (start.setCrcKind 1#1).crcKind = 1#1 ∧ (0#64 : Word64) ≠ 1#64 := by decide

/-- A span that ends at the end of the input, and one byte more. -/
theorem witness_CrcFeedsBufferBytes :
    (0x0000000100000001#64).toNat % 2 ^ 32 + (0x0000000100000001#64).toNat / 2 ^ 32 ≤
        (input [1#8, 2#8] start).rlen.toNat ∧
      (input [1#8, 2#8] start).rlen.toNat <
        (0x0000000100000002#64).toNat % 2 ^ 32 + (0x0000000100000002#64).toNat / 2 ^ 32 := by decide

theorem witness_CrcReadIsChecksumOfBytesFed :
    ∀ i ∈ [Instr.crcByte 1#8, .rBool, .crcObuf], ¬ StartsCrc i := by
  intro i hi
  fin_cases hi <;> exact id

theorem witness_CrcDetectsOneChangedByte : (0#8 : Byte) ≠ 1#8 := by decide

/-- A whole OBUF, a frame of nothing but its CRC, and one byte too many. -/
theorem witness_BuiltFrameHasLayout :
    Inv start ∧ (frameBytes ⟨true, none, some 0#1⟩ [1#8, 2#8]).length ≤ start.cfg.obufBytes ∧
      (frameBytes ⟨false, none, some 1#1⟩ []).length ≤ start.cfg.obufBytes ∧
      (start.cfg.obufBytes < (frameBytes ⟨true, none, some 0#1⟩ [1#8, 2#8, 3#8]).length ∧
        [1#8, 2#8, 3#8].length + 2 < 2 ^ 32) :=
  ⟨start_inv, by decide, by decide, by decide⟩

theorem witness_FrameCheckAcceptsFrame :
    Inv start ∧ frameBytes ⟨false, some 300#16, some 0#1⟩ [] ≠ [] ∧
      (frameBytes ⟨false, some 300#16, some 0#1⟩ []).length ≤ start.cfg.ibufBytes :=
  ⟨start_inv, by decide, by decide⟩

/-- The last bit of the frame. -/
theorem witness_FlippedBitFailsFrameCheck :
    Inv start ∧ (FrameShape.mk true none (some 0#1)).crc.isSome = true ∧
      (frameBytes ⟨true, none, some 0#1⟩ [1#8, 2#8]).length ≤ start.cfg.ibufBytes ∧
      63 < 8 * (frameBytes ⟨true, none, some 0#1⟩ [1#8, 2#8]).length :=
  ⟨start_inv, rfl, by decide, by decide⟩

theorem witness_SlotWordWriteThenRead :
    (5#8).toNat < start.cfg.maxFields ∧ (2#16).toNat ≤ 2 ∧ (0#16).toNat ≤ 2 := by decide

theorem witness_ByteWriteThenRead :
    (7#24).toNat < start.cfg.ibufBytes ∧ (5#8).toNat < start.cfg.maxFields ∧
      (3#16).toNat < start.cfg.maxFieldBytes := by decide

/-- All of IBUF; and a value of five bytes where four fit, whose VAL_WR is not sent. -/
theorem witness_PseudoInstructionsRunInOrder :
    (Inv start ∧ [1#8, 2#8, 3#8, 4#8, 5#8, 6#8, 7#8, 8#8].length ≤ start.cfg.ibufBytes) ∧
    (expandPseudo (.setBytes 0#8 [1#8, 2#8, 3#8, 4#8, 5#8]) =
        [.vbWr 0#8 0#16 1#64, .vbWr 0#8 1#16 2#64, .vbWr 0#8 2#16 3#64, .vbWr 0#8 3#16 4#64] ++
          .vbWr 0#8 4#16 5#64 :: [.valWr 0#8 5#64] ∧
      let r := sendAll [.vbWr 0#8 0#16 1#64, .vbWr 0#8 1#16 2#64, .vbWr 0#8 2#16 3#64, .vbWr 0#8 3#16 4#64] start
      (∀ x ∈ r.1, x.status = 0#32) ∧ exec (.vbWr 0#8 4#16 5#64) r.2 = .next (ran (.vbWr 0#8 4#16 5#64) r.2) ∧
        IsError (ran (.vbWr 0#8 4#16 5#64) r.2)) :=
  ⟨⟨start_inv, by decide⟩, rfl, by decide +kernel, rfl, ⟨0x31#32, 0#64⟩, by decide +kernel, by decide⟩

/-- R304: VAL of the slot is as before. -/
theorem test_setBytes_stops : (runPseudo (.setBytes 0#8 [1#8, 2#8, 3#8, 4#8, 5#8]) start).2.val = [] ∧
    (runPseudo (.setBytes 0#8 [1#8, 2#8, 3#8, 4#8]) start).2.val = [(0, 4#64)] := by decide +kernel

theorem witness_HostReadsAnswerContent :
    (7#24).toNat < start.cfg.ibufBytes ∧ (7#24).toNat < start.cfg.obufBytes ∧ (5#8).toNat < start.cfg.maxFields ∧
      (2#16).toNat ≤ 2 ∧ (3#16).toNat < start.cfg.maxFieldBytes := by decide

theorem witness_AddressAndByteErrors :
    start.cfg.maxFields ≤ (6#8).toNat ∧ 2 < (3#16).toNat ∧ start.cfg.maxFieldBytes ≤ (4#16).toNat ∧
      start.cfg.ibufBytes ≤ (8#24).toNat ∧ start.cfg.obufBytes ≤ (8#24).toNat ∧
      ((5#8).toNat < start.cfg.maxFields ∧ (3#16).toNat < start.cfg.maxFieldBytes ∧ 255 < (256#64).toNat) ∧
      ((7#24).toNat < start.cfg.ibufBytes ∧ 255 < (256#64).toNat) := by decide

theorem witness_CsrReadMap : start.cfg.Valid := by decide

theorem witness_CsrWriteThenRead :
    (8#64).toNat ≤ start.cfg.ibufBytes ∧ (6#64).toNat ≤ start.cfg.maxFields ∧ start.cfg.Valid := by decide

theorem witness_CsrErrors :
    (0x0003#16 ∉ [0x0000#16, 0x0001#16, 0x0002#16, 0x0010#16, 0x0011#16, 0x0020#16, 0x0021#16, 0x0030#16, 0x0031#16,
      0x0040#16, 0x0041#16, 0x0042#16, 0x0050#16, 0x0051#16, 0x0052#16]) ∧
    start.cfg.ibufBytes < (9#64).toNat ∧ start.cfg.maxFields < (7#64).toNat := by decide

/-- Slots 0 to 5: each kind once, with a one-point range and a one-variant Enum at the edge. -/
def kindsOnce : State :=
  fields [(0#64, 0#64, 0#64), (1#64, 5#64, 5#64), (0x62#64, 0#64, 0x4059000000000000#64), (3#64, 1#64, 0#64),
    (4#64, 4#64, 0#64), (5#64, 0#64, 0#64)] start

theorem witness_WidthFollowsKind :
    (5#8).toNat < kindsOnce.cfg.maxFields ∧ (kindsOnce.descAt 0 0).toNat % 8 = 0 ∧
    ((kindsOnce.descAt 1 0).toNat % 8 = 1 ∧ (kindsOnce.descAt 1 1).toInt ≤ (kindsOnce.descAt 1 2).toInt) ∧
    ((kindsOnce.descAt 2 0).toNat % 8 = 2 ∧ (kindsOnce.descAt 2 0).toNat / 16 % 8 ≤ 6 ∧
      (f64 (kindsOnce.descAt 2 1)).isFinite = true ∧ (f64 (kindsOnce.descAt 2 2)).isFinite = true ∧
      fle64 (f64 (kindsOnce.descAt 2 1)) (f64 (kindsOnce.descAt 2 2)) = true ∧
      scaledInt (f64 (kindsOnce.descAt 2 1)) (f64 (kindsOnce.descAt 2 2)) ((kindsOnce.descAt 2 0).toNat / 16 % 8) =
        some 100000000) ∧
    ((kindsOnce.descAt 3 0).toNat % 8 = 3 ∧ 1 ≤ (kindsOnce.descAt 3 1).toNat) ∧
    ((kindsOnce.descAt 4 0).toNat % 8 = 4 ∧ (kindsOnce.descAt 4 1).toNat ≤ kindsOnce.cfg.maxFieldBytes) ∧
    ((kindsOnce.descAt 5 0).toNat % 8 = 5 ∧ (kindsOnce.descAt 5 1).toNat ≤ kindsOnce.cfg.maxFieldBytes) := by
  decide +kernel

/-- Slots that fail validation: bounds, precision, an infinite bound, a scaled range that overflows, no variant, a
length above 4; and a kind 7. -/
def badKinds : State :=
  fields [(1#64, 5#64, 4#64), (0x72#64, 0#64, 0#64), (2#64, 0#64, 0x7FF0000000000000#64),
    (0x62#64, 0#64, 0x7FE0000000000000#64), (3#64, 0#64, 0#64), (4#64, 5#64, 0#64)] start

theorem witness_WidthRejectsBadDescriptor :
    ((badKinds.descAt 0 0).toNat % 8 = 1 ∧ (badKinds.descAt 0 2).toInt < (badKinds.descAt 0 1).toInt) ∧
    ((badKinds.descAt 1 0).toNat % 8 = 2 ∧ (badKinds.descAt 1 0).toNat / 16 % 8 = 7) ∧
    ((badKinds.descAt 2 0).toNat % 8 = 2 ∧ (badKinds.descAt 2 0).toNat / 16 % 8 ≤ 6 ∧
      (f64 (badKinds.descAt 2 2)).isFinite = false) ∧
    ((badKinds.descAt 3 0).toNat % 8 = 2 ∧ (badKinds.descAt 3 0).toNat / 16 % 8 ≤ 6 ∧
      (f64 (badKinds.descAt 3 1)).isFinite = true ∧ (f64 (badKinds.descAt 3 2)).isFinite = true ∧
      fle64 (f64 (badKinds.descAt 3 1)) (f64 (badKinds.descAt 3 2)) = true ∧
      scaledInt (f64 (badKinds.descAt 3 1)) (f64 (badKinds.descAt 3 2)) ((badKinds.descAt 3 0).toNat / 16 % 8) =
        none) ∧
    ((badKinds.descAt 4 0).toNat % 8 = 3 ∧ (badKinds.descAt 4 1).toNat = 0) ∧
    ((badKinds.descAt 5 0).toNat % 8 = 4 ∧ badKinds.cfg.maxFieldBytes < (badKinds.descAt 5 1).toNat) ∧
    ((badKinds.setDesc [(descKey 0 0, 7#64)]).descAt 0 0).toNat % 8 = 7 := by
  decide +kernel

theorem report_inv : Inv report := inv_of_check (by decide)

/-- A command and an input after it; and under the invariant a WIDTH that fails in SCHEMA_CHECK, and an ENCODE that fails
in FIELD, of 256 in BoundedInt(0, 255). -/
theorem witness_EveryCommandGetsOneResponse :
    (waiting [.command ⟨0x0E000000#32, none⟩, .resetInput]).port =
      .command ⟨0x0E000000#32, none⟩ :: [.resetInput] ∧
    (let s := badKinds.setPort [.command ⟨0x1B050000#32, none⟩]
     Inv s ∧ (stepped s).response = err 0x051063#32 ∧ ((0x051063#32 : Word32).extractLsb' 12 4).toNat = 1) ∧
    (let s := (values [256#64, 1#64] report).setPort [.command ⟨0x18000001#32, none⟩]
     Inv s ∧ (stepped s).response = err 0x004014#32 ∧ ((0x004014#32 : Word32).extractLsb' 12 4).toNat ∈ [4, 5]) :=
  ⟨rfl, ⟨inv_of_check (by decide), by decide +kernel, by decide⟩, inv_of_check (by decide), by decide +kernel, by decide⟩

theorem witness_Binary64WordsRoundTrip : f64 0x7FEFFFFFFFFFFFFF#64 ≠ .nan ∧ f64 0x8000000000000001#64 ≠ .nan := by
  decide +kernel

/-- A tie on each side. -/
theorem witness_IntegerRoundingIsNearestEven :
    2 * (1 - rneDiv 1 2 * 2) = 2 ∧ 2 * (rneDiv 3 2 * 2 - 3) = 2 := by decide

/-- 2^53 + 1 units, a tie with 2^53 + 2; the last count that stays finite, and the first that does not. -/
theorem witness_Binary64RoundingIsNearest :
    (2 ^ 53 + 1 < (2 ^ 54 - 1) * 2 ^ 2044 * 1 ∧ roundUnits false (2 ^ 53 + 1) 1 = .finite false (2 ^ 53) ∧
      f64 0x0020000000000000#64 = .finite false (2 ^ 53) ∧ f64 0x0020000000000001#64 = .finite false (2 ^ 53 + 2)) ∧
    roundUnits true ((2 ^ 54 - 1) * 2 ^ 2044 - 1) 1 = .finite true ((2 ^ 53 - 1) * 2 ^ 2045) ∧
    roundUnits true ((2 ^ 54 - 1) * 2 ^ 2044) 1 = .inf true := by
  decide +kernel

/-- Both ends of 0.0 .. 100.0 with precision 6, and -0.0 as a value. -/
theorem witness_ScaledValueStaysInRange :
    (6 ≤ 6 ∧ fle64 (f64 0#64) (f64 0x4059000000000000#64) = true ∧
      fle64 (f64 0x4059000000000000#64) (f64 0x4059000000000000#64) = true ∧ (f64 0#64).isFinite = true ∧
      (f64 0x4059000000000000#64).isFinite = true ∧
      scaledInt (f64 0#64) (f64 0x4059000000000000#64) 6 = some 100000000) ∧
    fle64 (f64 0#64) (f64 0x8000000000000000#64) = true ∧
    scaledInt (f64 0#64) (f64 0x8000000000000000#64) 6 = some 0 := by
  decide +kernel

/-- A message of six fields, one of each kind, in Mode 3 64 bits: all of OBUF. -/
def full : State :=
  (((values [1#64, 42#64, 0x402899999999999A#64, 2#64, 1#64, 1#64]
    (fields [(0#64, 0#64, 0#64), (1#64, 0#64, 255#64), (0x12#64, 0#64, 0x4059000000000000#64), (3#64, 4#64, 0#64),
      (4#64, 1#64, 0#64), (5#64, 1#64, 0#64)] start)).setVb [(vbKey 4 0, 0xFF#8), (vbKey 5 0, 0x61#8)]).setMsgTypeId
    0x10005#17).setRouteTx 0x6FF03#19

/-- The kinds of its fields. -/
def fullKinds : List FieldKind :=
  [.bool, .int 0 255, .float (f64 0#64) (f64 0x4059000000000000#64) 1 1000, .enum 4, .bytes 1, .str 1]

theorem full_inv : Inv full := inv_of_check (by decide)

theorem full_valid : validateFrom full 0 full.msgNfields.toNat = .ok fullKinds := by decide +kernel

/-- A property of every field of `fullKinds`, from the six. -/
theorem full_fields {P : Nat → FieldKind → Prop} (h0 : P 0 .bool) (h1 : P 1 (.int 0 255))
    (h2 : P 2 (.float (f64 0#64) (f64 0x4059000000000000#64) 1 1000)) (h3 : P 3 (.enum 4)) (h4 : P 4 (.bytes 1))
    (h5 : P 5 (.str 1)) (i : Nat) (k : FieldKind) (h : fullKinds[i]? = some k) : P i k := by
  match i with
  | 0 | 1 | 2 | 3 | 4 | 5 => simp only [fullKinds, List.getElem?_cons_zero, List.getElem?_cons_succ,
      Option.some.injEq] at h; subst h; assumption
  | i + 6 => simp [fullKinds] at h

theorem full_values (i : Nat) (k : FieldKind) (h : fullKinds[i]? = some k) : ValueOk full i k := by
  refine full_fields ?_ ?_ ?_ ?_ ?_ ?_ i k h <;> simp only [ValueOk] <;> decide +kernel

theorem full_encodable {mode : Nat} (h : mode ∈ [1, 2, 3]) : Encodable mode full fullKinds where
  modeOk := by revert mode; decide
  valid := full_valid
  ident _ := by decide
  values := full_values
  room := by revert mode; decide +kernel
  size h := absurd h (by decide)

theorem witness_EncodeLaysOutMessage : Inv full ∧ Encodable (1#2).toNat full fullKinds ∧
    Encodable (2#2).toNat full fullKinds ∧ Encodable (3#2).toNat full fullKinds :=
  ⟨full_inv, full_encodable (by decide), full_encodable (by decide), full_encodable (by decide)⟩

/-- The second of two descriptors fails. -/
theorem witness_BadDescriptorStopsCodecFirst :
    (1#2 : BitVec 2) ≠ 0#2 ∧
    1 < (fields [(0#64, 0#64, 0#64), (3#64, 0#64, 0#64)] start).msgNfields.toNat ∧
    (∀ j < 1, ∃ k, validateField (fields [(0#64, 0#64, 0#64), (3#64, 0#64, 0#64)] start) j = .ok k) ∧
    validateField (fields [(0#64, 0#64, 0#64), (3#64, 0#64, 0#64)] start) 1 =
      .error ⟨.schemaCardinality, .schemaCheck, 1⟩ :=
  ⟨by decide, by decide, fun j hj => match j, hj with | 0, _ => ⟨.bool, rfl⟩, rfl⟩

/-- The BoundedFloat of `full` is a NaN; nothing before it fails. -/
theorem witness_EncodeStopsAtFirstBadValue :
    let s := values [1#64, 42#64, 0x7FF8000000000000#64] full
    Inv s ∧ (3#2 : BitVec 2) ≠ 0#2 ∧ validateFrom s 0 s.msgNfields.toNat = .ok fullKinds ∧
      (s.typeIdValid = true ∧ s.typeId < 32768) ∧
      fullKinds[2]? = some (.float (f64 0#64) (f64 0x4059000000000000#64) 1 1000) ∧
      (∀ j k', j < 2 → fullKinds[j]? = some k' → ValueOk s j k') ∧
      ¬ ValueOk s 2 (.float (f64 0#64) (f64 0x4059000000000000#64) 1 1000) ∧
      messageBits (3#2).toNat s (fullKinds.take 2) ≤ 8 * s.cfg.obufBytes := by
  refine ⟨inv_of_check (by decide), by decide, by decide +kernel, by decide, rfl, ?_, ?_, by decide⟩
  · intro j k' hj h
    match j with
    | 0 => simp only [fullKinds, List.getElem?_cons_zero, Option.some.injEq] at h; subst h; simp only [ValueOk]; decide
    | 1 =>
      simp only [fullKinds, List.getElem?_cons_zero, List.getElem?_cons_succ, Option.some.injEq] at h
      subst h; simp only [ValueOk]; decide
    | j + 2 => omega
  · simp only [ValueOk]; decide +kernel

/-- `full` with an OBUF of `n` bytes. -/
def fullIn (n : Nat) : State := { full with cfg := { small with obufBytes := n } }

/-- In Mode 1, field 1 passes the end of an OBUF of 1 byte and field 4 that of 3 bytes; a header that does not fit 1 or
2 bytes; a long tag that does not fit 1 byte in Mode 2 nor 4 bytes in Mode 3, and a short one that does not fit 3. -/
theorem witness_EncodeNamesWhereOutputIsFull :
    (Inv (fullIn 1) ∧ Inv (fullIn 3) ∧ validateFrom (fullIn 3) 0 (fullIn 3).msgNfields.toNat = .ok fullKinds ∧
      fullKinds[4]? = some (.bytes 1) ∧ (∀ j k', j ≤ 4 → fullKinds[j]? = some k' → ValueOk (fullIn 3) j k') ∧
      messageBits (1#2).toNat (fullIn 3) (fullKinds.take 4) ≤ 8 * (fullIn 3).cfg.obufBytes ∧
      8 * (fullIn 3).cfg.obufBytes < messageBits (1#2).toNat (fullIn 3) (fullKinds.take 4) + fieldWidth (.bytes 1)) ∧
    (messageBits (1#2).toNat (fullIn 1) (fullKinds.take 1) ≤ 8 * (fullIn 1).cfg.obufBytes ∧
      8 * (fullIn 1).cfg.obufBytes < messageBits (1#2).toNat (fullIn 1) (fullKinds.take 1) + fieldWidth (.int 0 255)) ∧
    (Inv (fullIn 2) ∧ (fullIn 2).cfg.obufBytes ≤ 2) ∧
    (∀ m n ident, (m, n, ident) ∈ [(2, 1, 0x10080#17), (3, 4, 0x10080#17), (3, 3, 0x1007F#17)] →
      Inv ((fullIn n).setMsgTypeId ident) ∧ ((fullIn n).setMsgTypeId ident).typeIdValid = true ∧
      ((fullIn n).setMsgTypeId ident).typeId < 32768 ∧ routeBits m ≤ 8 * (fullIn n).cfg.obufBytes ∧
      8 * (fullIn n).cfg.obufBytes < routeBits m + tagBits m ((fullIn n).setMsgTypeId ident).typeId) := by
  refine ⟨⟨inv_of_check (by decide), inv_of_check (by decide), by decide +kernel, rfl, ?_, by decide +kernel,
    by decide +kernel⟩, by decide, ⟨inv_of_check (by decide), by decide⟩, ?_⟩
  · intro j k' _ h
    exact full_values j k' h
  · intro m n ident h
    simp only [List.mem_cons, List.not_mem_nil, or_false, Prod.mk.injEq] at h
    rcases h with ⟨rfl, rfl, rfl⟩ | ⟨rfl, rfl, rfl⟩ | ⟨rfl, rfl, rfl⟩ <;> exact ⟨inv_of_check (by decide), by decide⟩

/-- R246: the header and the flag of a tag that does not fit. -/
theorem test_encode_tag_full : (ran (.encodeMsg 3#2) (fullIn 3)).response = err 0x3017#32 ∧
    (ran (.encodeMsg 3#2) (fullIn 3)).wpos = 20#32 := by decide +kernel

/-- 37 bits in Mode 1 are 5 bytes, and the maximum is 4. -/
theorem witness_EncodeOverMaximumIsRejected :
    let s := full.setMsgMaxb 0x100000004#33
    Inv s ∧ (1#2 : BitVec 2) ≠ 0#2 ∧ validateFrom s 0 s.msgNfields.toNat = .ok fullKinds ∧
      (s.typeIdValid = true ∧ s.typeId < 32768) ∧ (∀ i k, fullKinds[i]? = some k → ValueOk s i k) ∧
      messageBits (1#2).toNat s fullKinds ≤ 8 * s.cfg.obufBytes ∧ s.maxBytesValid = true ∧
      s.maxBytes < (messageBits (1#2).toNat s fullKinds + 7) / 8 :=
  ⟨inv_of_check (by decide), by decide, by decide +kernel, by decide, full_values, by decide +kernel, by decide,
    by decide +kernel⟩

/-- In Mode 3, of `full`, with no type ID and with 32768. -/
theorem witness_TagSizeBoundary :
    (Inv start ∧ start.msgNfields = 0#32 ∧ start.maxBytesValid = false ∧ 2 ≤ start.cfg.obufBytes ∧
      (start.setMsgTypeId 0x1007F#17).msgTypeId = 0x1007F#17) ∧
    (∀ ident ∈ [0x18000#17, 5#17], Inv (full.setMsgTypeId ident) ∧ 2 ≤ (3#2).toNat ∧
      validateFrom (full.setMsgTypeId ident) 0 (full.setMsgTypeId ident).msgNfields.toNat = .ok fullKinds ∧
      routeBits (3#2).toNat ≤ 8 * (full.setMsgTypeId ident).cfg.obufBytes) ∧
    ((full.setMsgTypeId 0x18000#17).typeIdValid = true ∧ 32768 ≤ (full.setMsgTypeId 0x18000#17).typeId) ∧
    (full.setMsgTypeId 5#17).typeIdValid = false := by
  refine ⟨⟨start_inv, by decide⟩, fun ident h => ?_, by decide, by decide⟩
  simp only [List.mem_cons, List.not_mem_nil, or_false] at h
  rcases h with rfl | rfl <;> exact ⟨inv_of_check (by decide), by decide, by decide +kernel, by decide⟩

theorem witness_CodecCommandsTouchOnlyTheirOutputs :
    Inv full ∧ exec (.encodeMsg 1#2) full = .next (ran (.encodeMsg 1#2) full) ∧
      exec (.decodeMsg 2#2) full = .next (ran (.decodeMsg 2#2) full) ∧ (2#2 : BitVec 2) ≠ 3#2 ∧ (1#2).toNat < 2 ∧
      full.msgNfields.toNat ≤ 6 ∧ validateFrom full 0 full.msgNfields.toNat = .ok fullKinds ∧
      fullKinds[5]? = some (.str 1) ∧ valueBytes (.str 1) ≤ 1 :=
  ⟨full_inv, rfl, rfl, by decide, by decide, by decide, full_valid, rfl, by decide⟩

/-- The Mode 3 image of `full`: P1's header with tag 5, then the six fields. -/
def received : State := input [0x03#8, 0xFF#8, 0xA0#8, 0xB2#8, 0xA1#8, 0xEE#8, 0xFF#8, 0x61#8] full

theorem received_inv : Inv received := inv_of_check (by decide)

/-- The image is the one ENCODE leaves. -/
theorem test_encode_all_kinds : imageBytes (ran (.encodeMsg 3#2) full) =
    [0x03#8, 0xFF#8, 0xA0#8, 0xB2#8, 0xA1#8, 0xEE#8, 0xFF#8, 0x61#8] := by decide +kernel

theorem received_valid : validateFrom received 0 received.msgNfields.toNat = .ok fullKinds := by decide +kernel

theorem received_header : HeaderReads (3#2).toNat received fullKinds where
  modeOk := by decide
  valid := received_valid
  ident _ _ := by decide

theorem received_reads (i : Nat) (k : FieldKind) (h : fullKinds[i]? = some k) :
    FieldReads received.ibufAt (fieldStart (bodyStart (3#2).toNat received) fullKinds i) k := by
  refine full_fields (P := fun i k => FieldReads received.ibufAt (fieldStart (bodyStart (3#2).toNat received) fullKinds i) k)
    ?_ ?_ ?_ ?_ ?_ ?_ i k h <;> simp only [FieldReads] <;> decide +kernel

theorem witness_DecodeReadsMessage : Inv received ∧ Readable (3#2).toNat received fullKinds ∧
    ∀ i k, fullKinds[i]? = some k →
      OrdinalReads received.ibufAt (fieldStart (bodyStart (3#2).toNat received) fullKinds i) k := by
  refine ⟨received_inv, ⟨received_header, by decide +kernel, received_reads⟩, fun i k h => ?_⟩
  refine full_fields (P := fun i k => OrdinalReads received.ibufAt
    (fieldStart (bodyStart (3#2).toNat received) fullKinds i) k) ?_ ?_ ?_ ?_ ?_ ?_ i k h <;>
    simp only [OrdinalReads]
  decide +kernel

/-- An Enum of 3 variants alone, and the ordinal 3 read for it. -/
def badOrdinal : State := input [0xC0#8] (fields [(3#64, 3#64, 0#64)] start)

theorem witness_DecodeReadsMessage_ordinal :
    Inv badOrdinal ∧ Readable (1#2).toNat badOrdinal [.enum 3] ∧ [FieldKind.enum 3][0]? = some (.enum 3) ∧
      ¬ OrdinalReads badOrdinal.ibufAt (fieldStart (bodyStart (1#2).toNat badOrdinal) [.enum 3] 0) (.enum 3) := by
  refine ⟨inv_of_check (by decide), ⟨⟨by decide, rfl, fun h => absurd h (by decide)⟩, by decide, ?_⟩, rfl, ?_⟩
  · intro i k h
    match i with
    | 0 => simp only [List.getElem?_cons_zero, Option.some.injEq] at h; subst h; trivial
    | i + 1 => simp at h
  · simp only [OrdinalReads]; decide

/-- A BoundedInt(0,4) alone, and 5 read for it; the input ends with the field. -/
def badField : State := input [0xA0#8] (fields [(1#64, 0#64, 4#64)] start)

theorem witness_DecodeStopsAtFirstBadField :
    Inv badField ∧ HeaderReads (1#2).toNat badField [.int 0 4] ∧ [FieldKind.int 0 4][0]? = some (.int 0 4) ∧
      (∀ j k', j < 0 → [FieldKind.int 0 4][j]? = some k' →
        FieldReads badField.ibufAt (fieldStart (bodyStart (1#2).toNat badField) [.int 0 4] j) k') ∧
      fieldStart (bodyStart (1#2).toNat badField) [.int 0 4] 0 + fieldWidth (.int 0 4) ≤ 8 * badField.rlen.toNat ∧
      ¬ FieldReads badField.ibufAt (fieldStart (bodyStart (1#2).toNat badField) [.int 0 4] 0) (.int 0 4) := by
  refine ⟨inv_of_check (by decide), ⟨by decide, rfl, fun h => absurd h (by decide)⟩, rfl,
    fun j _ hj => absurd hj (by omega), by decide, ?_⟩
  simp only [FieldReads]; decide

/-- A FixedString of 2 bytes alone, and C3 28 read for it. -/
def badString : State := input [0xC3#8, 0x28#8] (fields [(5#64, 2#64, 0#64)] start)

theorem witness_DecodeStopsAtFirstBadField_utf8 :
    Inv badString ∧ HeaderReads (1#2).toNat badString [.str 2] ∧ [FieldKind.str 2][0]? = some (.str 2) ∧
      fieldStart (bodyStart (1#2).toNat badString) [.str 2] 0 + fieldWidth (.str 2) ≤ 8 * badString.rlen.toNat ∧
      ¬ FieldReads badString.ibufAt (fieldStart (bodyStart (1#2).toNat badString) [.str 2] 0) (.str 2) := by
  refine ⟨inv_of_check (by decide), ⟨by decide, rfl, fun h => absurd h (by decide)⟩, rfl, by decide, ?_⟩
  simp only [FieldReads]; decide

/-- R213: the bytes are in VB, and VAL is as before. -/
theorem test_decode_bad_utf8 : (ran (.decodeMsg 1#2) badString).response = err 0x4065#32 ∧
    (ran (.decodeMsg 1#2) badString).vb = [(vbKey 0 0, 0xC3#8), (vbKey 0 1, 0x28#8)] ∧
    (ran (.decodeMsg 1#2) badString).val = [] := by decide +kernel

/-- A tag with the ID 5 where 6 is declared. -/
theorem witness_MismatchKeepsTheTagRead :
    let s := input [0x05#8] (start.setMsgTypeId 0x10006#17)
    Inv s ∧ 2 ≤ (2#2).toNat ∧ validateFrom s 0 s.msgNfields.toNat = .ok [] ∧
      routeBits (2#2).toNat + tagBitsAt s.ibufAt (routeBits (2#2).toNat) ≤ 8 * s.rlen.toNat ∧
      s.typeIdValid = true ∧ tagIdAt s.ibufAt (routeBits (2#2).toNat) ≠ s.typeId :=
  ⟨inv_of_check (by decide), by decide, rfl, by decide, by decide, by decide⟩

/-- Two bytes of a routing header; no byte and one byte of a tag; a header and no tag; and `received` cut after its
field 4. -/
theorem witness_DecodeNamesWhereInputEnds :
    (Inv (input [0#8, 0#8] start) ∧ (3#2 : BitVec 2) ≠ 0#2 ∧
      validateFrom (input [0#8, 0#8] start) 0 (input [0#8, 0#8] start).msgNfields.toNat = .ok [] ∧
      8 * (input [0#8, 0#8] start).rlen.toNat < 19) ∧
    (Inv start ∧ start.rlen = 0#32) ∧
    (Inv (input [0x80#8] start) ∧ (input [0x80#8] start).rlen = 1#32 ∧
      streamBit (input [0x80#8] start).ibufAt 0 = true) ∧
    (Inv (input [1#8, 2#8, 0#8] start) ∧ 19 ≤ 8 * (input [1#8, 2#8, 0#8] start).rlen.toNat ∧
      8 * (input [1#8, 2#8, 0#8] start).rlen.toNat < 19 + tagBitsAt (input [1#8, 2#8, 0#8] start).ibufAt 19) ∧
    (Inv (received.setRlen 7#32) ∧ fullKinds[5]? = some (.str 1) ∧
      HeaderReads (3#2).toNat (received.setRlen 7#32) fullKinds ∧
      (∀ j k', j < 5 → fullKinds[j]? = some k' → FieldReads (received.setRlen 7#32).ibufAt
        (fieldStart (bodyStart (3#2).toNat (received.setRlen 7#32)) fullKinds j) k') ∧
      fieldStart (bodyStart (3#2).toNat (received.setRlen 7#32)) fullKinds 5 ≤ 8 * (received.setRlen 7#32).rlen.toNat ∧
      8 * (received.setRlen 7#32).rlen.toNat <
        fieldStart (bodyStart (3#2).toNat (received.setRlen 7#32)) fullKinds 5 + fieldWidth (.str 1)) := by
  refine ⟨⟨inv_of_check (by decide), by decide, rfl, by decide⟩, ⟨start_inv, rfl⟩,
    ⟨inv_of_check (by decide), rfl, by decide⟩, ⟨inv_of_check (by decide), by decide, by decide⟩,
    inv_of_check (by decide), rfl, ⟨by decide, by decide +kernel, fun _ _ => by decide⟩, fun j k' _ h => ?_, by decide +kernel,
    by decide +kernel⟩
  exact received_reads j k' h

/-- No input, one byte of a long tag, and the two whole tags. -/
theorem witness_PeekTagReadsTheTag :
    (Inv start ∧ start.rlen = 0#32) ∧
    (Inv (input [0x80#8] start) ∧ (input [0x80#8] start).rlen = 1#32 ∧
      streamBit (input [0x80#8] start).ibufAt 0 = true) ∧
    (Inv (input [0x7F#8] start) ∧ tagBitsAt (input [0x7F#8] start).ibufAt 0 ≤ 8 * (input [0x7F#8] start).rlen.toNat) ∧
    (Inv (input [0x81#8, 0x2C#8] start) ∧
      tagBitsAt (input [0x81#8, 0x2C#8] start).ibufAt 0 ≤ 8 * (input [0x81#8, 0x2C#8] start).rlen.toNat) :=
  ⟨⟨start_inv, rfl⟩, ⟨inv_of_check (by decide), rfl, by decide⟩, ⟨inv_of_check (by decide), by decide⟩,
    inv_of_check (by decide), by decide⟩

/-- V-F5: 0.15 in BoundedFloat(0.0, 0.15, 1). -/
def edge : State :=
  values [0x3FC3333333333333#64] (fields [(0x12#64, 0#64, 0x3FC3333333333333#64)] start)

/-- Its field. -/
def edgeKind : FieldKind := .float (f64 0#64) (f64 0x3FC3333333333333#64) 1 2

theorem witness_RoundTripReturnsValues_edge :
    Inv edge ∧ Encodable (1#2).toNat edge [edgeKind] ∧
      (messageBits (1#2).toNat edge [edgeKind] + 7) / 8 ≤ edge.cfg.ibufBytes ∧ [edgeKind][0]? = some edgeKind ∧
      (∀ j k', j < 0 → [edgeKind][j]? = some k' → Survives edge j k') ∧ ¬ Survives edge 0 edgeKind := by
  refine ⟨inv_of_check (by decide), ⟨by decide, by decide +kernel, fun h => absurd h (by decide), ?_, by decide +kernel,
    fun h => absurd h (by decide)⟩, by decide +kernel, rfl, fun j _ hj => absurd hj (by omega), ?_⟩
  · intro i k h
    match i with
    | 0 =>
      simp only [List.getElem?_cons_zero, Option.some.injEq] at h; subst h
      simp only [edgeKind, ValueOk]; decide +kernel
    | i + 1 => simp at h
  · simp only [edgeKind, Survives]; decide +kernel

/-- V-F5: ENCODE takes the value. -/
theorem test_encode_edge : (ran (.encodeMsg 1#2) edge).obuf = [(0, 0x80#8)] ∧
    (ran (.encodeMsg 1#2) edge).response = ok 1#64 := by decide +kernel

/-- Every value of `full` survives (12.3 comes back as 12.3, P2). -/
theorem witness_RoundTripReturnsValues :
    Inv full ∧ Encodable (3#2).toNat full fullKinds ∧
      (messageBits (3#2).toNat full fullKinds + 7) / 8 ≤ full.cfg.ibufBytes ∧
      ∀ i k, fullKinds[i]? = some k → Survives full i k := by
  refine ⟨full_inv, full_encodable (by decide), by decide +kernel, fun i k h => ?_⟩
  refine full_fields ?_ ?_ ?_ ?_ ?_ ?_ i k h <;> simp only [Survives]
  decide +kernel

end Sys2Proof.Tests
end

/-! Binary64 (00_scope.md R13): what `rneDiv`, `f64Scale`, `packF64`, `f64` and `bits64` do, and the settled
obligations about them (O44, O45, O46). -/

namespace Sys2Proof.Machine

/-! ### The integer nearest to a quotient -/

/-- R13: within half a unit of the quotient, on either side, and even where it is half a unit away. -/
theorem rneDiv_nearest_even (num : Nat) {den : Nat} (hden : 0 < den) :
    2 * (rneDiv num den * den - num) ≤ den ∧ 2 * (num - rneDiv num den * den) ≤ den ∧
      (2 * (rneDiv num den * den - num) = den ∨ 2 * (num - rneDiv num den * den) = den → rneDiv num den % 2 = 0) := by
  have hdiv : num / den * den + num % den = num := Nat.div_add_mod' num den
  have hmod : num % den < den := Nat.mod_lt num hden
  unfold rneDiv
  split
  case isTrue below => omega
  case isFalse notBelow =>
    split
    case isTrue above => rw [Nat.succ_mul (num / den)]; omega
    case isFalse notAbove =>
      obtain even | odd := Nat.mod_two_eq_zero_or_one (num / den)
      · rw [even, Nat.add_zero]; omega
      · rw [odd, Nat.succ_mul (num / den)]; omega

/-- No multiple of `den` is nearer to `num` than the chosen one, and where another is as near, its quotient is even. -/
theorem rneDiv_dist_le (num : Nat) {den : Nat} (hden : 0 < den) (k : Nat) :
    Nat.dist (rneDiv num den * den) num ≤ Nat.dist (k * den) num ∧
      (Nat.dist (rneDiv num den * den) num = Nat.dist (k * den) num → k ≠ rneDiv num den →
        rneDiv num den % 2 = 0) := by
  obtain ⟨above, below, tie⟩ := rneDiv_nearest_even num hden
  unfold Nat.dist
  obtain hlt | rfl | hgt := Nat.lt_trichotomy k (rneDiv num den)
  · have hstep : (k + 1) * den ≤ rneDiv num den * den := Nat.mul_le_mul_right den hlt
    rw [Nat.succ_mul] at hstep
    omega
  · exact ⟨Nat.le_refl _, fun _ hne => absurd rfl hne⟩
  · have hstep : (rneDiv num den + 1) * den ≤ k * den := Nat.mul_le_mul_right den hgt
    rw [Nat.succ_mul] at hstep
    omega

theorem dist_lt_dist_of_lt_of_le {a b n : Nat} (hab : a < b) (hbn : b ≤ n) : Nat.dist b n < Nat.dist a n := by
  unfold Nat.dist
  omega

theorem le_rneDiv {k num den : Nat} (hden : 0 < den) (h : k * den ≤ num) : k ≤ rneDiv num den := by
  have hfloor : k ≤ num / den := (Nat.le_div_iff_mul_le hden).2 h
  unfold rneDiv
  split
  · exact hfloor
  · split <;> omega

/-- Below the midpoint between `k` and `k + 1` the result is at most `k`. -/
theorem rneDiv_le {k num den : Nat} (h : 2 * num < (2 * k + 1) * den) : rneDiv num den ≤ k := by
  have hden : 0 < den := Nat.pos_of_ne_zero fun h0 => by simp [h0] at h
  obtain ⟨above, -, -⟩ := rneDiv_nearest_even num hden
  by_contra hgt
  have hstep : (k + 1) * den ≤ rneDiv num den * den := Nat.mul_le_mul_right den (by omega)
  have hmid : (2 * k + 1) * den = 2 * (k * den) + den := by ring
  rw [Nat.succ_mul] at hstep
  omega

/-- From the midpoint between an odd `k` and `k + 1` on, the result is at least `k + 1`. -/
theorem succ_le_rneDiv {k num den : Nat} (hden : 0 < den) (hk : k % 2 = 1) (h : (2 * k + 1) * den ≤ 2 * num) :
    k + 1 ≤ rneDiv num den := by
  have hmid : (2 * k + 1) * den = 2 * (k * den) + den := by ring
  have hle : k ≤ rneDiv num den := le_rneDiv hden (by omega)
  obtain ⟨-, below, tie⟩ := rneDiv_nearest_even num hden
  by_contra hlt
  have hk' : rneDiv num den = k := by omega
  rw [hk'] at below tie
  have : k % 2 = 0 := tie (by omega)
  omega

/-- Settles O45: the three branches of `rneDiv` are the quotient's remainder below, above and at half a unit. -/
theorem integerRoundingIsNearestEven : Obligations.IntegerRoundingIsNearestEven :=
  fun num _ hden => rneDiv_nearest_even num hden

/-! ### The spacing of binary64 values -/

/-- `f64Scale q` is the least exponent at which `q` keeps at most 53 bits. -/
theorem f64Scale_le_iff {q e : Nat} : f64Scale q ≤ e ↔ q < 2 ^ (e + 53) := by
  unfold f64Scale
  obtain rfl | hq := Nat.eq_zero_or_pos q
  · simp
  · rw [← Nat.log2_lt (by omega)]; omega

theorem lt_f64Scale_iff {q e : Nat} : e < f64Scale q ↔ 2 ^ (e + 53) ≤ q := by
  rw [← Nat.not_le, f64Scale_le_iff, Nat.not_lt]

theorem lt_two_pow_f64Scale (q : Nat) : q < 2 ^ (f64Scale q + 53) := f64Scale_le_iff.1 (Nat.le_refl _)

/-- Where values are spaced wider than one unit, the spacing leaves 53 bits. -/
theorem two_pow_f64Scale_le {q : Nat} (h : 0 < f64Scale q) : 2 ^ (52 + f64Scale q) ≤ q := by
  have hle : 2 ^ (f64Scale q - 1 + 53) ≤ q := lt_f64Scale_iff.1 (by omega)
  rwa [show f64Scale q - 1 + 53 = 52 + f64Scale q by omega] at hle

/-- A significand of exactly 53 bits times a power of two has that power's exponent as its scale. -/
theorem f64Scale_mul_two_pow {m : Nat} (k : Nat) (hlo : 2 ^ 52 ≤ m) (hhi : m < 2 ^ 53) :
    f64Scale (m * 2 ^ k) = k := by
  apply Nat.le_antisymm
  · rw [f64Scale_le_iff, pow_add, mul_comm]
    gcongr
  · obtain rfl | hk := Nat.eq_zero_or_pos k
    · exact Nat.zero_le _
    · have hlt : k - 1 < f64Scale (m * 2 ^ k) := by
        rw [lt_f64Scale_iff, show k - 1 + 53 = 52 + k by omega, pow_add]
        gcongr
      omega

/-! ### The fields of a word -/

theorem packF64_fields (w : Word64) :
    packF64 (w.getLsbD 63) (w.extractLsb' 52 11).toNat (w.extractLsb' 0 52).toNat = w := by
  have hsign : BitVec.ofBool (w.getLsbD 63) = w.extractLsb' 63 1 := by
    ext i hi
    obtain rfl : i = 0 := by omega
    simp
  unfold packF64
  rw [BitVec.ofNat_toNat, BitVec.ofNat_toNat, BitVec.setWidth_eq, BitVec.setWidth_eq, hsign,
    BitVec.extractLsb'_append_extractLsb'_eq_extractLsb' (by rfl),
    BitVec.extractLsb'_append_extractLsb'_eq_extractLsb' (by rfl), BitVec.extractLsb'_eq_self]

theorem packF64_sign (neg : Bool) (expo frac : Nat) : (packF64 neg expo frac).getLsbD 63 = neg := by
  simp only [packF64, BitVec.getLsbD_append]
  simp

theorem packF64_lsb (neg : Bool) (expo frac : Nat) :
    (packF64 neg expo frac).getLsbD 0 = decide (frac % 2 = 1) := by
  simp only [packF64, BitVec.getLsbD_append, BitVec.getLsbD_ofNat]
  simp

theorem packF64_expo (neg : Bool) {expo : Nat} (frac : Nat) (h : expo < 2 ^ 11) :
    ((packF64 neg expo frac).extractLsb' 52 11).toNat = expo := by
  unfold packF64
  rw [BitVec.extractLsb'_append_eq_of_le (Nat.le_refl 52), BitVec.extractLsb'_append_eq_right, BitVec.toNat_ofNat,
    Nat.mod_eq_of_lt h]

theorem packF64_frac (neg : Bool) (expo : Nat) {frac : Nat} (h : frac < 2 ^ 52) :
    ((packF64 neg expo frac).extractLsb' 0 52).toNat = frac := by
  unfold packF64
  rw [BitVec.extractLsb'_append_eq_right, BitVec.toNat_ofNat, Nat.mod_eq_of_lt h]

/-! ### Reading and writing a word -/

theorem f64_packF64 (neg : Bool) {expo frac : Nat} (hexpo : expo < 2 ^ 11) (hfrac : frac < 2 ^ 52) :
    f64 (packF64 neg expo frac) =
      if expo = 2047 then if frac = 0 then .inf neg else .nan
      else if expo = 0 then .finite neg frac
      else .finite neg ((2 ^ 52 + frac) * 2 ^ (expo - 1)) := by
  unfold f64
  rw [packF64_expo neg frac hexpo, packF64_frac neg expo hfrac, packF64_sign]

theorem f64_packF64_subnormal (neg : Bool) {frac : Nat} (hfrac : frac < 2 ^ 52) :
    f64 (packF64 neg 0 frac) = .finite neg frac := f64_packF64 neg (by decide) hfrac

theorem f64_packF64_normal (neg : Bool) {e frac : Nat} (he : e < 2046) (hfrac : frac < 2 ^ 52) :
    f64 (packF64 neg (e + 1) frac) = .finite neg ((2 ^ 52 + frac) * 2 ^ e) := by
  rw [f64_packF64 neg (by omega) hfrac, if_neg (by omega), if_neg (by omega), Nat.add_sub_cancel]

/-- What a word reads as: infinite, a NaN, a subnormal value or a normal one. -/
theorem f64_cases (w : Word64) :
    (∃ neg, w = packF64 neg 2047 0 ∧ f64 w = .inf neg) ∨ f64 w = .nan ∨
    (∃ neg frac, frac < 2 ^ 52 ∧ w = packF64 neg 0 frac ∧ f64 w = .finite neg frac) ∨
    (∃ neg e frac, e < 2046 ∧ frac < 2 ^ 52 ∧ w = packF64 neg (e + 1) frac ∧
      f64 w = .finite neg ((2 ^ 52 + frac) * 2 ^ e)) := by
  obtain ⟨neg, expo, frac, hexpo, hfrac, rfl⟩ :
      ∃ neg expo frac, expo < 2 ^ 11 ∧ frac < 2 ^ 52 ∧ w = packF64 neg expo frac :=
    ⟨_, _, _, BitVec.isLt _, BitVec.isLt _, (packF64_fields w).symm⟩
  by_cases htop : expo = 2047
  · subst htop
    by_cases hzero : frac = 0
    · subst hzero
      exact .inl ⟨neg, rfl, f64_packF64 neg hexpo hfrac⟩
    · exact .inr (.inl ((f64_packF64 neg hexpo hfrac).trans (if_neg hzero)))
  · cases expo with
    | zero => exact .inr (.inr (.inl ⟨neg, frac, hfrac, rfl, f64_packF64_subnormal neg hfrac⟩))
    | succ e =>
      have he : e < 2046 := by omega
      exact .inr (.inr (.inr ⟨neg, e, frac, he, hfrac, rfl, f64_packF64_normal neg he hfrac⟩))

theorem bits64_finite (neg : Bool) (mag : Nat) :
    bits64 (.finite neg mag) =
      if mag < 2 ^ 52 then packF64 neg 0 mag
      else packF64 neg (f64Scale mag + 1) (mag / 2 ^ f64Scale mag - 2 ^ 52) := rfl

theorem bits64_subnormal (neg : Bool) {mag : Nat} (h : mag < 2 ^ 52) :
    bits64 (.finite neg mag) = packF64 neg 0 mag := if_pos h

theorem bits64_normal (neg : Bool) (e : Nat) {frac : Nat} (hfrac : frac < 2 ^ 52) :
    bits64 (.finite neg ((2 ^ 52 + frac) * 2 ^ e)) = packF64 neg (e + 1) frac := by
  have hscale : f64Scale ((2 ^ 52 + frac) * 2 ^ e) = e := f64Scale_mul_two_pow e (by omega) (by omega)
  have hbig : 2 ^ 52 ≤ (2 ^ 52 + frac) * 2 ^ e :=
    Nat.le_trans (Nat.le_add_right _ _) (Nat.le_mul_of_pos_right _ (Nat.two_pow_pos e))
  rw [bits64_finite, if_neg (Nat.not_lt.2 hbig), hscale, Nat.mul_div_cancel _ (Nat.two_pow_pos e),
    Nat.add_sub_cancel_left]

/-- Settles O44: each of the words that is no NaN is written back from the fields it is read from. -/
theorem binary64WordsRoundTrip : Obligations.Binary64WordsRoundTrip := by
  intro w hnan
  obtain ⟨neg, hw, hread⟩ | hread | ⟨neg, frac, hfrac, hw, hread⟩ | ⟨neg, e, frac, -, hfrac, hw, hread⟩ := f64_cases w
  · rw [hread, hw]; rfl
  · exact absurd hread hnan
  · rw [hread, hw, bits64_subnormal neg hfrac]
  · rw [hread, hw, bits64_normal neg e hfrac]

/-! ### The finite values -/

/-- A binary64 value has the magnitude `mag` in units: it is below 2^1024 and on the grid of its own spacing. -/
def IsBinary64 (mag : Nat) : Prop := mag < 2 ^ 2098 ∧ 2 ^ f64Scale mag ∣ mag

/-- A significand of at most 53 bits, or 2^53, at any spacing is a binary64 value unless it is too great. -/
theorem isBinary64_mul_two_pow {m e : Nat} (hm : m ≤ 2 ^ 53) (hlt : m * 2 ^ e < 2 ^ 2098) :
    IsBinary64 (m * 2 ^ e) := by
  refine ⟨hlt, ?_⟩
  obtain hlt53 | rfl := Nat.lt_or_eq_of_le hm
  · have hscale : f64Scale (m * 2 ^ e) ≤ e := by
      rw [f64Scale_le_iff, pow_add, mul_comm]
      gcongr
    exact Nat.dvd_trans (Nat.pow_dvd_pow 2 hscale) (Nat.dvd_mul_left _ _)
  · rw [show 2 ^ 53 * 2 ^ e = 2 ^ 52 * 2 ^ (e + 1) by ring, f64Scale_mul_two_pow (e + 1) (by decide) (by decide)]
    exact Nat.dvd_mul_left _ _

theorem significand_lt_limit {m e : Nat} (hm : m < 2 ^ 53) (he : e < 2046) : m * 2 ^ e < 2 ^ 2098 := by
  have hlt : m * 2 ^ e < 2 ^ (53 + e) := by
    rw [pow_add]
    gcongr
  have hle : 2 ^ (53 + e) ≤ 2 ^ 2098 := by
    gcongr <;> omega
  exact Nat.lt_of_lt_of_le hlt hle

theorem isBinary64_of_f64 {w : Word64} {neg : Bool} {mag : Nat} (h : f64 w = .finite neg mag) : IsBinary64 mag := by
  have hgrid : ∀ {m e : Nat}, m < 2 ^ 53 → e < 2046 → IsBinary64 (m * 2 ^ e) := fun hm he =>
    isBinary64_mul_two_pow hm.le (significand_lt_limit hm he)
  obtain ⟨_, -, hread⟩ | hread | ⟨_, frac, hfrac, -, hread⟩ | ⟨_, e, frac, he, hfrac, -, hread⟩ := f64_cases w <;>
    rw [h] at hread
  · cases hread
  · cases hread
  · obtain ⟨-, rfl⟩ := F64.finite.inj hread
    simpa only [pow_zero, mul_one] using hgrid (e := 0) (by omega : mag < 2 ^ 53) (by decide)
  · obtain ⟨-, rfl⟩ := F64.finite.inj hread
    exact hgrid (by omega) he

/-- The word that such a value is written as reads back as it. -/
theorem f64_bits64 (neg : Bool) {mag : Nat} (h : IsBinary64 mag) :
    f64 (bits64 (.finite neg mag)) = .finite neg mag := by
  obtain ⟨hlt, m, hm⟩ := h
  by_cases hsub : mag < 2 ^ 52
  · rw [bits64_subnormal neg hsub, f64_packF64_subnormal neg hsub]
  · have hscale : f64Scale mag ≤ 2045 := f64Scale_le_iff.2 (by simpa only [Nat.reduceAdd] using hlt)
    have hhigh := lt_two_pow_f64Scale mag
    have hlow : 2 ^ (52 + f64Scale mag) ≤ mag := by
      obtain hzero | hpos := Nat.eq_zero_or_pos (f64Scale mag)
      · rw [hzero]; exact Nat.not_lt.1 hsub
      · exact two_pow_f64Scale_le hpos
    generalize f64Scale mag = e at hm hscale hlow hhigh
    subst hm
    rw [pow_add, mul_comm] at hlow
    rw [pow_add] at hhigh
    have hm52 : 2 ^ 52 ≤ m := Nat.le_of_mul_le_mul_left hlow (Nat.two_pow_pos e)
    have hm53 : m < 2 ^ 53 := Nat.lt_of_mul_lt_mul_left hhigh
    obtain ⟨frac, rfl⟩ := Nat.exists_eq_add_of_le hm52
    rw [mul_comm, bits64_normal neg e (by omega), f64_packF64_normal neg (by omega) (by omega)]

/-- An even significand that fills 53 bits, or any even number of the least unit, has the low bit of its word clear. -/
theorem bits64_lsb_of_even (neg : Bool) {m e : Nat} (hm : m ≤ 2 ^ 53) (hfull : e = 0 ∨ 2 ^ 52 ≤ m)
    (heven : m % 2 = 0) : (bits64 (.finite neg (m * 2 ^ e))).getLsbD 0 = false := by
  by_cases hsub : m < 2 ^ 52
  · obtain rfl : e = 0 := by omega
    rw [pow_zero, mul_one, bits64_subnormal neg hsub, packF64_lsb]
    exact decide_eq_false (by omega)
  · obtain hlt53 | rfl := Nat.lt_or_eq_of_le hm
    · obtain ⟨frac, rfl⟩ := Nat.exists_eq_add_of_le (Nat.not_lt.1 hsub)
      rw [bits64_normal neg e (by omega), packF64_lsb]
      exact decide_eq_false (by omega)
    · rw [show 2 ^ 53 * 2 ^ e = (2 ^ 52 + 0) * 2 ^ (e + 1) by ring, bits64_normal neg (e + 1) (by decide), packF64_lsb]
      rfl

/-! ### Rounding to binary64 -/

/-- The significand `roundUnits` rounds to, counted in the spacing of values around the quotient. -/
def roundedSig (num den : Nat) : Nat := rneDiv num (den * 2 ^ f64Scale (num / den))

/-- The magnitude `roundUnits` rounds to, in units. -/
def roundedMag (num den : Nat) : Nat := roundedSig num den * 2 ^ f64Scale (num / den)

theorem roundUnits_eq (neg : Bool) (num den : Nat) :
    roundUnits neg num den =
      if 2 ^ 2098 ≤ roundedMag num den then .inf neg else .finite neg (roundedMag num den) := rfl

section
variable {num den : Nat} (hden : 0 < den)
include hden

theorem le_roundedSig {k : Nat} (h : k * 2 ^ f64Scale (num / den) ≤ num / den) : k ≤ roundedSig num den := by
  refine le_rneDiv (Nat.mul_pos hden (Nat.two_pow_pos _)) ?_
  rw [Nat.le_div_iff_mul_le hden] at h
  calc k * (den * 2 ^ f64Scale (num / den)) = k * 2 ^ f64Scale (num / den) * den := by ring
    _ ≤ num := h

theorem roundedSig_le : roundedSig num den ≤ 2 ^ 53 := by
  apply rneDiv_le
  have hlt : num < 2 ^ (f64Scale (num / den) + 53) * den :=
    (Nat.div_lt_iff_lt_mul hden).1 (lt_two_pow_f64Scale (num / den))
  calc 2 * num < 2 * (2 ^ (f64Scale (num / den) + 53) * den) := by omega
    _ = 2 * 2 ^ 53 * (den * 2 ^ f64Scale (num / den)) := by ring
    _ ≤ (2 * 2 ^ 53 + 1) * (den * 2 ^ f64Scale (num / den)) := Nat.mul_le_mul_right _ (Nat.le_succ _)

theorem roundedSig_full : f64Scale (num / den) = 0 ∨ 2 ^ 52 ≤ roundedSig num den := by
  obtain hzero | hpos := Nat.eq_zero_or_pos (f64Scale (num / den))
  · exact .inl hzero
  · exact .inr (le_roundedSig hden (pow_add 2 52 _ ▸ two_pow_f64Scale_le hpos))

/-- `(2 ^ 54 - 1) * 2 ^ E` is half a spacing below `2 ^ (E + 54)`, where the significands have 53 bits: from that
midpoint on, `2 ^ (E + 54)` is reached, since the significand below the midpoint is odd. -/
theorem two_pow_le_roundedMag (E : Nat) (h : (2 ^ 54 - 1) * 2 ^ E * den ≤ num) :
    2 ^ (E + 54) ≤ roundedMag num den := by
  have hq : (2 ^ 54 - 1) * 2 ^ E ≤ num / den := (Nat.le_div_iff_mul_le hden).2 h
  have hpos := Nat.two_pow_pos E
  have hE : E < f64Scale (num / den) := lt_f64Scale_iff.2 (by rw [pow_add]; omega)
  obtain heq | hgt := Nat.eq_or_lt_of_le hE
  · have hsig : 2 ^ 53 - 1 + 1 ≤ roundedSig num den := by
      refine succ_le_rneDiv (Nat.mul_pos hden (Nat.two_pow_pos _)) (by decide) ?_
      rw [← heq]
      calc (2 * (2 ^ 53 - 1) + 1) * (den * 2 ^ (E + 1)) = 2 * ((2 ^ 54 - 1) * 2 ^ E * den) := by ring
        _ ≤ 2 * num := Nat.mul_le_mul_left 2 h
    rw [roundedMag, ← heq]
    calc 2 ^ (E + 54) = (2 ^ 53 - 1 + 1) * 2 ^ (E + 1) := by ring
      _ ≤ roundedSig num den * 2 ^ (E + 1) := Nat.mul_le_mul_right _ hsig
  · obtain hzero | hfull := roundedSig_full (num := num) hden
    · omega
    · calc 2 ^ (E + 54) = 2 ^ 52 * 2 ^ (E + 2) := by ring
        _ ≤ roundedMag num den := Nat.mul_le_mul hfull (Nat.pow_le_pow_right (by decide) hgt)

/-- Before that midpoint it is not. -/
theorem roundedMag_lt_two_pow (E : Nat) (h : num < (2 ^ 54 - 1) * 2 ^ E * den) :
    roundedMag num den < 2 ^ (E + 54) := by
  have hq : num / den < (2 ^ 54 - 1) * 2 ^ E := (Nat.div_lt_iff_lt_mul hden).2 h
  have hpos := Nat.two_pow_pos E
  have hE : f64Scale (num / den) ≤ E + 1 := f64Scale_le_iff.2 (by rw [pow_add, pow_add]; omega)
  obtain heq | hlt := Nat.eq_or_lt_of_le hE
  · have hsig : roundedSig num den ≤ 2 ^ 53 - 1 := by
      refine rneDiv_le ?_
      rw [heq]
      calc 2 * num < 2 * ((2 ^ 54 - 1) * 2 ^ E * den) := by omega
        _ = (2 * (2 ^ 53 - 1) + 1) * (den * 2 ^ (E + 1)) := by ring
    rw [roundedMag, heq]
    calc roundedSig num den * 2 ^ (E + 1) ≤ (2 ^ 53 - 1) * 2 ^ (E + 1) := Nat.mul_le_mul_right _ hsig
      _ < 2 ^ 53 * 2 ^ (E + 1) := Nat.mul_lt_mul_of_pos_right (by decide) (Nat.two_pow_pos _)
      _ = 2 ^ (E + 54) := by ring
  · calc roundedMag num den ≤ 2 ^ 53 * 2 ^ E :=
          Nat.mul_le_mul (roundedSig_le hden) (Nat.pow_le_pow_right (by decide) (by omega))
      _ < 2 ^ 54 * 2 ^ E := Nat.mul_lt_mul_of_pos_right (by decide) hpos
      _ = 2 ^ (E + 54) := by ring

/-- No binary64 value is nearer than the rounded one, and where another is as near, the rounded significand is even:
`other` either is a multiple of the spacing around the quotient, among which `rneDiv` chooses, or has a narrower
spacing and lies below `2 ^ 52` times the wider one, a multiple that the quotient reaches. -/
theorem roundedMag_dist_le {other : Nat} (hother : IsBinary64 other) :
    Nat.dist (roundedMag num den * den) num ≤ Nat.dist (other * den) num ∧
      (Nat.dist (roundedMag num den * den) num = Nat.dist (other * den) num →
        other ≠ roundedMag num den → roundedSig num den % 2 = 0) := by
  have hgrid : ∀ k, k * 2 ^ f64Scale (num / den) * den = k * (den * 2 ^ f64Scale (num / den)) := fun k => by ring
  have hnear := rneDiv_dist_le num (Nat.mul_pos hden (Nat.two_pow_pos (f64Scale (num / den))))
  obtain hoff | hon := Nat.lt_or_ge (f64Scale other) (f64Scale (num / den))
  · have hother_lt : other * den < 2 ^ 52 * (den * 2 ^ f64Scale (num / den)) := by
      have hlt : other < 2 ^ (f64Scale (num / den) - 1 + 53) := f64Scale_le_iff.1 (by omega)
      rw [show f64Scale (num / den) - 1 + 53 = 52 + f64Scale (num / den) by omega, pow_add] at hlt
      rw [← hgrid]
      gcongr
    have hle : 2 ^ 52 * (den * 2 ^ f64Scale (num / den)) ≤ num := by
      have hlow := two_pow_f64Scale_le (q := num / den) (by omega)
      rw [pow_add, Nat.le_div_iff_mul_le hden, hgrid] at hlow
      exact hlow
    have hstrict := Nat.lt_of_le_of_lt (hnear (2 ^ 52)).1 (dist_lt_dist_of_lt_of_le hother_lt hle)
    rw [roundedMag, hgrid]
    exact ⟨hstrict.le, fun htie => absurd htie hstrict.ne⟩
  · obtain ⟨k, rfl⟩ := Nat.dvd_trans (Nat.pow_dvd_pow 2 hon) hother.2
    rw [roundedMag, mul_comm (2 ^ _) k, hgrid, hgrid]
    exact ⟨(hnear k).1, fun htie hne => (hnear k).2 htie fun hk => hne (by rw [hk]; rfl)⟩

end

/-- Settles O46: the rounded value is on the grid of `rneDiv`, where it is nearest, and its word is the one written
for it. -/
theorem binary64RoundingIsNearest : Obligations.Binary64RoundingIsNearest := by
  intro neg num den hden
  refine ⟨fun hbig => ?_, fun hsmall => ?_⟩
  · rw [roundUnits_eq, if_pos (two_pow_le_roundedMag hden 2044 hbig)]
  · have hlt : roundedMag num den < 2 ^ 2098 := by
      simpa only [Nat.reduceAdd] using roundedMag_lt_two_pow hden 2044 hsmall
    refine ⟨roundedMag num den, bits64 (.finite neg _), ?_,
      f64_bits64 neg (isBinary64_mul_two_pow (roundedSig_le hden) hlt), fun v other hv => ?_⟩
    · rw [roundUnits_eq, if_neg (Nat.not_le.2 hlt)]
    · obtain ⟨hnear, htie⟩ := roundedMag_dist_le (num := num) hden (isBinary64_of_f64 hv)
      exact ⟨hnear, fun heq hne =>
        bits64_lsb_of_even neg (roundedSig_le hden) (roundedSig_full hden) (htie heq hne)⟩

end Sys2Proof.Machine

/-! What a command can leave of the state, said once for all of them (`Leaves`, `leaves_of_exec`): ENCODE any number of
PutBits, DECODE any number of GetBits and writes of the slots its message has, every other command one update. -/

namespace Sys2Proof.Machine

open Sys2Proof.Safety

/-! ### Steps and the state they leave -/

/-- What a first step leaves, and every second step keeps, two steps leave. -/
theorem Eff.state_bind {α β : Type} {P : State → Prop} {x : Eff α} {f : α → State → Eff β} (hx : P x.state)
    (hf : ∀ a t, P t → P (f a t).state) : P (x.bind f).state := by
  cases x with
  | ok a t => exact hf a t hx
  | raise e t => exact hx

/-- A step that only passes a value on leaves the state as it is. -/
@[simp] theorem Eff.state_bind_ok {α β : Type} (x : Eff α) (g : α → State → β) :
    (x.bind fun a t => .ok (g a t) t).state = x.state := by
  cases x <;> rfl

/-- What holds before a check and after the step it guards holds after both. -/
theorem Eff.state_check {α : Type} {P : State → Prop} {c : Prop} [Decidable c] {e : CmdError} {s : State} {x : Eff α}
    (hs : P s) (hx : ¬ c → P x.state) : P (if c then .raise e s else x : Eff α).state := by
  split
  case isTrue hc => exact hs
  case isFalse hc => exact hx hc

/-- What both of two steps leave, the chosen one leaves. -/
theorem Eff.state_ite {α : Type} {P : State → Prop} {c : Prop} [Decidable c] {x y : Eff α}
    (hx : P x.state) (hy : P y.state) : P (if c then x else y).state := by
  split
  · exact hx
  · exact hy

/-! ### ENCODE -/

/-- What any number of PutBits can make of `s`. -/
inductive Puts (s : State) : State → Prop where
  | start : Puts s s
  | put {t : State} (v n : Nat) (stage : Stage) (field : Nat) (h : Puts s t) : Puts s (putBits v n stage field t).state

section
variable {s t : State}

theorem Puts.putVbBytes (h : Puts s t) (i j count : Nat) : Puts s (putVbBytes i j count t).state := by
  induction count generalizing j t with
  | zero => exact h
  | succ count ih => exact Eff.state_bind (.put _ _ _ _ h) fun _ u hu => ih hu (j + 1)

theorem Puts.encField (h : Puts s t) (k : FieldKind) (i : Nat) : Puts s (encField k i t).state := by
  cases k with
  | bool => exact Eff.state_check h fun _ => .put _ _ _ _ h
  | int min max => exact Eff.state_check h fun _ => .put _ _ _ _ h
  | float fmin fmax p m =>
    refine Eff.state_check h fun _ => ?_
    cases scaledInt fmin (f64 (t.valAt i)) p with
    | none => exact h
    | some v => exact .put _ _ _ _ h
  | enum n => exact Eff.state_check h fun _ => .put _ _ _ _ h
  | bytes len => exact Eff.state_check h fun _ => h.putVbBytes i 0 len
  | str len => exact Eff.state_check h fun _ => Eff.state_check h fun _ => h.putVbBytes i 0 len

theorem Puts.encFields (h : Puts s t) (ks : List FieldKind) (i : Nat) : Puts s (encFields ks i t).state := by
  induction ks generalizing i t with
  | nil => exact h
  | cons k ks ih => exact Eff.state_bind (h.encField k i) fun _ u hu => ih hu (i + 1)

theorem Puts.encRoute (h : Puts s t) : Puts s (encRoute t).state :=
  Eff.state_bind (.put _ _ _ _ h) fun _ _ h1 => Eff.state_bind (.put _ _ _ _ h1) fun _ _ h2 =>
    Eff.state_bind (.put _ _ _ _ h2) fun _ _ h3 => .put _ _ _ _ h3

theorem Puts.encTag (h : Puts s t) : Puts s (encTag t).state :=
  Eff.state_check h fun _ =>
    Eff.state_ite (Eff.state_bind (.put _ _ _ _ h) fun _ _ h1 => .put _ _ _ _ h1)
      (Eff.state_ite (Eff.state_bind (.put _ _ _ _ h) fun _ _ h1 => .put _ _ _ _ h1) h)

theorem Puts.encMessage (h : Puts s t) (mode : Nat) (kinds : List FieldKind) :
    Puts s (encMessage mode kinds t).state :=
  Eff.state_bind (Eff.state_ite h.encRoute h) fun _ _ h1 =>
    Eff.state_bind (Eff.state_ite h1.encTag h1) fun _ _ h2 =>
      Eff.state_bind (h2.encFields kinds 0) fun _ _ h3 => Eff.state_check h3 fun _ => h3

end

/-- ENCODE ends before it clears the writer, or appends to the cleared one. -/
theorem runEncode_state (mode : Nat) (s : State) :
    (runEncode mode s).state = s ∨ Puts (clearWriter s) (runEncode mode s).state := by
  by_cases hm : mode = 0
  · left; rw [runEncode, if_pos hm]; rfl
  · cases hv : validateFrom s 0 s.msgNfields.toNat with
    | error e => left; rw [runEncode, if_neg hm, hv]; rfl
    | ok kinds => right; rw [runEncode_eq hm hv]; exact Puts.start.encMessage mode kinds

/-! ### DECODE -/

/-- What DECODE's steps can make of `s`: the slots it writes lie below `slots`, and the bytes of a slot below `bytes`. -/
inductive Reads (slots bytes : Nat) (s : State) : State → Prop where
  | start : Reads slots bytes s s
  | get {t : State} (n : Nat) (e : CmdError) (h : Reads slots bytes s t) : Reads slots bytes s (getBits n e t).state
  | val {t : State} {i : Nat} (v : Word64) (hi : i < slots) (h : Reads slots bytes s t) :
      Reads slots bytes s (t.writeVal i v)
  | vb {t : State} {i k : Nat} (v : Byte) (hi : i < slots) (hk : k < bytes) (h : Reads slots bytes s t) :
      Reads slots bytes s (t.writeVb i k v)
  | route {t : State} (r : BitVec 19) (h : Reads slots bytes s t) : Reads slots bytes s (t.setRouteRx r)
  | tag {t : State} (r : BitVec 16) (h : Reads slots bytes s t) : Reads slots bytes s (t.setTagRx r)

section
variable {slots bytes : Nat} {s t : State}

theorem Reads.getVbBytes (h : Reads slots bytes s t) {i : Nat} (hi : i < slots) {j count : Nat}
    (hj : j + count ≤ bytes) : Reads slots bytes s (getVbBytes i j count t).state := by
  induction count generalizing j t with
  | zero => exact h
  | succ count ih =>
    exact Eff.state_bind (.get _ _ h) fun _ u hu => ih (.vb _ hi (by omega) hu) (by omega)

theorem Reads.decField (h : Reads slots bytes s t) {k : FieldKind} {i : Nat} (hi : i < slots)
    (hk : valueBytes k ≤ bytes) : Reads slots bytes s (decField k i t).state := by
  refine Eff.state_check h fun _ => ?_
  cases k with
  | bool => exact Eff.state_bind (.get _ _ h) fun _ _ hu => .val _ hi hu
  | int min max =>
    exact Eff.state_bind (.get _ _ h) fun _ _ hu => Eff.state_check hu fun _ => .val _ hi hu
  | float fmin fmax p m =>
    exact Eff.state_bind (.get _ _ h) fun _ _ hu =>
      Eff.state_check hu fun _ => Eff.state_check hu fun _ => .val _ hi hu
  | enum n => exact Eff.state_bind (.get _ _ h) fun _ _ hu => .val _ hi hu
  | bytes len =>
    exact Eff.state_bind (h.getVbBytes hi ((Nat.zero_add len).trans_le hk)) fun _ _ hu => .val _ hi hu
  | str len =>
    exact Eff.state_bind (h.getVbBytes hi ((Nat.zero_add len).trans_le hk)) fun _ _ hu =>
      Eff.state_check hu fun _ => .val _ hi hu

theorem Reads.decFields (h : Reads slots bytes s t) {ks : List FieldKind} {i : Nat} (hi : i + ks.length ≤ slots)
    (hks : ∀ k ∈ ks, valueBytes k ≤ bytes) : Reads slots bytes s (decFields ks i t).state := by
  induction ks generalizing i t with
  | nil => exact h
  | cons k ks ih =>
    rw [List.length_cons] at hi
    refine Eff.state_bind (h.decField (by omega) (hks k List.mem_cons_self)) fun _ u hu => ih hu (by omega) ?_
    exact fun k' hk' => hks k' (List.mem_cons_of_mem k hk')

theorem Reads.decRoute (h : Reads slots bytes s t) : Reads slots bytes s (decRoute t).state :=
  Eff.state_check h fun _ => Eff.state_bind (.get _ _ h) fun _ _ h1 => Eff.state_bind (.get _ _ h1) fun _ _ h2 =>
    Eff.state_bind (.get _ _ h2) fun _ _ h3 => Eff.state_bind (.get _ _ h3) fun _ _ h4 =>
      Eff.state_check h4 fun _ => .route _ h4

end

/-- DecTag leaves what reading the tag leaves: where it answers an error, no tag could be read. -/
theorem decTag_state (s : State) :
    (decTag s).state = (getBits (tagWidth s) ⟨.decTruncated, .tag, 0⟩ s).state := by
  have hw : 8 ≤ tagWidth s := by unfold tagWidth; split <;> omega
  unfold decTag
  split_ifs with h8 hshort
  · rw [getBits_short (by omega)]
  · rw [getBits_short (by omega)]
  · exact Eff.state_bind_ok _ _

/-- The reconstruction check only looks. -/
theorem checkOrdinals_state (ks : List FieldKind) (i : Nat) (s : State) : (checkOrdinals ks i s).state = s := by
  induction ks generalizing i with
  | nil => rfl
  | cons k ks ih => exact Eff.state_ite (P := (· = s)) (ih (i + 1)) rfl

section
variable {slots bytes : Nat} {s t : State}

theorem Reads.decTagStage (h : Reads slots bytes s t) : Reads slots bytes s (decTagStage t).state := by
  refine Eff.state_bind ?_ fun _ u hu => Eff.state_check (.tag _ hu) fun _ => .tag _ hu
  rw [decTag_state]; exact .get _ _ h

theorem Reads.decMessage (h : Reads slots bytes s t) (mode : Nat) {kinds : List FieldKind}
    (hl : kinds.length ≤ slots) (hks : ∀ k ∈ kinds, valueBytes k ≤ bytes) :
    Reads slots bytes s (decMessage mode kinds t).state :=
  Eff.state_bind (Eff.state_ite h.decRoute h) fun _ _ h1 =>
    Eff.state_bind (Eff.state_ite h1.decTagStage h1) fun _ _ h2 =>
      Eff.state_bind (h2.decFields ((Nat.zero_add _).trans_le hl) hks) fun _ _ h3 =>
        Eff.state_bind ((checkOrdinals_state kinds 0 _).symm ▸ h3) fun _ _ h4 => h4

end

/-- The fields that validated have their bytes inside a VB slot. -/
theorem valueBytes_le_of_validateFrom {s : State} {i count : Nat} {ks : List FieldKind}
    (h : validateFrom s i count = .ok ks) : ∀ k ∈ ks, valueBytes k ≤ s.cfg.maxFieldBytes := by
  intro k hk
  obtain ⟨j, hj⟩ := List.mem_iff_getElem?.1 hk
  exact validateField_bytes ((validateFrom_get h).2 j k hj)

/-- DECODE ends before it rewinds the reader, or reads from the rewound one into the slots of the message. -/
theorem runDecode_state (mode : Nat) (s : State) :
    (runDecode mode s).state = s ∨
      Reads s.msgNfields.toNat s.cfg.maxFieldBytes (s.setRpos 0#32) (runDecode mode s).state := by
  by_cases hm : mode = 0
  · left; rw [runDecode, if_pos hm]; rfl
  · cases hv : validateFrom s 0 s.msgNfields.toNat with
    | error e => left; rw [runDecode, if_neg hm, hv]; rfl
    | ok kinds =>
      right
      rw [runDecode_eq hm hv]
      exact Reads.start.decMessage mode (validateFrom_get hv).1.le (valueBytes_le_of_validateFrom hv)

/-! ### Every command -/

/-- What a command can leave of the state `s`, but for the response. -/
inductive Leaves (s : State) : Instr → State → Prop where
  | same (i : Instr) : Leaves s i s
  | clear : Leaves s .wClear (clearWriter s)
  | append {i : Instr} (hi : Appends i) (v n : Nat) : Leaves s i (putBits v n .none 0 s).state
  | encode (mode : BitVec 2) {t : State} (h : Puts (clearWriter s) t) : Leaves s (.encodeMsg mode) t
  | rewind : Leaves s .rRewind (s.setRpos 0#32)
  | consume {i : Instr} (hi : Consumes i) (n : Nat) (e : CmdError) : Leaves s i (getBits n e s).state
  | peekError (n : Nat) (e : CmdError) : Leaves s .peekTag (getBits n e (s.setRpos 0#32)).state
  | peek (n : Nat) (e : CmdError) (id : BitVec 16) :
      Leaves s .peekTag ((getBits n e (s.setRpos 0#32)).state.setTagRx id)
  | decode (mode : BitVec 2) {t : State} (h : Reads s.msgNfields.toNat s.cfg.maxFieldBytes (s.setRpos 0#32) t) :
      Leaves s (.decodeMsg mode) t
  | crcInit (kind : BitVec 1) : Leaves s (.crcInit kind) ((s.setCrcKind kind).setCrcAcc (crcStart kind))
  | crcFeed {i : Instr} (hi : FeedsCrc i) (byteAt : Nat → Byte) (start count : Nat) :
      Leaves s i (s.setCrcAcc (crcFeed s.crcKind byteAt start count s.crcAcc))
  | csrWr (n : BitVec 16) (v : Word64) (c : Csr) : Leaves s (.csrWr n v) (csrWrite s v c).state
  | ibWr (addr : BitVec 24) (v : Word64) (h : addr.toNat < s.cfg.ibufBytes) :
      Leaves s (.ibWr addr v) (s.writeIbuf addr.toNat (operandByte v))
  | descWr (slot : BitVec 8) (word : BitVec 16) (v : Word64) (h : slot.toNat < s.cfg.maxFields) (hw : word.toNat ≤ 2) :
      Leaves s (.descWr slot word v) (s.writeDesc slot.toNat word.toNat v)
  | valWr (slot : BitVec 8) (v : Word64) (h : slot.toNat < s.cfg.maxFields) :
      Leaves s (.valWr slot v) (s.writeVal slot.toNat v)
  | vbWr (slot : BitVec 8) (k : BitVec 16) (v : Word64) (h : slot.toNat < s.cfg.maxFields)
      (hk : k.toNat < s.cfg.maxFieldBytes) : Leaves s (.vbWr slot k v) (s.writeVb slot.toNat k.toNat (operandByte v))
  | reset : Leaves s .reset (performReset s)

/-- W_BOOL, W_BYTE, and W_UINT and W_INT after their checks. -/
theorem Leaves.putPlain {s : State} {i : Instr} (hi : Appends i) (v n : Nat) : Leaves s i (putPlain v n s).state := by
  rw [Machine.putPlain, Eff.state_bind_ok]; exact .append hi v n

/-- R_BOOL, R_BYTE, and R_UINT after its check. -/
theorem Leaves.getZext {s : State} {i : Instr} (hi : Consumes i) (n : Nat) : Leaves s i (getZext n s).state := by
  rw [Machine.getZext, Eff.state_bind_ok]; exact .consume hi n _

/-- PEEK_TAG on input that is not empty. -/
theorem Leaves.peekTag (s : State) :
    Leaves s .peekTag ((decTag (s.setRpos 0#32)).bind fun id t =>
      .ok (BitVec.ofNat 64 id) (t.setTagRx (BitVec.ofNat 16 id)) : Eff Word64).state := by
  have hs := decTag_state (s.setRpos 0#32)
  cases hd : decTag (s.setRpos 0#32) with
  | ok id t =>
    rw [hd, Eff.state_ok] at hs
    rw [Eff.bind_ok, Eff.state_ok, hs]; exact .peek _ _ _
  | raise e t =>
    rw [hd, Eff.state_raise] at hs
    rw [Eff.bind_raise, Eff.state_raise, hs]; exact .peekError _ _

theorem Leaves.encodeMsg (mode : BitVec 2) (s : State) :
    Leaves s (.encodeMsg mode) (runEncode (opUnsigned mode) s).state := by
  obtain hs | hs := runEncode_state (opUnsigned mode) s
  · rw [hs]; exact .same _
  · exact .encode mode hs

theorem Leaves.decodeMsg (mode : BitVec 2) (s : State) :
    Leaves s (.decodeMsg mode) (runDecode (opUnsigned mode) s).state := by
  obtain hs | hs := runDecode_state (opUnsigned mode) s
  · rw [hs]; exact .same _
  · exact .decode mode hs

/-- Every command answers, and leaves what `Leaves` says. -/
theorem exec_leaves (i : Instr) (s : State) : ∃ x, exec i s = respond x ∧ Leaves s i x.state := by
  cases i with
  | nop => exact ⟨_, rfl, .same _⟩
  | wClear => exact ⟨_, rfl, .clear⟩
  | wBool bit => exact ⟨_, rfl, .putPlain (by trivial) _ _⟩
  | wUint n w =>
    exact ⟨_, rfl, Eff.state_check (.same _) fun _ => Eff.state_check (.same _) fun _ => .putPlain (by trivial) _ _⟩
  | wInt n w =>
    exact ⟨_, rfl, Eff.state_check (.same _) fun _ => Eff.state_check (.same _) fun _ => .putPlain (by trivial) _ _⟩
  | wByte byte => exact ⟨_, rfl, .putPlain (by trivial) _ _⟩
  | wFinish => exact ⟨_, rfl, .same _⟩
  | wPos => exact ⟨_, rfl, .same _⟩
  | rRewind => exact ⟨_, rfl, .rewind⟩
  | rBool => exact ⟨_, rfl, .getZext (by trivial) _⟩
  | rUint n => exact ⟨_, rfl, Eff.state_check (.same _) fun _ => .getZext (by trivial) _⟩
  | rInt n =>
    refine ⟨_, rfl, Eff.state_check (.same _) fun _ => ?_⟩
    rw [Eff.state_bind_ok]; exact .consume (by trivial) _ _
  | rByte => exact ⟨_, rfl, .getZext (by trivial) _⟩
  | rPos => exact ⟨_, rfl, .same _⟩
  | crcInit kind => exact ⟨_, rfl, .crcInit kind⟩
  | crcByte byte => exact ⟨_, rfl, .crcFeed (by trivial) (fun _ => byte) 0 1⟩
  | crcRead => exact ⟨_, rfl, .same _⟩
  | crcCheck v => exact ⟨_, rfl, Eff.state_check (.same _) fun _ => .same _⟩
  | crcObuf => exact ⟨_, rfl, .crcFeed (by trivial) _ _ _⟩
  | crcIbuf w => exact ⟨_, rfl, Eff.state_check (.same _) fun _ => .crcFeed (by trivial) _ _ _⟩
  | encodeMsg mode => exact ⟨_, rfl, .encodeMsg mode s⟩
  | decodeMsg mode => exact ⟨_, rfl, .decodeMsg mode s⟩
  | peekTag => exact ⟨_, rfl, Eff.state_check (.same _) fun _ => .peekTag s⟩
  | width slot =>
    refine ⟨_, rfl, Eff.state_check (.same _) fun _ => ?_⟩
    cases validateField s (opUnsigned slot) with
    | ok k => exact .same _
    | error e => exact .same _
  | csrRd csr =>
    refine ⟨_, rfl, ?_⟩
    cases csrOfNumber csr with
    | none => exact .same _
    | some c => exact .same _
  | csrWr csr v =>
    refine ⟨_, rfl, ?_⟩
    cases csrOfNumber csr with
    | none => exact .same _
    | some c => exact .csrWr csr v c
  | ibWr addr v =>
    exact ⟨_, rfl, Eff.state_check (.same _) fun ha => Eff.state_check (.same _) fun _ =>
      .ibWr addr v (Nat.lt_of_not_le ha)⟩
  | ibRd addr => exact ⟨_, rfl, Eff.state_check (.same _) fun _ => .same _⟩
  | obRd addr => exact ⟨_, rfl, Eff.state_check (.same _) fun _ => .same _⟩
  | descWr slot word v =>
    refine ⟨_, rfl, Eff.state_check (.same _) fun hok => ?_⟩
    obtain ⟨hslot, hword⟩ := descOk_iff.1 (by simpa using hok)
    exact .descWr slot word v hslot hword
  | descRd slot word => exact ⟨_, rfl, Eff.state_check (.same _) fun _ => .same _⟩
  | valWr slot v =>
    exact ⟨_, rfl, Eff.state_check (.same _) fun hok => .valWr slot v (slotOk_iff.1 (by simpa using hok))⟩
  | valRd slot => exact ⟨_, rfl, Eff.state_check (.same _) fun _ => .same _⟩
  | vbWr slot k v =>
    refine ⟨_, rfl, Eff.state_check (.same _) fun hok => Eff.state_check (.same _) fun _ => ?_⟩
    obtain ⟨hslot, hk⟩ := vbOk_iff.1 (by simpa using hok)
    exact .vbWr slot k v hslot hk
  | vbRd slot k => exact ⟨_, rfl, Eff.state_check (.same _) fun _ => .same _⟩
  | reset => exact ⟨_, rfl, .reset⟩

/-- What every state that a command can leave has, and no response takes away, holds after the command. -/
theorem exec_keeps {P : State → Prop} {i : Instr} {s t : State} (h : exec i s = .next t)
    (hl : ∀ u, Leaves s i u → P u) (hr : ∀ u r, P u → P (u.setResponse r)) : P t := by
  obtain ⟨x, hx, hleaves⟩ := exec_leaves i s
  obtain ⟨r, hresp⟩ := respond_eq x
  rw [hx, hresp] at h
  cases h
  exact hr _ _ (hl _ hleaves)

end Sys2Proof.Machine

/-! Who writes what (10_state.md R25 to R45): the pieces of the state, the table of the pieces each command writes, and
that every command leaves the others alone. Settles O12. -/

namespace Sys2Proof.Machine

open Sys2Proof.Safety

/-- The pieces of the state that are written together. -/
inductive Piece where
  /-- OBUF and WPOS. -/
  | writer
  | ibuf
  /-- The registers that only CSR_WR and reset write. -/
  | settings
  | rpos | crcKind | crcAcc | desc | val | vb | routeRx | tagRx
  /-- What belongs to the machine around the block, and no command writes. -/
  | machine
deriving DecidableEq

/-- `t` has a piece as `s` has it. -/
def Piece.Same (s t : State) : Piece → Prop
  | .writer => t.obuf = s.obuf ∧ t.wpos = s.wpos
  | .ibuf => t.ibuf = s.ibuf
  | .settings => t.rlen = s.rlen ∧ t.msgNfields = s.msgNfields ∧ t.msgTypeId = s.msgTypeId ∧ t.msgMaxb = s.msgMaxb ∧
      t.routeTx = s.routeTx
  | .rpos => t.rpos = s.rpos
  | .crcKind => t.crcKind = s.crcKind
  | .crcAcc => t.crcAcc = s.crcAcc
  | .desc => t.desc = s.desc
  | .val => t.val = s.val
  | .vb => t.vb = s.vb
  | .routeRx => t.routeRx = s.routeRx
  | .tagRx => t.tagRx = s.tagRx
  | .machine => t.cfg = s.cfg ∧ t.port = s.port ∧ t.draws = s.draws

theorem Piece.Same.trans {s t u : State} {p : Piece} (h1 : p.Same s t) (h2 : p.Same t u) : p.Same s u := by
  cases p <;> simp_all [Piece.Same]

/-- `t` is as `s` but for the pieces listed, and the response. -/
def SameExcept (ps : List Piece) (s t : State) : Prop := ∀ p, p ∉ ps → p.Same s t

theorem SameExcept.refl (ps : List Piece) (s : State) : SameExcept ps s s := by
  intro p _; cases p <;> simp [Piece.Same]

theorem SameExcept.trans {ps : List Piece} {s t u : State} (h1 : SameExcept ps s t) (h2 : SameExcept ps t u) :
    SameExcept ps s u := fun p hp => (h1 p hp).trans (h2 p hp)

theorem SameExcept.mono {ps qs : List Piece} {s t : State} (h : SameExcept ps s t) (hsub : ps ⊆ qs) :
    SameExcept qs s t := fun p hp => h p fun hmem => hp (hsub hmem)

/-- The pieces a command may write (10_state.md R25 to R45). -/
def writes : Instr → List Piece
  | .wClear | .wBool _ | .wUint _ _ | .wInt _ _ | .wByte _ | .encodeMsg _ => [.writer]
  | .rRewind | .rBool | .rUint _ | .rInt _ | .rByte => [.rpos]
  | .crcInit _ => [.crcKind, .crcAcc]
  | .crcByte _ | .crcObuf | .crcIbuf _ => [.crcAcc]
  | .decodeMsg _ => [.rpos, .val, .vb, .routeRx, .tagRx]
  | .peekTag => [.rpos, .tagRx]
  | .csrWr _ _ => [.settings, .rpos]
  | .ibWr _ _ => [.ibuf]
  | .descWr _ _ _ => [.desc]
  | .valWr _ _ => [.val]
  | .vbWr _ _ _ => [.vb]
  | .reset => [.writer, .settings, .rpos, .crcKind, .crcAcc, .routeRx, .tagRx]
  | .nop | .wFinish | .wPos | .rPos | .crcRead | .crcCheck _ | .width _ | .csrRd _ | .ibRd _ | .obRd _ | .descRd _ _
  | .valRd _ | .vbRd _ _ => []

theorem writes_of_appends {i : Instr} (h : Appends i) : writes i = [.writer] := by
  cases i <;> simp_all [writes, Appends]

theorem writes_of_consumes {i : Instr} (h : Consumes i) : writes i = [.rpos] := by
  cases i <;> simp_all [writes, Consumes]

theorem writes_of_feedsCrc {i : Instr} (h : FeedsCrc i) : writes i = [.crcAcc] := by
  cases i <;> simp_all [writes, FeedsCrc]

/-! ### The updates commands are made of -/

theorem sameExcept_clearWriter (s : State) : SameExcept [.writer] s (clearWriter s) := by
  intro p hp; cases p <;> simp_all [Piece.Same, clearWriter_eq]

theorem sameExcept_putBits (v n : Nat) (stage : Stage) (field : Nat) (s : State) :
    SameExcept [.writer] s (putBits v n stage field s).state := by
  refine Eff.state_check (.refl _ s) fun _ => ?_
  intro p hp; cases p <;> simp_all [Piece.Same]

theorem sameExcept_setRpos (s : State) (v : BitVec 32) : SameExcept [.rpos] s (s.setRpos v) := by
  intro p hp; cases p <;> simp_all [Piece.Same]

theorem sameExcept_getBits (n : Nat) (e : CmdError) (s : State) : SameExcept [.rpos] s (getBits n e s).state :=
  Eff.state_check (.refl _ s) fun _ => sameExcept_setRpos s _

theorem sameExcept_setCrcAcc (s : State) (v : BitVec 32) : SameExcept [.crcAcc] s (s.setCrcAcc v) := by
  intro p hp; cases p <;> simp_all [Piece.Same]

theorem sameExcept_setCrcKind (s : State) (v : BitVec 1) : SameExcept [.crcKind] s (s.setCrcKind v) := by
  intro p hp; cases p <;> simp_all [Piece.Same]

theorem sameExcept_writeIbuf (s : State) (a : Nat) (v : Byte) : SameExcept [.ibuf] s (s.writeIbuf a v) := by
  intro p hp; cases p <;> simp_all [Piece.Same, State.writeIbuf]

theorem sameExcept_writeDesc (s : State) (slot word : Nat) (v : Word64) :
    SameExcept [.desc] s (s.writeDesc slot word v) := by
  intro p hp; cases p <;> simp_all [Piece.Same, State.writeDesc]

theorem sameExcept_writeVal (s : State) (slot : Nat) (v : Word64) : SameExcept [.val] s (s.writeVal slot v) := by
  intro p hp; cases p <;> simp_all [Piece.Same, State.writeVal]

theorem sameExcept_writeVb (s : State) (slot k : Nat) (v : Byte) : SameExcept [.vb] s (s.writeVb slot k v) := by
  intro p hp; cases p <;> simp_all [Piece.Same, State.writeVb]

theorem sameExcept_setRouteRx (s : State) (v : BitVec 19) : SameExcept [.routeRx] s (s.setRouteRx v) := by
  intro p hp; cases p <;> simp_all [Piece.Same]

theorem sameExcept_setTagRx (s : State) (v : BitVec 16) : SameExcept [.tagRx] s (s.setTagRx v) := by
  intro p hp; cases p <;> simp_all [Piece.Same]

theorem sameExcept_csrWrite (s : State) (v : Word64) (c : Csr) :
    SameExcept [.settings, .rpos] s (csrWrite s v c).state := by
  cases c with
  | rlen =>
    refine Eff.state_check (.refl _ s) fun _ => ?_
    intro p hp; cases p <;> simp_all [Piece.Same]
  | msgNfields =>
    refine Eff.state_check (.refl _ s) fun _ => ?_
    intro p hp; cases p <;> simp_all [Piece.Same]
  | msgTypeId | msgMaxb | routeTx => intro p hp; cases p <;> simp_all [Piece.Same, csrWrite]
  | id | cfgBuf | cfgMsg | wpos | outLen | rpos | crcKind | crcAcc | routeRx | tagRx => exact .refl _ s

theorem sameExcept_performReset (s : State) :
    SameExcept [.writer, .settings, .rpos, .crcKind, .crcAcc, .routeRx, .tagRx] s (performReset s) := by
  intro p hp; cases p <;> simp_all [Piece.Same, performReset_eq]

theorem Puts.sameExcept {s t : State} (h : Puts s t) : SameExcept [.writer] s t := by
  induction h with
  | start => exact .refl _ s
  | put v n stage field _ ih => exact ih.trans (sameExcept_putBits v n stage field _)

theorem Reads.sameExcept {slots bytes : Nat} {s t : State} (h : Reads slots bytes s t) :
    SameExcept [.rpos, .val, .vb, .routeRx, .tagRx] s t := by
  induction h with
  | start => exact .refl _ s
  | get n e _ ih => exact ih.trans ((sameExcept_getBits n e _).mono (by simp))
  | val v _ _ ih => exact ih.trans ((sameExcept_writeVal _ _ v).mono (by simp))
  | vb v _ _ _ ih => exact ih.trans ((sameExcept_writeVb _ _ _ v).mono (by simp))
  | route r _ ih => exact ih.trans ((sameExcept_setRouteRx _ r).mono (by simp))
  | tag r _ ih => exact ih.trans ((sameExcept_setTagRx _ r).mono (by simp))

/-! ### Every command -/

theorem Leaves.sameExcept {s t : State} {i : Instr} (h : Leaves s i t) : SameExcept (writes i) s t := by
  cases h with
  | same => exact .refl _ s
  | clear => exact sameExcept_clearWriter s
  | append hi v n => rw [writes_of_appends hi]; exact sameExcept_putBits v n _ _ s
  | encode _ h => exact (sameExcept_clearWriter s).trans h.sameExcept
  | rewind => exact sameExcept_setRpos s _
  | consume hi n e => rw [writes_of_consumes hi]; exact sameExcept_getBits n e s
  | peekError n e =>
    exact ((sameExcept_setRpos s _).trans (sameExcept_getBits n e _)).mono (by simp [writes])
  | peek n e id =>
    exact (((sameExcept_setRpos s _).trans (sameExcept_getBits n e _)).mono (by simp [writes])).trans
      ((sameExcept_setTagRx _ id).mono (by simp [writes]))
  | decode _ h => exact ((sameExcept_setRpos s _).mono (by simp [writes])).trans h.sameExcept
  | crcInit kind =>
    exact ((sameExcept_setCrcKind s kind).mono (by simp [writes])).trans
      ((sameExcept_setCrcAcc _ _).mono (by simp [writes]))
  | crcFeed hi byteAt start count => rw [writes_of_feedsCrc hi]; exact sameExcept_setCrcAcc s _
  | csrWr n v c => exact sameExcept_csrWrite s v c
  | ibWr addr v _ => exact sameExcept_writeIbuf s _ _
  | descWr slot word v _ _ => exact sameExcept_writeDesc s _ _ v
  | valWr slot v _ => exact sameExcept_writeVal s _ v
  | vbWr slot k v _ _ => exact sameExcept_writeVb s _ _ _
  | reset => exact sameExcept_performReset s

theorem sameExcept_setResponse (s : State) (r : Option Response) : SameExcept [] s (s.setResponse r) := by
  intro p _; cases p <;> simp [Piece.Same]

/-- A command leaves every piece alone that the table does not give it. -/
theorem exec_sameExcept {i : Instr} {s t : State} (h : exec i s = .next t) : SameExcept (writes i) s t :=
  exec_keeps h (fun _ hu => hu.sameExcept) fun _ r hu =>
    hu.trans ((sameExcept_setResponse _ r).mono (List.nil_subset _))

/-- Settles O12: each clause is a row of the table `writes`. -/
theorem onlyNamedCommandsWriteEachPiece : Obligations.OnlyNamedCommandsWriteEachPiece := by
  intro i s t h
  have frame := exec_sameExcept h
  refine ⟨fun happ hclr henc hrst => frame .writer ?_, fun hib => frame .ibuf ?_, fun hcsr hrst => frame .settings ?_,
    fun hcons hrew hdec hpeek hcsr hrst => frame .rpos ?_, fun hstart => frame .crcKind ?_,
    fun hstart hfeed => frame .crcAcc ?_, fun hdw => frame .desc ?_, fun hvw hdec => frame .val ?_,
    fun hvbw hdec => frame .vb ?_, fun hdec hrst => frame .routeRx ?_, fun hdec hpeek hrst => frame .tagRx ?_,
    frame .machine ?_⟩
  all_goals cases i <;> simp_all [writes, Appends, Consumes, StartsCrc, FeedsCrc, IsEncode, IsDecode, IsCsrWrite]

end Sys2Proof.Machine

/-! The invariant through every update a command is made of, through reset and through an abandoned command
(10_state.md R20, R25 to R31, R41, 70_reset_and_hazards.md R340, R344). Settles O14. -/

namespace Sys2Proof.Safety

open Sys2Proof.Machine

/-! ### The CRC register -/

/-- A CRC-16 register fits its low half after every byte (10_state.md R30). -/
theorem crcStep_lt {kind : BitVec 1} (hk : kind = 0#1) (acc : BitVec 32) (m : Byte) :
    (crcStep kind acc m).toNat < 2 ^ 16 := by
  rw [crcStep, if_pos hk, BitVec.toNat_setWidth]
  exact (Nat.mod_le _ _).trans_lt (BitVec.isLt _)

theorem crcFeed_lt {kind : BitVec 1} (hk : kind = 0#1) (byteAt : Nat → Byte) (start count : Nat) {acc : BitVec 32}
    (hacc : acc.toNat < 2 ^ 16) : (crcFeed kind byteAt start count acc).toNat < 2 ^ 16 := by
  induction count generalizing start acc with
  | zero => exact hacc
  | succ count ih => exact ih (start + 1) (crcStep_lt hk acc _)

theorem crcStart_lt {kind : BitVec 1} (hk : kind = 0#1) : (crcStart kind).toNat < 2 ^ 16 := by
  rw [hk]; decide

/-! ### Updates of single pieces -/

section
variable {s : State}

theorem Inv.setCrcAcc (h : Inv s) {v : BitVec 32} (hv : s.crcKind = 0#1 → v.toNat < 2 ^ 16) : Inv (s.setCrcAcc v) :=
  { h with crcHigh := hv }

theorem Inv.crcInit (h : Inv s) (kind : BitVec 1) : Inv ((s.setCrcKind kind).setCrcAcc (crcStart kind)) :=
  { h with crcHigh := crcStart_lt }

theorem Inv.setRouteRx (h : Inv s) (r : BitVec 19) : Inv (s.setRouteRx r) := { h with }

theorem Inv.setPort (h : Inv s) (p : List PortInput) : Inv (s.setPort p) := { h with }

theorem Inv.writeIbuf (h : Inv s) {a : Nat} (v : Byte) (ha : a < s.cfg.ibufBytes) : Inv (s.writeIbuf a v) where
  __ := h
  ibufWf := memWrite_wf _ _ h.ibufWf
  ibufIn c hc := by
    obtain hat | hold := mem_memWrite (State.setIbuf_ibuf s _ ▸ hc)
    · rw [hat]; exact ha
    · exact h.ibufIn c hold

theorem Inv.writeDesc (h : Inv s) {slot word : Nat} (v : Word64) (hs : slot < s.cfg.maxFields) (hw : word ≤ 2) :
    Inv (s.writeDesc slot word v) where
  __ := h
  descWf := memWrite_wf _ _ h.descWf
  descIn c hc := by
    obtain hkey | hold := mem_memWrite (State.setDesc_desc s _ ▸ hc)
    · have hdiv : (slot * 65536 + word) / 65536 = slot := by omega
      have hmod : (slot * 65536 + word) % 65536 = word := by omega
      rw [hkey, descKey, hdiv, hmod]
      exact ⟨hs, hw⟩
    · exact h.descIn c hold

/-- RLEN set to a length that IBUF has, with the reader rewound (10_state.md R27). -/
theorem Inv.setRlen (h : Inv s) {v : BitVec 32} (hv : v.toNat ≤ s.cfg.ibufBytes) :
    Inv ((s.setRlen v).setRpos 0#32) :=
  { h with rlenLe := hv, rposLe := Nat.zero_le _ }

theorem Inv.setMsgNfields (h : Inv s) {v : BitVec 32} (hv : v.toNat ≤ s.cfg.maxFields) :
    Inv (s.setMsgNfields v) := { h with nfieldsLe := hv }

theorem Inv.putBits_state (h : Inv s) (v n : Nat) (stage : Stage) (field : Nat) :
    Inv (Machine.putBits v n stage field s).state :=
  Eff.state_check h fun hfit =>
    h.putBits (v := v) (st := stage) (f := field) (u := ()) (putBits_fits (Nat.le_of_not_gt hfit))

theorem Inv.getBits_state (h : Inv s) (n : Nat) (e : CmdError) : Inv (Machine.getBits n e s).state :=
  Eff.state_check h fun hfit => h.getBits (e := e) (getBits_fits (Nat.le_of_not_gt hfit))

theorem Inv.csrWrite (h : Inv s) (v : Word64) (c : Csr) : Inv (Machine.csrWrite s v c).state := by
  have hlen : (v.setWidth 32).toNat ≤ v.toNat := by
    rw [BitVec.toNat_setWidth]; exact Nat.mod_le _ _
  cases c with
  | rlen => exact Eff.state_check h fun hv => h.setRlen (hlen.trans (Nat.le_of_not_lt hv))
  | msgNfields => exact Eff.state_check h fun hv => h.setMsgNfields (hlen.trans (Nat.le_of_not_lt hv))
  | msgTypeId | msgMaxb | routeTx => exact { h with }
  | id | cfgBuf | cfgMsg | wpos | outLen | rpos | crcKind | crcAcc | routeRx | tagRx => exact h

/-- Reset needs only what it keeps: the parameters and the RAMs (70_reset_and_hazards.md R340, R341). -/
theorem Inv.performReset (h : Inv s) : Inv (performReset s) where
  __ := h.clearWriter
  rlenLe := Nat.zero_le _
  rposLe := Nat.zero_le _
  nfieldsLe := Nat.zero_le _
  crcHigh _ := show (0xFFFF#32).toNat < 2 ^ 16 by decide

end

/-! ### ENCODE, DECODE, and every command -/

theorem Inv.puts {s t : State} (hs : Inv s) (h : Puts s t) : Inv t := by
  induction h with
  | start => exact hs
  | put v n stage field _ ih => exact ih.putBits_state v n stage field

theorem cfg_of_reads {slots bytes : Nat} {s t : State} (h : Reads slots bytes s t) : t.cfg = s.cfg :=
  (h.sameExcept .machine (by simp)).1

/-- DECODE's steps keep the invariant when they stay inside the slots and bytes that exist. -/
theorem Inv.reads {slots bytes : Nat} {s t : State} (hs : Inv s) (hslots : slots ≤ s.cfg.maxFields)
    (hbytes : bytes ≤ s.cfg.maxFieldBytes) (h : Reads slots bytes s t) : Inv t := by
  induction h with
  | start => exact hs
  | get n e _ ih => exact ih.getBits_state n e
  | @val t i v hi ht ih => exact ih.writeVal v ((cfg_of_reads ht).symm ▸ hi.trans_le hslots)
  | @vb t i k v hi hk ht ih =>
    have hcfg := cfg_of_reads ht
    exact ih.writeVb v (hcfg.symm ▸ hi.trans_le hslots) (hcfg.symm ▸ hk.trans_le hbytes)
  | route r _ ih => exact ih.setRouteRx r
  | tag r _ ih => exact ih.setTagRx r

theorem Inv.leaves {s t : State} {i : Instr} (hs : Inv s) (h : Leaves s i t) : Inv t := by
  cases h with
  | same => exact hs
  | clear => exact hs.clearWriter
  | append _ v n => exact hs.putBits_state v n _ _
  | encode _ h => exact hs.clearWriter.puts h
  | rewind => exact hs.rewind
  | consume _ n e => exact hs.getBits_state n e
  | peekError n e => exact hs.rewind.getBits_state n e
  | peek n e id => exact (hs.rewind.getBits_state n e).setTagRx id
  | decode _ h => exact hs.rewind.reads hs.nfieldsLe le_rfl h
  | crcInit kind => exact hs.crcInit kind
  | crcFeed _ byteAt start count => exact hs.setCrcAcc fun hk => crcFeed_lt hk _ _ _ (hs.crcHigh hk)
  | csrWr _ v c => exact hs.csrWrite v c
  | ibWr _ v ha => exact hs.writeIbuf _ ha
  | descWr _ _ v hslot hword => exact hs.writeDesc v hslot hword
  | valWr _ v hslot => exact hs.writeVal v hslot
  | vbWr _ _ _ hslot hk => exact hs.writeVb _ hslot hk
  | reset => exact hs.performReset

theorem Inv.exec {s t : State} {i : Instr} (hs : Inv s) (h : exec i s = .next t) : Inv t :=
  exec_keeps h (fun _ hu => hs.leaves hu) fun _ r hu => hu.setResponse r

/-- A command taken from the port keeps the invariant and the parameters, whether or not it decodes. -/
theorem Inv.runCommand {s t : State} {c : Command} (hs : Inv s) (h : runCommand c s = .next t) :
    Inv t ∧ t.cfg = s.cfg := by
  cases hd : decode c with
  | ok i =>
    rw [runCommand_ok s hd] at h
    exact ⟨hs.exec h, (exec_sameExcept h .machine (by cases i <;> simp [writes])).1⟩
  | error r =>
    rw [runCommand_error s hd] at h
    cases h
    exact ⟨hs.setResponse _, rfl⟩

/-! ### Reset inputs -/

theorem Inv.applyResetInput {s : State} (h : Inv s) : Inv (applyResetInput s) := h.performReset.setResponse none

/-- What holds of every location that an abandoned command's memory lists, holds of those the merge lists. -/
theorem forall_mem_mergeAbandoned {w : Nat} {lands : Nat → Bool} {old new : Memory w} {p : Nat → Prop}
    (h : ∀ c ∈ new, p c.1) : ∀ c ∈ mergeAbandoned lands old new, p c.1 := by
  intro c hc
  obtain ⟨d, hd, hdc⟩ := mem_mergeAbandoned hc
  exact hdc ▸ h d hd

/-- R344: the RAMs of an abandoned command are merged from two states that keep the invariant, and the rest is reset. -/
theorem Inv.abandonCommand {s t : State} (hs : Inv s) (ht : Inv t) (hcfg : t.cfg = s.cfg) :
    Inv (abandonCommand s t) :=
  Inv.applyResetInput { hs with
    ibufWf := mergeAbandoned_wf ht.ibufWf
    descWf := mergeAbandoned_wf ht.descWf
    valWf := mergeAbandoned_wf ht.valWf
    vbWf := mergeAbandoned_wf ht.vbWf
    ibufIn := forall_mem_mergeAbandoned (p := (· < s.cfg.ibufBytes)) (hcfg ▸ ht.ibufIn)
    descIn := forall_mem_mergeAbandoned (p := fun a => a / 65536 < s.cfg.maxFields ∧ a % 65536 ≤ 2)
      (hcfg ▸ ht.descIn)
    valIn := forall_mem_mergeAbandoned (p := (· < s.cfg.maxFields)) (hcfg ▸ ht.valIn)
    vbIn := forall_mem_mergeAbandoned
      (p := fun a => a / 65536 < s.cfg.maxFields ∧ a % 65536 < s.cfg.maxFieldBytes) (hcfg ▸ ht.vbIn) }

/-- Settles O14, by the kinds of input a step can take from the port. -/
theorem stepKeepsInvariant : Obligations.StepKeepsInvariant := by
  intro s t hs h
  match hport : s.port with
  | [] => rw [step_idle hport] at h; cases h; exact hs
  | .command c :: rest =>
    rw [step_command hport] at h
    exact ((hs.setPort rest).runCommand h).1
  | .resetInput :: rest =>
    rw [step_resetInput hport] at h
    cases h; exact (hs.setPort rest).applyResetInput
  | .resetDuring c :: rest =>
    obtain ⟨u, hu⟩ := runCommand_next c (s.setPort rest)
    rw [step_resetDuring hport hu] at h
    obtain ⟨hinv, hcfg⟩ := (hs.setPort rest).runCommand hu
    cases h; exact (hs.setPort rest).abandonCommand hinv hcfg

end Sys2Proof.Safety

/-! No command reads the last response (10_state.md R19, 60_exceptions.md R300): each step of a command does the same
whatever the response is, and leaves the response alone. Settles O9. -/

namespace Sys2Proof.Machine

/-- What a step comes to, with the response of the state it leaves replaced. -/
def Eff.setResponse {α : Type} (r : Option Response) : Eff α → Eff α
  | .ok a s => .ok a (s.setResponse r)
  | .raise e s => .raise e (s.setResponse r)

/-- A step that neither reads nor writes the response. -/
def Blind {α : Type} (f : State → Eff α) : Prop := ∀ s r, f (s.setResponse r) = (f s).setResponse r

section
variable {α β : Type} {f g : State → Eff α}

/-- A command answers the same, since its own response replaces the last one. -/
theorem Blind.respond {f : State → Eff Word64} (h : Blind f) (s : State) (r : Option Response) :
    respond (f (s.setResponse r)) = respond (f s) := by
  rw [h s r]
  cases f s <;> rfl

theorem Blind.bind {k : α → State → Eff β} (hf : Blind f) (hk : ∀ a, Blind (k a)) :
    Blind fun s => (f s).bind k := by
  intro s r
  show (f (s.setResponse r)).bind k = ((f s).bind k).setResponse r
  rw [hf s r]
  cases f s with
  | ok a t => exact hk a t r
  | raise e t => rfl

/-- A choice made without the response. -/
theorem Blind.ite {c : State → Prop} [DecidablePred c] (hc : ∀ s r, c (s.setResponse r) = c s) (hf : Blind f)
    (hg : Blind g) : Blind fun s => if c s then f s else g s := by
  intro s r
  simp only [hc s r]
  split
  · exact hf s r
  · exact hg s r

/-- A check made without the response. -/
theorem Blind.check {c : State → Prop} [DecidablePred c] {e : CmdError} (hc : ∀ s r, c (s.setResponse r) = c s)
    (hf : Blind f) : Blind fun s => if c s then .raise e s else f s :=
  .ite hc (fun _ _ => rfl) hf

/-- A step that completes at once. -/
theorem Blind.ok {a : State → α} {u : State → State} (ha : ∀ s r, a (s.setResponse r) = a s)
    (hu : ∀ s r, u (s.setResponse r) = (u s).setResponse r) : Blind fun s => .ok (a s) (u s) := by
  intro s r
  simp only [ha s r, hu s r]; rfl

theorem Blind.raise (e : CmdError) : Blind fun s => (.raise e s : Eff α) := fun _ _ => rfl

/-- Doing nothing. -/
theorem Blind.skip (a : α) : Blind fun s => .ok a s := fun _ _ => rfl

/-- A step on a value read without the response. -/
theorem Blind.of_value {γ : Type} {F : γ → State → Eff α} {v : State → γ} (hv : ∀ s r, v (s.setResponse r) = v s)
    (hF : ∀ x, Blind (F x)) : Blind fun s => F (v s) s := by
  intro s r
  simp only [hv s r]; exact hF _ s r

/-- A step after an update that leaves the response alone. -/
theorem Blind.after {u : State → State} (hf : Blind f) (hu : ∀ s r, u (s.setResponse r) = (u s).setResponse r) :
    Blind fun s => f (u s) := by
  intro s r
  simp only [hu s r]; exact hf _ r

end

theorem blind_putBits (v n : Nat) (stage : Stage) (field : Nat) : Blind (putBits v n stage field) :=
  .check (fun _ _ => rfl) (.ok (fun _ _ => rfl) fun _ _ => rfl)

theorem blind_getBits (n : Nat) (e : CmdError) : Blind (getBits n e) :=
  .check (fun _ _ => rfl) (.ok (fun _ _ => rfl) fun _ _ => rfl)

/-- PutBits of a value read without the response. -/
theorem blind_putValue {v : State → Nat} (hv : ∀ s r, v (s.setResponse r) = v s) (n : Nat) (stage : Stage)
    (field : Nat) : Blind fun s => putBits (v s) n stage field s :=
  .of_value hv fun x => blind_putBits x n stage field

/-! ### Primitive writes and reads -/

theorem blind_putPlain (v n : Nat) : Blind (putPlain v n) :=
  (blind_putBits v n .none 0).bind fun _ => .skip _

theorem blind_putUint (n v : Nat) : Blind (putUint n v) :=
  .check (fun _ _ => rfl) (.check (fun _ _ => rfl) (blind_putPlain v n))

theorem blind_putInt (n : Nat) (v : Int) : Blind (putInt n v) :=
  .check (fun _ _ => rfl) (.check (fun _ _ => rfl) (blind_putPlain _ n))

theorem blind_getZext (n : Nat) : Blind (getZext n) := (blind_getBits n _).bind fun _ => .skip _

theorem blind_getUint (n : Nat) : Blind (getUint n) := .check (fun _ _ => rfl) (blind_getZext n)

theorem blind_getInt (n : Nat) : Blind (getInt n) :=
  .check (fun _ _ => rfl) ((blind_getBits n _).bind fun _ => .skip _)

/-! ### Descriptors -/

theorem validateField_setResponse (s : State) (r : Option Response) (i : Nat) :
    validateField (s.setResponse r) i = validateField s i := rfl

theorem validateFrom_setResponse (s : State) (r : Option Response) (i count : Nat) :
    validateFrom (s.setResponse r) i count = validateFrom s i count := by
  induction count generalizing i with
  | zero => rfl
  | succ count ih => simp only [validateFrom, validateField_setResponse, ih]

/-! ### ENCODE -/

theorem blind_putVbBytes (i j count : Nat) : Blind (putVbBytes i j count) := by
  induction count generalizing j with
  | zero => exact .skip ()
  | succ count ih => exact (blind_putValue (fun _ _ => rfl) 8 .field i).bind fun _ => ih (j + 1)

theorem blind_encField (k : FieldKind) (i : Nat) : Blind (encField k i) := by
  cases k with
  | bool => exact .check (fun _ _ => rfl) (blind_putValue (fun _ _ => rfl) _ _ _)
  | int min max => exact .check (fun _ _ => rfl) (blind_putValue (fun _ _ => rfl) _ _ _)
  | float fmin fmax p m =>
    refine .check (fun _ _ => rfl) fun s r => ?_
    show (match scaledInt fmin (f64 (s.valAt i)) p with | none => _ | some v => _) = _
    cases scaledInt fmin (f64 (s.valAt i)) p with
    | none => rfl
    | some v => exact blind_putBits v _ _ _ s r
  | enum n => exact .check (fun _ _ => rfl) (blind_putValue (fun _ _ => rfl) _ _ _)
  | bytes len => exact .check (fun _ _ => rfl) (blind_putVbBytes i 0 len)
  | str len => exact .check (fun _ _ => rfl) (.check (fun _ _ => rfl) (blind_putVbBytes i 0 len))

theorem blind_encFields (ks : List FieldKind) (i : Nat) : Blind (encFields ks i) := by
  induction ks generalizing i with
  | nil => exact .skip ()
  | cons k ks ih => exact (blind_encField k i).bind fun _ => ih (i + 1)

theorem blind_encRoute : Blind encRoute :=
  (blind_putValue (fun _ _ => rfl) _ _ _).bind fun _ => (blind_putValue (fun _ _ => rfl) _ _ _).bind fun _ =>
    (blind_putValue (fun _ _ => rfl) _ _ _).bind fun _ => blind_putValue (fun _ _ => rfl) _ _ _

theorem blind_encTag : Blind encTag :=
  .check (fun _ _ => rfl) <|
    .ite (fun _ _ => rfl) ((blind_putBits _ _ _ _).bind fun _ => blind_putValue (fun _ _ => rfl) _ _ _) <|
      .ite (fun _ _ => rfl) ((blind_putBits _ _ _ _).bind fun _ => blind_putValue (fun _ _ => rfl) _ _ _) (.raise _)

theorem blind_encFinish : Blind encFinish :=
  .check (fun _ _ => rfl) (.ok (fun _ _ => rfl) fun _ _ => rfl)

theorem blind_encMessage (mode : Nat) (kinds : List FieldKind) : Blind (encMessage mode kinds) :=
  (Blind.ite (fun _ _ => rfl) blind_encRoute (.skip ())).bind fun _ =>
    (Blind.ite (fun _ _ => rfl) blind_encTag (.skip ())).bind fun _ =>
      (blind_encFields kinds 0).bind fun _ => blind_encFinish

theorem blind_runEncode (mode : Nat) : Blind (runEncode mode) := by
  refine .check (fun _ _ => rfl) fun s r => ?_
  simp only [validateFrom_setResponse, State.setResponse_msgNfields]
  cases validateFrom s 0 s.msgNfields.toNat with
  | error e => rfl
  | ok kinds => exact blind_encMessage mode kinds (clearWriter s) r

/-! ### DECODE -/

theorem blind_getVbBytes (i j count : Nat) : Blind (getVbBytes i j count) := by
  induction count generalizing j with
  | zero => exact .skip ()
  | succ count ih => exact (blind_getBits _ _).bind fun _ => (ih (j + 1)).after fun _ _ => rfl

theorem blind_writeVal (i : Nat) (v : Word64) : Blind fun s => .ok () (s.writeVal i v) := fun _ _ => rfl

theorem blind_decField (k : FieldKind) (i : Nat) : Blind (decField k i) := by
  refine .check (fun _ _ => rfl) ?_
  cases k with
  | bool => exact (blind_getBits _ _).bind fun _ => blind_writeVal i _
  | int min max => exact (blind_getBits _ _).bind fun _ => .check (fun _ _ => rfl) (blind_writeVal i _)
  | float fmin fmax p m =>
    exact (blind_getBits _ _).bind fun _ => .check (fun _ _ => rfl) (.check (fun _ _ => rfl) (blind_writeVal i _))
  | enum n => exact (blind_getBits _ _).bind fun _ => blind_writeVal i _
  | bytes len => exact (blind_getVbBytes i 0 len).bind fun _ => blind_writeVal i _
  | str len => exact (blind_getVbBytes i 0 len).bind fun _ => .check (fun _ _ => rfl) (blind_writeVal i _)

theorem blind_decFields (ks : List FieldKind) (i : Nat) : Blind (decFields ks i) := by
  induction ks generalizing i with
  | nil => exact .skip ()
  | cons k ks ih => exact (blind_decField k i).bind fun _ => ih (i + 1)

theorem blind_decRoute : Blind decRoute :=
  .check (fun _ _ => rfl) <| (blind_getBits _ _).bind fun _ => (blind_getBits _ _).bind fun _ =>
    (blind_getBits _ _).bind fun _ => (blind_getBits _ _).bind fun _ =>
      .check (fun _ _ => rfl) (.ok (fun _ _ => rfl) fun _ _ => rfl)

theorem blind_decTag : Blind decTag :=
  .check (fun _ _ => rfl) <| .check (fun _ _ => rfl) <|
    .of_value (F := fun w s => (getBits w ⟨.decTruncated, .tag, 0⟩ s).bind fun v t => .ok (v % 2 ^ (w - 1)) t)
      (fun _ _ => rfl) fun _ => (blind_getBits _ _).bind fun _ => .skip _

theorem blind_decTagStage : Blind decTagStage :=
  blind_decTag.bind fun id => Blind.after
    (f := fun t => if t.typeIdValid && decide (id ≠ t.typeId) then .raise ⟨.decTypeIdMismatch, .tag, 0⟩ t else .ok () t)
    (.check (fun _ _ => rfl) (.skip ())) fun _ _ => rfl

theorem blind_checkOrdinals (ks : List FieldKind) (i : Nat) : Blind (checkOrdinals ks i) := by
  induction ks generalizing i with
  | nil => exact .skip ()
  | cons k ks ih => exact .ite (fun _ _ => rfl) (ih (i + 1)) (.raise _)

theorem blind_decMessage (mode : Nat) (kinds : List FieldKind) : Blind (decMessage mode kinds) :=
  (Blind.ite (fun _ _ => rfl) blind_decRoute (.skip ())).bind fun _ =>
    (Blind.ite (fun _ _ => rfl) blind_decTagStage (.skip ())).bind fun _ =>
      (blind_decFields kinds 0).bind fun _ => (blind_checkOrdinals kinds 0).bind fun _ =>
        .ok (fun _ _ => rfl) fun _ _ => rfl

theorem blind_runDecode (mode : Nat) : Blind (runDecode mode) := by
  refine .check (fun _ _ => rfl) fun s r => ?_
  simp only [validateFrom_setResponse, State.setResponse_msgNfields]
  cases validateFrom s 0 s.msgNfields.toNat with
  | error e => rfl
  | ok kinds => exact blind_decMessage mode kinds (s.setRpos 0#32) r

/-- PEEK_TAG on input that is not empty. -/
theorem blind_peekTag : Blind fun s => (decTag (s.setRpos 0#32)).bind fun id t =>
    .ok (BitVec.ofNat 64 id) (t.setTagRx (BitVec.ofNat 16 id)) :=
  (blind_decTag.after fun _ _ => rfl).bind fun _ => .ok (fun _ _ => rfl) fun _ _ => rfl

/-! ### Every command -/

theorem blind_csrWrite (v : Word64) (c : Csr) : Blind fun s => csrWrite s v c := by
  cases c with
  | rlen | msgNfields => exact .check (fun _ _ => rfl) (.ok (fun _ _ => rfl) fun _ _ => rfl)
  | msgTypeId | msgMaxb | routeTx => exact .ok (fun _ _ => rfl) fun _ _ => rfl
  | id | cfgBuf | cfgMsg | wpos | outLen | rpos | crcKind | crcAcc | routeRx | tagRx => exact .raise _

/-- A check that opens a command: its error is answered the same whatever the last response was. -/
theorem respond_check_setResponse {c : Prop} [Decidable c] {e : CmdError} {s : State} {r : Option Response}
    {x y : Eff Word64} (h : respond x = respond y) :
    respond (if c then .raise e (s.setResponse r) else x) = respond (if c then .raise e s else y) := by
  split
  · rfl
  · exact h

/-- Settles O9: the steps of every command are blind to the response, and its answer replaces it. -/
theorem noCommandReadsLastResponse : Obligations.NoCommandReadsLastResponse := by
  intro i s r
  cases i with
  | nop | wClear | wFinish | wPos | rRewind | rPos | crcInit | crcByte | crcRead | crcObuf | reset => rfl
  | wBool bit => exact (blind_putPlain _ _).respond s r
  | wUint n w => exact (blind_putUint _ _).respond s r
  | wInt n w => exact (blind_putInt _ _).respond s r
  | wByte byte => exact (blind_putPlain _ _).respond s r
  | rBool => exact (blind_getZext _).respond s r
  | rUint n => exact (blind_getUint _).respond s r
  | rInt n => exact (blind_getInt _).respond s r
  | rByte => exact (blind_getZext _).respond s r
  | encodeMsg mode => exact (blind_runEncode _).respond s r
  | decodeMsg mode => exact (blind_runDecode _).respond s r
  | peekTag => exact respond_check_setResponse (blind_peekTag.respond s r)
  | width slot =>
    refine respond_check_setResponse ?_
    simp only [validateField_setResponse]
    cases validateField s (opUnsigned slot) with
    | ok k => rfl
    | error e => rfl
  | csrRd csr =>
    simp only [exec_csrRd]
    cases csrOfNumber csr with
    | none => rfl
    | some c => cases c <;> rfl
  | csrWr csr v =>
    simp only [exec_csrWr]
    cases csrOfNumber csr with
    | none => rfl
    | some c => exact (blind_csrWrite v c).respond s r
  | ibWr addr v => exact respond_check_setResponse (respond_check_setResponse rfl)
  | vbWr slot k v => exact respond_check_setResponse (respond_check_setResponse rfl)
  | crcCheck | crcIbuf | ibRd | obRd | descWr | descRd | valWr | valRd | vbRd => exact respond_check_setResponse rfl

end Sys2Proof.Machine

/-! One step on a command that decodes, and the CSR map: what CSR_RD answers and what CSR_WR stores or refuses
(10_state.md R21 to R39, 20_memory.md R70). Settles O6, O38, O39, O40. -/

namespace Sys2Proof.Machine

/-! ### One step -/

theorem decode_of_decodeTableWord {nbits w : Nat} {i : Instr} (h : decodeTableWord nbits w = some i) :
    decode (tableCommand nbits w) = .ok i := by
  unfold decodeTableWord at h
  cases hd : decode (tableCommand nbits w) with
  | ok j => rw [hd] at h; exact congrArg Except.ok (Option.some.inj h)
  | error e => rw [hd] at h; cases h

/-- Settles O6: the command taken is the one that stands first, and placing one puts it there. -/
theorem stepRunsDecodedInstruction : Obligations.StepRunsDecodedInstruction := by
  refine ⟨fun s c rest i hport hdec => ?_, fun s nbits w i hdec => ?_⟩
  · rw [step_command hport, runCommand_ok _ hdec]
  · have hport : (s.withFetchWord nbits w).port = .command (tableCommand nbits w) :: s.port := rfl
    rw [step_command hport, runCommand_ok _ (decode_of_decodeTableWord hdec)]; rfl

/-! ### CSR_RD and CSR_WR by their CSR -/

theorem exec_csrRd_some {n : BitVec 16} {c : Csr} {s : State} {w : Word64} (h : csrOfNumber n = some c)
    (hw : csrValue s c = w) : exec (.csrRd n) s = .next (s.setResponse (some (okResponse w))) := by
  rw [exec_csrRd, h, ← hw]; rfl

theorem exec_csrRd_none {n : BitVec 16} (h : csrOfNumber n = none) (s : State) :
    exec (.csrRd n) s = .next (s.setResponse (some (errorResponse (plainError .illegalCsr)))) := by
  rw [exec_csrRd, h]; rfl

theorem exec_csrWr_none {n : BitVec 16} (h : csrOfNumber n = none) (v : Word64) (s : State) :
    exec (.csrWr n v) s = .next (s.setResponse (some (errorResponse (plainError .illegalCsr)))) := by
  rw [exec_csrWr, h]; rfl

theorem exec_csrWr_ok {n : BitVec 16} {c : Csr} {v : Word64} {s t : State} (h : csrOfNumber n = some c)
    (hw : csrWrite s v c = .ok 0#64 t) : exec (.csrWr n v) s = .next (t.setResponse (some (okResponse 0#64))) := by
  rw [exec_csrWr, h]; exact congrArg respond hw

theorem exec_csrWr_raise {n : BitVec 16} {c : Csr} {v : Word64} {s : State} {e : CmdError} (h : csrOfNumber n = some c)
    (hw : csrWrite s v c = .raise e s) : exec (.csrWr n v) s = .next (s.setResponse (some (errorResponse e))) := by
  rw [exec_csrWr, h]; exact congrArg respond hw

/-- The CSRs that CSR_WR does not write (10_state.md R38). -/
def readOnlyCsrs : List Csr :=
  [.id, .cfgBuf, .cfgMsg, .wpos, .outLen, .rpos, .crcKind, .crcAcc, .routeRx, .tagRx]

theorem csrWrite_readOnly {c : Csr} (h : c ∈ readOnlyCsrs) (s : State) (v : Word64) :
    csrWrite s v c = .raise (plainError .illegalCsrRo) s := by
  cases c with
  | rlen | msgNfields | msgTypeId | msgMaxb | routeTx => exact absurd h (by decide)
  | id | cfgBuf | cfgMsg | wpos | outLen | rpos | crcKind | crcAcc | routeRx | tagRx => rfl

/-! ### The words CSR_RD answers -/

/-- Two 32-bit fields side by side, as CFG_BUF and CFG_MSG read (10_state.md R23, R24). -/
theorem toNat_fields {lo hi : Nat} (hlo : lo < 2 ^ 32) (hhi : hi < 2 ^ 32) :
    (BitVec.ofNat 32 hi ++ BitVec.ofNat 32 lo).toNat = lo + 2 ^ 32 * hi := by
  rw [BitVec.toNat_append, BitVec.toNat_ofNat, BitVec.toNat_ofNat, Nat.mod_eq_of_lt hlo, Nat.mod_eq_of_lt hhi,
    ← Nat.shiftLeft_add_eq_or_of_lt hlo, Nat.shiftLeft_eq]
  omega

/-- The word CSR_RD answers for a CSR number, 0 for one outside the map. -/
def csrAnswer (s : State) (n : BitVec 16) : Word64 := (csrOfNumber n).elim 0#64 (csrValue s)

theorem csrAnswer_eq {n : BitVec 16} {c : Csr} (h : csrOfNumber n = some c) (s : State) :
    csrAnswer s n = csrValue s c := by
  rw [csrAnswer, h]; rfl

/-- A register, extended with zeros, is answered as the number it holds. -/
theorem toNat_csrAnswer {n : BitVec 16} {c : Csr} {s : State} {k : Nat} {x : BitVec k} (h : csrOfNumber n = some c)
    (hx : csrValue s c = x.setWidth 64) (hk : k ≤ 64) : (csrAnswer s n).toNat = x.toNat := by
  rw [csrAnswer_eq h, hx, BitVec.toNat_setWidth_of_le hk]

/-- Settles O38: the answer of each register is `csrValue` of the CSR that its number names. -/
theorem csrReadMap : Obligations.CsrReadMap := by
  intro s hv
  obtain ⟨⟨-, hib⟩, ⟨-, hob⟩, ⟨-, hmf⟩, -, hmb⟩ := hv
  refine ⟨rfl, csrAnswer s, fun n hn => ?_, rfl, toNat_fields (by omega) (by omega), toNat_fields (by omega) (by omega),
    toNat_csrAnswer (c := .wpos) rfl rfl (by decide), ?_, toNat_csrAnswer (c := .rlen) rfl rfl (by decide),
    toNat_csrAnswer (c := .rpos) rfl rfl (by decide), toNat_csrAnswer (c := .crcKind) rfl rfl (by decide),
    toNat_csrAnswer (c := .crcAcc) rfl rfl (by decide), toNat_csrAnswer (c := .msgNfields) rfl rfl (by decide),
    toNat_csrAnswer (c := .msgTypeId) rfl rfl (by decide), toNat_csrAnswer (c := .msgMaxb) rfl rfl (by decide),
    toNat_csrAnswer (c := .routeTx) rfl rfl (by decide), toNat_csrAnswer (c := .routeRx) rfl rfl (by decide),
    toNat_csrAnswer (c := .tagRx) rfl rfl (by decide)⟩
  · have hsome : (csrOfNumber n).isSome = true :=
      (List.all_eq_true (p := fun n => (csrOfNumber n).isSome)).1 (by decide) n hn
    obtain ⟨c, hc⟩ := Option.isSome_iff_exists.1 hsome
    exact exec_csrRd_some hc (csrAnswer_eq hc s).symm
  · have hlt := s.wpos.isLt
    rw [csrAnswer_eq (c := .outLen) rfl, csrValue, State.outLen, BitVec.toNat_ofNat, Nat.mod_eq_of_lt (by omega)]

/-- Settles O40: no number outside the map names a CSR, and the writes that answer an error leave the state. -/
theorem csrErrors : Obligations.CsrErrors := by
  intro s v
  refine ⟨fun n hn => ?_, fun n hn => ?_, fun hlen => ?_, fun hlen => ?_⟩
  · have hmem : csrOfNumber n ∈ readOnlyCsrs.map some := of_decide_eq_true <|
      (List.all_eq_true (p := fun n => decide (csrOfNumber n ∈ readOnlyCsrs.map some))).1 (by decide) n hn
    obtain ⟨c, hro, hc⟩ := List.mem_map.1 hmem
    exact exec_csrWr_raise hc.symm (csrWrite_readOnly hro s v)
  · exact ⟨exec_csrRd_none (csrOfNumber_none hn) s, exec_csrWr_none (csrOfNumber_none hn) v s⟩
  · exact exec_csrWr_raise (c := .rlen) rfl (if_pos hlen)
  · exact exec_csrWr_raise (c := .msgNfields) rfl (if_pos hlen)

/-! ### The fields CSR_WR keeps -/

/-- A word that fits a register is read back whole. -/
theorem setWidth_setWidth_of_lt {n : Nat} {v : Word64} (h : v.toNat < 2 ^ n) : (v.setWidth n).setWidth 64 = v := by
  apply BitVec.eq_of_toNat_eq
  rw [BitVec.toNat_setWidth, BitVec.toNat_setWidth, Nat.mod_eq_of_lt h, Nat.mod_eq_of_lt v.isLt]

/-- A register of `n` bits keeps the low `n` bits of a word. -/
theorem setWidth_setWidth_eq_and {n : Nat} (hn : n ≤ 64) (v : Word64) :
    (v.setWidth n).setWidth 64 = v &&& BitVec.ofNat 64 (2 ^ n - 1) := by
  apply BitVec.eq_of_toNat_eq
  have hpow : 2 ^ n ≤ 2 ^ 64 := Nat.pow_le_pow_right (by decide) hn
  have hpos : 0 < 2 ^ n := Nat.two_pow_pos n
  rw [BitVec.toNat_setWidth_of_le hn, BitVec.toNat_setWidth, BitVec.toNat_and, BitVec.toNat_ofNat,
    Nat.mod_eq_of_lt (a := 2 ^ n - 1) (by omega), Nat.and_two_pow_sub_one_eq_mod]

/-- A field of a register that was written from a word is that field of the word. -/
theorem field_setWidth {n start len : Nat} (h : start + len ≤ n) (v : Word64) :
    ((v.setWidth n).extractLsb' start len).toNat = v.toNat / 2 ^ start % 2 ^ len := by
  apply Nat.eq_of_testBit_eq
  intro j
  simp only [BitVec.extractLsb'_toNat, BitVec.toNat_setWidth, Nat.testBit_mod_two_pow, Nat.testBit_shiftRight,
    Nat.testBit_div_two_pow]
  by_cases hj : j < len
  · have hn : start + j < n := by omega
    simp [hj, hn, Nat.add_comm]
  · simp [hj]

/-- The bit above a register's fields that says whether they are valid. -/
theorem validBit_setWidth {n i : Nat} (h : i < n) (v : Word64) : (v.setWidth n).getLsbD i = v.getLsbD i := by
  simp [h]

/-- Settles O39: each register is the low bits of the word, and its fields are those of the word. -/
theorem csrWriteThenRead : Obligations.CsrWriteThenRead := by
  intro s v
  refine ⟨fun hlen hv => ?rlen, fun hlen hv => ?nfields, ?typeId, ?maxb, ?route⟩
  case rlen =>
    have hlt : v.toNat < 2 ^ 32 := hlen.trans_lt (hv.1.2.trans_lt (by decide))
    exact ⟨(s.setRlen (v.setWidth 32)).setRpos 0#32, rfl, (BitVec.toNat_setWidth _ _).trans (Nat.mod_eq_of_lt hlt),
      exec_csrWr_ok (c := .rlen) rfl (if_neg (Nat.not_lt.2 hlen)),
      exec_csrRd_some (c := .rlen) rfl (setWidth_setWidth_of_lt hlt)⟩
  case nfields =>
    have hlt : v.toNat < 2 ^ 32 := hlen.trans_lt (hv.2.2.1.2.trans_lt (by decide))
    exact ⟨s.setMsgNfields (v.setWidth 32), rfl, (BitVec.toNat_setWidth _ _).trans (Nat.mod_eq_of_lt hlt),
      exec_csrWr_ok (c := .msgNfields) rfl (if_neg (Nat.not_lt.2 hlen)),
      exec_csrRd_some (c := .msgNfields) rfl (setWidth_setWidth_of_lt hlt)⟩
  case typeId =>
    refine ⟨s.setMsgTypeId (v.setWidth 17), rfl, ?_, validBit_setWidth (by decide) v,
      exec_csrWr_ok (c := .msgTypeId) rfl rfl,
      exec_csrRd_some (c := .msgTypeId) rfl (setWidth_setWidth_eq_and (n := 17) (by decide) v)⟩
    exact (field_setWidth (n := 17) (by decide) v).trans (by rw [pow_zero, Nat.div_one])
  case maxb =>
    refine ⟨s.setMsgMaxb (v.setWidth 33), rfl, ?_, validBit_setWidth (by decide) v,
      exec_csrWr_ok (c := .msgMaxb) rfl rfl,
      exec_csrRd_some (c := .msgMaxb) rfl (setWidth_setWidth_eq_and (n := 33) (by decide) v)⟩
    exact (field_setWidth (n := 33) (by decide) v).trans (by rw [pow_zero, Nat.div_one])
  case route =>
    refine ⟨s.setRouteTx (v.setWidth 19), rfl, ?_, field_setWidth (by decide) v, field_setWidth (by decide) v,
      field_setWidth (by decide) v, exec_csrWr_ok (c := .routeTx) rfl rfl,
      exec_csrRd_some (c := .routeTx) rfl (setWidth_setWidth_eq_and (n := 19) (by decide) v)⟩
    exact (field_setWidth (n := 19) (by decide) v).trans (by norm_num)

end Sys2Proof.Machine

/-! The commands that only look (20_memory.md R69, with R126, R127, R156, R157, R175, R215): none of them updates the
state, and since no command reads the last response, the same one answers the same again. Settles O11. -/

namespace Sys2Proof.Machine

open Sys2Proof.Safety

theorem not_onlyLooks_of_appends {i : Instr} (h : Appends i) : ¬ OnlyLooks i := by
  cases i <;> simp_all [Appends, OnlyLooks]

theorem not_onlyLooks_of_consumes {i : Instr} (h : Consumes i) : ¬ OnlyLooks i := by
  cases i <;> simp_all [Consumes, OnlyLooks]

theorem not_onlyLooks_of_feedsCrc {i : Instr} (h : FeedsCrc i) : ¬ OnlyLooks i := by
  cases i <;> simp_all [FeedsCrc, OnlyLooks]

/-- Of all that commands can leave, a command that only looks leaves the state as it was. -/
theorem Leaves.eq_of_onlyLooks {s u : State} {i : Instr} (h : Leaves s i u) (hi : OnlyLooks i) : u = s := by
  cases h with
  | same => rfl
  | append happ => exact absurd hi (not_onlyLooks_of_appends happ)
  | consume hcons => exact absurd hi (not_onlyLooks_of_consumes hcons)
  | crcFeed hfeed => exact absurd hi (not_onlyLooks_of_feedsCrc hfeed)
  | clear | encode | rewind | peekError | peek | decode | crcInit | csrWr | ibWr | descWr | valWr | vbWr | reset =>
    exact hi.elim

theorem exec_onlyAnswers_of_onlyLooks {i : Instr} {s t : State} (hi : OnlyLooks i) (h : exec i s = .next t) :
    OnlyAnswers s t := by
  refine exec_keeps (P := OnlyAnswers s) h (fun u hu => ?_) fun u r hu => ?_
  · rw [hu.eq_of_onlyLooks hi]; rfl
  · rw [hu]; rfl

/-- A command run again on a state that differs by its answer alone answers the same. -/
theorem exec_again_of_onlyAnswers {i : Instr} {s t : State} (h : exec i s = .next t) (hans : OnlyAnswers s t) :
    exec i t = .next t :=
  calc exec i t = exec i (s.setResponse t.response) := congrArg (exec i) hans
    _ = exec i s := noCommandReadsLastResponse i s t.response
    _ = .next t := h

/-- Settles O11: a command that only looks only answers, and so finds the same state again. -/
theorem lookingCommandsChangeNothing : Obligations.LookingCommandsChangeNothing := by
  intro i s t hi h
  have hans : OnlyAnswers s t := exec_onlyAnswers_of_onlyLooks hi h
  exact ⟨hans, exec_again_of_onlyAnswers h hans⟩

end Sys2Proof.Machine

/-! The decoder and the encoder (30_encoding.md R91 to R101): what `decode` answers by its checks, that every row of the
opcode map inverts the encoder on both sides, and the tables that Safety.lean writes a second time from the spec.
Settles O1, O2, O3, O4, O5. -/

namespace Sys2Proof

open Sys2Proof.Machine Sys2Proof.Safety

/-! ### The opcode map -/

theorem mem_opTable_of_opRowOf {op : BitVec 8} {r : OpRow} (h : opRowOf op = some r) : r ∈ opTable ∧ r.op = op :=
  ⟨List.mem_of_find?_eq_some h, by simpa using List.find?_some h⟩

/-- The gaps of the opcode map are the ranges of R97. -/
theorem opRowOf_eq_none_iff (op : BitVec 8) : opRowOf op = none ↔ UnassignedOp op := by
  unfold opRowOf UnassignedOp
  simp only [List.find?_eq_none, opTable, writerRows, readerRows, crcRows, codecRows, hostRows, List.forall_mem_append,
    List.forall_mem_cons, List.not_mem_nil, false_imp_iff, implies_true, and_true, beq_iff_eq]
  bv_omega

theorem operand_iff_mem_opsWithOperand {op : BitVec 8} {r : OpRow} (h : opRowOf op = some r) :
    r.operand = true ↔ op ∈ opsWithOperand := by
  have table : ∀ r ∈ opTable, (r.operand = true ↔ r.op ∈ opsWithOperand) := by decide
  obtain ⟨hmem, rfl⟩ := mem_opTable_of_opRowOf h
  exact table r hmem

/-! ### The reserved bits -/

/-- The bits of `a` that a format reserves (R92). -/
def reservedA : Format → BitVec 8
  | .n | .b1 | .b2 | .b8 | .c => 0xFF#8
  | .a | .ab => 0#8

/-- The bits of `b` that a format reserves (R92). -/
def reservedB : Format → BitVec 16
  | .n | .a => 0xFFFF#16
  | .b1 => 0xFFFE#16
  | .b2 => 0xFFFC#16
  | .b8 => 0xFF00#16
  | .c | .ab => 0#16

/-- A format that reserves the bits of `b` from bit `n` on asks that the mask of those bits finds none set. -/
theorem extractLsb'_high_eq_zero_iff (n : Nat) (b : BitVec 16) :
    b.extractLsb' n (16 - n) = 0#(16 - n) ↔ b &&& (BitVec.allOnes 16 <<< n) = 0#16 := by
  simp only [BitVec.eq_of_getLsbD_eq_iff, BitVec.getLsbD_extractLsb', BitVec.getLsbD_and, BitVec.getLsbD_shiftLeft,
    BitVec.getLsbD_allOnes, BitVec.getLsbD_zero]
  constructor
  · intro h i hi
    by_cases hn : n ≤ i
    · have hbit := h (i - n) (by omega)
      rw [Nat.add_sub_cancel' hn, decide_eq_true (show i - n < 16 - n by omega), Bool.true_and] at hbit
      rw [hbit, Bool.false_and]
    · rw [decide_eq_true (Nat.lt_of_not_le hn), Bool.not_true, Bool.and_false, Bool.false_and, Bool.and_false]
  · intro h i hi
    have hbit := h (n + i) (by omega)
    rw [Nat.add_sub_cancel_left, decide_eq_true (show n + i < 16 by omega), decide_eq_true (show i < 16 by omega),
      decide_eq_false (show ¬ n + i < n by omega), Bool.not_false, Bool.and_true, Bool.and_true, Bool.and_true] at hbit
    rw [hbit, Bool.and_false]

/-- A field whose high bits are 0 is made of its low bits. -/
theorem setWidth_extractLsb'_low {n : Nat} {b : BitVec 16} (h : b.extractLsb' n (16 - n) = 0#(16 - n)) :
    (b.extractLsb' 0 n).setWidth 16 = b := by
  apply BitVec.eq_of_getLsbD_eq
  intro i hi
  by_cases hn : i < n
  · simp [hi, hn]
  · have hbit := congrArg (fun x => x.getLsbD (i - n)) h
    simp only [BitVec.getLsbD_extractLsb', BitVec.getLsbD_zero, Nat.add_sub_cancel' (Nat.le_of_not_lt hn)] at hbit
    simpa [hi, hn, show i - n < 16 - n by omega] using hbit

theorem reservedClear_iff (f : Format) (a : BitVec 8) (b : BitVec 16) :
    reservedClear f a b = true ↔ a &&& reservedA f = 0#8 ∧ b &&& reservedB f = 0#16 := by
  have ha : a &&& 0xFF#8 = a := BitVec.and_allOnes
  have hb : b &&& 0xFFFF#16 = b := BitVec.and_allOnes
  cases f with
  | n => simp [reservedClear, reservedA, reservedB, ha, hb]
  | a => simp [reservedClear, reservedA, reservedB, hb]
  | c => simp [reservedClear, reservedA, reservedB, ha]
  | ab => simp [reservedClear, reservedA, reservedB]
  | b1 => simpa [reservedClear, reservedA, reservedB, ha] using fun _ => extractLsb'_high_eq_zero_iff 1 b
  | b2 => simpa [reservedClear, reservedA, reservedB, ha] using fun _ => extractLsb'_high_eq_zero_iff 2 b
  | b8 => simpa [reservedClear, reservedA, reservedB, ha] using fun _ => extractLsb'_high_eq_zero_iff 8 b

theorem mkHeader_and (op op' a a' : BitVec 8) (b b' : BitVec 16) :
    mkHeader op a b &&& mkHeader op' a' b' = mkHeader (op &&& op') (a &&& a') (b &&& b') := by
  simp only [mkHeader, ← BitVec.and_append]

theorem mkHeader_inj {op op' a a' : BitVec 8} {b b' : BitVec 16} :
    mkHeader op a b = mkHeader op' a' b' ↔ op = op' ∧ a = a' ∧ b = b' := by
  refine ⟨fun h => ⟨?_, ?_, ?_⟩, fun ⟨hop, ha, hb⟩ => by rw [hop, ha, hb]⟩
  · simpa using congrArg headerOp h
  · simpa using congrArg headerA h
  · simpa using congrArg headerB h

/-- The mask of R92 for an opcode holds the bits that the format of its row reserves. -/
theorem headerMask_of_opRowOf {op : BitVec 8} {r : OpRow} (h : opRowOf op = some r) :
    headerMask op &&& 0x00FFFFFF#32 = mkHeader 0#8 (reservedA r.format) (reservedB r.format) := by
  have table : ∀ r ∈ opTable,
      headerMask r.op &&& 0x00FFFFFF#32 = mkHeader 0#8 (reservedA r.format) (reservedB r.format) := by decide
  obtain ⟨hmem, rfl⟩ := mem_opTable_of_opRowOf h
  exact table r hmem

theorem reservedClear_iff_not_reservedBitSet {h : Word32} {r : OpRow} (hr : opRowOf (headerOp h) = some r) :
    reservedClear r.format (headerA h) (headerB h) = true ↔ ¬ ReservedBitSet h := by
  have hmask : h &&& headerMask (headerOp h) &&& 0x00FFFFFF#32 =
      mkHeader 0#8 (headerA h &&& reservedA r.format) (headerB h &&& reservedB r.format) :=
    calc h &&& headerMask (headerOp h) &&& 0x00FFFFFF#32
      _ = h &&& mkHeader 0#8 (reservedA r.format) (reservedB r.format) := by
        rw [BitVec.and_assoc, headerMask_of_opRowOf hr]
      _ = mkHeader (headerOp h) (headerA h) (headerB h) &&&
            mkHeader 0#8 (reservedA r.format) (reservedB r.format) := by rw [mkHeader_fields]
      _ = _ := by rw [mkHeader_and, BitVec.and_zero]
  rw [reservedClear_iff, ReservedBitSet, not_not, hmask, show 0#32 = mkHeader 0#8 0#8 0#16 from rfl, mkHeader_inj]
  simp

/-! ### What the decoder answers -/

theorem decode_unassigned {c : Command} (h : opRowOf (headerOp c.header) = none) : decode c = .error .opcode := by
  rw [decode, h]

theorem decode_row {c : Command} {r : OpRow} (h : opRowOf (headerOp c.header) = some r) :
    decode c =
      if c.operand.isSome = r.operand then
        if reservedClear r.format (headerA c.header) (headerB c.header) = true then
          .ok (r.build (headerA c.header) (headerB c.header) (c.operand.getD 0#64))
        else .error .reserved
      else .error .operand := by
  rw [decode, h]
  by_cases hop : c.operand.isSome = r.operand <;>
    cases hres : reservedClear r.format (headerA c.header) (headerB c.header) <;> simp [hop, hres]

/-- What a command must be to decode, and what it then decodes to. -/
theorem decode_eq_ok_iff {c : Command} {i : Instr} :
    decode c = .ok i ↔ ∃ r, opRowOf (headerOp c.header) = some r ∧ c.operand.isSome = r.operand ∧
      reservedClear r.format (headerA c.header) (headerB c.header) = true ∧
      r.build (headerA c.header) (headerB c.header) (c.operand.getD 0#64) = i := by
  cases hr : opRowOf (headerOp c.header) with
  | none => simp [decode_unassigned hr]
  | some r => rw [decode_row hr]; split_ifs <;> simp_all

/-! ### Decoding what was encoded -/

theorem decode_cmdShort {op a : BitVec 8} {b : BitVec 16} {r : OpRow} {i : Instr} (hr : opRowOf op = some r)
    (hop : r.operand = false) (hres : reservedClear r.format a b = true) (hi : r.build a b 0#64 = i) :
    decode (cmdShort op a b) = .ok i :=
  decode_eq_ok_iff.2 ⟨r, by simpa [cmdShort] using hr, hop.symm, by simpa [cmdShort] using hres,
    by simpa [cmdShort] using hi⟩

theorem decode_cmdLong {op a : BitVec 8} {b : BitVec 16} {w : Word64} {r : OpRow} {i : Instr}
    (hr : opRowOf op = some r) (hop : r.operand = true) (hres : reservedClear r.format a b = true)
    (hi : r.build a b w = i) : decode (cmdLong op a b w) = .ok i :=
  decode_eq_ok_iff.2 ⟨r, by simpa [cmdLong] using hr, hop.symm, by simpa [cmdLong] using hres,
    by simpa [cmdLong] using hi⟩

theorem reservedClear_b1_setWidth (x : BitVec 1) : reservedClear .b1 0#8 (x.setWidth 16) = true := by
  simpa [reservedClear] using extractLsb'_setWidth_high x

theorem reservedClear_b2_setWidth (x : BitVec 2) : reservedClear .b2 0#8 (x.setWidth 16) = true := by
  simpa [reservedClear] using extractLsb'_setWidth_high x

theorem reservedClear_b8_setWidth (x : Byte) : reservedClear .b8 0#8 (x.setWidth 16) = true := by
  simpa [reservedClear] using extractLsb'_setWidth_high x

/-- Settles O2: the words of each instruction select its row, and what the row makes of their fields is the
instruction. -/
theorem encodeThenDecodeReturnsInstr : Obligations.EncodeThenDecodeReturnsInstr := by
  intro i
  cases i with
  | nop | wClear | wFinish | wPos | rRewind | rBool | rUint | rInt | rByte | rPos | crcRead | crcObuf | peekTag | width
  | csrRd | descRd | valRd | vbRd | reset => exact decode_cmdShort rfl rfl rfl rfl
  | wUint | wInt | crcCheck | crcIbuf | csrWr | descWr | valWr | vbWr => exact decode_cmdLong rfl rfl rfl rfl
  | wBool bit =>
    exact decode_cmdShort rfl rfl (reservedClear_b1_setWidth bit)
      (congrArg Instr.wBool (extractLsb'_setWidth_low (by decide) bit))
  | crcInit kind =>
    exact decode_cmdShort rfl rfl (reservedClear_b1_setWidth kind)
      (congrArg Instr.crcInit (extractLsb'_setWidth_low (by decide) kind))
  | wByte byte =>
    exact decode_cmdShort rfl rfl (reservedClear_b8_setWidth byte)
      (congrArg Instr.wByte (extractLsb'_setWidth_low (by decide) byte))
  | crcByte byte =>
    exact decode_cmdShort rfl rfl (reservedClear_b8_setWidth byte)
      (congrArg Instr.crcByte (extractLsb'_setWidth_low (by decide) byte))
  | encodeMsg mode =>
    exact decode_cmdShort rfl rfl (reservedClear_b2_setWidth mode)
      (congrArg Instr.encodeMsg (extractLsb'_setWidth_low (by decide) mode))
  | decodeMsg mode =>
    exact decode_cmdShort rfl rfl (reservedClear_b2_setWidth mode)
      (congrArg Instr.decodeMsg (extractLsb'_setWidth_low (by decide) mode))
  | ibWr addr v => exact decode_cmdLong rfl rfl rfl (congrArg (Instr.ibWr · v) (append_extract_addr addr))
  | ibRd addr => exact decode_cmdShort rfl rfl rfl (congrArg Instr.ibRd (append_extract_addr addr))
  | obRd addr => exact decode_cmdShort rfl rfl rfl (congrArg Instr.obRd (append_extract_addr addr))

/-! ### Encoding what was decoded -/

/-- The field `a` of a header with the bits cleared that a format reserves. -/
def keptA (f : Format) (a : BitVec 8) : BitVec 8 :=
  match f with
  | .n | .b1 | .b2 | .b8 | .c => 0#8
  | .a | .ab => a

/-- The field `b` of a header with the bits cleared that a format reserves. -/
def keptB (f : Format) (b : BitVec 16) : BitVec 16 :=
  match f with
  | .n | .a => 0#16
  | .b1 => (b.extractLsb' 0 1).setWidth 16
  | .b2 => (b.extractLsb' 0 2).setWidth 16
  | .b8 => (b.extractLsb' 0 8).setWidth 16
  | .c | .ab => b

/-- Clearing reserved bits that are clear changes nothing. -/
theorem kept_of_reservedClear {f : Format} {a : BitVec 8} {b : BitVec 16} (h : reservedClear f a b = true) :
    keptA f a = a ∧ keptB f b = b := by
  cases f with
  | n | a | c | ab => simp_all [reservedClear, keptA, keptB]
  | b1 | b2 | b8 =>
    obtain ⟨ha, hb⟩ : a = 0#8 ∧ _ := by simpa only [reservedClear, Bool.and_eq_true, beq_iff_eq] using h
    exact ⟨ha.symm, setWidth_extractLsb'_low hb⟩

/-- Encoding what a row makes of header fields and an operand word gives them back, but for the reserved bits. -/
def EncodesFields (r : OpRow) : Prop :=
  ∀ a b w, encode (r.build a b w) =
    ⟨mkHeader r.op (keptA r.format a) (keptB r.format b), if r.operand = true then some w else none⟩

theorem extractLsb'_append_high (a : BitVec 8) (b : BitVec 16) : (a ++ b).extractLsb' 16 8 = a := by
  apply BitVec.eq_of_getLsbD_eq
  intro i hi
  simp only [BitVec.getLsbD_extractLsb', BitVec.getLsbD_append]
  simp [hi]

theorem extractLsb'_append_low (a : BitVec 8) (b : BitVec 16) : (a ++ b).extractLsb' 0 16 = b := by
  apply BitVec.eq_of_getLsbD_eq
  intro i hi
  simp only [BitVec.getLsbD_extractLsb', BitVec.getLsbD_append]
  simp [hi]

theorem encode_ibWr_append (a : BitVec 8) (b : BitVec 16) (v : Word64) :
    encode (.ibWr (a ++ b) v) = cmdLong 0x22#8 a b v := by
  rw [encode, extractLsb'_append_high, extractLsb'_append_low]

theorem encode_ibRd_append (a : BitVec 8) (b : BitVec 16) : encode (.ibRd (a ++ b)) = cmdShort 0x23#8 a b := by
  rw [encode, extractLsb'_append_high, extractLsb'_append_low]

theorem encode_obRd_append (a : BitVec 8) (b : BitVec 16) : encode (.obRd (a ++ b)) = cmdShort 0x24#8 a b := by
  rw [encode, extractLsb'_append_high, extractLsb'_append_low]

theorem encodesFields_writerRows : ∀ r ∈ writerRows, EncodesFields r := by
  simp only [writerRows, List.forall_mem_cons, List.not_mem_nil, false_imp_iff, implies_true, and_true]
  and_intros <;> exact fun _ _ _ => rfl

theorem encodesFields_readerRows : ∀ r ∈ readerRows, EncodesFields r := by
  simp only [readerRows, List.forall_mem_cons, List.not_mem_nil, false_imp_iff, implies_true, and_true]
  and_intros <;> exact fun _ _ _ => rfl

theorem encodesFields_crcRows : ∀ r ∈ crcRows, EncodesFields r := by
  simp only [crcRows, List.forall_mem_cons, List.not_mem_nil, false_imp_iff, implies_true, and_true]
  and_intros <;> exact fun _ _ _ => rfl

theorem encodesFields_codecRows : ∀ r ∈ codecRows, EncodesFields r := by
  simp only [codecRows, List.forall_mem_cons, List.not_mem_nil, false_imp_iff, implies_true, and_true]
  and_intros <;> exact fun _ _ _ => rfl

/-- The three rows with an address split it into the header fields again. -/
theorem encodesFields_hostRows : ∀ r ∈ hostRows, EncodesFields r := by
  simp only [hostRows, List.forall_mem_cons, List.not_mem_nil, false_imp_iff, implies_true, and_true]
  exact ⟨fun _ _ _ => rfl, fun _ _ _ => rfl, encode_ibWr_append, fun a b _ => encode_ibRd_append a b,
    fun a b _ => encode_obRd_append a b, fun _ _ _ => rfl, fun _ _ _ => rfl, fun _ _ _ => rfl, fun _ _ _ => rfl,
    fun _ _ _ => rfl, fun _ _ _ => rfl, fun _ _ _ => rfl⟩

theorem encodesFields_opTable : ∀ r ∈ opTable, EncodesFields r := by
  simp only [opTable, List.forall_mem_append]
  exact ⟨⟨⟨⟨encodesFields_writerRows, encodesFields_readerRows⟩, encodesFields_crcRows⟩, encodesFields_codecRows⟩,
    encodesFields_hostRows⟩

/-- Settles O3: the row that was selected encodes the fields it was given, and the decoder has found their reserved bits
clear. -/
theorem decodedCommandIsItsEncoding : Obligations.DecodedCommandIsItsEncoding := by
  intro c i h
  obtain ⟨r, hr, hop, hres, rfl⟩ := decode_eq_ok_iff.1 h
  obtain ⟨hmem, hrop⟩ := mem_opTable_of_opRowOf hr
  obtain ⟨ha, hb⟩ := kept_of_reservedClear hres
  rw [encodesFields_opTable r hmem, ha, hb, hrop, mkHeader_fields, ← hop]
  obtain ⟨h, _ | w⟩ := c <;> rfl

/-! ### The tables of the spec -/

/-- A header word as the rules write it out: each field shifted to its place. -/
theorem mkHeader_eq_or (op a : BitVec 8) (b : BitVec 16) :
    mkHeader op a b = op.setWidth 32 <<< 24 ||| a.setWidth 32 <<< 16 ||| b.setWidth 32 := by
  exact (BitVec.setWidth_eq _).symm.trans BitVec.setWidth_append_append_eq_shiftLeft_setWidth_or

/-- Without a field `a`, a header word is its opcode and `b`. -/
theorem mkHeader_b (op : BitVec 8) (b : BitVec 16) : mkHeader op 0#8 b = op.setWidth 32 <<< 24 ||| b.setWidth 32 := by
  rw [mkHeader_eq_or]; simp

theorem mkHeader_a (op a : BitVec 8) : mkHeader op a 0#16 = op.setWidth 32 <<< 24 ||| a.setWidth 32 <<< 16 := by
  rw [mkHeader_eq_or]; simp

/-- An address stands in a header word as a whole (30_encoding.md R93). -/
theorem mkHeader_addr (op : BitVec 8) (addr : BitVec 24) :
    mkHeader op (addr.extractLsb' 16 8) (addr.extractLsb' 0 16) = op.setWidth 32 <<< 24 ||| addr.setWidth 32 := by
  rw [mkHeader_eq_or, BitVec.or_assoc]
  conv_rhs => rw [← append_extract_addr addr, BitVec.setWidth_append_eq_shiftLeft_setWidth_or]

/-- Settles O4, by the fields that each instruction's header carries. -/
theorem encoderWritesSpecHeaders : Obligations.EncoderWritesSpecHeaders := by
  intro i
  refine ⟨?_, by cases i <;> rfl⟩
  cases i with
  | nop | wClear | wFinish | wPos | rRewind | rBool | rByte | rPos | crcRead | crcCheck | crcObuf | crcIbuf | peekTag
  | reset => rfl
  | wUint n | wInt n | rUint n | rInt n | width n | valWr n | valRd n => exact mkHeader_a _ n
  | csrRd b | csrWr b => exact mkHeader_b _ b
  | descWr a b | descRd a b | vbWr a b | vbRd a b => exact mkHeader_eq_or _ a b
  | ibWr addr | ibRd addr | obRd addr => exact mkHeader_addr _ addr
  | wBool x | wByte x | crcInit x | crcByte x | encodeMsg x | decodeMsg x =>
    exact (mkHeader_b _ _).trans (by rw [BitVec.setWidth_setWidth (by decide)]; rfl)

/-- Settles O1, by evaluating the decoder on each word. -/
theorem specWordsDecode : Obligations.SpecWordsDecode :=
  ⟨rfl, rfl, rfl, rfl, rfl, rfl, rfl, rfl, rfl, rfl, rfl, rfl, rfl, rfl⟩

/-! ### The decode checks in a step -/

theorem step_of_reject {s : State} {c : Command} {rest : List PortInput} {r : Reject}
    (hport : s.port = .command c :: rest) (h : decode c = .error r) :
    step s = .next ((s.setPort rest).setResponse (some (errorResponse (plainError (rejectCause r))))) := by
  rw [step_command hport, runCommand_error _ h]; rfl

theorem step_of_decode {s : State} {c : Command} {rest : List PortInput} {i : Instr}
    (hport : s.port = .command c :: rest) (h : decode c = .ok i) : step s = exec i (s.setPort rest) :=
  stepRunsDecodedInstruction.1 s c rest i hport h

/-- The selector check of R100 is the first step of ENCODE and DECODE (log entry 7). -/
theorem exec_mode_zero {i : Instr} (hi : i = .encodeMsg 0#2 ∨ i = .decodeMsg 0#2) (s : State) :
    exec i s = .next (s.setResponse (some (errorResponse (plainError .illegalSelector)))) := by
  obtain rfl | rfl := hi <;> rfl

/-- The instructions that are no legal encodings are ENCODE 0 and DECODE 0 (R100). -/
theorem wellFormed_eq_false_iff {i : Instr} :
    i.wellFormed = false ↔ i = .encodeMsg 0#2 ∨ i = .decodeMsg 0#2 := by
  cases i <;> simp [Instr.wellFormed]

/-- Of the commands that decode, those two have the header words 0x18000000 and 0x19000000. -/
theorem wellFormed_eq_false_iff_header {c : Command} {i : Instr} (h : decode c = .ok i) :
    i.wellFormed = false ↔ c.header = 0x18000000#32 ∨ c.header = 0x19000000#32 := by
  rw [wellFormed_eq_false_iff]
  constructor
  · intro hi
    rw [← decodedCommandIsItsEncoding c i h]
    obtain rfl | rfl := hi
    · exact .inl rfl
    · exact .inr rfl
  · obtain ⟨r, hr, -, -, rfl⟩ := decode_eq_ok_iff.1 h
    rintro (hh | hh) <;> rw [hh] at hr ⊢ <;> cases hr
    · exact .inl rfl
    · exact .inr rfl

/-- Settles O5: the row of the opcode gives the operand word it takes (R99) and the bits it reserves (R98), and of what
passes those checks ENCODE 0 and DECODE 0 are left (R100). -/
theorem decodeChecksAnswerInOrder : Obligations.DecodeChecksAnswerInOrder := by
  intro s c rest hport
  refine ⟨fun hun => ?_, fun hun => ?_⟩
  · exact step_of_reject (r := .opcode) hport (decode_unassigned ((opRowOf_eq_none_iff _).2 hun))
  obtain ⟨r, hr⟩ := Option.ne_none_iff_exists'.1 (mt (opRowOf_eq_none_iff _).1 hun)
  have hops := operand_iff_mem_opsWithOperand hr
  refine ⟨fun hwrong => ?operand, fun hright => ⟨fun hset => ?reserved, fun hclear => ?passed⟩⟩
  case operand =>
    have hop : c.operand.isSome ≠ r.operand := by
      obtain ⟨hsome, hno⟩ | ⟨hnone, hyes⟩ := hwrong
      · rw [hsome]; exact fun heq => hno (hops.1 heq.symm)
      · rw [hnone, hops.2 hyes]; decide
    exact step_of_reject (r := .operand) hport (by rw [decode_row hr, if_neg hop])
  all_goals have hop : c.operand.isSome = r.operand := Bool.eq_iff_iff.2 (hright.trans hops.symm)
  case reserved =>
    have hres := mt (reservedClear_iff_not_reservedBitSet hr).1 (not_not.2 hset)
    exact step_of_reject (r := .reserved) hport (by rw [decode_row hr, if_pos hop, if_neg hres])
  case passed =>
    obtain ⟨i, hi⟩ : ∃ i, decode c = .ok i :=
      ⟨_, decode_eq_ok_iff.2 ⟨r, hr, hop, (reservedClear_iff_not_reservedBitSet hr).2 hclear, rfl⟩⟩
    have hselector := wellFormed_eq_false_iff_header hi
    refine ⟨fun hzero => ?_, fun ⟨henc, hdec⟩ => ⟨i, hi, ?_, step_of_decode hport hi⟩⟩
    · rw [step_of_decode hport hi]
      exact exec_mode_zero (wellFormed_eq_false_iff.1 (hselector.2 hzero)) _
    · exact Bool.eq_true_of_not_eq_false fun hbad => (hselector.1 hbad).elim henc hdec

end Sys2Proof

/-! The responses of commands (30_encoding.md R90, R96, 60_exceptions.md R300 to R303): the stages at which each cause
is raised, that every step of every command raises only those, and the fields of the status word. Settles O8. -/

namespace Sys2Proof.Machine

open Sys2Proof.Safety

/-! ### The errors that R303 lists -/

/-- The stages of R302 at which the rules raise each cause of R303; none for DECODE(ROUTE_RANGE) (45_codec.md R255). -/
def causeStages : Cause → List Stage
  | .rangeWidth | .rangeValue | .rangeAddr | .rangeLen | .rangeSpan | .rangeByte | .truncInsufficient => [.none]
  | .schemaKind | .schemaBounds | .schemaPrecision | .schemaWidth | .schemaCardinality | .schemaLength => [.schemaCheck]
  | .encValueRange | .encType | .encLength | .encUtf8 => [.field]
  | .encNoTypeId | .encTypeIdRange => [.tag]
  | .encMaxSize => [.size]
  | .decTruncated => [.route, .tag, .field]
  | .decIntRange | .decFloatRange | .decUtf8 => [.field]
  | .decEnumOrdinal => [.reconstruct]
  | .decTypeIdMismatch | .decEmptyInput => [.tag]
  | .decRouteRange => []
  | .framingCrcMismatch => [.none]
  | .capacityObufFull => [.none, .route, .tag, .field]
  | .illegalOpcode | .illegalReserved | .illegalOperand | .illegalSelector | .illegalCsr | .illegalCsrRo => [.none]

/-- The table is the one of R303. -/
theorem producedError_of_mem {c : Cause} {st : Stage} (h : st ∈ causeStages c) :
    ProducedError (causeClass c) (causeDetail c) (stageCode st) := by
  have table : ∀ st ∈ causeStages c, ProducedError (causeClass c) (causeDetail c) (stageCode st) := by
    unfold ProducedError
    cases c <;> decide
  exact table st h

/-- FIELD names a descriptor slot, one of `slots` or of the message's `fields`, in SCHEMA_CHECK; one of the message's
fields in FIELD and RECONSTRUCT; and nothing in the other stages (R302). -/
def FieldNamed (slots fields f : Nat) : Stage → Prop
  | .schemaCheck => f < slots ∨ f < fields
  | .field | .reconstruct => f < fields
  | .none | .route | .tag | .size => f = 0

/-- An error that a rule raises, on a block of so many slots with a message of so many fields. -/
def Listed (slots fields : Nat) (e : CmdError) : Prop :=
  e.stage ∈ causeStages e.cause ∧ FieldNamed slots fields e.field e.stage

section
variable {slots fields f : Nat} {st : Stage}

theorem FieldNamed.eq_zero (h : FieldNamed slots fields f st) (hst : stageCode st ∉ stagesWithField) : f = 0 := by
  cases st with
  | none | route | tag | size => exact h
  | schemaCheck | field | reconstruct => exact absurd (by decide) hst

theorem FieldNamed.lt_of_schemaCheck (h : FieldNamed slots fields f st) (hst : stageCode st = 1) :
    f < slots ∨ f < fields := by
  cases st with
  | schemaCheck => exact h
  | none | route | tag | field | reconstruct | size => exact absurd hst (by decide)

theorem FieldNamed.lt_of_field (h : FieldNamed slots fields f st) (hst : stageCode st ∈ [4, 5]) : f < fields := by
  cases st with
  | field | reconstruct => exact h
  | none | schemaCheck | route | tag | size => exact absurd hst (by decide)

end

/-! ### Steps and the errors they raise -/

/-- Whatever error a step raises is one of `P`. -/
def RaisesOnly {α : Type} (P : CmdError → Prop) (x : Eff α) : Prop := ∀ e t, x = .raise e t → P e

section
variable {α β : Type} {P : CmdError → Prop}

theorem RaisesOnly.ok (a : α) (t : State) : RaisesOnly P (.ok a t) := fun _ _ h => nomatch h

theorem RaisesOnly.raise {e : CmdError} (he : P e) (t : State) : RaisesOnly P (.raise e t : Eff α) := by
  rintro _ _ ⟨⟩; exact he

/-- Two steps, where the second runs on what the first has come to. -/
theorem RaisesOnly.bind_of_ok {x : Eff α} {f : α → State → Eff β} (hx : RaisesOnly P x)
    (hf : ∀ a t, x = .ok a t → RaisesOnly P (f a t)) : RaisesOnly P (x.bind f) := by
  cases x with
  | ok a t => exact hf a t rfl
  | raise e t => exact .raise (hx e t rfl) t

theorem RaisesOnly.bind {x : Eff α} {f : α → State → Eff β} (hx : RaisesOnly P x)
    (hf : ∀ a t, RaisesOnly P (f a t)) : RaisesOnly P (x.bind f) :=
  hx.bind_of_ok fun a t _ => hf a t

theorem RaisesOnly.ite {c : Prop} [Decidable c] {x y : Eff α} (hx : c → RaisesOnly P x) (hy : ¬ c → RaisesOnly P y) :
    RaisesOnly P (if c then x else y) := by
  split
  case isTrue hc => exact hx hc
  case isFalse hc => exact hy hc

/-- A check, and the step it guards. -/
theorem RaisesOnly.check {c : Prop} [Decidable c] {e : CmdError} {t : State} {x : Eff α} (he : P e)
    (hx : ¬ c → RaisesOnly P x) : RaisesOnly P (if c then .raise e t else x) :=
  .ite (fun _ => .raise he t) hx

theorem raisesOnly_putBits {v n : Nat} {stage : Stage} {field : Nat} {t : State}
    (he : P ⟨.capacityObufFull, stage, field⟩) : RaisesOnly P (putBits v n stage field t) :=
  .check he fun _ => .ok _ _

theorem raisesOnly_getBits {n : Nat} {e : CmdError} {t : State} (he : P e) : RaisesOnly P (getBits n e t) :=
  .check he fun _ => .ok _ _

end

section
variable {slots fields : Nat}

theorem listed_plain {c : Cause} (hc : Stage.none ∈ causeStages c) : Listed slots fields (plainError c) := ⟨hc, rfl⟩

theorem listed_field {c : Cause} {i : Nat} (hc : Stage.field ∈ causeStages c) (hi : i < fields) :
    Listed slots fields ⟨c, .field, i⟩ := ⟨hc, hi⟩

theorem listed_route {c : Cause} (hc : Stage.route ∈ causeStages c) : Listed slots fields ⟨c, .route, 0⟩ := ⟨hc, rfl⟩

theorem listed_tag {c : Cause} (hc : Stage.tag ∈ causeStages c) : Listed slots fields ⟨c, .tag, 0⟩ := ⟨hc, rfl⟩

/-! ### Descriptors -/

theorem schemaCheck_mem_of_parseFloat {p : Nat} {fmin fmax : F64} {c : Cause} (h : parseFloat p fmin fmax = .error c) :
    Stage.schemaCheck ∈ causeStages c := by
  unfold parseFloat at h
  split_ifs at h
  · cases h; decide
  · cases h; decide
  · cases h; decide
  · split at h
    · cases h; decide
    · split_ifs at h
      cases h; decide

theorem schemaCheck_mem_of_parseField {b : Nat} {w0 w1 w2 : Word64} {c : Cause}
    (h : parseField b w0 w1 w2 = .error c) : Stage.schemaCheck ∈ causeStages c := by
  unfold parseField at h
  split at h
  case h_1 => cases h
  case h_3 => exact schemaCheck_mem_of_parseFloat h
  case h_7 => cases h; decide
  all_goals split_ifs at h; cases h; decide

theorem listed_of_validateField {s : State} {i : Nat} {e : CmdError} (h : validateField s i = .error e)
    (hi : i < slots ∨ i < fields) : Listed slots fields e := by
  unfold validateField at h
  split at h
  · cases h
  · next hc => cases h; exact ⟨schemaCheck_mem_of_parseField hc, hi⟩

/-- An error in the check of several slots is that of one of them. -/
theorem exists_of_validateFrom_error {s : State} {i count : Nat} {e : CmdError}
    (h : validateFrom s i count = .error e) :
    ∃ j < i + count, validateField s j = .error e := by
  induction count generalizing i with
  | zero => cases h
  | succ count ih =>
    rw [validateFrom] at h
    split at h
    · next he => cases h; exact ⟨i, by omega, he⟩
    · split at h
      · next he =>
        cases h
        obtain ⟨j, hj, hje⟩ := ih he
        exact ⟨j, by omega, hje⟩
      · cases h

theorem listed_of_validateFrom {s : State} {e : CmdError} (h : validateFrom s 0 fields = .error e) :
    Listed slots fields e := by
  obtain ⟨j, hj, he⟩ := exists_of_validateFrom_error h
  exact listed_of_validateField he (.inr (hj.trans_eq (Nat.zero_add fields)))

/-! ### ENCODE -/

theorem raisesOnly_putVbBytes {i : Nat} (hi : i < fields) (j count : Nat) (t : State) :
    RaisesOnly (Listed slots fields) (putVbBytes i j count t) := by
  induction count generalizing j t with
  | zero => exact .ok _ _
  | succ count ih => exact (raisesOnly_putBits (listed_field (by decide) hi)).bind fun _ u => ih (j + 1) u

theorem raisesOnly_encField {i : Nat} (hi : i < fields) (k : FieldKind) (t : State) :
    RaisesOnly (Listed slots fields) (encField k i t) := by
  have put : ∀ v n, RaisesOnly (Listed slots fields) (putBits v n .field i t) :=
    fun v n => raisesOnly_putBits (listed_field (by decide) hi)
  cases k with
  | bool => exact .check (listed_field (by decide) hi) fun _ => put _ _
  | int min max => exact .check (listed_field (by decide) hi) fun _ => put _ _
  | float fmin fmax p m =>
    refine .check (listed_field (by decide) hi) fun _ => ?_
    cases scaledInt fmin (f64 (t.valAt i)) p with
    | none => exact .raise (listed_field (by decide) hi) t
    | some v => exact put v _
  | enum n => exact .check (listed_field (by decide) hi) fun _ => put _ _
  | bytes len => exact .check (listed_field (by decide) hi) fun _ => raisesOnly_putVbBytes hi 0 len t
  | str len =>
    exact .check (listed_field (by decide) hi) fun _ => .check (listed_field (by decide) hi) fun _ =>
      raisesOnly_putVbBytes hi 0 len t

theorem raisesOnly_encFields {ks : List FieldKind} {i : Nat} (hi : i + ks.length ≤ fields) (t : State) :
    RaisesOnly (Listed slots fields) (encFields ks i t) := by
  induction ks generalizing i t with
  | nil => exact .ok _ _
  | cons k ks ih =>
    rw [List.length_cons] at hi
    exact (raisesOnly_encField (by omega) k t).bind fun _ u => ih (by omega) u

theorem raisesOnly_encRoute (t : State) : RaisesOnly (Listed slots fields) (encRoute t) :=
  have put : ∀ v n u, RaisesOnly (Listed slots fields) (putBits v n .route 0 u) :=
    fun _ _ _ => raisesOnly_putBits (listed_route (by decide))
  (put _ _ _).bind fun _ _ => (put _ _ _).bind fun _ _ => (put _ _ _).bind fun _ _ => put _ _ _

theorem raisesOnly_encTag (t : State) : RaisesOnly (Listed slots fields) (encTag t) :=
  have put : ∀ v n u, RaisesOnly (Listed slots fields) (putBits v n .tag 0 u) :=
    fun _ _ _ => raisesOnly_putBits (listed_tag (by decide))
  .check (listed_tag (by decide)) fun _ => .ite (fun _ => (put _ _ _).bind fun _ _ => put _ _ _) fun _ =>
    .ite (fun _ => (put _ _ _).bind fun _ _ => put _ _ _) fun _ => .raise (listed_tag (by decide)) t

theorem raisesOnly_encMessage {kinds : List FieldKind} (hl : kinds.length ≤ fields) (mode : Nat) (t : State) :
    RaisesOnly (Listed slots fields) (encMessage mode kinds t) :=
  (RaisesOnly.ite (fun _ => raisesOnly_encRoute _) fun _ => .ok _ _).bind fun _ _ =>
    (RaisesOnly.ite (fun _ => raisesOnly_encTag _) fun _ => .ok _ _).bind fun _ _ =>
      (raisesOnly_encFields ((Nat.zero_add _).trans_le hl) _).bind fun _ _ => .check ⟨by decide, rfl⟩ fun _ => .ok _ _

theorem raisesOnly_runEncode (slots mode : Nat) (s : State) :
    RaisesOnly (Listed slots s.msgNfields.toNat) (runEncode mode s) := by
  refine .check (listed_plain (by decide)) fun _ => ?_
  cases hv : validateFrom s 0 s.msgNfields.toNat with
  | error e => exact .raise (listed_of_validateFrom hv) s
  | ok kinds => exact raisesOnly_encMessage (validateFrom_get hv).1.le mode _

/-! ### DECODE -/

theorem raisesOnly_getVbBytes {i : Nat} (hi : i < fields) (j count : Nat) (t : State) :
    RaisesOnly (Listed slots fields) (getVbBytes i j count t) := by
  induction count generalizing j t with
  | zero => exact .ok _ _
  | succ count ih => exact (raisesOnly_getBits (listed_field (by decide) hi)).bind fun _ _ => ih (j + 1) _

theorem raisesOnly_decField {i : Nat} (hi : i < fields) (k : FieldKind) (t : State) :
    RaisesOnly (Listed slots fields) (decField k i t) := by
  have get : ∀ n, RaisesOnly (Listed slots fields) (getBits n ⟨.decTruncated, .field, i⟩ t) :=
    fun n => raisesOnly_getBits (listed_field (by decide) hi)
  refine .check (listed_field (by decide) hi) fun _ => ?_
  cases k with
  | bool => exact (get _).bind fun _ _ => .ok _ _
  | int min max => exact (get _).bind fun _ _ => .check (listed_field (by decide) hi) fun _ => .ok _ _
  | float fmin fmax p m =>
    exact (get _).bind fun _ _ => .check (listed_field (by decide) hi) fun _ =>
      .check (listed_field (by decide) hi) fun _ => .ok _ _
  | enum n => exact (get _).bind fun _ _ => .ok _ _
  | bytes len => exact (raisesOnly_getVbBytes hi 0 len t).bind fun _ _ => .ok _ _
  | str len =>
    exact (raisesOnly_getVbBytes hi 0 len t).bind fun _ _ => .check (listed_field (by decide) hi) fun _ => .ok _ _

theorem raisesOnly_decFields {ks : List FieldKind} {i : Nat} (hi : i + ks.length ≤ fields) (t : State) :
    RaisesOnly (Listed slots fields) (decFields ks i t) := by
  induction ks generalizing i t with
  | nil => exact .ok _ _
  | cons k ks ih =>
    rw [List.length_cons] at hi
    exact (raisesOnly_decField (by omega) k t).bind fun _ u => ih (by omega) u

/-- GetBits of `n` bits answers a number of `n` bits. -/
theorem lt_two_pow_of_getBits {n v : Nat} {e : CmdError} {s t : State} (h : getBits n e s = .ok v t) : v < 2 ^ n := by
  obtain ⟨-, rfl, -⟩ := getBits_eq_ok.1 h
  exact readBits_lt _ _ _

/-- R255: the range check of the routing header cannot fail, since its fields are as wide as their ranges. -/
theorem raisesOnly_decRoute (t : State) : RaisesOnly (Listed slots fields) (decRoute t) := by
  have get : ∀ n u, RaisesOnly (Listed slots fields) (getBits n ⟨.decTruncated, .route, 0⟩ u) :=
    fun _ _ => raisesOnly_getBits (listed_route (by decide))
  refine .check (listed_route (by decide)) fun _ => (get _ _).bind_of_ok fun src t1 hsrc =>
    (get _ _).bind_of_ok fun dst t2 hdst => (get _ _).bind_of_ok fun pri t3 hpri => (get _ _).bind fun ack t4 => ?_
  have hs := lt_two_pow_of_getBits hsrc
  have hd := lt_two_pow_of_getBits hdst
  have hp := lt_two_pow_of_getBits hpri
  rw [if_neg (by omega)]
  exact .ok _ _

theorem raisesOnly_decTag (t : State) : RaisesOnly (Listed slots fields) (decTag t) :=
  .check (listed_tag (by decide)) fun _ => .check (listed_tag (by decide)) fun _ =>
    (raisesOnly_getBits (listed_tag (by decide))).bind fun _ _ => .ok _ _

theorem raisesOnly_decTagStage (t : State) : RaisesOnly (Listed slots fields) (decTagStage t) :=
  (raisesOnly_decTag t).bind fun _ _ => .check (listed_tag (by decide)) fun _ => .ok _ _

theorem raisesOnly_checkOrdinals {ks : List FieldKind} {i : Nat} (hi : i + ks.length ≤ fields) (t : State) :
    RaisesOnly (Listed slots fields) (checkOrdinals ks i t) := by
  induction ks generalizing i with
  | nil => exact .ok _ _
  | cons k ks ih =>
    rw [List.length_cons] at hi
    have hlt : i < fields := by omega
    exact .ite (fun _ => ih (by omega)) fun _ => .raise ⟨List.mem_singleton_self _, hlt⟩ t

theorem raisesOnly_decMessage {kinds : List FieldKind} (hl : kinds.length ≤ fields) (mode : Nat) (t : State) :
    RaisesOnly (Listed slots fields) (decMessage mode kinds t) :=
  have hl0 : 0 + kinds.length ≤ fields := (Nat.zero_add _).trans_le hl
  (RaisesOnly.ite (fun _ => raisesOnly_decRoute _) fun _ => .ok _ _).bind fun _ _ =>
    (RaisesOnly.ite (fun _ => raisesOnly_decTagStage _) fun _ => .ok _ _).bind fun _ _ =>
      (raisesOnly_decFields hl0 _).bind fun _ _ => (raisesOnly_checkOrdinals hl0 _).bind fun _ _ => .ok _ _

theorem raisesOnly_runDecode (slots mode : Nat) (s : State) :
    RaisesOnly (Listed slots s.msgNfields.toNat) (runDecode mode s) := by
  refine .check (listed_plain (by decide)) fun _ => ?_
  cases hv : validateFrom s 0 s.msgNfields.toNat with
  | error e => exact .raise (listed_of_validateFrom hv) s
  | ok kinds => exact raisesOnly_decMessage (validateFrom_get hv).1.le mode _

/-! ### Every command -/

theorem raisesOnly_putPlain (v n : Nat) (t : State) : RaisesOnly (Listed slots fields) (putPlain v n t) :=
  (raisesOnly_putBits (listed_plain (by decide))).bind fun _ _ => .ok _ _

theorem raisesOnly_getPlain (n : Nat) (t : State) : RaisesOnly (Listed slots fields) (getPlain n t) :=
  raisesOnly_getBits (listed_plain (by decide))

theorem raisesOnly_getZext (n : Nat) (t : State) : RaisesOnly (Listed slots fields) (getZext n t) :=
  (raisesOnly_getPlain n t).bind fun _ _ => .ok _ _

theorem raisesOnly_csrWrite (t : State) (v : Word64) (c : Csr) : RaisesOnly (Listed slots fields) (csrWrite t v c) := by
  cases c with
  | rlen | msgNfields => exact .check (listed_plain (by decide)) fun _ => .ok _ _
  | msgTypeId | msgMaxb | routeTx => exact .ok _ _
  | id | cfgBuf | cfgMsg | wpos | outLen | rpos | crcKind | crcAcc | routeRx | tagRx =>
    exact .raise (listed_plain (by decide)) t

end

/-- Every instruction answers, and an error it answers is listed. -/
theorem exec_raisesOnly (i : Instr) (s : State) :
    ∃ x, exec i s = respond x ∧ RaisesOnly (Listed s.cfg.maxFields s.msgNfields.toNat) x := by
  cases i with
  | nop | wClear | wFinish | wPos | rRewind | rPos | crcInit | crcByte | crcRead | crcObuf | reset =>
    exact ⟨_, rfl, .ok _ _⟩
  | wBool | wByte => exact ⟨_, rfl, raisesOnly_putPlain _ _ s⟩
  | wUint | wInt =>
    exact ⟨_, rfl, .check (listed_plain (by decide)) fun _ => .check (listed_plain (by decide)) fun _ =>
      raisesOnly_putPlain _ _ s⟩
  | rBool | rByte => exact ⟨_, rfl, raisesOnly_getZext _ s⟩
  | rUint => exact ⟨_, rfl, .check (listed_plain (by decide)) fun _ => raisesOnly_getZext _ s⟩
  | rInt =>
    exact ⟨_, rfl, .check (listed_plain (by decide)) fun _ => (raisesOnly_getPlain _ s).bind fun _ _ => .ok _ _⟩
  | crcCheck | crcIbuf | ibRd | obRd | descWr | descRd | valWr | valRd | vbRd =>
    exact ⟨_, rfl, .check (listed_plain (by decide)) fun _ => .ok _ _⟩
  | ibWr | vbWr =>
    exact ⟨_, rfl, .check (listed_plain (by decide)) fun _ => .check (listed_plain (by decide)) fun _ => .ok _ _⟩
  | encodeMsg mode => exact ⟨_, rfl, raisesOnly_runEncode _ _ s⟩
  | decodeMsg mode => exact ⟨_, rfl, raisesOnly_runDecode _ _ s⟩
  | peekTag =>
    exact ⟨_, rfl, .check (listed_tag (by decide)) fun _ => (raisesOnly_decTag _).bind fun _ _ => .ok _ _⟩
  | width slot =>
    refine ⟨_, rfl, .check (listed_plain (by decide)) fun hok => ?_⟩
    cases hv : validateField s (opUnsigned slot) with
    | ok k => exact .ok _ _
    | error e => exact .raise (listed_of_validateField hv (.inl (slotOk_iff.1 (by simpa using hok)))) s
  | csrRd csr =>
    refine ⟨_, rfl, ?_⟩
    cases csrOfNumber csr with
    | none => exact .raise (listed_plain (by decide)) s
    | some c => exact .ok _ _
  | csrWr csr v =>
    refine ⟨_, rfl, ?_⟩
    cases csrOfNumber csr with
    | none => exact .raise (listed_plain (by decide)) s
    | some c => exact raisesOnly_csrWrite s v c

theorem runCommand_raisesOnly (c : Command) (s : State) :
    ∃ x, runCommand c s = respond x ∧ RaisesOnly (Listed s.cfg.maxFields s.msgNfields.toNat) x := by
  cases hd : decode c with
  | ok i => rw [runCommand_ok s hd]; exact exec_raisesOnly i s
  | error r =>
    rw [runCommand_error s hd]
    exact ⟨_, rfl, .raise (listed_plain (by cases r <;> decide)) s⟩

/-- A command leaves alone what belongs to the machine around the block, whether or not it decodes. -/
theorem runCommand_machine {c : Command} {s t : State} (h : runCommand c s = .next t) :
    t.cfg = s.cfg ∧ t.port = s.port ∧ t.draws = s.draws := by
  cases hd : decode c with
  | ok i =>
    rw [runCommand_ok s hd] at h
    exact exec_sameExcept h .machine (by cases i <;> simp [writes])
  | error r =>
    rw [runCommand_error s hd] at h
    cases h; exact ⟨rfl, rfl, rfl⟩

/-! ### The status word -/

theorem causeClass_lt (c : Cause) : causeClass c < 2 ^ 4 := by cases c <;> decide

theorem causeDetail_lt (c : Cause) : causeDetail c < 2 ^ 8 := by cases c <;> decide

theorem stageCode_lt (st : Stage) : stageCode st < 2 ^ 4 := by cases st <;> decide

/-- The layout of R96 as a number. -/
theorem toNat_statusWord (e : CmdError) :
    (statusWord e).toNat =
      e.field % 2 ^ 8 * 2 ^ 16 + stageCode e.stage * 2 ^ 12 + causeDetail e.cause * 2 ^ 4 + causeClass e.cause := by
  have hc := causeClass_lt e.cause
  have hd := causeDetail_lt e.cause
  have hs := stageCode_lt e.stage
  simp only [statusWord, BitVec.toNat_append, BitVec.toNat_ofNat, Nat.mod_eq_of_lt hc, Nat.mod_eq_of_lt hd,
    Nat.mod_eq_of_lt hs]
  rw [← Nat.shiftLeft_add_eq_or_of_lt hc, ← Nat.shiftLeft_add_eq_or_of_lt hd, ← Nat.shiftLeft_add_eq_or_of_lt hs,
    ← Nat.shiftLeft_add_eq_or_of_lt (Nat.mod_lt _ (Nat.two_pow_pos 8))]
  simp only [Nat.shiftLeft_eq]
  omega

/-- CLASS, DETAIL, STAGE and FIELD stand where R96 puts them, and the byte above them is 0. -/
theorem statusWord_fields (e : CmdError) :
    ((statusWord e).extractLsb' 0 4).toNat = causeClass e.cause ∧
      ((statusWord e).extractLsb' 4 8).toNat = causeDetail e.cause ∧
      ((statusWord e).extractLsb' 12 4).toNat = stageCode e.stage ∧
      ((statusWord e).extractLsb' 16 8).toNat = e.field % 2 ^ 8 ∧ ((statusWord e).extractLsb' 24 8).toNat = 0 := by
  have hc := causeClass_lt e.cause
  have hd := causeDetail_lt e.cause
  have hs := stageCode_lt e.stage
  simp only [BitVec.extractLsb'_toNat, toNat_statusWord, Nat.shiftRight_eq_div_pow]
  omega

/-! ### One response -/

/-- What O8 says of the response to a command that found the block in state `s`. -/
def ResponseListed (s : State) (r : Response) : Prop :=
  (r.status = 0#32 ∨ r.result = 0#64 ∧ ProducedError (r.status.extractLsb' 0 4).toNat
    (r.status.extractLsb' 4 8).toNat (r.status.extractLsb' 12 4).toNat) ∧
  ((r.status.extractLsb' 12 4).toNat ∉ stagesWithField → r.status.extractLsb' 16 8 = 0#8) ∧
  (Inv s → (r.status.extractLsb' 12 4).toNat = 1 → (r.status.extractLsb' 16 8).toNat < s.cfg.maxFields) ∧
  (Inv s → (r.status.extractLsb' 12 4).toNat ∈ [4, 5] → (r.status.extractLsb' 16 8).toNat < s.msgNfields.toNat) ∧
  r.status.extractLsb' 24 8 = 0#8

theorem responseListed_ok (s : State) (v : Word64) : ResponseListed s (okResponse v) := by
  unfold ResponseListed
  rw [okResponse_status]
  exact ⟨.inl rfl, fun _ => rfl, fun _ h => absurd h (by decide), fun _ h => absurd h (by decide), rfl⟩

theorem responseListed_error {s : State} {e : CmdError} (h : Listed s.cfg.maxFields s.msgNfields.toNat e) :
    ResponseListed s (errorResponse e) := by
  obtain ⟨hstage, hfield⟩ := h
  obtain ⟨hclass, hdetail, hcode, hf, htop⟩ := statusWord_fields e
  unfold ResponseListed
  simp only [errorResponse_status, hclass, hdetail, hcode, hf]
  refine ⟨.inr ⟨rfl, producedError_of_mem hstage⟩, fun hno => ?nofield, fun hinv hst => ?schema, fun _ hst => ?field,
    BitVec.eq_of_toNat_eq htop⟩
  case nofield => exact BitVec.eq_of_toNat_eq (by rw [hf, hfield.eq_zero hno]; rfl)
  case schema =>
    have hlt : e.field < s.cfg.maxFields := (hfield.lt_of_schemaCheck hst).elim id (·.trans_le hinv.nfieldsLe)
    exact (Nat.mod_le _ _).trans_lt hlt
  case field => exact (Nat.mod_le _ _).trans_lt (hfield.lt_of_field hst)

/-- Settles O8: a command answers once, in one step, and what it answers is OK or a listed error. -/
theorem everyCommandGetsOneResponse : Obligations.EveryCommandGetsOneResponse := by
  intro s c rest hport
  obtain ⟨x, hx, hraise⟩ := runCommand_raisesOnly c (s.setPort rest)
  obtain ⟨hcfg, hrest, hdraws⟩ := runCommand_machine hx
  have hlisted : ∃ r, (answer x).response = some r ∧ ResponseListed s r := by
    cases x with
    | ok v t => exact ⟨_, rfl, responseListed_ok s v⟩
    | raise e t => exact ⟨_, rfl, responseListed_error (hraise e t rfl)⟩
  obtain ⟨r, hr, hlisted⟩ := hlisted
  exact ⟨answer x, r, (step_command hport).trans hx, hr, hrest, hcfg, hdraws, hlisted⟩

end Sys2Proof.Machine

/-! Pseudo-instructions (30_encoding.md R103, 60_exceptions.md R304): LOAD_INPUT command by command, and where a
sequence of commands ends that meets an error. Settles O35. -/

namespace Sys2Proof.Machine

open Sys2Proof.Safety

/-! ### One instruction sent -/

/-- An instruction sent is run. -/
theorem sendCommand_encode {i : Instr} {s t : State} (h : exec i s = .next t) : sendCommand (encode i) s = t :=
  sendCommand_of_run ((runCommand_ok s (encodeThenDecodeReturnsInstr i)).trans h)

/-- An instruction that completes is followed by the rest of its sequence. -/
theorem sendUntilError_cons_of_exec {i : Instr} {is : List Instr} {s t u : State} {v : Word64} {rs : List Response}
    (h : exec i s = .next (t.setResponse (some (okResponse v))))
    (hrest : sendUntilError is (t.setResponse (some (okResponse v))) = (rs, u)) :
    sendUntilError (i :: is) s = (okResponse v :: rs, u) := by
  have hsend := sendCommand_encode h
  rw [sendUntilError_cons_ok (by rw [hsend]; rfl), hsend, hrest]; rfl

/-! ### Where a sequence ends -/

theorem firstError_append (rs qs : List Response) : firstError (rs ++ qs) = (firstError rs).or (firstError qs) :=
  List.find?_append

/-- No error among responses that are all OK. -/
theorem firstError_eq_none {rs : List Response} (h : ∀ r ∈ rs, r.status = 0#32) : firstError rs = none :=
  List.find?_eq_none.2 fun r hr => by simp [h r hr, statusOk]

/-- Commands that all answer OK when all are sent are all sent. -/
theorem sendUntilError_of_sendAll_ok {is : List Instr} {s : State} (h : ∀ r ∈ (sendAll is s).1, r.status = 0#32) :
    sendUntilError is s = sendAll is s := by
  induction is generalizing s with
  | nil => rfl
  | cons i is ih =>
    obtain ⟨hi, his⟩ := List.forall_mem_cons.1 h
    rw [sendUntilError_cons_ok hi, ih his]; rfl

/-- Commands that answer OK, and then one that answers an error: the commands after it are not sent. -/
theorem sendUntilError_stops {before after : List Instr} {i : Instr} {s t u : State} {rs : List Response} {r : Response}
    (hbefore : sendAll before s = (rs, t)) (hok : ∀ q ∈ rs, q.status = 0#32) (hexec : exec i t = .next u)
    (hr : u.response = some r) (herr : r.status ≠ 0#32) :
    sendUntilError (before ++ i :: after) s = (rs ++ [r], u) := by
  have hsent : sendUntilError before s = (rs, t) := by
    rw [← hbefore]; exact sendUntilError_of_sendAll_ok (by rwa [hbefore])
  have hsend := sendCommand_encode hexec
  have hlast : u.lastResponse = r := by rw [State.lastResponse, hr]; rfl
  rw [sendUntilError_append, hsent]
  simp only [firstError_eq_none hok]
  rw [sendUntilError_cons_error (by rw [hsend, hlast]; exact herr), hsend, hlast]

/-! ### LOAD_INPUT -/

/-- `t` is `s` with a byte string in IBUF from address `j` on, and perhaps another last response. -/
structure BytesPlaced (s t : State) (j : Nat) (bs : List Byte) : Prop where
  only : t = (s.setIbuf t.ibuf).setResponse t.response
  bytes : ∀ k b, bs[k]? = some b → t.ibufAt (j + k) = b
  frame : ∀ a, a < j ∨ j + bs.length ≤ a → t.ibufAt a = s.ibufAt a

theorem BytesPlaced.nil (s : State) (j : Nat) : BytesPlaced s s j [] :=
  ⟨rfl, fun _ _ h => (nomatch h), fun _ _ => rfl⟩

theorem BytesPlaced.cons {s t : State} {j : Nat} {b : Byte} {bs : List Byte} {r : Option Response}
    (h : BytesPlaced ((s.writeIbuf j b).setResponse r) t (j + 1) bs) : BytesPlaced s t j (b :: bs) := by
  have hat : ∀ a, ((s.writeIbuf j b).setResponse r).ibufAt a = if j = a then b else s.ibufAt a :=
    State.ibufAt_writeIbuf s j b
  refine ⟨h.only, fun k c hk => ?_, fun a ha => ?_⟩
  · cases k with
    | zero =>
      obtain rfl : b = c := by simpa using hk
      rw [Nat.add_zero, h.frame j (by omega), hat, if_pos rfl]
    | succ k =>
      rw [show j + (k + 1) = j + 1 + k by omega]
      exact h.bytes k c (by simpa using hk)
  · rw [List.length_cons] at ha
    rw [h.frame a (by omega), hat, if_neg (by omega)]

/-- IB_WR of a byte at an address inside IBUF. -/
theorem exec_ibWr_byte {s : State} {j : Nat} (hj : j < s.cfg.ibufBytes) (hmax : s.cfg.ibufBytes ≤ 2 ^ 24) (b : Byte) :
    exec (.ibWr (BitVec.ofNat 24 j) (b.setWidth 64)) s =
      .next ((s.writeIbuf j b).setResponse (some (okResponse 0#64))) := by
  have haddr : (BitVec.ofNat 24 j).toNat = j := by rw [BitVec.toNat_ofNat, Nat.mod_eq_of_lt (by omega)]
  have hbyte : (b.setWidth 64).toNat ≤ 255 := by
    rw [BitVec.toNat_setWidth_of_le (by decide)]; omega
  have hop : operandByte (b.setWidth 64) = b := by
    rw [operandByte, BitVec.setWidth_setWidth_of_le _ (by decide), BitVec.setWidth_eq]
  rw [exec_ibWr, opUnsigned, opUnsigned, haddr, if_neg (by omega), if_neg (by omega), hop]; rfl

/-- The IB_WRs of LOAD_INPUT, where their addresses are inside IBUF, all complete. -/
theorem sendUntilError_loadBytes {s : State} {j : Nat} {bs : List Byte} (hmax : s.cfg.ibufBytes ≤ 2 ^ 24)
    (hfit : j + bs.length ≤ s.cfg.ibufBytes) :
    ∃ t, sendUntilError (loadBytes j bs) s = (List.replicate bs.length okZero, t) ∧ BytesPlaced s t j bs := by
  induction bs generalizing j s with
  | nil => exact ⟨s, rfl, .nil s j⟩
  | cons b bs ih =>
    rw [List.length_cons] at hfit
    obtain ⟨t, ht, hplaced⟩ := ih (s := (s.writeIbuf j b).setResponse (some (okResponse 0#64))) (j := j + 1) hmax
      (by show j + 1 + bs.length ≤ s.cfg.ibufBytes; omega)
    exact ⟨t, sendUntilError_cons_of_exec (exec_ibWr_byte (by omega) hmax b) ht, hplaced.cons⟩

/-- CSR_WR of RLEN with a length that IBUF has (10_state.md R27). -/
theorem exec_csrWr_rlen {s : State} {v : Word64} (hv : v.toNat ≤ s.cfg.ibufBytes) :
    exec (.csrWr 0x0020#16 v) s =
      .next (((s.setRlen (v.setWidth 32)).setRpos 0#32).setResponse (some (okResponse 0#64))) :=
  exec_csrWr_ok (c := .rlen) rfl (if_neg (Nat.not_lt.2 hv))

/-- LOAD_INPUT of a byte string that fits IBUF: the bytes, then RLEN and RPOS. -/
theorem runPseudo_loadInput {s : State} {bs : List Byte} (hmax : s.cfg.ibufBytes ≤ 2 ^ 24)
    (hfit : bs.length ≤ s.cfg.ibufBytes) :
    ∃ u, BytesPlaced s u 0 bs ∧
      runPseudo (.loadInput bs) s = (List.replicate (bs.length + 1) okZero,
        ((u.setRlen (BitVec.ofNat 32 bs.length)).setRpos 0#32).setResponse (some okZero)) := by
  obtain ⟨u, hu, hplaced⟩ := sendUntilError_loadBytes (s := s) (bs := bs) (j := 0) hmax (by omega)
  have hcfg : u.cfg = s.cfg := by rw [hplaced.only]; rfl
  have hlen : (BitVec.ofNat 64 bs.length).toNat = bs.length := by
    rw [BitVec.toNat_ofNat, Nat.mod_eq_of_lt (by omega)]
  have hrlen : (BitVec.ofNat 64 bs.length).setWidth 32 = BitVec.ofNat 32 bs.length :=
    BitVec.setWidth_ofNat_of_le (by decide) _
  refine ⟨u, hplaced, ?_⟩
  have hcsr := exec_csrWr_rlen (s := u) (v := BitVec.ofNat 64 bs.length) (by rw [hcfg, hlen]; exact hfit)
  rw [hrlen] at hcsr
  rw [runPseudo, expandPseudo, sendUntilError_append, hu]
  have hok : ∀ r ∈ List.replicate bs.length okZero, r.status = 0#32 := fun r hr => by
    rw [List.eq_of_mem_replicate hr]; rfl
  simp only [firstError_eq_none hok]
  rw [sendUntilError_cons_of_exec hcsr (sendUntilError_nil _), List.replicate_succ']; rfl

/-- Settles O35: LOAD_INPUT is its IB_WRs, each of which completes, and its CSR_WR; and of any sequence the part before
the first error is sent as a whole. -/
theorem pseudoInstructionsRunInOrder : Obligations.PseudoInstructionsRunInOrder := by
  refine ⟨fun s bs hinv hfit => ?_, fun p s t u before after i rs hp hbefore hok hexec ⟨r, hr, herr⟩ => ?_⟩
  · have hmax : s.cfg.ibufBytes ≤ 2 ^ 24 := hinv.cfg.1.2
    obtain ⟨u, hplaced, hrun⟩ := runPseudo_loadInput hmax hfit
    refine ⟨_, hrun, ?_, rfl, fun a b hab => ?_, fun a ha => ?_, ?_⟩
    · show (BitVec.ofNat 32 bs.length).toNat = bs.length
      rw [BitVec.toNat_ofNat, Nat.mod_eq_of_lt (by omega)]
    · have := hplaced.bytes a b hab
      rwa [Nat.zero_add] at this
    · exact hplaced.frame a (by omega)
    · conv_lhs => rw [hplaced.only]
      rfl
  · refine ⟨r, hr, ?_, ?_⟩
    · rw [runPseudo, hp]; exact sendUntilError_stops hbefore hok hexec hr herr
    · rw [pseudoStatus, firstError_append, firstError_eq_none hok, Option.none_or, firstError_cons_error herr]; rfl

end Sys2Proof.Machine

/-! The CRC generator (41_crc.md R120 to R130): the one-bit steps of the two registers are injective, and the CRC-32
one is the reflection of its polynomial's; what each command feeds to the register, and the checksum it then stands
for. Settles O25, O26, O27, O28, O29. -/

namespace Sys2Proof.Machine

open Sys2Proof.Safety

/-! ### The registers, bit by bit -/

theorem applyTimes_eq_iterate {α : Type} (f : α → α) (n : Nat) (x : α) : applyTimes f n x = f^[n] x := by
  induction n generalizing x with
  | zero => rfl
  | succ n ih => exact ih (f x)

/-- A shift register with feedback loses nothing: a position that the shift fills with 0 shows whether the polynomial
was subtracted, that is the bit shifted out, and without the polynomial the shift shows the others. -/
theorem injective_feedback {w : Nat} {shift : BitVec w → BitVec w} {out : BitVec w → Bool} {poly : BitVec w} (i : Nat)
    (hpoly : poly.getLsbD i = true) (hfill : ∀ a, (shift a).getLsbD i = false)
    (hshift : ∀ a b, out a = out b → shift a = shift b → a = b) :
    Function.Injective fun a => if out a then shift a ^^^ poly else shift a := by
  have hbit : ∀ a, (if out a then shift a ^^^ poly else shift a).getLsbD i = out a := by
    intro a
    cases hout : out a <;> simp [hfill, hpoly]
  intro a b hab
  have hout : out a = out b := by
    rw [← hbit a, ← hbit b]; exact congrArg (BitVec.getLsbD · i) hab
  refine hshift a b hout ?_
  simp only [hout] at hab
  split at hab
  · exact (BitVec.xor_left_inj poly).1 hab
  · exact hab

theorem crc16Bit_injective : Function.Injective crc16Bit := by
  refine injective_feedback (shift := (· <<< 1)) (out := (·.getLsbD 15)) 0 rfl (fun a => by simp)
    fun a b hout hshift => BitVec.eq_of_getLsbD_eq fun i hi => ?_
  by_cases htop : i = 15
  · rw [htop]; exact hout
  · have hnext : i + 1 < 16 := by omega
    simpa [hnext, hi] using congrArg (BitVec.getLsbD · (i + 1)) hshift

theorem crc32Bit_injective : Function.Injective crc32Bit := by
  refine injective_feedback (shift := (· >>> 1)) (out := (·.getLsbD 0)) 31 rfl (fun a => by simp)
    fun a b hout hshift => BitVec.eq_of_getLsbD_eq fun i hi => ?_
  cases i with
  | zero => exact hout
  | succ i => simpa [Nat.add_comm] using congrArg (BitVec.getLsbD · i) hshift

/-! ### One byte, and a string of bytes -/

theorem setWidth_shiftLeft_injective : Function.Injective fun m : Byte => m.setWidth 16 <<< 8 := by
  intro m m' h
  refine BitVec.eq_of_getLsbD_eq fun i hi => ?_
  have hlow : i + 8 < 16 := by omega
  simpa [hlow] using congrArg (BitVec.getLsbD · (i + 8)) h

theorem setWidth_injective : Function.Injective fun m : Byte => m.setWidth 32 := by
  intro m m' h
  refine BitVec.eq_of_getLsbD_eq fun i hi => ?_
  have hlow : i < 32 := by omega
  simpa [hlow] using congrArg (BitVec.getLsbD · i) h

theorem crc16Step_eq (acc : BitVec 16) (m : Byte) :
    crc16Step acc m = crc16Bit^[8] (acc ^^^ (m.setWidth 16 <<< 8)) := applyTimes_eq_iterate _ _ _

theorem crc32Step_eq (acc : BitVec 32) (m : Byte) : crc32Step acc m = crc32Bit^[8] (acc ^^^ m.setWidth 32) :=
  applyTimes_eq_iterate _ _ _

theorem crc16Step_register_injective (m : Byte) : Function.Injective (crc16Step · m) := by
  intro acc acc' h
  simp only [crc16Step_eq] at h
  exact (BitVec.xor_left_inj _).1 (crc16Bit_injective.iterate 8 h)

theorem crc16Step_byte_injective (acc : BitVec 16) : Function.Injective (crc16Step acc) := by
  intro m m' h
  simp only [crc16Step_eq] at h
  exact setWidth_shiftLeft_injective ((BitVec.xor_right_inj acc).1 (crc16Bit_injective.iterate 8 h))

theorem crc32Step_register_injective (m : Byte) : Function.Injective (crc32Step · m) := by
  intro acc acc' h
  simp only [crc32Step_eq] at h
  exact (BitVec.xor_left_inj _).1 (crc32Bit_injective.iterate 8 h)

theorem crc32Step_byte_injective (acc : BitVec 32) : Function.Injective (crc32Step acc) := by
  intro m m' h
  simp only [crc32Step_eq] at h
  exact setWidth_injective ((BitVec.xor_right_inj acc).1 (crc32Bit_injective.iterate 8 h))

/-- A step that loses nothing of the register and tells two bytes apart tells two strings apart that differ in one. -/
theorem foldl_ne_of_one_changed {α β : Type} {f : α → β → α} (hreg : ∀ b, Function.Injective (f · b))
    (hbyte : ∀ a, Function.Injective (f a)) (start : α) (before after : List β) {x y : β} (hxy : x ≠ y) :
    (before ++ x :: after).foldl f start ≠ (before ++ y :: after).foldl f start := by
  have hrest : ∀ {a a' : α}, a ≠ a' → after.foldl f a ≠ after.foldl f a' := by
    induction after with
    | nil => exact id
    | cons b after ih => exact fun hne => ih ((hreg b).ne hne)
  rw [List.foldl_append, List.foldl_append]
  exact hrest ((hbyte _).ne hxy)

/-- Settles O29: both steps invert on the register and on the byte, so the registers differ from the byte on. -/
theorem crcDetectsOneChangedByte : Obligations.CrcDetectsOneChangedByte := by
  intro before after x y hxy
  unfold crc16Of crc32Of
  exact ⟨foldl_ne_of_one_changed crc16Step_register_injective crc16Step_byte_injective _ _ _ hxy,
    (BitVec.xor_left_inj _).not.2
      (foldl_ne_of_one_changed crc32Step_register_injective crc32Step_byte_injective _ _ _ hxy)⟩

/-! ### The reflected register of CRC-32 -/

theorem reverse_xor {w : Nat} (a b : BitVec w) : (a ^^^ b).reverse = a.reverse ^^^ b.reverse := by
  ext i hi
  simp [BitVec.getElem_reverse, BitVec.getMsbD_xor]

/-- A shift to the right, read backwards, is one to the left. -/
theorem reverse_ushiftRight_one {w : Nat} (a : BitVec w) : (a >>> 1).reverse = a.reverse <<< 1 := by
  refine BitVec.eq_of_getLsbD_eq fun i hi => ?_
  rw [BitVec.getLsbD_reverse, BitVec.getMsbD_ushiftRight, BitVec.getLsbD_shiftLeft, BitVec.getLsbD_reverse]
  simp [hi]

/-- One bit of the unreflected register: shift out the top bit, and subtract 0x04C11DB7 when it was 1 (R122). -/
def crc32ForwardBit (acc : BitVec 32) : BitVec 32 :=
  if acc.getLsbD 31 then (acc <<< 1) ^^^ 0x04C11DB7#32 else acc <<< 1

theorem crc32Forward_eq (acc : BitVec 32) (m : Byte) :
    crc32Forward acc m = crc32ForwardBit^[8] (acc ^^^ (m.setWidth 32 <<< 24)) := applyTimes_eq_iterate _ _ _

theorem reverse_semiconj_crc32Bit : Function.Semiconj BitVec.reverse crc32Bit crc32ForwardBit := by
  intro acc
  have hpoly : (0xEDB88320#32).reverse = 0x04C11DB7#32 := by decide +kernel
  have hout : acc.reverse.getLsbD 31 = acc.getLsbD 0 := by rw [BitVec.getLsbD_reverse, BitVec.getMsbD]; simp
  rw [crc32Bit, crc32ForwardBit, hout, ← reverse_ushiftRight_one, ← hpoly, ← reverse_xor]
  split <;> rfl

/-- A byte at the bottom of the register, read backwards, is the byte backwards at the top. -/
theorem reverse_setWidth_byte (m : Byte) : (m.setWidth 32).reverse = m.reverse.setWidth 32 <<< 24 := by
  refine BitVec.eq_of_getLsbD_eq fun i hi => ?_
  simp only [BitVec.getLsbD_reverse, BitVec.getMsbD, BitVec.getLsbD_shiftLeft, BitVec.getLsbD_setWidth]
  by_cases hlow : i < 24
  · have hge : 8 ≤ 31 - i := by omega
    simp [hi, hlow, BitVec.getLsbD_of_ge m _ hge]
  · have hpos : i - 24 < 8 := by omega
    have hback : 31 - i = 7 - (i - 24) := by omega
    have hlt : 7 - (i - 24) < 32 ∧ i - 24 < 32 := by omega
    simp [hi, hlow, hpos, hback, hlt]

/-- Settles O28: reflection carries each one-bit step over; the check values are computed. -/
theorem crcMatchesStandardParameters : Obligations.CrcMatchesStandardParameters := by
  refine ⟨by decide +kernel, by decide +kernel, rfl, by decide, fun acc m => ?_⟩
  rw [crc32Forward_eq, crc32Step_eq, (reverse_semiconj_crc32Bit.iterate_right 8).eq, reverse_xor, reverse_setWidth_byte]

/-! ### The commands -/

theorem exec_crcCheck_eq {s : State} {v : Word64} (h : v = crcValue s.crcKind s.crcAcc) :
    exec (.crcCheck v) s = .next (s.setResponse (some (okResponse v))) := by
  rw [exec_crcCheck, if_neg (not_not.2 (congrArg BitVec.toNat h)), h]; rfl

theorem exec_crcCheck_ne {s : State} {v : Word64} (h : v ≠ crcValue s.crcKind s.crcAcc) :
    exec (.crcCheck v) s = .next (s.setResponse (some (errorResponse (plainError .framingCrcMismatch)))) := by
  rw [exec_crcCheck, if_pos fun heq => h (BitVec.eq_of_toNat_eq heq)]; rfl

/-- Settles O25: each answer is an equation of the meaning, and CRC_CHECK compares with what CRC_READ answers. -/
theorem crcCommandsForEachKind : Obligations.CrcCommandsForEachKind := by
  intro s
  refine ⟨rfl, rfl, fun m => ⟨fun hk => ?_, fun hk => ?_⟩, crcValue s.crcKind s.crcAcc, fun hk => ?_, fun hk => ?_, rfl,
    exec_crcCheck_eq rfl, fun v hv => exec_crcCheck_ne hv⟩
  · rw [exec_crcByte, crcStep, if_pos hk]; rfl
  · rw [exec_crcByte, crcStep, hk, if_neg (by decide)]; rfl
  · rw [crcValue, if_pos hk, BitVec.toNat_setWidth_of_le (by decide), BitVec.toNat_setWidth]
  · rw [crcValue, hk, if_neg (by decide), BitVec.toNat_setWidth_of_le (by decide)]
    exact (congrArg BitVec.toNat (BitVec.xor_allOnes (x := s.crcAcc))).trans BitVec.toNat_not

theorem exec_crcObuf_bytes (s : State) :
    exec .crcObuf s = .next ((s.setCrcAcc ((imageBytes s).foldl (crcStep s.crcKind) s.crcAcc)).setResponse
      (some (okResponse 0#64))) := by
  rw [exec_crcObuf, crcFeed_obuf]; rfl

theorem exec_crcIbuf_bytes {s : State} {w : Word64} (h : spanStart w + spanCount w ≤ s.rlen.toNat) :
    exec (.crcIbuf w) s =
      .next ((s.setCrcAcc ((inputBytes s (spanStart w) (spanCount w)).foldl (crcStep s.crcKind) s.crcAcc)).setResponse
        (some (okResponse 0#64))) := by
  rw [exec_crcIbuf, if_neg (Nat.not_lt.2 h), crcFeed_ibuf]; rfl

theorem exec_crcIbuf_beyond {s : State} {w : Word64} (h : s.rlen.toNat < spanStart w + spanCount w) :
    exec (.crcIbuf w) s = .next (s.setResponse (some (errorResponse (plainError .rangeSpan)))) := by
  rw [exec_crcIbuf, if_pos h]; rfl

/-- Settles O26: feeding a span is folding over its bytes, and the span is the two halves of the operand. -/
theorem crcFeedsBufferBytes : Obligations.CrcFeedsBufferBytes := by
  intro s
  refine ⟨exec_crcObuf_bytes s, fun w hw => ?_, fun w hw => ?_⟩
  · simp only [← spanStart_eq, ← spanCount_eq] at hw ⊢
    exact exec_crcIbuf_bytes hw
  · simp only [← spanStart_eq, ← spanCount_eq] at hw
    exact exec_crcIbuf_beyond hw

/-! ### The checksum of the bytes fed -/

/-- A CRC-16 register in the low half of CRC_ACC goes on as it would on its own. -/
theorem setWidth_foldl_crcStep (acc : BitVec 16) (ms : List Byte) :
    (ms.foldl (crcStep 0#1) (acc.setWidth 32)).setWidth 16 = ms.foldl crc16Step acc := by
  induction ms generalizing acc with
  | nil => simp
  | cons m ms ih =>
    have hstep : crcStep 0#1 (acc.setWidth 32) m = (crc16Step acc m).setWidth 32 := by simp [crcStep]
    rw [List.foldl_cons, hstep, ih, List.foldl_cons]

/-- R130: the register that has taken a byte string since CRC_INIT stands for its checksum. -/
theorem crcValue_foldl (kind : BitVec 1) (ms : List Byte) :
    crcValue kind (ms.foldl (crcStep kind) (crcStart kind)) = checksumOf kind ms := by
  obtain rfl | rfl : kind = 0#1 ∨ kind = 1#1 := by revert kind; decide
  · have hstart : crcStart 0#1 = (0xFFFF#16).setWidth 32 := rfl
    rw [crcValue, if_pos rfl, hstart, setWidth_foldl_crcStep]; rfl
  · rfl

/-- What a command that does not start the CRC leaves of it: the kind, and the register after the bytes it feeds. -/
theorem exec_crc {i : Instr} {s t : State} (hi : ¬ StartsCrc i) (h : exec i s = .next t) :
    t.crcKind = s.crcKind ∧ t.crcAcc = (crcFedBy s i).foldl (crcStep s.crcKind) s.crcAcc := by
  obtain ⟨-, -, -, -, hkind, hacc, -⟩ := onlyNamedCommandsWriteEachPiece i s t h
  refine ⟨hkind hi, ?_⟩
  cases i with
  | crcInit | reset => exact absurd trivial hi
  | crcByte m => cases h; rfl
  | crcObuf => rw [exec_crcObuf_bytes] at h; cases h; rfl
  | crcIbuf w =>
    by_cases hspan : spanStart w + spanCount w ≤ s.rlen.toNat
    · rw [exec_crcIbuf_bytes hspan] at h
      cases h; rw [crcFedBy, if_pos hspan]; rfl
    · rw [exec_crcIbuf_beyond (Nat.lt_of_not_le hspan)] at h
      cases h; rw [crcFedBy, if_neg hspan]; rfl
  | _ => exact hacc hi id

/-- Any commands but CRC_INIT and RESET, and then CRC_READ. -/
theorem runAll_crcRead {is : List Instr} (his : ∀ i ∈ is, ¬ StartsCrc i) (s : State) :
    ∃ u, runAll (is ++ [.crcRead]) s = some u ∧
      u.response = some (okResponse (crcValue s.crcKind ((crcFedAll is s).foldl (crcStep s.crcKind) s.crcAcc))) := by
  induction is generalizing s with
  | nil => exact ⟨_, rfl, rfl⟩
  | cons i is ih =>
    obtain ⟨hi, his⟩ := List.forall_mem_cons.1 his
    obtain ⟨t, ht⟩ := exec_next i s
    obtain ⟨hkind, hacc⟩ := exec_crc hi ht
    obtain ⟨u, hu, hresp⟩ := ih his t
    refine ⟨u, ?_, ?_⟩
    · rw [List.cons_append, runAll, ht]; exact hu
    · rw [hresp, hkind, hacc, crcFedAll, ht, List.foldl_append]

/-- Settles O27, by induction on the commands that come between. -/
theorem crcReadIsChecksumOfBytesFed : Obligations.CrcReadIsChecksumOfBytesFed := by
  intro kind is s his
  obtain ⟨u, hu, hresp⟩ := runAll_crcRead his
    (((s.setCrcKind kind).setCrcAcc (crcStart kind)).setResponse (some (okResponse 0#64)))
  exact ⟨_, u, rfl, hu, hresp.trans (by rw [← crcValue_foldl]; rfl)⟩

end Sys2Proof.Machine

/-! Frames as byte strings (41_crc.md R131 to R133): numbers most significant byte first, and the four parts of a frame
with their lengths. -/

namespace Sys2Proof.Machine

open Sys2Proof.Safety

/-! ### Numbers, most significant byte first -/

@[simp] theorem length_beBytes (n v : Nat) : (beBytes n v).length = n := by simp [beBytes]

theorem beBytes_succ (n v : Nat) : beBytes (n + 1) v = beBytes n (v / 256) ++ [BitVec.ofNat 8 v] := by
  have hhigh : ∀ j ∈ List.range n,
      BitVec.ofNat 8 (v / 256 ^ (n + 1 - 1 - j)) = BitVec.ofNat 8 (v / 256 / 256 ^ (n - 1 - j)) := by
    intro j hj
    have hexp : n + 1 - 1 - j = n - 1 - j + 1 := by have := List.mem_range.1 hj; omega
    rw [hexp, Nat.pow_succ', Nat.div_div_eq_div_mul]
  rw [beBytes, List.range_succ, List.map_append, List.map_congr_left hhigh]
  simp [beBytes]

theorem bigEndian_append_singleton (bs : List Byte) (b : Byte) :
    bigEndian (bs ++ [b]) = 256 * bigEndian bs + b.toNat := by
  simp [bigEndian]

/-- A number that fits `n` bytes is read back from them. -/
theorem bigEndian_beBytes {n v : Nat} (hv : v < 256 ^ n) : bigEndian (beBytes n v) = v := by
  induction n generalizing v with
  | zero => rw [Nat.lt_one_iff.1 hv]; rfl
  | succ n ih =>
    rw [Nat.pow_succ] at hv
    rw [beBytes_succ, bigEndian_append_singleton, ih (by omega), BitVec.toNat_ofNat]
    omega

/-- And bytes are those of the number they stand for. -/
theorem beBytes_bigEndian (bs : List Byte) : beBytes bs.length (bigEndian bs) = bs := by
  induction bs using List.reverseRecOn with
  | nil => rfl
  | append_singleton bs b ih =>
    have hb := b.isLt
    have hhigh : (256 * bigEndian bs + b.toNat) / 256 = bigEndian bs := by omega
    have hlow : BitVec.ofNat 8 (256 * bigEndian bs + b.toNat) = b :=
      BitVec.eq_of_toNat_eq (by rw [BitVec.toNat_ofNat]; omega)
    rw [List.length_append, List.length_singleton, bigEndian_append_singleton, beBytes_succ, hhigh, hlow, ih]

theorem bigEndian_injective_of_length {bs cs : List Byte} (hlen : bs.length = cs.length)
    (h : bigEndian bs = bigEndian cs) : bs = cs := by
  rw [← beBytes_bigEndian bs, ← beBytes_bigEndian cs, hlen, h]

theorem bigEndian_lt (bs : List Byte) : bigEndian bs < 256 ^ bs.length := by
  induction bs using List.reverseRecOn with
  | nil => decide
  | append_singleton bs b ih =>
    have hb := b.isLt
    rw [List.length_append, List.length_singleton, bigEndian_append_singleton, Nat.pow_succ]
    omega

/-! ### The parts of a frame -/

/-- The length of R131 and R132, which counts ID and payload. -/
def lengthField (f : FrameShape) (payload : List Byte) : List Byte :=
  if hasLength f then beBytes 4 (payload.length + idBytes f) else []

/-- The ID of R132. -/
def identField (f : FrameShape) : List Byte := f.ident.elim [] fun ident => beBytes 2 ident.toNat

/-- The CRC over all that stands before it. -/
def crcField (f : FrameShape) (payload : List Byte) : List Byte :=
  f.crc.elim [] fun k => beBytes (crcBytes f) (checksumOf k (frameBody f payload)).toNat

theorem frameBody_eq (f : FrameShape) (payload : List Byte) :
    frameBody f payload = lengthField f payload ++ identField f ++ payload := by
  unfold frameBody lengthField identField hasLength idBytes
  cases f.ident <;> rfl

theorem crcBytes_of_some {f : FrameShape} {k : BitVec 1} (hf : f.crc = some k) :
    crcBytes f = if k = 0#1 then 2 else 4 := by
  rw [crcBytes, hf]

theorem crcBytes_le (f : FrameShape) : crcBytes f ≤ 4 := by
  unfold crcBytes
  split
  · decide
  · split <;> decide

/-- A checksum is a number of as many bytes as its field. -/
theorem checksumOf_eq (k : BitVec 1) (ms : List Byte) :
    (checksumOf k ms).toNat = if k = 0#1 then (crc16Of ms).toNat else (crc32Of ms).toNat := by
  unfold checksumOf
  split <;> exact BitVec.toNat_setWidth_of_le (by decide)

theorem checksumOf_lt {f : FrameShape} {k : BitVec 1} (hf : f.crc = some k) (ms : List Byte) :
    (checksumOf k ms).toNat < 256 ^ crcBytes f := by
  rw [crcBytes_of_some hf, checksumOf_eq]
  split
  · exact (crc16Of ms).isLt
  · exact (crc32Of ms).isLt

theorem crcField_of_some {f : FrameShape} {k : BitVec 1} (hf : f.crc = some k) (payload : List Byte) :
    crcField f payload = beBytes (crcBytes f) (checksumOf k (frameBody f payload)).toNat := by
  rw [crcField, hf]; rfl

theorem frameBytes_eq (f : FrameShape) (payload : List Byte) :
    frameBytes f payload = frameBody f payload ++ crcField f payload := by
  cases hf : f.crc with
  | none => simp [frameBytes, crcField, hf]
  | some k =>
    rw [crcField_of_some hf, crcBytes_of_some hf, checksumOf_eq]
    simp only [frameBytes, hf]
    split <;> rfl

@[simp] theorem length_lengthField (f : FrameShape) (payload : List Byte) :
    (lengthField f payload).length = lengthBytes f := by
  unfold lengthField lengthBytes
  split <;> simp

@[simp] theorem length_identField (f : FrameShape) : (identField f).length = idBytes f := by
  unfold identField idBytes
  cases f.ident <;> simp

@[simp] theorem length_crcField (f : FrameShape) (payload : List Byte) :
    (crcField f payload).length = crcBytes f := by
  cases hf : f.crc with
  | none => simp [crcField, crcBytes, hf]
  | some k => rw [crcField_of_some hf, length_beBytes]

theorem length_frameBody (f : FrameShape) (payload : List Byte) :
    (frameBody f payload).length = lengthBytes f + idBytes f + payload.length := by
  simp [frameBody_eq, Nat.add_assoc]

theorem length_frameBytes (f : FrameShape) (payload : List Byte) :
    (frameBytes f payload).length = lengthBytes f + idBytes f + payload.length + crcBytes f := by
  simp [frameBytes_eq, length_frameBody]

/-- The length has four bytes, which is room for every payload that a frame of the block can hold. -/
theorem bigEndian_lengthField {f : FrameShape} {payload : List Byte} (hf : hasLength f = true)
    (hlen : payload.length + idBytes f < 2 ^ 32) :
    bigEndian (lengthField f payload) = payload.length + idBytes f := by
  rw [lengthField, if_pos hf]; exact bigEndian_beBytes hlen

theorem bigEndian_identField {f : FrameShape} {ident : BitVec 16} (hf : f.ident = some ident) :
    bigEndian (identField f) = ident.toNat := by
  rw [identField, hf]; exact bigEndian_beBytes ident.isLt

theorem idBytes_le (f : FrameShape) : idBytes f ≤ 2 := by
  unfold idBytes
  split <;> decide

end Sys2Proof.Machine

/-! Frame build (41_crc.md R134): a command that writes whole bytes appends them to the writer's image or answers
CAPACITY, so do sequences of such commands, and a frame is built of three of them. Settles O30. -/

namespace Sys2Proof.Machine

open Sys2Proof.Safety

/-! ### The image of a writer that stands at a byte boundary -/

/-- The writer has written the bytes `bs` and nothing more. -/
structure Holds (s : State) (bs : List Byte) : Prop where
  inv : Inv s
  pos : s.wpos.toNat = 8 * bs.length
  image : imageBytes s = bs

theorem outLen_of_wpos {s : State} {n : Nat} (h : s.wpos.toNat = 8 * n) : s.outLen = n := by
  rw [State.outLen]; omega

theorem imageBytes_congr {s t : State} (hobuf : t.obuf = s.obuf) (hwpos : t.wpos = s.wpos) :
    imageBytes t = imageBytes s := by
  simp only [imageBytes, State.outLen, State.obufAt_eq, hobuf, hwpos]

theorem Holds.length_le {s : State} {bs : List Byte} (h : Holds s bs) : bs.length ≤ s.cfg.obufBytes := by
  have := h.inv.wposLe
  rw [h.pos] at this
  omega

/-- A command that does not write OBUF leaves the image. -/
theorem Holds.exec {s t : State} {bs : List Byte} {i : Instr} (h : Holds s bs) (hx : exec i s = .next t)
    (hi : Piece.writer ∉ writes i) : Holds t bs := by
  obtain ⟨hobuf, hwpos⟩ := exec_sameExcept hx .writer hi
  exact ⟨h.inv.exec hx, by rw [hwpos]; exact h.pos, by rw [imageBytes_congr hobuf hwpos]; exact h.image⟩

theorem Holds.setResponse {s : State} {bs : List Byte} (h : Holds s bs) (r : Option Response) :
    Holds (s.setResponse r) bs := ⟨h.inv.setResponse r, h.pos, h.image⟩

theorem Holds.clearWriter {s : State} (h : Inv s) : Holds (clearWriter s) [] :=
  ⟨h.clearWriter, rfl, by rw [imageBytes, outLen_of_wpos (n := 0) rfl]; rfl⟩

/-- A byte is the eight stream positions it occupies. -/
theorem byte_eq_of_streamBit {f : Nat → Byte} {a : Nat} {b : Byte}
    (h : ∀ j < 8, streamBit f (8 * a + j) = b.getLsbD (7 - j)) : f a = b := by
  refine BitVec.eq_of_getLsbD_eq fun i hi => ?_
  have hbit := h (7 - i) (by omega)
  have hdiv : (8 * a + (7 - i)) / 8 = a := by omega
  have hmod : 7 - (8 * a + (7 - i)) % 8 = i := by omega
  have hback : 7 - (7 - i) = i := by omega
  rwa [streamBit, hdiv, hmod, hback] at hbit

theorem streamBit_byte (f : Nat → Byte) {a j : Nat} (hj : j < 8) : streamBit f (8 * a + j) = (f a).getLsbD (7 - j) := by
  have hdiv : (8 * a + j) / 8 = a := by omega
  have hmod : (8 * a + j) % 8 = j := by omega
  rw [streamBit, hdiv, hmod]

/-- A field of `n` whole bytes is those of its number, most significant first. -/
theorem byte_of_fieldAt {f : Nat → Byte} {p n v j : Nat} (h : FieldAt f (8 * p) (8 * n) v) (hj : j < n) :
    f (p + j) = BitVec.ofNat 8 (v / 256 ^ (n - 1 - j)) := by
  refine byte_eq_of_streamBit fun i hi => ?_
  have hpos : 8 * (p + j) + i = 8 * p + (8 * j + i) := by ring
  have hbit : 8 * n - 1 - (8 * j + i) = 8 * (n - 1 - j) + (7 - i) := by omega
  have hlow : 7 - i < 8 := by omega
  rw [hpos, ← h.2 _ (by omega), hbit, BitVec.getLsbD_ofNat, show 256 = 2 ^ 8 by rfl, ← pow_mul, Nat.testBit_div_two_pow]
  simp [hlow, Nat.add_comm]

/-- A write of `n` bytes from a byte boundary appends them to the image. -/
theorem Holds.wrote {s t : State} {bs : List Byte} {n v : Nat} (h : Holds s bs) (hw : Wrote s t (8 * n))
    (hf : FieldAt t.obufAt s.wpos.toNat (8 * n) v) : Holds t (bs ++ beBytes n v) := by
  have hpos : t.wpos.toNat = 8 * (bs.length + n) := by rw [hw.pos, h.pos]; ring
  rw [h.pos] at hf
  refine ⟨hw.inv, by rw [hpos, List.length_append, length_beBytes], ?_⟩
  have hold : (List.range bs.length).map t.obufAt = bs := by
    conv_rhs => rw [← h.image, imageBytes, outLen_of_wpos h.pos]
    refine List.map_congr_left fun a ha => byte_eq_of_streamBit fun j hj => ?_
    rw [hw.keep _ (by rw [h.pos]; have := List.mem_range.1 ha; omega), streamBit_byte _ hj]
  have hnew : (List.range n).map (fun j => t.obufAt (bs.length + j)) = beBytes n v :=
    List.map_congr_left fun j hj => byte_of_fieldAt hf (List.mem_range.1 hj)
  rw [imageBytes, outLen_of_wpos hpos, List.range_add, List.map_append, List.map_map, hold]
  exact congrArg (bs ++ ·) hnew

/-! ### Commands that write whole bytes -/

/-- The command appends the bytes `bs` where they fit, and answers CAPACITY where they do not. -/
structure AppendsBytes (i : Instr) (bs : List Byte) : Prop where
  fits : ∀ {s : State} {ws : List Byte}, Holds s ws → ws.length + bs.length ≤ s.cfg.obufBytes →
    ∃ t, exec i s = .next (t.setResponse (some (okResponse 0#64))) ∧ Holds t (ws ++ bs) ∧ t.cfg = s.cfg
  full : ∀ {s : State} {ws : List Byte}, Holds s ws → s.cfg.obufBytes < ws.length + bs.length →
    exec i s = .next (s.setResponse (some (errorResponse (plainError .capacityObufFull))))

theorem appendsBytes_of_putPlain {i : Instr} {n v : Nat} (hv : v < 256 ^ n)
    (hi : ∀ s, exec i s = respond (putPlain v (8 * n) s)) : AppendsBytes i (beBytes n v) := by
  refine ⟨fun {s ws} h hfit => ?_, fun {s ws} h hfull => ?_⟩
  · rw [length_beBytes] at hfit
    have hv2 : v < 2 ^ (8 * n) := by rwa [pow_mul]
    obtain ⟨t, ht, hw, hf⟩ := putBits_wrote h.inv hv2 .none 0 (by rw [h.pos]; omega)
    refine ⟨t, ?_, h.wrote hw hf, hw.cfg⟩
    rw [hi, putPlain, ht]; rfl
  · rw [length_beBytes] at hfull
    rw [hi, putPlain, putBits_full (by rw [h.pos]; omega)]; rfl

/-- W_UINT of a number that fits its bytes. -/
theorem appendsBytes_wUint {n : Nat} {v : Word64} (hn : 1 ≤ n ∧ n ≤ 8) (hv : v.toNat < 256 ^ n) :
    AppendsBytes (.wUint (BitVec.ofNat 8 (8 * n)) v) (beBytes n v.toNat) := by
  refine appendsBytes_of_putPlain hv fun s => ?_
  have hwidth : (BitVec.ofNat 8 (8 * n)).toNat = 8 * n := by rw [BitVec.toNat_ofNat]; omega
  have hv2 : v.toNat < 2 ^ (8 * n) := by rwa [pow_mul]
  rw [exec_wUint, opUnsigned, opUnsigned, hwidth, putUint_eq, if_neg (by omega), if_neg (by omega)]

theorem appendsBytes_wByte (b : Byte) : AppendsBytes (.wByte b) [b] := by
  have hbytes : beBytes 1 b.toNat = [b] := by simp [beBytes]
  rw [← hbytes]
  exact appendsBytes_of_putPlain b.isLt fun s => exec_wByte b s

/-- The commands append a byte string, each one its part of it. -/
inductive AppendsAll : List Instr → List Byte → Prop where
  | nil : AppendsAll [] []
  | cons {i : Instr} {is : List Instr} {bs cs : List Byte} (hi : AppendsBytes i bs) (his : AppendsAll is cs) :
      AppendsAll (i :: is) (bs ++ cs)

theorem AppendsAll.append {is js : List Instr} {bs cs : List Byte} (hi : AppendsAll is bs) (hj : AppendsAll js cs) :
    AppendsAll (is ++ js) (bs ++ cs) := by
  induction hi with
  | nil => exact hj
  | cons hi _ ih => rw [List.append_assoc]; exact .cons hi ih

theorem AppendsAll.one {i : Instr} {bs : List Byte} (hi : AppendsBytes i bs) : AppendsAll [i] bs := by
  have h := AppendsAll.cons hi .nil
  rwa [List.append_nil] at h

theorem appendsAll_wBytes (bs : List Byte) : AppendsAll (bs.map .wByte) bs := by
  induction bs with
  | nil => exact .nil
  | cons b bs ih => exact .cons (appendsBytes_wByte b) ih

/-- The sequence came to `t` from `s` without an error. -/
structure Sent (is : List Instr) (s t : State) : Prop where
  state : (sendUntilError is s).2 = t
  noError : firstError (sendUntilError is s).1 = none

theorem Sent.nil (s : State) : Sent [] s s := ⟨rfl, rfl⟩

theorem Sent.cons {i : Instr} {is : List Instr} {s t u : State} {v : Word64}
    (hx : Machine.exec i s = .next (t.setResponse (some (okResponse v))))
    (h : Sent is (t.setResponse (some (okResponse v))) u) : Sent (i :: is) s u := by
  have hsend := sendUntilError_cons_of_exec (is := is) hx rfl
  refine ⟨by rw [hsend]; exact h.state, ?_⟩
  rw [hsend, firstError_cons_ok rfl]; exact h.noError

/-- After a part that was sent without an error comes the rest. -/
theorem Sent.append {is : List Instr} {s t : State} (h : Sent is s t) (js : List Instr) :
    firstError (sendUntilError (is ++ js) s).1 = firstError (sendUntilError js t).1 ∧
      (sendUntilError (is ++ js) s).2 = (sendUntilError js t).2 := by
  rw [sendUntilError_append, h.noError, ← h.state]
  exact ⟨by rw [firstError_append, h.noError, Option.none_or], rfl⟩

theorem Sent.trans {is js : List Instr} {s t u : State} (h : Sent is s t) (hj : Sent js t u) : Sent (is ++ js) s u := by
  obtain ⟨herr, hstate⟩ := h.append js
  exact ⟨hstate.trans hj.state, herr.trans hj.noError⟩

theorem AppendsAll.sent {is : List Instr} {bs ws : List Byte} {s : State} (h : AppendsAll is bs) (hs : Holds s ws)
    (hfit : ws.length + bs.length ≤ s.cfg.obufBytes) : ∃ t, Sent is s t ∧ Holds t (ws ++ bs) ∧ t.cfg = s.cfg := by
  induction h generalizing ws s with
  | nil => exact ⟨s, .nil s, by rwa [List.append_nil], rfl⟩
  | @cons i is bs cs hi _ ih =>
    rw [List.length_append] at hfit
    obtain ⟨t, hx, ht, hcfg⟩ := hi.fits hs (by omega)
    obtain ⟨u, hsent, hu, hcfg'⟩ := ih (ht.setResponse (some (okResponse 0#64)))
      (by rw [State.setResponse_cfg, hcfg, List.length_append]; omega)
    exact ⟨u, hsent.cons hx, by rwa [← List.append_assoc], hcfg'.trans hcfg⟩

/-- Where the bytes do not fit, the first command that has no room ends the sequence. -/
theorem AppendsAll.full {is : List Instr} {bs ws : List Byte} {s : State} (h : AppendsAll is bs) (hs : Holds s ws)
    (hfull : s.cfg.obufBytes < ws.length + bs.length) :
    firstError (sendUntilError is s).1 = some (errorResponse (plainError .capacityObufFull)) := by
  induction h generalizing ws s with
  | nil => exact absurd hs.length_le (Nat.not_le.2 hfull)
  | @cons i is bs cs hi _ ih =>
    rw [List.length_append] at hfull
    by_cases hfit : ws.length + bs.length ≤ s.cfg.obufBytes
    · obtain ⟨t, hx, ht, hcfg⟩ := hi.fits hs hfit
      rw [sendUntilError_cons_of_exec (is := is) hx rfl, firstError_cons_ok rfl]
      exact ih (ht.setResponse (some (okResponse 0#64)))
        (by rw [State.setResponse_cfg, hcfg, List.length_append]; omega)
    · have hx := sendCommand_encode (hi.full hs (Nat.lt_of_not_le hfit))
      have herr : (errorResponse (plainError .capacityObufFull)).status ≠ statusOk := by decide
      rw [sendUntilError_cons_error (by rw [hx]; exact herr), hx]
      exact firstError_cons_error herr []

/-! ### The three parts of a frame build -/

/-- Length, ID and payload, after W_CLEAR. -/
def frameWrites (f : FrameShape) (payload : List Byte) : List Instr :=
  (if hasLength f then [.wUint 32#8 (BitVec.ofNat 64 (payload.length + idBytes f))] else []) ++
    (f.ident.elim [] fun ident => [.wUint 16#8 (ident.setWidth 64)]) ++ payload.map .wByte

theorem frameHead_eq (f : FrameShape) (payload : List Byte) :
    frameHead f payload = .wClear :: frameWrites f payload := by
  unfold frameHead frameWrites
  cases f.ident <;> rfl

theorem appendsAll_frameWrites {f : FrameShape} {payload : List Byte} (hlen : payload.length + idBytes f < 2 ^ 32) :
    AppendsAll (frameWrites f payload) (frameBody f payload) := by
  rw [frameBody_eq]
  refine (AppendsAll.append ?length ?ident).append (appendsAll_wBytes payload)
  case length =>
    unfold lengthField
    split
    · have hword : (BitVec.ofNat 64 (payload.length + idBytes f)).toNat = payload.length + idBytes f := by
        rw [BitVec.toNat_ofNat]; omega
      have hi := appendsBytes_wUint (n := 4) (by decide) (hword.trans_lt hlen)
      rw [hword] at hi
      exact .one hi
    · exact .nil
  case ident =>
    unfold identField
    cases f.ident with
    | none => exact .nil
    | some ident =>
      have hword : (ident.setWidth 64).toNat = ident.toNat := BitVec.toNat_setWidth_of_le (by decide)
      have hi := appendsBytes_wUint (n := 2) (by decide) (hword.trans_lt ident.isLt)
      rw [hword] at hi
      exact .one hi

theorem appendsAll_frameTail {f : FrameShape} {payload : List Byte} {c : Word64}
    (hc : ∀ k, f.crc = some k → c = checksumOf k (frameBody f payload)) :
    AppendsAll (frameTail f c) (crcField f payload) := by
  cases hf : f.crc with
  | none => rw [frameTail, crcField, hf]; exact .nil
  | some k =>
    have hn : 1 ≤ crcBytes f ∧ crcBytes f ≤ 8 := by
      rw [crcBytes_of_some hf]; split <;> decide
    rw [crcField_of_some hf, ← hc k hf, frameTail, hf]
    exact .one (appendsBytes_wUint hn (by rw [hc k hf]; exact checksumOf_lt hf _))

/-- The commands that read the CRC: they leave the image and end on its checksum. -/
theorem sent_frameCrc (f : FrameShape) {s : State} {bs : List Byte} (h : Holds s bs) :
    ∃ t, Sent (frameCrc f) s t ∧ Holds t bs ∧ t.cfg = s.cfg ∧
      ∀ k, f.crc = some k → t.lastResponse.result = checksumOf k bs := by
  cases hf : f.crc with
  | none => exact ⟨s, by rw [frameCrc, hf]; exact .nil s, h, rfl, nofun⟩
  | some k =>
    have hinit := h.exec (exec_crcInit k s) (by simp [writes])
    have hfed := hinit.exec (exec_crcObuf_bytes _) (by simp [writes])
    have hread := hfed.exec (exec_crcRead _) (by simp [writes])
    refine ⟨_, ?_, hread, rfl, fun k' hk' => ?_⟩
    · rw [frameCrc, hf]
      exact .cons (exec_crcInit k s) (.cons (exec_crcObuf_bytes _) (.cons (exec_crcRead _) (.nil _)))
    · cases hk'
      rw [← h.image, ← crcValue_foldl]; rfl

/-! ### The build -/

/-- A build whose head or CRC part ends in an error comes to that error. -/
theorem buildFrame_of_headError {f : FrameShape} {payload : List Byte} {s : State} {r : Response}
    (h : firstError (sendUntilError (frameHead f payload ++ frameCrc f) s).1 = some r) :
    (buildFrame f payload s).1 = .error r := by
  simp only [buildFrame, h]

theorem buildFrame_of_tailError {f : FrameShape} {payload : List Byte} {s t : State} {r : Response}
    (h : Sent (frameHead f payload ++ frameCrc f) s t)
    (herr : firstError (sendUntilError (frameTail f t.lastResponse.result) t).1 = some r) :
    (buildFrame f payload s).1 = .error r := by
  simp only [buildFrame, h.noError, h.state, herr]

theorem buildFrame_of_sent {f : FrameShape} {payload : List Byte} {s t u : State}
    (h : Sent (frameHead f payload ++ frameCrc f) s t) (htail : Sent (frameTail f t.lastResponse.result) t u) :
    buildFrame f payload s = (.ok (imageBytes u), u) := by
  simp only [buildFrame, h.noError, h.state, htail.noError, htail.state]

/-- W_CLEAR, length, ID and payload, where they fit, and then the commands that read the CRC. -/
theorem sent_frameHead_frameCrc {f : FrameShape} {payload : List Byte} {s : State} (hs : Inv s)
    (hlen : payload.length + idBytes f < 2 ^ 32) (hfit : (frameBody f payload).length ≤ s.cfg.obufBytes) :
    ∃ t, Sent (frameHead f payload ++ frameCrc f) s t ∧ Holds t (frameBody f payload) ∧ t.cfg = s.cfg ∧
      AppendsAll (frameTail f t.lastResponse.result) (crcField f payload) := by
  have hclear := (Holds.clearWriter hs).setResponse (some (okResponse 0#64))
  obtain ⟨t, hsent, ht, hcfg⟩ := (appendsAll_frameWrites hlen).sent hclear (by
    rw [List.length_nil, Nat.zero_add]; exact hfit)
  obtain ⟨u, hcrc, hu, hcfg', hsum⟩ := sent_frameCrc f ht
  refine ⟨u, .trans ?_ hcrc, hu, hcfg'.trans hcfg, appendsAll_frameTail hsum⟩
  rw [frameHead_eq]
  exact hsent.cons (exec_wClear s)

/-- Where they do not fit. -/
theorem firstError_frameHead {f : FrameShape} {payload : List Byte} {s : State} (hs : Inv s)
    (hlen : payload.length + idBytes f < 2 ^ 32) (hfull : s.cfg.obufBytes < (frameBody f payload).length) :
    firstError (sendUntilError (frameHead f payload ++ frameCrc f) s).1 =
      some (errorResponse (plainError .capacityObufFull)) := by
  have hclear := (Holds.clearWriter hs).setResponse (some (okResponse 0#64))
  have herr := (appendsAll_frameWrites hlen).full hclear (by rw [List.length_nil, Nat.zero_add]; exact hfull)
  have hhead : firstError (sendUntilError (frameHead f payload) s).1 =
      some (errorResponse (plainError .capacityObufFull)) := by
    rw [frameHead_eq, sendUntilError_cons_of_exec (exec_wClear s) rfl, firstError_cons_ok rfl]; exact herr
  rw [sendUntilError_append, hhead]; exact hhead

/-- Settles O30: the parts of the build append the parts of the frame, up to the first that has no room. -/
theorem builtFrameHasLayout : Obligations.BuiltFrameHasLayout := by
  intro f payload s hs
  have hobuf : s.cfg.obufBytes ≤ 2 ^ 24 := hs.cfg.2.1.2
  have hid := idBytes_le f
  have hbody := length_frameBody f payload
  rw [frameBytes_eq, List.length_append]
  refine ⟨fun hfit => ?_, fun hfull hpay => ?_⟩
  · obtain ⟨t, hsent, ht, hcfg, htail⟩ := sent_frameHead_frameCrc hs (payload := payload) (f := f) (by omega) (by omega)
    obtain ⟨u, hsent', hu, -⟩ := htail.sent ht (by rw [hcfg]; exact hfit)
    rw [buildFrame_of_sent hsent hsent', hu.image]
    exact ⟨rfl, rfl⟩
  · by_cases hhead : (frameBody f payload).length ≤ s.cfg.obufBytes
    · obtain ⟨t, hsent, ht, hcfg, htail⟩ := sent_frameHead_frameCrc hs (by omega) hhead
      exact buildFrame_of_tailError hsent (htail.full ht (by rw [hcfg]; exact hfull))
    · exact buildFrame_of_headError (firstError_frameHead hs (by omega) (Nat.lt_of_not_le hhead))

end Sys2Proof.Machine

/-! Frame check (41_crc.md R135, R136): what the check reads of a byte string loaded as input, that a frame passes it,
and that a frame with a CRC and one byte altered does not. Settles O31, O32. -/

namespace Sys2Proof.Machine

open Sys2Proof.Safety

/-! ### A byte string loaded as input -/

/-- The valid input of `s` is the byte string `bs`. -/
structure Loaded (s : State) (bs : List Byte) : Prop where
  rlen : s.rlen.toNat = bs.length
  bytes : ∀ a b, bs[a]? = some b → s.ibufAt a = b

theorem loaded_loadInput {s : State} {bs : List Byte} (hs : Inv s) (hfit : bs.length ≤ s.cfg.ibufBytes) :
    Loaded (loadInput bs s) bs := by
  obtain ⟨t, hrun, hrlen, -, hbytes, -⟩ := pseudoInstructionsRunInOrder.1 s bs hs hfit
  rw [loadInput, hrun]
  exact ⟨hrlen, hbytes⟩

/-- The bytes of a part of the input, by the parts before and after it. -/
theorem Loaded.part {s : State} {xs ys zs : List Byte} (h : Loaded s (xs ++ (ys ++ zs))) :
    inputBytes s xs.length ys.length = ys := by
  refine List.ext_getElem (by simp [inputBytes]) fun j _ hj => ?_
  have hget : (xs ++ (ys ++ zs))[xs.length + j]? = some ys[j] := by
    rw [List.getElem?_append_right (Nat.le_add_right _ _), Nat.add_sub_cancel_left, List.getElem?_append_left hj,
      List.getElem?_eq_getElem hj]
  have hat : s.ibufAt (xs.length + j) = ys[j] := h.bytes _ _ hget
  simpa [inputBytes] using hat

/-! ### Step 5 of the check -/

theorem pseudoStatus_eq_ok_iff {rs : List Response} : pseudoStatus rs = statusOk ↔ firstError rs = none := by
  unfold pseudoStatus
  cases h : firstError rs with
  | none => exact iff_of_true rfl rfl
  | some r =>
    have herr : r.status ≠ statusOk := by simpa using List.find?_some h
    exact iff_of_false herr (by simp)

/-- CRC_CHECK sent last: no error exactly where its word is the checksum. -/
theorem firstError_crcCheck (v : Word64) (s : State) :
    firstError (sendUntilError [.crcCheck v] s).1 = none ↔ v = crcValue s.crcKind s.crcAcc := by
  by_cases hv : v = crcValue s.crcKind s.crcAcc
  · rw [sendUntilError_cons_of_exec (exec_crcCheck_eq hv) (sendUntilError_nil _)]
    exact iff_of_true rfl hv
  · have herr : (errorResponse (plainError .framingCrcMismatch)).status ≠ statusOk := by decide
    have hsend := sendCommand_encode (exec_crcCheck_ne hv)
    rw [sendUntilError_cons_error (by rw [hsend]; exact herr), hsend]
    exact iff_of_false (fun hnone => nomatch (firstError_cons_error herr []).symm.trans hnone) hv

/-- CRC_INIT and CRC_IBUF over the first `n` bytes of the input leave the checksum of those bytes. -/
theorem sent_crcIbuf (k : BitVec 1) {s : State} {n : Nat} (hn : n ≤ s.rlen.toNat) :
    ∃ t, Sent [.crcInit k, .crcIbuf (BitVec.ofNat 64 (n * 2 ^ 32))] s t ∧
      crcValue t.crcKind t.crcAcc = checksumOf k (inputBytes s 0 n) := by
  have hrlen := s.rlen.isLt
  have hspan : (BitVec.ofNat 64 (n * 2 ^ 32)).toNat = n * 2 ^ 32 := by rw [BitVec.toNat_ofNat]; omega
  have hstart : spanStart (BitVec.ofNat 64 (n * 2 ^ 32)) = 0 := by rw [spanStart_eq, hspan]; omega
  have hcount : spanCount (BitVec.ofNat 64 (n * 2 ^ 32)) = n := by rw [spanCount_eq, hspan]; omega
  refine ⟨_, .cons (exec_crcInit k s) (.cons (exec_crcIbuf_bytes ?_) (.nil _)), ?_⟩
  · rw [hstart, hcount, Nat.zero_add]; exact hn
  · rw [← crcValue_foldl, hstart, hcount]; rfl

/-- Step 5 compares the CRC field of the input with the checksum of what stands before it. -/
theorem crcMatches_iff {f : FrameShape} {k : BitVec 1} {s : State} {body crc : List Byte} (hf : f.crc = some k)
    (h : Loaded s (body ++ crc)) (hcrc : crc.length = crcBytes f) :
    crcMatches f s = true ↔ bigEndian crc = (checksumOf k body).toNat := by
  have hn : s.rlen.toNat - crcBytes f = body.length := by rw [h.rlen, List.length_append, hcrc]; omega
  have hbody : inputBytes s 0 body.length = body := Loaded.part (xs := []) h
  have hfield : inputBytes s body.length (crcBytes f) = crc := by
    rw [← hcrc]; exact Loaded.part (zs := []) (by rwa [List.append_nil])
  have hlt : bigEndian crc < 2 ^ 64 := by
    have hle : crc.length ≤ 4 := hcrc.trans_le (crcBytes_le f)
    calc bigEndian crc < 256 ^ crc.length := bigEndian_lt crc
      _ ≤ 256 ^ 4 := Nat.pow_le_pow_right (by decide) hle
      _ ≤ 2 ^ 64 := by decide
  have hword : (BitVec.ofNat 64 (bigEndian crc)).toNat = bigEndian crc := by
    rw [BitVec.toNat_ofNat, Nat.mod_eq_of_lt hlt]
  obtain ⟨t, hsent, hsum⟩ := sent_crcIbuf k (s := s) (n := body.length) (by omega)
  unfold crcMatches
  simp only [hf, hn, hfield, beq_iff_eq, pseudoStatus_eq_ok_iff]
  rw [hbody] at hsum
  obtain ⟨herr, -⟩ := hsent.append [.crcCheck (BitVec.ofNat 64 (bigEndian crc))]
  rw [← hword, BitVec.toNat_inj, hword, ← hsum, ← firstError_crcCheck, ← herr]; rfl

/-! ### The check of a byte string in its parts -/

/-- The four parts of the input, with the lengths that the shape gives them. -/
structure Parts (f : FrameShape) (s : State) (len ident payload crc : List Byte) : Prop where
  loaded : Loaded s (len ++ ident ++ payload ++ crc)
  lengthPart : len.length = lengthBytes f
  identPart : ident.length = idBytes f
  crcPart : crc.length = crcBytes f

section
variable {f : FrameShape} {s : State} {len ident payload crc : List Byte} (h : Parts f s len ident payload crc)
include h

theorem Parts.rlen : s.rlen.toNat = lengthBytes f + idBytes f + payload.length + crcBytes f := by
  simp only [h.loaded.rlen, List.length_append, h.lengthPart, h.identPart, h.crcPart]

theorem Parts.inputBytes_length (hf : hasLength f = true) : inputBytes s 0 4 = len := by
  have hlen : len.length = 4 := by rw [h.lengthPart, lengthBytes, if_pos hf]
  rw [← hlen]
  exact Loaded.part (xs := []) (zs := ident ++ payload ++ crc) (by simpa using h.loaded)

theorem Parts.inputBytes_ident (hf : f.ident.isSome = true) : inputBytes s 4 2 = ident := by
  have hlen : len.length = 4 := by rw [h.lengthPart, lengthBytes, hasLength, hf, Bool.or_true]; rfl
  have hident : ident.length = 2 := by rw [h.identPart, idBytes, if_pos hf]
  rw [← hlen, ← hident]
  exact Loaded.part (zs := payload ++ crc) (by simpa using h.loaded)

theorem Parts.inputBytes_payload : inputBytes s (lengthBytes f + idBytes f) payload.length = payload := by
  rw [← h.lengthPart, ← h.identPart, ← List.length_append]
  exact Loaded.part (by simpa using h.loaded)

/-- R135: what the check makes of input that has every part of its shape. -/
theorem checkFrame_of_parts (hne : s.rlen.toNat ≠ 0) :
    checkFrame f s =
      if hasLength f && decide (bigEndian len ≠ payload.length + idBytes f) then .error .lengthMismatch
      else if !crcMatches f s then .error .crcMismatch
      else .ok (if f.ident.isSome then some (bigEndian ident) else none, payload) := by
  have hrlen := h.rlen
  have hlength : (hasLength f && decide (bigEndian (inputBytes s 0 4) ≠ s.rlen.toNat - crcBytes f - 4)) =
      (hasLength f && decide (bigEndian len ≠ payload.length + idBytes f)) := by
    cases hf : hasLength f with
    | false => rfl
    | true =>
      have hfour : lengthBytes f = 4 := by rw [lengthBytes, if_pos hf]
      have hcount : s.rlen.toNat - crcBytes f - 4 = payload.length + idBytes f := by omega
      rw [h.inputBytes_length hf, hcount]
  have hident : (if f.ident.isSome then some (bigEndian (inputBytes s 4 2)) else none) =
      if f.ident.isSome then some (bigEndian ident) else none := by
    split
    · next hf => rw [h.inputBytes_ident hf]
    · rfl
  have hcount : s.rlen.toNat - crcBytes f - lengthBytes f - idBytes f = payload.length := by omega
  rw [checkFrame, if_neg hne, if_neg (by omega), hlength, hident, hcount, h.inputBytes_payload]

end

/-! ### A frame -/

theorem parts_frameBytes {f : FrameShape} {payload : List Byte} {s : State} (h : Loaded s (frameBytes f payload)) :
    Parts f s (lengthField f payload) (identField f) payload (crcField f payload) :=
  ⟨by rwa [← frameBody_eq, ← frameBytes_eq], length_lengthField f payload, length_identField f,
    length_crcField f payload⟩

theorem bigEndian_crcField {f : FrameShape} {k : BitVec 1} (hf : f.crc = some k) (payload : List Byte) :
    bigEndian (crcField f payload) = (checksumOf k (frameBody f payload)).toNat := by
  rw [crcField_of_some hf, bigEndian_beBytes (checksumOf_lt hf _)]

theorem crcMatches_frameBytes {f : FrameShape} {payload : List Byte} {s : State} (h : Loaded s (frameBytes f payload)) :
    crcMatches f s = true := by
  cases hf : f.crc with
  | none => rw [crcMatches, hf]
  | some k =>
    rw [frameBytes_eq] at h
    exact (crcMatches_iff hf h (length_crcField f payload)).2 (bigEndian_crcField hf payload)

/-- Settles O31: every field of a frame reads as it was written. -/
theorem frameCheckAcceptsFrame : Obligations.FrameCheckAcceptsFrame := by
  intro f payload s hs hne hfit
  have hloaded := loaded_loadInput hs hfit
  have hparts := parts_frameBytes hloaded
  have hmax : s.cfg.ibufBytes ≤ 2 ^ 24 := hs.cfg.1.2
  have hlen : payload.length + idBytes f < 2 ^ 32 := by
    have := length_frameBytes f payload
    omega
  have hnonzero : (loadInput (frameBytes f payload) s).rlen.toNat ≠ 0 := by
    rw [hloaded.rlen]; exact fun h0 => hne (List.length_eq_zero_iff.1 h0)
  have hlength : (hasLength f && decide (bigEndian (lengthField f payload) ≠ payload.length + idBytes f)) = false := by
    cases hf : hasLength f with
    | false => rfl
    | true => rw [bigEndian_lengthField hf hlen]; simp
  have hident : (if f.ident.isSome then some (bigEndian (identField f)) else none) = f.ident.map BitVec.toNat := by
    cases hf : f.ident with
    | none => rfl
    | some ident => rw [bigEndian_identField hf]; rfl
  rw [checkFrame_of_parts hparts hnonzero, hlength, crcMatches_frameBytes hloaded, hident]; rfl

/-! ### A frame with one bit flipped -/

/-- A flipped bit alters one byte. -/
theorem flipBit_eq {bs : List Byte} {p : Nat} (hp : p < 8 * bs.length) :
    ∃ before x y after, x ≠ y ∧ bs = before ++ x :: after ∧ flipBit bs p = before ++ y :: after := by
  obtain ⟨before, x, after, hbs, -, hmod⟩ :=
    List.exists_of_modify (fun b => b ^^^ (0x80#8 >>> (p % 8))) (i := p / 8) (l := bs) (by omega)
  refine ⟨before, x, x ^^^ (0x80#8 >>> (p % 8)), after, fun hx => ?_, hbs, hmod⟩
  have hmask : ∀ i < 8, (0x80#8 >>> i) ≠ 0#8 := by decide
  have hzero : x ^^^ 0#8 = x ^^^ (0x80#8 >>> (p % 8)) := by rw [BitVec.xor_zero]; exact hx
  exact hmask (p % 8) (Nat.mod_lt _ (by decide)) ((BitVec.xor_right_inj x).1 hzero).symm

/-- Of a string in two parts, a byte stands in the first or in the second. -/
theorem append_eq_append_cons {α : Type} {body crc before after : List α} {x : α}
    (h : body ++ crc = before ++ x :: after) :
    (∃ rest, body = before ++ x :: rest ∧ after = rest ++ crc) ∨
      ∃ front, before = body ++ front ∧ crc = front ++ x :: after := by
  obtain ⟨front, hbefore, hcrc⟩ | ⟨rest, hbody, hafter⟩ := List.append_eq_append_iff.1 h
  · exact .inr ⟨front, hbefore, hcrc⟩
  · cases rest with
    | nil => exact .inr ⟨[], by simpa using hbody.symm, by simpa using hafter.symm⟩
    | cons y rest =>
      obtain ⟨rfl, htail⟩ := List.cons.inj hafter
      exact .inl ⟨rest, hbody, htail⟩

theorem checksumOf_ne_of_one_changed (k : BitVec 1) (before after : List Byte) {x y : Byte} (hxy : x ≠ y) :
    (checksumOf k (before ++ x :: after)).toNat ≠ (checksumOf k (before ++ y :: after)).toNat := by
  obtain ⟨h16, h32⟩ := crcDetectsOneChangedByte before after x y hxy
  rw [checksumOf_eq, checksumOf_eq]
  split
  · exact fun h => h16 (BitVec.eq_of_toNat_eq h)
  · exact fun h => h32 (BitVec.eq_of_toNat_eq h)

/-- One byte of a frame altered: in the body it changes the checksum and not the field, in the field the field alone. -/
theorem not_crcMatches_of_one_changed {f : FrameShape} {k : BitVec 1} {payload before after : List Byte} {x y : Byte}
    {s : State} (hf : f.crc = some k) (hxy : x ≠ y) (hframe : frameBytes f payload = before ++ x :: after)
    (h : Loaded s (before ++ y :: after)) : crcMatches f s = false := by
  have hfield := bigEndian_crcField hf payload
  have hcrc := length_crcField f payload
  rw [frameBytes_eq] at hframe
  refine Bool.eq_false_iff.2 fun hmatch => ?_
  obtain ⟨rest, hbody, rfl⟩ | ⟨front, rfl, hparts⟩ := append_eq_append_cons hframe
  · rw [hbody] at hfield
    have heq := (crcMatches_iff hf (body := before ++ y :: rest) (by simpa using h) hcrc).1 hmatch
    exact checksumOf_ne_of_one_changed k before rest hxy (hfield.symm.trans heq)
  · have hlen : (front ++ y :: after).length = (crcField f payload).length := by simp [hparts]
    have heq := (crcMatches_iff hf (crc := front ++ y :: after) (by simpa using h) (hlen.trans hcrc)).1 hmatch
    have hsame := bigEndian_injective_of_length hlen (heq.trans hfield.symm)
    rw [hparts] at hsame
    exact hxy (List.cons.inj (List.append_cancel_left hsame)).1.symm

/-- Input as long as its shape needs whose CRC does not match is rejected at step 4 or at step 5. -/
theorem checkFrame_of_not_crcMatches {f : FrameShape} {s : State} (hne : s.rlen.toNat ≠ 0)
    (hlong : lengthBytes f + idBytes f + crcBytes f ≤ s.rlen.toNat) (hcrc : crcMatches f s = false) :
    checkFrame f s = .error .lengthMismatch ∨ checkFrame f s = .error .crcMismatch := by
  rw [checkFrame, if_neg hne, if_neg (Nat.not_lt.2 hlong), hcrc]
  split
  · exact .inl rfl
  · exact .inr rfl

/-- Settles O32: the flipped bit alters one byte, of the body or of the CRC field. -/
theorem flippedBitFailsFrameCheck : Obligations.FlippedBitFailsFrameCheck := by
  intro f payload s p hs hcrc hfit hp
  obtain ⟨k, hf⟩ := Option.isSome_iff_exists.1 hcrc
  obtain ⟨before, x, y, after, hxy, hframe, hflip⟩ := flipBit_eq hp
  have hsame : (before ++ y :: after).length = (frameBytes f payload).length := by rw [hframe]; simp
  have hloaded : Loaded (loadInput (before ++ y :: after) s) (before ++ y :: after) :=
    loaded_loadInput hs (by rw [hsame]; exact hfit)
  have hrlen := hloaded.rlen
  have hlen := length_frameBytes f payload
  rw [hflip]
  exact checkFrame_of_not_crcMatches (by omega) (by omega) (not_crcMatches_of_one_changed hf hxy hframe hloaded)

end Sys2Proof.Machine

/-! The bit writer (42_bitwriter.md R150 to R158): what a write command can come to, what a sequence of items leaves in
the stream, and where W_BYTES and R_BYTES stop. Settles O17, O18, O19, O20, O21. -/

namespace Sys2Proof.Safety

open Sys2Proof.Machine

/-! ### One write -/

/-- The state after `n` bits of `v` were appended and OK was answered. -/
def appended (s : State) (v n : Nat) : State :=
  ((s.setObuf (writeBits s.obuf s.wpos.toNat v n)).setWpos (s.wpos + BitVec.ofNat 32 n)).setResponse
    (some (okResponse 0#64))

theorem respond_putPlain_fits {s : State} {v n : Nat} (hfit : s.wpos.toNat + n ≤ 8 * s.cfg.obufBytes) :
    respond (putPlain v n s) = .next (appended s v n) := by
  have hpos : BitVec.ofNat 32 (s.wpos.toNat + n) = s.wpos + BitVec.ofNat 32 n := by
    rw [BitVec.ofNat_add, BitVec.ofNat_toNat, BitVec.setWidth_eq]
  rw [putPlain_eq, if_pos hfit, hpos]; rfl

theorem respond_putPlain_full {s : State} {v n : Nat} (hfull : 8 * s.cfg.obufBytes < s.wpos.toNat + n) :
    respond (putPlain v n s) = .next (s.setResponse (some (errorResponse (plainError .capacityObufFull)))) := by
  rw [putPlain_eq, if_neg (Nat.not_le.2 hfull)]; rfl

theorem bitsAppended_appended {s : State} (hs : Inv s) (v n : Nat) : BitsAppended s (appended s v n) n v := by
  have hbit : ∀ p, streamBit (appended s v n).obufAt p =
      if s.wpos.toNat ≤ p ∧ p < s.wpos.toNat + n then v.testBit (n - 1 - (p - s.wpos.toNat))
      else streamBit s.obufAt p := streamBit_writeBits hs.obufWf _ v n
  refine ⟨rfl, fun j hj => ?_, fun p hp => ?_⟩
  · rw [hbit, if_pos (by omega), Nat.add_sub_cancel_left]
  · rw [hbit, if_neg (by omega)]

theorem exec_wUint_width {s : State} {n : BitVec 8} (hn : n.toNat < 1 ∨ 64 < n.toNat) (w : Word64) :
    exec (.wUint n w) s = .next (s.setResponse (some (errorResponse (plainError .rangeWidth)))) := by
  rw [exec_wUint, opUnsigned, putUint_eq, if_pos (by omega)]; rfl

theorem exec_wUint_value {s : State} {n : BitVec 8} {w : Word64} (h1 : 1 ≤ n.toNat) (h64 : n.toNat ≤ 64)
    (hw : 2 ^ n.toNat ≤ w.toNat) :
    exec (.wUint n w) s = .next (s.setResponse (some (errorResponse (plainError .rangeValue)))) := by
  rw [exec_wUint, putUint_eq, if_neg (not_not.2 ⟨h1, h64⟩), if_pos hw]; rfl

theorem exec_wInt_width {s : State} {n : BitVec 8} (hn : n.toNat < 2 ∨ 64 < n.toNat) (w : Word64) :
    exec (.wInt n w) s = .next (s.setResponse (some (errorResponse (plainError .rangeWidth)))) := by
  rw [exec_wInt, opUnsigned, putInt_eq, if_pos (by omega)]; rfl

theorem exec_wInt_value {s : State} {n : BitVec 8} {w : Word64} (h2 : 2 ≤ n.toNat) (h64 : n.toNat ≤ 64)
    (hw : w.toInt < -(2 ^ (n.toNat - 1) : Int) ∨ (2 ^ (n.toNat - 1) : Int) - 1 < w.toInt) :
    exec (.wInt n w) s = .next (s.setResponse (some (errorResponse (plainError .rangeValue)))) := by
  rw [exec_wInt, opUnsigned, opSigned, putInt_eq, if_neg (not_not.2 ⟨h2, h64⟩), if_pos (by omega)]; rfl

/-- The two's-complement pattern of a word in up to 64 bits is its low bits (42_bitwriter.md R153). -/
theorem toNat_toInt_emod (w : Word64) {n : Nat} (hn : n ≤ 64) :
    (w.toInt % 2 ^ n).toNat = w.toNat % 2 ^ n := by
  have hmod : w.toInt % 2 ^ n = ((w.toNat % 2 ^ n : Nat) : Int) := by
    have hdvd : (2 ^ n : Int) ∣ ((2 ^ 64 : Nat) : Int) := by
      rw [Nat.cast_pow]; exact pow_dvd_pow 2 hn
    rw [BitVec.toInt_eq_toNat_bmod, ← Int.emod_emod_of_dvd _ hdvd, Int.bmod_emod, Int.emod_emod_of_dvd _ hdvd]
    norm_cast
  rw [hmod, Int.toNat_natCast]

/-- The write of a legal item passes its checks. -/
theorem exec_write {x : StreamItem} (hx : x.Legal) (s : State) :
    exec x.write s = respond (putPlain x.pattern x.bits s) := by
  cases x with
  | bit b => exact exec_wBool b s
  | uint n v =>
    obtain ⟨h1, h64, hv⟩ := hx
    rw [StreamItem.write, exec_wUint, putUint_eq, if_neg (not_not.2 ⟨h1, h64⟩), if_neg (Nat.not_le.2 hv)]; rfl
  | int n v =>
    obtain ⟨h2, h64, hlo, hhi⟩ := hx
    rw [StreamItem.write, exec_wInt, putInt_eq, if_neg (not_not.2 ⟨h2, h64⟩),
      if_neg (not_not.2 ⟨hlo, Int.le_sub_one_of_lt hhi⟩), opUnsigned, opSigned, toNat_toInt_emod v h64]; rfl
  | byte b => exact exec_wByte b s

theorem exec_write_fits {x : StreamItem} {s : State} (hx : x.Legal) (hs : Inv s)
    (hfit : s.wpos.toNat + x.bits ≤ 8 * s.cfg.obufBytes) :
    ∃ t, exec x.write s = .next t ∧ BitsAppended s t x.bits x.pattern :=
  ⟨_, (exec_write hx s).trans (respond_putPlain_fits hfit), bitsAppended_appended hs _ _⟩

theorem exec_write_full {x : StreamItem} {s : State} (hx : x.Legal)
    (hfull : 8 * s.cfg.obufBytes < s.wpos.toNat + x.bits) :
    exec x.write s = .next (s.setResponse (some (errorResponse (plainError .capacityObufFull)))) :=
  (exec_write hx s).trans (respond_putPlain_full hfull)

/-- Settles O17: each command writes an item of the stream. -/
theorem writesAppendTheirField : Obligations.WritesAppendTheirField := by
  intro s hs
  refine ⟨fun bit hfit => ?_, fun n w h1 h64 hw hfit => ?_, fun n w h2 h64 hlo hhi hfit => ?_, fun byte hfit => ?_⟩
  · exact exec_write_fits (x := .bit bit) trivial hs hfit
  · exact exec_write_fits (x := .uint n w) ⟨h1, h64, hw⟩ hs hfit
  · rw [toNat_toInt_emod w h64]
    exact exec_write_fits (x := .int n w) ⟨h2, h64, hlo, Int.lt_of_le_sub_one hhi⟩ hs hfit
  · exact exec_write_fits (x := .byte byte) trivial hs hfit

/-- Settles O18: the width and the value are checked before the capacity is. -/
theorem writerErrorsInOrder : Obligations.WriterErrorsInOrder := by
  intro s n w
  refine ⟨fun hn => exec_wUint_width hn w, fun h1 h64 hw => exec_wUint_value h1 h64 hw, fun h1 h64 hw hfull => ?_,
    fun hn => exec_wInt_width hn w, fun h2 h64 hw => exec_wInt_value h2 h64 hw, fun h2 h64 hlo hhi hfull => ?_,
    fun bit hfull => ?_, fun byte hfull => ?_⟩
  · exact exec_write_full (x := .uint n w) ⟨h1, h64, hw⟩ hfull
  · exact exec_write_full (x := .int n w) ⟨h2, h64, hlo, Int.lt_of_le_sub_one hhi⟩ hfull
  · exact exec_write_full (x := .bit bit) trivial hfull
  · exact exec_write_full (x := .byte byte) trivial hfull

/-- Settles O21: each answer is an equation of the meaning. -/
theorem positionCommands : Obligations.PositionCommands := by
  intro s
  have hlen : (BitVec.ofNat 64 s.outLen).toNat = (s.wpos.toNat + 7) / 8 := by
    rw [State.outLen, BitVec.toNat_ofNat]; omega
  refine ⟨⟨[], rfl, obufByte_nil⟩, ⟨BitVec.ofNat 64 s.outLen, rfl, by omega, by omega⟩,
    ⟨s.wpos.setWidth 64, rfl, BitVec.toNat_setWidth_of_le (by decide)⟩, rfl,
    s.rpos.setWidth 64, rfl, BitVec.toNat_setWidth_of_le (by decide)⟩

/-! ### A write that fails, and the bits before a write -/

theorem exec_write_cases {x : StreamItem} (hx : x.Legal) (s : State) :
    (∃ e, exec x.write s = .next (s.setResponse (some (errorResponse e)))) ∨
      ∃ v n, exec x.write s = .next (appended s v n) := by
  by_cases hfit : s.wpos.toNat + x.bits ≤ 8 * s.cfg.obufBytes
  · exact .inr ⟨_, _, (exec_write hx s).trans (respond_putPlain_fits hfit)⟩
  · exact .inl ⟨_, exec_write_full hx (Nat.lt_of_not_le hfit)⟩

/-- All that a write command can come to: an error that changes nothing, or bits appended. -/
theorem exec_appends {i : Instr} (hi : Appends i) (s : State) :
    (∃ e, exec i s = .next (s.setResponse (some (errorResponse e)))) ∨ ∃ v n, exec i s = .next (appended s v n) := by
  cases i with
  | wBool b => exact exec_write_cases (x := .bit b) trivial s
  | wUint n w =>
    by_cases hn : n.toNat < 1 ∨ 64 < n.toNat
    · exact .inl ⟨_, exec_wUint_width hn w⟩
    · by_cases hw : 2 ^ n.toNat ≤ w.toNat
      · exact .inl ⟨_, exec_wUint_value (by omega) (by omega) hw⟩
      · exact exec_write_cases (x := .uint n w) ⟨by omega, by omega, Nat.lt_of_not_le hw⟩ s
  | wInt n w =>
    by_cases hn : n.toNat < 2 ∨ 64 < n.toNat
    · exact .inl ⟨_, exec_wInt_width hn w⟩
    · by_cases hw : w.toInt < -(2 ^ (n.toNat - 1) : Int) ∨ (2 ^ (n.toNat - 1) : Int) - 1 < w.toInt
      · exact .inl ⟨_, exec_wInt_value (by omega) (by omega) hw⟩
      · exact exec_write_cases (x := .int n w) ⟨by omega, by omega, by omega, by omega⟩ s
  | wByte b => exact exec_write_cases (x := .byte b) trivial s
  | _ => exact hi.elim

/-- R158 (b): the writer after a failing write. -/
theorem writer_same_of_isError {i : Instr} {s t : State} (hi : Appends i) (h : exec i s = .next t) (ht : IsError t) :
    t.wpos = s.wpos ∧ t.obuf = s.obuf := by
  obtain ⟨e, he⟩ | ⟨v, n, hv⟩ := exec_appends hi s
  · cases h.symm.trans he; exact ⟨rfl, rfl⟩
  · cases h.symm.trans hv
    obtain ⟨r, hr, herr⟩ := ht
    cases hr; exact absurd rfl herr

/-- R158 (c): the bits below the WPOS a write started at. -/
theorem streamBit_of_appends {i : Instr} {s t : State} (hs : Inv s) (hi : Appends i) (h : exec i s = .next t) {p : Nat}
    (hp : p < s.wpos.toNat) : streamBit t.obufAt p = streamBit s.obufAt p := by
  obtain ⟨e, he⟩ | ⟨v, n, hv⟩ := exec_appends hi s
  · cases h.symm.trans he; rfl
  · cases h.symm.trans hv; exact (bitsAppended_appended hs v n).frame p (.inl hp)

/-! ### Sequences of writes -/

theorem StreamItem.pattern_lt {x : StreamItem} (hx : x.Legal) : x.pattern < 2 ^ x.bits := by
  cases x with
  | bit b => exact b.isLt
  | uint n v =>
    obtain ⟨-, -, hv⟩ := hx
    exact hv
  | int n v => exact Nat.mod_lt _ (Nat.two_pow_pos _)
  | byte b => exact b.isLt

@[simp] theorem itemBits_nil : itemBits [] = 0 := rfl

@[simp] theorem itemBits_cons (x : StreamItem) (xs : List StreamItem) : itemBits (x :: xs) = x.bits + itemBits xs := by
  simp [itemBits]

theorem itemBits_bytes (bs : List Byte) : itemBits (bs.map .byte) = 8 * bs.length := by
  induction bs with
  | nil => rfl
  | cons b bs ih =>
    rw [List.map_cons, itemBits_cons, ih, StreamItem.bits, List.length_cons]; ring

theorem BitsAppended.wpos_toNat {s t : State} {n v : Nat} (h : BitsAppended s t n v) (hs : Inv s)
    (hfit : s.wpos.toNat + n ≤ 8 * s.cfg.obufBytes) : t.wpos.toNat = s.wpos.toNat + n := by
  have hpos : t.wpos = BitVec.ofNat 32 (s.wpos.toNat + n) := by
    rw [BitVec.ofNat_add, BitVec.ofNat_toNat, BitVec.setWidth_eq, h.rest]; rfl
  rw [hpos, hs.wpos_add hfit]

theorem BitsAppended.fieldAt {s t : State} {n v : Nat} (h : BitsAppended s t n v) (hv : v < 2 ^ n) :
    FieldAt t.obufAt s.wpos.toNat n v := ⟨hv, fun j hj => (h.bits j hj).symm⟩

/-- `t` is `s` with the items appended to the writer one after another, and perhaps another last response. -/
structure ItemsAppended (s t : State) (xs : List StreamItem) : Prop where
  only : t = ((s.setObuf t.obuf).setWpos t.wpos).setResponse t.response
  pos : t.wpos.toNat = s.wpos.toNat + itemBits xs
  items : ∀ i x, xs[i]? = some x → FieldAt t.obufAt (s.wpos.toNat + itemBits (xs.take i)) x.bits x.pattern
  keep : ∀ p < s.wpos.toNat, streamBit t.obufAt p = streamBit s.obufAt p
  inv : Inv t

theorem ItemsAppended.nil {s : State} (hs : Inv s) : ItemsAppended s s [] :=
  ⟨rfl, rfl, fun _ _ h => (nomatch h), fun _ _ => rfl, hs⟩

theorem ItemsAppended.cons {s t u : State} {x : StreamItem} {xs : List StreamItem} (hx : x.Legal)
    (h : BitsAppended s t x.bits x.pattern) (hpos : t.wpos.toNat = s.wpos.toNat + x.bits) (hs : ItemsAppended t u xs) :
    ItemsAppended s u (x :: xs) := by
  refine ⟨?_, by rw [hs.pos, hpos, itemBits_cons, Nat.add_assoc], fun i y hy => ?_, fun p hp => ?_, hs.inv⟩
  · calc u = ((t.setObuf u.obuf).setWpos u.wpos).setResponse u.response := hs.only
      _ = ((s.setObuf u.obuf).setWpos u.wpos).setResponse u.response := by rw [h.rest]; rfl
  · cases i with
    | zero =>
      obtain rfl : x = y := by simpa using hy
      exact fieldAt_congr (fun q _ hq => hs.keep q (by rw [hpos]; exact hq)) (h.fieldAt (StreamItem.pattern_lt hx))
    | succ i =>
      rw [List.take_succ_cons, itemBits_cons, ← Nat.add_assoc, ← hpos]
      exact hs.items i y (by simpa using hy)
  · rw [hs.keep p (by omega), h.frame p (.inl hp)]

theorem ItemsAppended.setResponse {s t : State} {xs : List StreamItem} (h : ItemsAppended s t xs)
    (r : Option Response) : ItemsAppended s (t.setResponse r) xs :=
  ⟨(congrArg (State.setResponse · r) h.only :), h.pos, h.items, h.keep, h.inv.setResponse r⟩

/-- No bit from the new WPOS on differs: R41 has zeros there before and after. -/
theorem ItemsAppended.frame {s t : State} {xs : List StreamItem} (h : ItemsAppended s t xs) (hs : Inv s) {p : Nat}
    (hp : p < s.wpos.toNat ∨ t.wpos.toNat ≤ p) : streamBit t.obufAt p = streamBit s.obufAt p := by
  obtain hlt | hge := hp
  · exact h.keep p hlt
  · have hpos := h.pos
    rw [h.inv.zeroTail p hge, hs.zeroTail p (by omega)]

/-- Legal items that fit are all written. -/
theorem sendUntilError_writes {s : State} {xs : List StreamItem} (hs : Inv s) (hxs : ∀ x ∈ xs, x.Legal)
    (hfit : s.wpos.toNat + itemBits xs ≤ 8 * s.cfg.obufBytes) :
    ∃ t, sendUntilError (xs.map StreamItem.write) s = (List.replicate xs.length okZero, t) ∧ ItemsAppended s t xs := by
  induction xs generalizing s with
  | nil => exact ⟨s, rfl, .nil hs⟩
  | cons x xs ih =>
    obtain ⟨hx, hxs⟩ := List.forall_mem_cons.1 hxs
    rw [itemBits_cons] at hfit
    obtain ⟨t, ht, happ⟩ := exec_write_fits (s := s) hx hs (by omega)
    have hpos := happ.wpos_toNat hs (by omega)
    have hcfg : t.cfg = s.cfg := by rw [happ.rest]; rfl
    obtain ⟨u, hu, hitems⟩ := ih (hs.exec ht) hxs (by rw [hpos, hcfg]; omega)
    refine ⟨u, ?_, .cons hx happ hpos hitems⟩
    rw [happ.rest] at ht hu
    exact sendUntilError_cons_of_exec ht hu

/-- Commands of which none answered an error were all sent. -/
theorem sendAll_of_sendUntilError {is : List Instr} {s t : State} {rs : List Response}
    (h : sendUntilError is s = (rs, t)) (hok : ∀ r ∈ rs, r.status = 0#32) : sendAll is s = (rs, t) := by
  rw [← h]; exact (sendUntilError_ok (by rw [h]; exact firstError_eq_none hok)).symm

/-- Instructions run one after another leave what they leave when they are sent. -/
theorem runAll_eq_sendAll (is : List Instr) (s : State) : runAll is s = some (sendAll is s).2 := by
  induction is generalizing s with
  | nil => rfl
  | cons i is ih =>
    obtain ⟨t, ht⟩ := exec_next i s
    rw [runAll, ht, sendAll, sendCommand_encode ht]; exact ih t

theorem status_of_mem_replicate_okZero {n : Nat} : ∀ r ∈ List.replicate n okZero, r.status = 0#32 :=
  fun _ hr => by rw [List.eq_of_mem_replicate hr]; rfl

/-- R158 (a), from a clear. -/
theorem runAll_clear_writes {s : State} {xs : List StreamItem} (hs : Inv s) (hxs : ∀ x ∈ xs, x.Legal)
    (hfit : itemBits xs ≤ 8 * s.cfg.obufBytes) :
    ∃ t, runAll (.wClear :: xs.map StreamItem.write) s = some t ∧
      ItemsAppended ((clearWriter s).setResponse (some okZero)) t xs := by
  obtain ⟨t, ht, hitems⟩ := sendUntilError_writes (s := (clearWriter s).setResponse (some okZero))
    (hs.clearWriter.setResponse _) hxs (by
      show 0 + itemBits xs ≤ 8 * s.cfg.obufBytes
      omega)
  refine ⟨t, ?_, hitems⟩
  calc runAll (.wClear :: xs.map StreamItem.write) s
      = runAll (xs.map StreamItem.write) ((clearWriter s).setResponse (some okZero)) := rfl
    _ = some t := by rw [runAll_eq_sendAll, sendAll_of_sendUntilError ht status_of_mem_replicate_okZero]

/-- Settles O19: (a) from the items appended to a cleared writer, (b) and (c) from all that a write can come to. -/
theorem writerLaws : Obligations.WriterLaws := by
  refine ⟨fun s xs hs hxs hfit => ?_, fun i s t hi h ht => writer_same_of_isError hi h ht,
    fun i s t hs hi h p hp => streamBit_of_appends hs hi h hp⟩
  obtain ⟨t, ht, hitems⟩ := runAll_clear_writes hs hxs hfit
  have hpos : t.wpos.toNat = itemBits xs := hitems.pos.trans (Nat.zero_add _)
  refine ⟨t, ht, hpos, fun i x hx => ?_, fun p hp => hitems.inv.zeroTail p (by omega)⟩
  have hfield := hitems.items i x hx
  rwa [show ((clearWriter s).setResponse (some okZero)).wpos.toNat = 0 from rfl, Nat.zero_add] at hfield

/-! ### W_BYTES -/

/-- How many whole bytes the writer still has room for. -/
def byteRoom (s : State) : Nat := (8 * s.cfg.obufBytes - s.wpos.toNat) / 8

theorem exec_wByte_full {s : State} (b : Byte) (hfull : byteRoom s = 0) :
    exec (.wByte b) s = .next (s.setResponse (some (errorResponse (plainError .capacityObufFull)))) := by
  unfold byteRoom at hfull
  exact exec_write_full (x := .byte b) trivial (show _ < s.wpos.toNat + 8 by omega)

theorem byteRoom_of_itemsAppended {s t : State} {bs : List Byte} (h : ItemsAppended s t (bs.map .byte)) :
    byteRoom t = byteRoom s - bs.length := by
  have hcfg : t.cfg = s.cfg := by rw [h.only]; rfl
  rw [byteRoom, byteRoom, hcfg, h.pos, itemBits_bytes]; omega

/-- W_BYTES of bytes for which there is room. -/
theorem runPseudo_wBytes_fits {s : State} {bs : List Byte} (hs : Inv s) (hfit : bs.length ≤ byteRoom s) :
    ∃ t, runPseudo (.wBytes bs) s = (List.replicate bs.length okZero, t) ∧ ItemsAppended s t (bs.map .byte) := by
  have hle := hs.wposLe
  unfold byteRoom at hfit
  obtain ⟨t, ht, hitems⟩ := sendUntilError_writes (xs := bs.map .byte) hs (by simp [StreamItem.Legal])
    (by rw [itemBits_bytes]; omega)
  rw [List.map_map, List.length_map] at ht
  exact ⟨t, ht, hitems⟩

/-- W_BYTES of more: the first byte for which there is none ends it. -/
theorem runPseudo_wBytes_full {s : State} {bs : List Byte} (hs : Inv s) (hfull : byteRoom s < bs.length) :
    ∃ t, runPseudo (.wBytes bs) s =
        (List.replicate (byteRoom s) okZero ++ [errorResponse (plainError .capacityObufFull)], t) ∧
      ItemsAppended s t ((bs.take (byteRoom s)).map .byte) := by
  have hlen : (bs.take (byteRoom s)).length = byteRoom s := List.length_take_of_le hfull.le
  obtain ⟨t, ht, hitems⟩ := runPseudo_wBytes_fits (bs := bs.take (byteRoom s)) hs hlen.le
  have hroom : byteRoom t = 0 := by rw [byteRoom_of_itemsAppended hitems, hlen, Nat.sub_self]
  have hsplit : bs.map Instr.wByte = (bs.take (byteRoom s)).map .wByte ++
      .wByte bs[byteRoom s] :: (bs.drop (byteRoom s + 1)).map .wByte := by
    rw [← List.map_cons, ← List.map_append, ← List.drop_eq_getElem_cons hfull, List.take_append_drop]
  rw [hlen] at ht
  refine ⟨t.setResponse (some (errorResponse (plainError .capacityObufFull))), ?_, hitems.setResponse _⟩
  rw [runPseudo, expandPseudo, hsplit]
  exact sendUntilError_stops (sendAll_of_sendUntilError ht status_of_mem_replicate_okZero)
    status_of_mem_replicate_okZero (exec_wByte_full _ hroom) rfl (by decide)

/-- R155: W_BYTES writes the bytes for which there is room. -/
theorem runPseudo_wBytes {s : State} (bs : List Byte) (hs : Inv s) :
    ∃ t, ItemsAppended s t ((bs.take (byteRoom s)).map .byte) ∧
      (bs.length ≤ byteRoom s → runPseudo (.wBytes bs) s = (List.replicate bs.length okZero, t)) ∧
      (byteRoom s < bs.length → runPseudo (.wBytes bs) s =
        (List.replicate (byteRoom s) okZero ++ [errorResponse (plainError .capacityObufFull)], t)) := by
  by_cases hfit : bs.length ≤ byteRoom s
  · obtain ⟨t, ht, hitems⟩ := runPseudo_wBytes_fits hs hfit
    exact ⟨t, by rwa [List.take_of_length_le hfit], fun _ => ht, fun hfull => absurd hfit (Nat.not_le.2 hfull)⟩
  · obtain ⟨t, ht, hitems⟩ := runPseudo_wBytes_full hs (Nat.lt_of_not_le hfit)
    exact ⟨t, hitems, fun h => absurd h hfit, fun _ => ht⟩

/-- A byte written stands 8 bits after the one before it. -/
theorem ItemsAppended.byteAt {s t : State} {bs : List Byte} (h : ItemsAppended s t (bs.map .byte)) {j : Nat} {b : Byte}
    (hb : bs[j]? = some b) : FieldAt t.obufAt (s.wpos.toNat + 8 * j) 8 b.toNat := by
  obtain ⟨hj, -⟩ := List.getElem?_eq_some_iff.1 hb
  have hfield := h.items j (.byte b) (by rw [List.getElem?_map, hb]; rfl)
  rwa [← List.map_take, itemBits_bytes, List.length_take_of_le hj.le] at hfield

/-! ### R_BYTES -/

/-- How many whole bytes the reader still has before it. -/
def bytesLeft (s : State) : Nat := (8 * s.rlen.toNat - s.rpos.toNat) / 8

/-- `t` is `s` with `k` bytes read, and perhaps another last response. -/
structure BytesRead (s t : State) (k : Nat) : Prop where
  only : t = (s.setRpos t.rpos).setResponse t.response
  pos : t.rpos.toNat = s.rpos.toNat + 8 * k
  inv : Inv t

theorem BytesRead.setResponse {s t : State} {k : Nat} (h : BytesRead s t k) (r : Option Response) :
    BytesRead s (t.setResponse r) k :=
  ⟨(congrArg (State.setResponse · r) h.only :), h.pos, h.inv.setResponse r⟩

theorem bytesLeft_of_bytesRead {s t : State} {k : Nat} (h : BytesRead s t k) : bytesLeft t = bytesLeft s - k := by
  have hrlen : t.rlen = s.rlen := by rw [h.only]; rfl
  rw [bytesLeft, bytesLeft, hrlen, h.pos]; omega

theorem wireBytes_succ (f : Nat → Byte) (p k : Nat) :
    wireBytes f p (k + 1) = BitVec.ofNat 8 (readBits f p 8) :: wireBytes f (p + 8) k := by
  rw [wireBytes, wireBytes, List.range_succ_eq_map, List.map_cons, List.map_map]
  congr 1
  refine List.map_congr_left fun j _ => ?_
  rw [Function.comp_apply, show p + 8 * (j + 1) = p + 8 + 8 * j by ring]

theorem exec_rByte_fits {s : State} (hfit : s.rpos.toNat + 8 ≤ 8 * s.rlen.toNat) :
    exec .rByte s = .next ((s.setRpos (BitVec.ofNat 32 (s.rpos.toNat + 8))).setResponse
      (some (okResponse ((BitVec.ofNat 8 (readBits s.ibufAt s.rpos.toNat 8)).setWidth 64)))) := by
  rw [exec_rByte, getZext_eq, if_pos hfit, BitVec.setWidth_ofNat_of_le_of_lt (by decide) (readBits_lt _ _ _)]; rfl

theorem exec_rByte_short {s : State} (hshort : 8 * s.rlen.toNat < s.rpos.toNat + 8) :
    exec .rByte s = .next (s.setResponse (some (errorResponse (plainError .truncInsufficient)))) := by
  rw [exec_rByte, getZext_eq, if_neg (Nat.not_le.2 hshort)]; rfl

/-- R_BYTES of bytes that are there. -/
theorem sendUntilError_rBytes {s : State} {k : Nat} (hs : Inv s) (hthere : k ≤ bytesLeft s) :
    ∃ t, sendUntilError (List.replicate k .rByte) s =
        ((wireBytes s.ibufAt s.rpos.toNat k).map fun b => okResponse (b.setWidth 64), t) ∧ BytesRead s t k := by
  induction k generalizing s with
  | zero => exact ⟨s, rfl, rfl, rfl, hs⟩
  | succ k ih =>
    have hfit : s.rpos.toNat + 8 ≤ 8 * s.rlen.toNat := by unfold bytesLeft at hthere; omega
    have hexec := exec_rByte_fits hfit
    have hpos := hs.rpos_add hfit
    have hread : BytesRead s _ 1 := ⟨rfl, hpos, hs.exec hexec⟩
    obtain ⟨t, ht, hrest⟩ := ih hread.inv (by rw [bytesLeft_of_bytesRead hread]; omega)
    have hwire : wireBytes s.ibufAt s.rpos.toNat (k + 1) = BitVec.ofNat 8 (readBits s.ibufAt s.rpos.toNat 8) ::
        wireBytes s.ibufAt (BitVec.ofNat 32 (s.rpos.toNat + 8)).toNat k := by rw [wireBytes_succ, hpos]
    refine ⟨t, ?_, hrest.only, ?_, hrest.inv⟩
    · rw [List.replicate_succ, sendUntilError_cons_of_exec hexec ht, hwire]; rfl
    · rw [hrest.pos, hread.pos]; ring

/-- R_BYTES of more: the first byte that is not there ends it. -/
theorem runPseudo_rBytes_short {s : State} {k : Nat} (hs : Inv s) (hshort : bytesLeft s < k) :
    ∃ t, runPseudo (.rBytes k) s =
        (((wireBytes s.ibufAt s.rpos.toNat (bytesLeft s)).map fun b => okResponse (b.setWidth 64)) ++
          [errorResponse (plainError .truncInsufficient)], t) ∧ BytesRead s t (bytesLeft s) := by
  obtain ⟨t, ht, hread⟩ := sendUntilError_rBytes hs le_rfl
  have hsplit : List.replicate k Instr.rByte =
      List.replicate (bytesLeft s) .rByte ++ .rByte :: List.replicate (k - bytesLeft s - 1) .rByte := by
    rw [← List.replicate_succ, List.replicate_append_replicate]; congr 1; omega
  have hleft : bytesLeft t = 0 := by rw [bytesLeft_of_bytesRead hread, Nat.sub_self]
  have hok : ∀ r ∈ (wireBytes s.ibufAt s.rpos.toNat (bytesLeft s)).map fun b => okResponse (b.setWidth 64),
      r.status = 0#32 := by simp
  refine ⟨t.setResponse (some (errorResponse (plainError .truncInsufficient))), ?_, hread.setResponse _⟩
  rw [runPseudo, expandPseudo, hsplit]
  exact sendUntilError_stops (sendAll_of_sendUntilError ht hok) hok
    (exec_rByte_short (by unfold bytesLeft at hleft; omega)) rfl (by decide)

/-- R176: R_BYTES reads the bytes that are there. -/
theorem runPseudo_rBytes {s : State} (k : Nat) (hs : Inv s) :
    let results := (wireBytes s.ibufAt s.rpos.toNat (min k (bytesLeft s))).map fun b => okResponse (b.setWidth 64)
    ∃ t, BytesRead s t (min k (bytesLeft s)) ∧
      (k ≤ bytesLeft s → runPseudo (.rBytes k) s = (results, t)) ∧
      (bytesLeft s < k →
        runPseudo (.rBytes k) s = (results ++ [errorResponse (plainError .truncInsufficient)], t)) := by
  obtain hthere | hshort := Nat.lt_or_ge (bytesLeft s) k |>.symm
  · obtain ⟨t, ht, hread⟩ := sendUntilError_rBytes hs hthere
    rw [Nat.min_eq_left hthere]
    exact ⟨t, hread, fun _ => ht, fun h => absurd hthere (Nat.not_le.2 h)⟩
  · obtain ⟨t, ht, hread⟩ := runPseudo_rBytes_short hs hshort
    rw [Nat.min_eq_right hshort.le]
    exact ⟨t, hread, fun h => absurd h (Nat.not_le.2 hshort), fun _ => ht⟩

/-- R154: W_BYTE is W_UINT of width 8. -/
theorem exec_wByte_eq_wUint (s : State) (b : Byte) : exec (.wByte b) s = exec (.wUint 8#8 (b.setWidth 64)) s := by
  have hb : (b.setWidth 64).toNat = b.toNat := BitVec.toNat_setWidth_of_le (by decide)
  have hlegal : (StreamItem.uint 8#8 (b.setWidth 64)).Legal := ⟨by decide, by decide, hb ▸ b.isLt⟩
  calc exec (.wByte b) s = respond (putPlain b.toNat 8 s) := exec_wByte b s
    _ = respond (putPlain (b.setWidth 64).toNat 8 s) := by rw [hb]
    _ = exec (.wUint 8#8 (b.setWidth 64)) s := (exec_write hlegal s).symm

/-- Settles O20: the bytes before the first that fails are items appended, or bytes read. -/
theorem byteStringsStopAtFailingByte : Obligations.ByteStringsStopAtFailingByte := by
  refine ⟨fun s bs hs => ?_, fun s k hs => ?_, exec_wByte_eq_wUint⟩
  · obtain ⟨t, hitems, hfits, hfull⟩ := runPseudo_wBytes bs hs
    refine ⟨t, hitems.only, hfits, hfull, ?_, fun j b hb hj => ?_, fun p hp => hitems.frame hs hp⟩
    · rw [hitems.pos, itemBits_bytes, List.length_take, Nat.min_comm]; rfl
    · exact hitems.byteAt ((List.getElem?_take_of_lt hj).trans hb)
  · obtain ⟨t, hread, hthere, hshort⟩ := runPseudo_rBytes k hs
    exact ⟨t, hread.only, hthere, hshort, hread.pos⟩

end Sys2Proof.Safety

/-! The bit reader (43_bitreader.md R171 to R177): what a read command can come to, what its field is as a result word,
and that items read back from where they stand in the stream. Settles O22, O23, O24. -/

namespace Sys2Proof.Safety

open Sys2Proof.Machine

/-! ### One read -/

/-- The command reads the `n` bits at RPOS and answers the word for the number they make. -/
def Fetches (i : Instr) (n : Nat) (word : Nat → Word64) : Prop :=
  ∀ s, exec i s = respond ((getPlain n s).bind fun u t => .ok (word u) t)

/-- The result word of R_INT for a window `u` of `n` bits. -/
def windowWord (n u : Nat) : Word64 := BitVec.ofInt 64 (windowValue n u)

theorem fetches_rBool : Fetches .rBool 1 (BitVec.ofNat 64) := exec_rBool

theorem fetches_rByte : Fetches .rByte 8 (BitVec.ofNat 64) := exec_rByte

theorem fetches_rUint {n : BitVec 8} (h1 : 1 ≤ n.toNat) (h64 : n.toNat ≤ 64) :
    Fetches (.rUint n) n.toNat (BitVec.ofNat 64) := fun s => by
  rw [exec_rUint, getUint_eq, if_pos ⟨h1, h64⟩]; rfl

theorem fetches_rInt {n : BitVec 8} (h2 : 2 ≤ n.toNat) (h64 : n.toNat ≤ 64) :
    Fetches (.rInt n) n.toNat (windowWord n.toNat) := fun s => by
  rw [exec_rInt, opUnsigned, getInt, if_neg (by omega)]; rfl

theorem exec_rUint_width {s : State} {n : BitVec 8} (hn : n.toNat < 1 ∨ 64 < n.toNat) :
    exec (.rUint n) s = .next (s.setResponse (some (errorResponse (plainError .rangeWidth)))) := by
  rw [exec_rUint, opUnsigned, getUint_eq, if_neg (by omega)]; rfl

theorem exec_rInt_width {s : State} {n : BitVec 8} (hn : n.toNat < 2 ∨ 64 < n.toNat) :
    exec (.rInt n) s = .next (s.setResponse (some (errorResponse (plainError .rangeWidth)))) := by
  rw [exec_rInt, opUnsigned, getInt_eq, if_neg (by omega)]; rfl

section
variable {i : Instr} {n : Nat} {word : Nat → Word64} {s : State} (h : Fetches i n word)
include h

theorem Fetches.fits (hfit : s.rpos.toNat + n ≤ 8 * s.rlen.toNat) :
    exec i s = .next ((s.setRpos (s.rpos + BitVec.ofNat 32 n)).setResponse
      (some (okResponse (word (readBits s.ibufAt s.rpos.toNat n))))) := by
  have hpos : BitVec.ofNat 32 (s.rpos.toNat + n) = s.rpos + BitVec.ofNat 32 n := by
    rw [BitVec.ofNat_add, BitVec.ofNat_toNat, BitVec.setWidth_eq]
  rw [h s, getPlain_eq, if_pos hfit, hpos]; rfl

theorem Fetches.short (hshort : 8 * s.rlen.toNat < s.rpos.toNat + n) :
    exec i s = .next (s.setResponse (some (errorResponse (plainError .truncInsufficient)))) := by
  rw [h s, getPlain_eq, if_neg (Nat.not_le.2 hshort)]; rfl

theorem Fetches.cases (s : State) :
    (∃ e, exec i s = .next (s.setResponse (some (errorResponse e)))) ∨
      ∃ p v, exec i s = .next ((s.setRpos p).setResponse (some (okResponse v))) := by
  by_cases hfit : s.rpos.toNat + n ≤ 8 * s.rlen.toNat
  · exact .inr ⟨_, _, h.fits hfit⟩
  · exact .inl ⟨_, h.short (Nat.lt_of_not_le hfit)⟩

end

/-- All that a read command can come to: an error that changes nothing, or RPOS moved and an answer. -/
theorem exec_consumes {i : Instr} (hi : Consumes i) (s : State) :
    (∃ e, exec i s = .next (s.setResponse (some (errorResponse e)))) ∨
      ∃ p v, exec i s = .next ((s.setRpos p).setResponse (some (okResponse v))) := by
  cases i with
  | rBool => exact fetches_rBool.cases s
  | rUint n =>
    by_cases hn : n.toNat < 1 ∨ 64 < n.toNat
    · exact .inl ⟨_, exec_rUint_width hn⟩
    · exact (fetches_rUint (by omega) (by omega)).cases s
  | rInt n =>
    by_cases hn : n.toNat < 2 ∨ 64 < n.toNat
    · exact .inl ⟨_, exec_rInt_width hn⟩
    · exact (fetches_rInt (by omega) (by omega)).cases s
  | rByte => exact fetches_rByte.cases s
  | _ => exact hi.elim

/-- R177 (d): the state after a failing read. -/
theorem onlyAnswers_of_isError {i : Instr} {s t : State} (hi : Consumes i) (h : exec i s = .next t) (ht : IsError t) :
    OnlyAnswers s t := by
  obtain ⟨e, he⟩ | ⟨p, v, hv⟩ := exec_consumes hi s
  · cases h.symm.trans he; rfl
  · cases h.symm.trans hv
    obtain ⟨r, hr, herr⟩ := ht
    cases hr; exact absurd rfl herr

/-- Settles O23: the width is checked before the input that is left. -/
theorem readerErrorsLeaveState : Obligations.ReaderErrorsLeaveState := fun _ _ =>
  ⟨exec_rUint_width, fun h1 h64 => (fetches_rUint h1 h64).short, exec_rInt_width,
    fun h2 h64 => (fetches_rInt h2 h64).short, fetches_rBool.short, fetches_rByte.short⟩

/-! ### The field as a result word -/

/-- The windows with top bit 1 are the upper half of the numbers of `n` bits. -/
theorem testBit_top_iff {n u : Nat} (hn : 1 ≤ n) (hu : u < 2 ^ n) : u.testBit (n - 1) = true ↔ 2 ^ (n - 1) ≤ u := by
  refine ⟨Nat.ge_two_pow_of_testBit, fun hle => Nat.testBit_of_two_pow_le_and_two_pow_add_one_gt hle ?_⟩
  rwa [Nat.sub_add_cancel hn]

/-- R173: the sign of a window is its top bit, the first in the stream. -/
theorem windowValue_fieldAt {f : Nat → Byte} {p n u : Nat} (hn : 1 ≤ n) (hu : FieldAt f p n u) :
    windowValue n u = if streamBit f p then (u : Int) - 2 ^ n else (u : Int) := by
  have htop : streamBit f p = true ↔ 2 ^ (n - 1) ≤ u := by
    rw [← testBit_top_iff hn hu.1, ← Nat.add_zero p, ← hu.2 0 hn, Nat.sub_zero]
  unfold windowValue
  simp only [htop, ← Nat.not_lt, ite_not]

theorem two_pow_eq_add_half {n : Nat} (hn : 1 ≤ n) : (2 ^ n : Int) = 2 ^ (n - 1) + 2 ^ (n - 1) := by
  rw [← mul_two, ← pow_succ, Nat.sub_add_cancel hn]

/-- The value of a window of up to 64 bits fits the result word. -/
theorem toInt_windowWord {n u : Nat} (hn : 1 ≤ n) (h64 : n ≤ 64) (hu : u < 2 ^ n) :
    (windowWord n u).toInt = windowValue n u := by
  have hhalf := two_pow_eq_add_half hn
  have hword : (2 ^ (n - 1) : Int) ≤ 2 ^ 63 := pow_le_pow_right₀ (by decide) (by omega)
  have hucast : (u : Int) < 2 ^ n := by exact_mod_cast hu
  obtain ⟨hlo, hhi⟩ : -(2 ^ (n - 1) : Int) ≤ windowValue n u ∧ windowValue n u < 2 ^ (n - 1) := by
    unfold windowValue
    split
    · next hlow =>
      have : (u : Int) < 2 ^ (n - 1) := by exact_mod_cast hlow
      omega
    · next hhigh =>
      have : (2 ^ (n - 1) : Int) ≤ u := by exact_mod_cast Nat.le_of_not_lt hhigh
      omega
  exact BitVec.toInt_ofInt_eq_self (by decide) ((neg_le_neg hword).trans hlo) (hhi.trans_le hword)

/-- A signed value is the value of the window that W_INT makes of it. -/
theorem windowValue_emod {n : Nat} {z : Int} (hn : 1 ≤ n) (hlo : -(2 ^ (n - 1) : Int) ≤ z) (hhi : z < 2 ^ (n - 1)) :
    windowValue n (z % 2 ^ n).toNat = z := by
  have hhalf := two_pow_eq_add_half hn
  have hcast : ((2 ^ (n - 1) : Nat) : Int) = 2 ^ (n - 1) := by norm_cast
  unfold windowValue
  obtain hneg | hpos := lt_or_ge z 0
  · have hmod : z % 2 ^ n = z + 2 ^ n := by
      rw [← Int.add_emod_right, Int.emod_eq_of_lt (by omega) (by omega)]
    rw [hmod, if_neg (by omega)]; omega
  · rw [Int.emod_eq_of_lt hpos (by omega), if_pos (by omega)]; omega

theorem toNat_ofNat_readBits {f : Nat → Byte} {p n : Nat} (h64 : n ≤ 64) :
    (BitVec.ofNat 64 (readBits f p n)).toNat = readBits f p n :=
  (BitVec.toNat_ofNat _ _).trans <| Nat.mod_eq_of_lt <|
    (readBits_lt f p n).trans_le (Nat.pow_le_pow_right (by decide) h64)

/-- A command that answers its field zero-extended. -/
theorem Fetches.answersField {i : Instr} {n : Nat} {s : State} (h : Fetches i n (BitVec.ofNat 64)) (h64 : n ≤ 64)
    (hfit : s.rpos.toNat + n ≤ 8 * s.rlen.toNat) :
    ∃ v : Word64, FieldAt s.ibufAt s.rpos.toNat n v.toNat ∧
      exec i s = .next ((s.setRpos (s.rpos + BitVec.ofNat 32 n)).setResponse (some (okResponse v))) :=
  ⟨_, fieldAt_iff.2 (toNat_ofNat_readBits h64), h.fits hfit⟩

/-- Settles O22: three of the commands answer their field zero-extended, R_INT by its top bit. -/
theorem readsAnswerTheirField : Obligations.ReadsAnswerTheirField := by
  intro s _
  refine ⟨fetches_rBool.answersField (by decide), fun n h1 h64 hfit => ?_, fun n h2 h64 hfit => ?_,
    fetches_rByte.answersField (by decide)⟩
  · rw [← BitVec.ofNat_toNat]
    exact (fetches_rUint h1 h64).answersField h64 hfit
  · have hfield : FieldAt s.ibufAt s.rpos.toNat n.toNat (readBits s.ibufAt s.rpos.toNat n.toNat) := fieldAt_iff.2 rfl
    rw [← BitVec.ofNat_toNat]
    refine ⟨_, _, hfield, ?_, (fetches_rInt h2 h64).fits hfit⟩
    rw [toInt_windowWord (by omega) h64 hfield.1, windowValue_fieldAt (by omega) hfield]

/-! ### Reading items back -/

/-- The read of an item's kind makes of its pattern the value that was written. -/
theorem StreamItem.fetches_read {x : StreamItem} (hx : x.Legal) :
    ∃ word, Fetches x.read x.bits word ∧ word x.pattern = x.value := by
  cases x with
  | bit b => exact ⟨_, fetches_rBool, BitVec.ofNat_toNat 64 b⟩
  | uint n v =>
    obtain ⟨h1, h64, -⟩ := hx
    exact ⟨_, fetches_rUint h1 h64, (BitVec.ofNat_toNat 64 v).trans v.setWidth_eq⟩
  | int n v =>
    obtain ⟨h2, h64, hlo, hhi⟩ := hx
    refine ⟨_, fetches_rInt h2 h64, ?_⟩
    calc windowWord n.toNat (v.toNat % 2 ^ n.toNat)
        = BitVec.ofInt 64 (windowValue n.toNat (v.toInt % 2 ^ n.toNat).toNat) := by
          rw [windowWord, toNat_toInt_emod v h64]
      _ = BitVec.ofInt 64 v.toInt := by rw [windowValue_emod (by omega) hlo hhi]
      _ = v := BitVec.ofInt_toInt
  | byte b => exact ⟨_, fetches_rByte, BitVec.ofNat_toNat 64 b⟩

/-- Legal items stand one after another in the input from RPOS on. -/
structure ItemsAhead (s : State) (xs : List StreamItem) : Prop where
  inv : Inv s
  legal : ∀ x ∈ xs, x.Legal
  fit : s.rpos.toNat + itemBits xs ≤ 8 * s.rlen.toNat
  fields : ∀ i x, xs[i]? = some x → FieldAt s.ibufAt (s.rpos.toNat + itemBits (xs.take i)) x.bits x.pattern

/-- Reading the first item answers its value, and the others stand ahead. -/
theorem ItemsAhead.read_head {s : State} {x : StreamItem} {xs : List StreamItem} (h : ItemsAhead s (x :: xs)) :
    ∃ t : State, exec x.read s = .next (t.setResponse (some (okResponse x.value))) ∧
      ItemsAhead (t.setResponse (some (okResponse x.value))) xs ∧ t.rpos.toNat = s.rpos.toNat + x.bits := by
  obtain ⟨hx, hxs⟩ := List.forall_mem_cons.1 h.legal
  have hfit := h.fit
  rw [itemBits_cons] at hfit
  obtain ⟨word, hfetch, hword⟩ := StreamItem.fetches_read hx
  have hhead : x.pattern = readBits s.ibufAt s.rpos.toNat x.bits := fieldAt_iff.1 (h.fields 0 x rfl)
  have hexec := hfetch.fits (s := s) (by omega)
  rw [← hhead, hword] at hexec
  have hpos : (s.rpos + BitVec.ofNat 32 x.bits).toNat = s.rpos.toNat + x.bits := by
    rw [← h.inv.rpos_add (n := x.bits) (by omega), BitVec.ofNat_add, BitVec.ofNat_toNat, BitVec.setWidth_eq]
  refine ⟨s.setRpos (s.rpos + BitVec.ofNat 32 x.bits), hexec, ⟨h.inv.exec hexec, hxs, ?_, fun i y hy => ?_⟩, hpos⟩
  · show (s.rpos + BitVec.ofNat 32 x.bits).toNat + itemBits xs ≤ 8 * s.rlen.toNat
    rw [hpos]; omega
  · have hfield := h.fields (i + 1) y hy
    rw [List.take_succ_cons, itemBits_cons, ← Nat.add_assoc, ← hpos] at hfield
    exact hfield

/-- R177 (c), from wherever the items stand. -/
theorem sendUntilError_reads {s : State} {xs : List StreamItem} (h : ItemsAhead s xs) :
    ∃ t, sendUntilError (xs.map StreamItem.read) s = (xs.map fun x => okResponse x.value, t) ∧
      t.rpos.toNat = s.rpos.toNat + itemBits xs := by
  induction xs generalizing s with
  | nil => exact ⟨s, rfl, rfl⟩
  | cons x xs ih =>
    obtain ⟨t, hexec, hahead, hpos⟩ := h.read_head
    obtain ⟨u, hu, hupos⟩ := ih hahead
    refine ⟨u, sendUntilError_cons_of_exec hexec hu, ?_⟩
    rw [hupos, State.setResponse_rpos, hpos, itemBits_cons, Nat.add_assoc]

/-! ### The writer's image as input -/

theorem Inv.sendUntilError {s : State} (hs : Inv s) (is : List Instr) : Inv (Machine.sendUntilError is s).2 := by
  induction is generalizing s with
  | nil => exact hs
  | cons i is ih =>
    obtain ⟨t, ht⟩ := exec_next i s
    have hsent : Inv (sendCommand (encode i) s) := by rw [sendCommand_encode ht]; exact hs.exec ht
    by_cases hok : (sendCommand (encode i) s).lastResponse.status = statusOk
    · rw [sendUntilError_cons_ok hok]; exact ih hsent
    · rw [sendUntilError_cons_error hok]; exact hsent

theorem Inv.loadInput {s : State} (hs : Inv s) (bs : List Byte) : Inv (loadInput bs s) := hs.sendUntilError _

theorem loadInput_rpos {s : State} {bs : List Byte} (hs : Inv s) (hfit : bs.length ≤ s.cfg.ibufBytes) :
    (loadInput bs s).rpos = 0#32 := by
  obtain ⟨t, hrun, -, hrpos, -⟩ := pseudoInstructionsRunInOrder.1 s bs hs hfit
  rw [Safety.loadInput, hrun]; exact hrpos

theorem length_imageBytes (s : State) : (imageBytes s).length = s.outLen := by
  rw [imageBytes, List.length_map, List.length_range]

/-- The image loaded as input holds every bit that was written. -/
theorem streamBit_loaded_image {s t : State} (h : Loaded t (imageBytes s)) {q : Nat} (hq : q < s.wpos.toNat) :
    streamBit t.ibufAt q = streamBit s.obufAt q := by
  have hin : q / 8 < s.outLen := by rw [State.outLen]; omega
  have hbyte : t.ibufAt (q / 8) = s.obufAt (q / 8) := h.bytes _ _ (by
    rw [imageBytes, List.getElem?_map, List.getElem?_range hin]; rfl)
  rw [streamBit, streamBit, hbyte]

theorem itemBits_take_succ {xs : List StreamItem} {i : Nat} {x : StreamItem} (hx : xs[i]? = some x) :
    itemBits (xs.take i) + x.bits ≤ itemBits xs := by
  have hsplit : itemBits xs = itemBits (xs.take i) + itemBits (xs.drop i) := by
    rw [itemBits, itemBits, itemBits, ← List.sum_append, ← List.map_append, List.take_append_drop]
  obtain ⟨hi, rfl⟩ := List.getElem?_eq_some_iff.1 hx
  rw [hsplit, List.drop_eq_getElem_cons hi, itemBits_cons]; omega

/-- Items appended to an empty writer stand ahead in its image loaded as input. -/
theorem itemsAhead_loadInput {s w : State} {xs : List StreamItem} (h : ItemsAppended s w xs) (hempty : s.wpos = 0#32)
    (hxs : ∀ x ∈ xs, x.Legal) (hfit : w.outLen ≤ w.cfg.ibufBytes) :
    ItemsAhead (loadInput (imageBytes w) w) xs := by
  have hload : (imageBytes w).length ≤ w.cfg.ibufBytes := by rwa [length_imageBytes]
  have hloaded := loaded_loadInput h.inv hload
  have hrpos : (loadInput (imageBytes w) w).rpos.toNat = 0 := by rw [loadInput_rpos h.inv hload]; rfl
  have hstart : s.wpos.toNat = 0 := by rw [hempty]; rfl
  have hwpos : w.wpos.toNat = itemBits xs := by rw [h.pos, hstart, Nat.zero_add]
  refine ⟨h.inv.loadInput _, hxs, ?_, fun i x hx => ?_⟩
  · rw [hrpos, hloaded.rlen, length_imageBytes, State.outLen, hwpos]; omega
  · have hfield := h.items i x hx
    have hlast := itemBits_take_succ hx
    rw [hstart] at hfield
    rw [hrpos]
    exact fieldAt_congr (fun q _ hq => streamBit_loaded_image hloaded (by omega)) hfield

/-- Settles O24: what the writes left stands ahead of the reads, and a failing read only answers. -/
theorem readBackReturnsEveryWrite : Obligations.ReadBackReturnsEveryWrite := by
  refine ⟨fun s xs hs hxs hfit hload => ?_, fun i s t hi h ht => onlyAnswers_of_isError hi h ht⟩
  obtain ⟨w, hrun, hitems⟩ := runAll_clear_writes hs hxs hfit
  have hw : (sendAll (.wClear :: xs.map StreamItem.write) s).2 = w :=
    Option.some.inj ((runAll_eq_sendAll _ s).symm.trans hrun)
  have hwpos : w.wpos.toNat = itemBits xs := hitems.pos.trans (Nat.zero_add _)
  have hcfg : w.cfg = s.cfg := by rw [hitems.only]; rfl
  have hlen : w.outLen ≤ w.cfg.ibufBytes := by rw [State.outLen, hwpos, hcfg]; exact hload
  obtain ⟨t, hreads, hrpos⟩ := sendUntilError_reads (itemsAhead_loadInput hitems rfl hxs hlen)
  have hsent := sendAll_of_sendUntilError hreads (by simp)
  simp only [hw, hsent, true_and]
  refine BitVec.eq_of_toNat_eq ?_
  rw [hrpos, loadInput_rpos hitems.inv (by rwa [length_imageBytes]), hwpos]
  exact Nat.zero_add _

end Sys2Proof.Safety

/-! WIDTH and the commands that reach DESC, VAL, VB and IBUF (44_descriptors.md R204 to R221, 46_host_access.md R283,
R284): what a read finds after a write, the address and byte checks, and what WIDTH answers for each kind of descriptor.
Settles O33, O34, O37, O41, O42. -/

namespace Sys2Proof.Machine

/-! ### The address checks -/

theorem not_slotOk {s : State} {slot : BitVec 8} (h : s.cfg.maxFields ≤ slot.toNat) : (!slotOk s slot) = true := by
  rw [Bool.not_eq_true', ← Bool.not_eq_true, slotOk_iff]; omega

theorem not_descOk {s : State} {slot : BitVec 8} {word : BitVec 16}
    (h : s.cfg.maxFields ≤ slot.toNat ∨ 2 < word.toNat) : (!descOk s slot word) = true := by
  rw [Bool.not_eq_true', ← Bool.not_eq_true, descOk_iff]; omega

theorem not_vbOk {s : State} {slot : BitVec 8} {k : BitVec 16}
    (h : s.cfg.maxFields ≤ slot.toNat ∨ s.cfg.maxFieldBytes ≤ k.toNat) : (!vbOk s slot k) = true := by
  rw [Bool.not_eq_true', ← Bool.not_eq_true, vbOk_iff]; omega

/-- Settles O37: each command makes its address check first, and the two byte writes the check of the byte next. -/
theorem addressAndByteErrors : Obligations.AddressAndByteErrors := by
  intro s slot b addr v
  simp only [List.forall_mem_cons, List.not_mem_nil, false_implies, implies_true, and_true]
  refine ⟨fun h => ⟨?_, ?_, ?_⟩, fun h => ⟨?_, ?_⟩, fun h => ⟨?_, ?_⟩, fun h => ⟨?_, ?_⟩, fun h => ?_,
    fun hs hb hv => ?_, fun ha hv => ?_⟩
  · rw [exec_width, if_pos (not_slotOk h)]; rfl
  · rw [exec_valWr, if_pos (not_slotOk h)]; rfl
  · rw [exec_valRd, if_pos (not_slotOk h)]; rfl
  · rw [exec_descWr, if_pos (not_descOk h)]; rfl
  · rw [exec_descRd, if_pos (not_descOk h)]; rfl
  · rw [exec_vbWr, if_pos (not_vbOk h)]; rfl
  · rw [exec_vbRd, if_pos (not_vbOk h)]; rfl
  · rw [exec_ibWr, if_pos h]; rfl
  · rw [exec_ibRd, if_pos h]; rfl
  · rw [exec_obRd, if_pos h]; rfl
  · rw [exec_vbWr, vbOk_iff.2 ⟨hs, hb⟩, if_pos hv]; rfl
  · rw [exec_ibWr, if_neg (Nat.not_le.2 ha), if_pos hv]; rfl

/-! ### Writes and reads inside each space -/

section
variable {s : State} {slot : BitVec 8}

theorem exec_descWr_inside {word : BitVec 16} (hs : slot.toNat < s.cfg.maxFields) (hw : word.toNat ≤ 2) (v : Word64) :
    exec (.descWr slot word v) s =
      .next ((s.writeDesc slot.toNat word.toNat v).setResponse (some (okResponse 0#64))) := by
  rw [exec_descWr, descOk_iff.2 ⟨hs, hw⟩]; rfl

theorem exec_descRd_inside {word : BitVec 16} (hs : slot.toNat < s.cfg.maxFields) (hw : word.toNat ≤ 2) :
    exec (.descRd slot word) s = .next (s.setResponse (some (okResponse (s.descAt slot.toNat word.toNat)))) := by
  rw [exec_descRd, descOk_iff.2 ⟨hs, hw⟩]; rfl

theorem exec_valWr_inside (hs : slot.toNat < s.cfg.maxFields) (v : Word64) :
    exec (.valWr slot v) s = .next ((s.writeVal slot.toNat v).setResponse (some (okResponse 0#64))) := by
  rw [exec_valWr, slotOk_iff.2 hs]; rfl

theorem exec_valRd_inside (hs : slot.toNat < s.cfg.maxFields) :
    exec (.valRd slot) s = .next (s.setResponse (some (okResponse (s.valAt slot.toNat)))) := by
  rw [exec_valRd, slotOk_iff.2 hs]; rfl

theorem exec_ibRd_inside {addr : BitVec 24} (ha : addr.toNat < s.cfg.ibufBytes) :
    exec (.ibRd addr) s = .next (s.setResponse (some (okResponse ((s.ibufAt addr.toNat).setWidth 64)))) := by
  rw [exec_ibRd, if_neg (Nat.not_le.2 ha)]; rfl

theorem exec_vbRd_inside {k : BitVec 16} (hs : slot.toNat < s.cfg.maxFields) (hk : k.toNat < s.cfg.maxFieldBytes) :
    exec (.vbRd slot k) s =
      .next (s.setResponse (some (okResponse ((s.vbAt slot.toNat k.toNat).setWidth 64)))) := by
  rw [exec_vbRd, vbOk_iff.2 ⟨hs, hk⟩]; rfl

theorem byteOperand_le (b : Byte) : ¬ 255 < opUnsigned (b.setWidth 64 : Word64) := by
  rw [opUnsigned, BitVec.toNat_setWidth_of_le (by decide)]; omega

theorem operandByte_setWidth (b : Byte) : operandByte (b.setWidth 64) = b := by
  rw [operandByte, BitVec.setWidth_setWidth_of_le _ (by decide), BitVec.setWidth_eq]

theorem exec_ibWr_inside {addr : BitVec 24} (ha : addr.toNat < s.cfg.ibufBytes) (b : Byte) :
    exec (.ibWr addr (b.setWidth 64)) s =
      .next ((s.writeIbuf addr.toNat b).setResponse (some (okResponse 0#64))) := by
  rw [exec_ibWr, if_neg (Nat.not_le.2 ha), if_neg (byteOperand_le b), operandByte_setWidth]; rfl

theorem exec_vbWr_inside {k : BitVec 16} (hs : slot.toNat < s.cfg.maxFields) (hk : k.toNat < s.cfg.maxFieldBytes)
    (b : Byte) :
    exec (.vbWr slot k (b.setWidth 64)) s =
      .next ((s.writeVb slot.toNat k.toNat b).setResponse (some (okResponse 0#64))) := by
  rw [exec_vbWr, vbOk_iff.2 ⟨hs, hk⟩, if_neg (byteOperand_le b), operandByte_setWidth]; rfl

end

/-- Settles O33: each write is one write of its memory, at the key the read looks up. -/
theorem slotWordWriteThenRead : Obligations.SlotWordWriteThenRead := by
  refine fun s slot v hs => ⟨fun word hw => ?_, ?_⟩
  · have hat : ∀ i j, j ≤ 2 → (s.writeDesc slot.toNat word.toNat v).descAt i j =
        if i = slot.toNat ∧ j = word.toNat then v else s.descAt i j := fun i j hj => by
      rw [State.descAt_writeDesc _ _ _ _ _ _ word.isLt (by omega)]
      simp only [eq_comm]
    have hrd := exec_descRd_inside (s := s.writeDesc slot.toNat word.toNat v) hs hw
    rw [hat _ _ hw, if_pos ⟨rfl, rfl⟩] at hrd
    exact ⟨_, exec_descWr_inside hs hw v, rfl, hat, hrd⟩
  · have hat : ∀ i, (s.writeVal slot.toNat v).valAt i = if i = slot.toNat then v else s.valAt i := fun i => by
      rw [State.valAt_writeVal]
      simp only [eq_comm]
    have hrd := exec_valRd_inside (s := s.writeVal slot.toNat v) hs
    rw [hat, if_pos rfl] at hrd
    exact ⟨_, exec_valWr_inside hs v, rfl, hat, hrd⟩

/-- Settles O34: likewise, for an operand that is a byte. -/
theorem byteWriteThenRead : Obligations.ByteWriteThenRead := by
  refine ⟨fun s addr b ha => ?_, fun s slot k b hs hk => ?_⟩
  · have hat : ∀ a, (s.writeIbuf addr.toNat b).ibufAt a = if a = addr.toNat then b else s.ibufAt a := fun a => by
      rw [State.ibufAt_writeIbuf]
      simp only [eq_comm]
    have hrd := exec_ibRd_inside (s := s.writeIbuf addr.toNat b) ha
    rw [hat, if_pos rfl] at hrd
    exact ⟨_, exec_ibWr_inside ha b, rfl, hat, hrd⟩
  · have hat : ∀ i j, j < 65536 → (s.writeVb slot.toNat k.toNat b).vbAt i j =
        if i = slot.toNat ∧ j = k.toNat then b else s.vbAt i j := fun i j hj => by
      rw [State.vbAt_writeVb _ _ _ _ _ _ k.isLt hj]
      simp only [eq_comm]
    have hrd := exec_vbRd_inside (s := s.writeVb slot.toNat k.toNat b) hs hk
    rw [hat _ _ k.isLt, if_pos ⟨rfl, rfl⟩] at hrd
    exact ⟨_, exec_vbWr_inside hs hk b, rfl, hat, hrd⟩

/-! ### WIDTH -/

/-- The checks of R204 on the three words of slot `i`. -/
def parseSlot (s : State) (i : Nat) : Except Cause FieldKind :=
  parseField s.cfg.maxFieldBytes (s.descAt i 0) (s.descAt i 1) (s.descAt i 2)

theorem exec_width_ok {s : State} {slot : BitVec 8} {k : FieldKind} (hs : slot.toNat < s.cfg.maxFields)
    (hk : parseSlot s slot.toNat = .ok k) :
    exec (.width slot) s = .next (s.setResponse (some (okResponse (BitVec.ofNat 64 (fieldWidth k))))) := by
  have hv : validateField s slot.toNat = .ok k := by
    rw [parseSlot] at hk; rw [validateField, hk]
  rw [exec_width, slotOk_iff.2 hs, opUnsigned, hv]; rfl

theorem exec_width_error {s : State} {slot : BitVec 8} {c : Cause} (hs : slot.toNat < s.cfg.maxFields)
    (hc : parseSlot s slot.toNat = .error c) :
    exec (.width slot) s = .next (s.setResponse (some (errorResponse ⟨c, .schemaCheck, slot.toNat⟩))) := by
  have hv : validateField s slot.toNat = .error ⟨c, .schemaCheck, slot.toNat⟩ := by
    rw [parseSlot] at hc; rw [validateField, hc]
  rw [exec_width, slotOk_iff.2 hs, opUnsigned, hv]; rfl

section
variable {s : State} {i : Nat}

theorem parseSlot_bool (hk : (s.descAt i 0).toNat % 8 = 0) : parseSlot s i = .ok .bool := by
  simp only [parseSlot, parseField, descKind_eq, hk]

theorem parseSlot_int (hk : (s.descAt i 0).toNat % 8 = 1) :
    parseSlot s i = if (s.descAt i 2).toInt < (s.descAt i 1).toInt then .error .schemaBounds
      else .ok (.int (s.descAt i 1).toInt (s.descAt i 2).toInt) := by
  simp only [parseSlot, parseField, descKind_eq, hk]

theorem parseSlot_float (hk : (s.descAt i 0).toNat % 8 = 2) :
    parseSlot s i = parseFloat ((s.descAt i 0).toNat / 16 % 8) (f64 (s.descAt i 1)) (f64 (s.descAt i 2)) := by
  simp only [parseSlot, parseField, descKind_eq, descPrec_eq, hk]

theorem parseSlot_enum (hk : (s.descAt i 0).toNat % 8 = 3) :
    parseSlot s i = if (s.descAt i 1).toNat = 0 then .error .schemaCardinality
      else .ok (.enum (s.descAt i 1).toNat) := by
  simp only [parseSlot, parseField, descKind_eq, hk]

/-- FixedBytes and FixedString have the one check of their length. -/
theorem parseSlot_byteKind (hk : (s.descAt i 0).toNat % 8 = 4 ∨ (s.descAt i 0).toNat % 8 = 5) :
    ∃ k, fieldWidth k = 8 * (s.descAt i 1).toNat ∧
      parseSlot s i = if s.cfg.maxFieldBytes < (s.descAt i 1).toNat then .error .schemaLength else .ok k := by
  obtain hk | hk := hk
  · exact ⟨.bytes (s.descAt i 1).toNat, rfl, by simp only [parseSlot, parseField, descKind_eq, hk]⟩
  · exact ⟨.str (s.descAt i 1).toNat, rfl, by simp only [parseSlot, parseField, descKind_eq, hk]⟩

theorem parseSlot_unassigned (hk : (s.descAt i 0).toNat % 8 = 6 ∨ (s.descAt i 0).toNat % 8 = 7) :
    parseSlot s i = .error .schemaKind := by
  obtain hk | hk := hk <;> simp only [parseSlot, parseField, descKind_eq, hk]

end

/-- The BoundedFloat checks after those of the precision and the bounds: the width of the scaled maximum. -/
theorem parseFloat_of_bounds {p : Nat} {fmin fmax : F64} (hp : p ≤ 6) (hmin : fmin.isFinite = true)
    (hmax : fmax.isFinite = true) (hle : fle64 fmin fmax = true) :
    parseFloat p fmin fmax =
      (scaledInt fmin fmax p).elim (.error .schemaWidth) fun m =>
        if 64 < widthFor m then .error .schemaWidth else .ok (.float fmin fmax p m) := by
  rw [parseFloat, if_neg (Nat.not_lt.2 hp), hmin, hmax, hle]
  cases scaledInt fmin fmax p <;> rfl

theorem parseFloat_badBounds {p : Nat} {fmin fmax : F64} (hp : p ≤ 6)
    (h : fmin.isFinite = false ∨ fmax.isFinite = false ∨ fle64 fmin fmax = false) :
    parseFloat p fmin fmax = .error .schemaBounds := by
  rw [parseFloat, if_neg (Nat.not_lt.2 hp)]
  obtain h | h | h := h <;> simp [h]

/-- Settles O41: the width of each kind of field that the checks of R204 let through. -/
theorem widthFollowsKind : Obligations.WidthFollowsKind := by
  refine fun s slot hs => ⟨fun hk => ?_, fun hk hle => ?_, fun m hk hp hmin hmax hle hm hlt => ?_, fun hk hn => ?_,
    fun hk hlen => ?_⟩
  · exact exec_width_ok hs (parseSlot_bool hk)
  · rw [exec_width_ok hs ((parseSlot_int hk).trans (if_neg (Int.not_lt.2 hle))), fieldWidth,
      ← widthFor_eq_clog (by omega)]
    congr 6
    omega
  · have hwidth : ¬ 64 < widthFor m := Nat.not_lt.2 ((Safety.widthFor_le_iff (by decide)).2 hlt)
    have hparse := (parseSlot_float hk).trans (parseFloat_of_bounds hp hmin hmax hle)
    rw [hm, Option.elim_some, if_neg hwidth] at hparse
    rw [exec_width_ok hs hparse, fieldWidth, ← widthFor_eq_clog (by omega), Nat.add_sub_cancel]
  · rw [exec_width_ok hs ((parseSlot_enum hk).trans (if_neg (by omega))), fieldWidth, widthFor_eq_clog hn]
  · obtain ⟨k, hwidth, hparse⟩ := parseSlot_byteKind hk
    rw [exec_width_ok hs (hparse.trans (if_neg (Nat.not_lt.2 hlen))), hwidth]

/-- Settles O42: the check of R204 that each descriptor fails. -/
theorem widthRejectsBadDescriptor : Obligations.WidthRejectsBadDescriptor := by
  refine fun s slot hs => ⟨fun hk hlt => ?_, fun hk hp => ?_, fun hk hp hbad => ?_,
    fun hk hp hmin hmax hle hwide => ?_, fun hk hzero => ?_, fun hk hlen => ?_, fun hk => ?_⟩ <;>
    apply exec_width_error hs
  · exact (parseSlot_int hk).trans (if_pos hlt)
  · rw [parseSlot_float hk, parseFloat, if_pos (by omega)]
  · exact (parseSlot_float hk).trans (parseFloat_badBounds hp hbad)
  · rw [parseSlot_float hk, parseFloat_of_bounds hp hmin hmax hle]
    cases hm : scaledInt (f64 (s.descAt slot.toNat 1)) (f64 (s.descAt slot.toNat 2))
        ((s.descAt slot.toNat 0).toNat / 16 % 8) with
    | none => rfl
    | some m =>
      have hwidth : 64 < widthFor m :=
        Nat.lt_of_not_le fun h => absurd ((Safety.widthFor_le_iff (by decide)).1 h) (Nat.not_lt.2 (hwide m hm))
      exact if_pos hwidth
  · exact (parseSlot_enum hk).trans (if_pos hzero)
  · obtain ⟨k, -, hparse⟩ := parseSlot_byteKind hk
    exact hparse.trans (if_pos hlen)
  · exact parseSlot_unassigned hk

end Sys2Proof.Machine

/-! `Utf8Valid` (44_descriptors.md R222): the scan goes through a byte string one well-formed sequence at a time.
Settles O43. -/

namespace Sys2Proof.Machine

open Sys2Proof.Safety (Utf8Seq)

/-- The bytes lie in the ranges, one for one. -/
def InRanges (rs : List ByteRange) (bs : List Byte) : Prop := List.Forall₂ (fun r b => inRange r b = true) rs bs

@[simp] theorem inRanges_nil : InRanges [] [] := .nil

@[simp] theorem not_inRanges_cons_nil (r : ByteRange) (rs : List ByteRange) : ¬ InRanges (r :: rs) [] := nofun

@[simp] theorem not_inRanges_nil_cons (b : Byte) (bs : List Byte) : ¬ InRanges [] (b :: bs) := nofun

@[simp] theorem inRanges_cons (r : ByteRange) (rs : List ByteRange) (b : Byte) (bs : List Byte) :
    InRanges (r :: rs) (b :: bs) ↔ (r.lo ≤ b.toNat ∧ b.toNat ≤ r.hi) ∧ InRanges rs bs := by
  simp [InRanges, inRange]

theorem inRange_iff {r : ByteRange} {b : Byte} : inRange r b = true ↔ r.lo ≤ b.toNat ∧ b.toNat ≤ r.hi := by
  simp [inRange]

/-- No two rows overlap in their first bytes. -/
theorem utf8Rows_disjoint : ∀ r ∈ utf8Rows, ∀ r' ∈ utf8Rows,
    r.first.lo ≤ r'.first.hi → r'.first.lo ≤ r.first.hi → r = r' := by decide

theorem find?_utf8Rows {r : Utf8Row} {b : Byte} (hr : r ∈ utf8Rows) (hb : inRange r.first b = true) :
    utf8Rows.find? (fun r => inRange r.first b) = some r := by
  cases hfind : utf8Rows.find? (fun r => inRange r.first b) with
  | none => exact absurd hb (List.find?_eq_none.1 hfind r hr)
  | some r' =>
    have hr' := List.mem_of_find?_eq_some hfind
    have hb' : inRange r'.first b = true := by simpa using List.find?_some hfind
    rw [inRange_iff] at hb hb'
    rw [utf8Rows_disjoint r hr r' hr' (by omega) (by omega)]

theorem utf8Scan_row {r : Utf8Row} {b : Byte} (hr : r ∈ utf8Rows) (hb : inRange r.first b = true) (bs : List Byte) :
    utf8Scan [] (b :: bs) = utf8Scan r.rest bs := by
  rw [utf8Scan, find?_utf8Rows hr hb]

theorem utf8Scan_start {b : Byte} {bs : List Byte} (h : utf8Scan [] (b :: bs) = true) :
    ∃ r ∈ utf8Rows, inRange r.first b = true ∧ utf8Scan r.rest bs = true := by
  rw [utf8Scan] at h
  split at h
  · next r hr => exact ⟨r, List.mem_of_find?_eq_some hr, by simpa using List.find?_some hr, h⟩
  · cases h

/-- Bytes in the ranges a sequence still owes are passed over. -/
theorem utf8Scan_append {rs : List ByteRange} {bs : List Byte} (h : InRanges rs bs) (rest : List Byte) :
    utf8Scan rs (bs ++ rest) = utf8Scan [] rest := by
  induction h with
  | nil => rfl
  | cons hb _ ih => rw [List.cons_append, utf8Scan, hb, ih]; rfl

/-- A scan that accepts has found the bytes that were owed. -/
theorem exists_inRanges_of_utf8Scan {rs : List ByteRange} {bs : List Byte} (h : utf8Scan rs bs = true) :
    ∃ pre rest, bs = pre ++ rest ∧ InRanges rs pre ∧ utf8Scan [] rest = true := by
  induction rs generalizing bs with
  | nil => exact ⟨[], bs, rfl, .nil, h⟩
  | cons r rs ih =>
    cases bs with
    | nil => cases h
    | cons b bs =>
      rw [utf8Scan, Bool.and_eq_true] at h
      obtain ⟨hb, h⟩ := h
      obtain ⟨pre, rest, rfl, hpre, hrest⟩ := ih h
      exact ⟨b :: pre, rest, rfl, .cons hb hpre, hrest⟩

/-- The bytes are of one of the nine rows. -/
theorem exists_row_iff {q : List Byte} :
    (∃ r ∈ utf8Rows, InRanges (r.first :: r.rest) q) ↔
      InRanges [⟨0x00, 0x7F⟩] q ∨ InRanges [⟨0xC2, 0xDF⟩, ⟨0x80, 0xBF⟩] q ∨
      InRanges [⟨0xE0, 0xE0⟩, ⟨0xA0, 0xBF⟩, ⟨0x80, 0xBF⟩] q ∨ InRanges [⟨0xE1, 0xEC⟩, ⟨0x80, 0xBF⟩, ⟨0x80, 0xBF⟩] q ∨
      InRanges [⟨0xED, 0xED⟩, ⟨0x80, 0x9F⟩, ⟨0x80, 0xBF⟩] q ∨ InRanges [⟨0xEE, 0xEF⟩, ⟨0x80, 0xBF⟩, ⟨0x80, 0xBF⟩] q ∨
      InRanges [⟨0xF0, 0xF0⟩, ⟨0x90, 0xBF⟩, ⟨0x80, 0xBF⟩, ⟨0x80, 0xBF⟩] q ∨
      InRanges [⟨0xF1, 0xF3⟩, ⟨0x80, 0xBF⟩, ⟨0x80, 0xBF⟩, ⟨0x80, 0xBF⟩] q ∨
      InRanges [⟨0xF4, 0xF4⟩, ⟨0x80, 0x8F⟩, ⟨0x80, 0xBF⟩, ⟨0x80, 0xBF⟩] q := by
  simp only [utf8Rows, List.mem_cons, List.not_mem_nil, or_false, exists_eq_or_imp, exists_eq_left]

/-- The rows of the model's table are the patterns of R222, by the number of bytes. -/
theorem utf8Seq_iff {q : List Byte} :
    Utf8Seq (q.map BitVec.toNat) ↔ ∃ r ∈ utf8Rows, InRanges (r.first :: r.rest) q := by
  rw [exists_row_iff]
  match q with
  | [] => exact ⟨nofun, fun h => by simp at h⟩
  | [a] =>
    simp only [inRanges_cons, inRanges_nil, not_inRanges_cons_nil, and_true, and_false, or_false]
    exact ⟨fun h => by cases h; omega, fun h => .one _ (by omega)⟩
  | [a, b] =>
    simp only [inRanges_cons, inRanges_nil, not_inRanges_cons_nil, not_inRanges_nil_cons, and_true, and_false, or_false,
      false_or]
    exact ⟨fun h => by cases h; omega, fun h => .two _ _ (by omega) (by omega) (by omega) (by omega)⟩
  | [a, b, c] =>
    simp only [inRanges_cons, inRanges_nil, not_inRanges_cons_nil, not_inRanges_nil_cons, and_true, and_false, or_false,
      false_or]
    exact ⟨fun h => by cases h; omega, fun h => .three _ _ _ (by omega) (by omega) (by omega)⟩
  | [a, b, c, d] =>
    simp only [inRanges_cons, inRanges_nil, not_inRanges_nil_cons, and_true, and_false, false_or]
    exact ⟨fun h => by cases h; omega,
      fun h => .four _ _ _ _ (by omega) (by omega) (by omega) (by omega) (by omega)⟩
  | a :: b :: c :: d :: e :: q => exact ⟨nofun, fun h => by simp at h⟩

theorem utf8Scan_seq {q : List Byte} (hq : Utf8Seq (q.map BitVec.toNat)) (rest : List Byte) :
    utf8Scan [] (q ++ rest) = utf8Scan [] rest := by
  obtain ⟨r, hr, hmatch⟩ := utf8Seq_iff.1 hq
  cases hmatch with
  | cons hb hrest => rw [List.cons_append, utf8Scan_row hr hb, utf8Scan_append hrest]

/-- An accepted string is cut into sequences from its front, each a row of the table. -/
theorem exists_seqs_of_utf8Scan (bs : List Byte) (h : utf8Scan [] bs = true) :
    ∃ seqs : List (List Nat), (∀ q ∈ seqs, Utf8Seq q) ∧ bs.map BitVec.toNat = seqs.flatten := by
  match bs with
  | [] => exact ⟨[], by simp, rfl⟩
  | b :: tail =>
    obtain ⟨r, hr, hb, hscan⟩ := utf8Scan_start h
    obtain ⟨pre, rest, htail, hpre, hrest⟩ := exists_inRanges_of_utf8Scan hscan
    have hseq : Utf8Seq ((b :: pre).map BitVec.toNat) := utf8Seq_iff.2 ⟨r, hr, .cons hb hpre⟩
    obtain ⟨seqs, hall, heq⟩ := exists_seqs_of_utf8Scan rest hrest
    refine ⟨(b :: pre).map BitVec.toNat :: seqs, List.forall_mem_cons.2 ⟨hseq, hall⟩, ?_⟩
    rw [List.flatten_cons, ← heq, htail, ← List.cons_append, List.map_append]
termination_by bs.length
decreasing_by simp [htail]

theorem utf8Scan_of_seqs {seqs : List (List Nat)} (hall : ∀ q ∈ seqs, Utf8Seq q) {bs : List Byte}
    (h : bs.map BitVec.toNat = seqs.flatten) : utf8Scan [] bs = true := by
  induction seqs generalizing bs with
  | nil => rw [List.map_eq_nil_iff.1 h]; rfl
  | cons q seqs ih =>
    obtain ⟨hseq, hrest⟩ := List.forall_mem_cons.1 hall
    obtain ⟨front, rest, rfl, rfl, hmap⟩ := List.map_eq_append_iff.1 h
    rw [utf8Scan_seq hseq, ih hrest hmap]

/-- Settles O43: the scan cuts an accepted string into sequences, and goes through the concatenation of any. -/
theorem utf8ValidIsConcatenation : Obligations.Utf8ValidIsConcatenation := fun bs =>
  ⟨exists_seqs_of_utf8Scan bs, fun ⟨_, hall, h⟩ => utf8Scan_of_seqs hall h⟩

end Sys2Proof.Machine

/-! The scaling of a BoundedFloat (44_descriptors.md R208, R210, R212): every rounding in it is monotone, so a value
within the bounds scales to at most the scaled maximum. Settles O47. -/

namespace Sys2Proof.Machine

/-! ### Rounding is monotone -/

/-- Of two numbers, one nearest to the smaller of two points is at most one nearest to the greater, unless the points
are one. -/
theorem le_of_dist_le {a b x y : Nat} (hxy : x < y) (ha : Nat.dist a x ≤ Nat.dist b x)
    (hb : Nat.dist b y ≤ Nat.dist a y) : a ≤ b := by
  unfold Nat.dist at ha hb
  omega

theorem rneDiv_mono {den x y : Nat} (hden : 0 < den) (hxy : x ≤ y) : rneDiv x den ≤ rneDiv y den := by
  obtain hlt | rfl := Nat.lt_or_eq_of_le hxy
  · exact Nat.le_of_mul_le_mul_right
      (le_of_dist_le hlt (rneDiv_dist_le x hden _).1 (rneDiv_dist_le y hden _).1) hden
  · exact Nat.le_refl _

theorem isBinary64_roundedMag {num den : Nat} (hden : 0 < den) (h : roundedMag num den < 2 ^ 2098) :
    IsBinary64 (roundedMag num den) := by
  rw [roundedMag] at h ⊢
  exact isBinary64_mul_two_pow (e := f64Scale (num / den)) (roundedSig_le hden) h

/-- The result is finite exactly below the midpoint above the greatest finite value. -/
theorem roundedMag_lt_limit_iff {num den : Nat} (hden : 0 < den) :
    roundedMag num den < 2 ^ 2098 ↔ num < (2 ^ 54 - 1) * 2 ^ 2044 * den := by
  refine ⟨fun h => ?_, by simpa only [Nat.reduceAdd] using roundedMag_lt_two_pow hden 2044⟩
  by_contra hge
  have hle := two_pow_le_roundedMag hden 2044 (Nat.not_lt.1 hge)
  simp only [Nat.reduceAdd] at hle
  exact absurd h (Nat.not_lt.2 hle)

theorem roundedMag_mono {den x y : Nat} (hden : 0 < den) (hxy : x ≤ y) (hy : roundedMag y den < 2 ^ 2098) :
    roundedMag x den ≤ roundedMag y den := by
  obtain hlt | rfl := Nat.lt_or_eq_of_le hxy
  · have hx : roundedMag x den < 2 ^ 2098 :=
      (roundedMag_lt_limit_iff hden).2 (Nat.lt_of_le_of_lt hxy ((roundedMag_lt_limit_iff hden).1 hy))
    exact Nat.le_of_mul_le_mul_right
      (le_of_dist_le hlt (roundedMag_dist_le hden (isBinary64_roundedMag hden hy)).1
        (roundedMag_dist_le hden (isBinary64_roundedMag hden hx)).1) hden
  · exact Nat.le_refl _

/-! ### The two operations of the scaling -/

/-- A finite value, as a signed count of units. -/
def IsUnits (x : F64) (u : Int) : Prop := ∃ neg mag, x = .finite neg mag ∧ signedUnits neg mag = u

/-- A magnitude, of either sign, unless it is too great. -/
structure IsMag (x : F64) (mag : Nat) : Prop where
  finite : mag < 2 ^ 2098 → ∃ neg, x = .finite neg mag
  inf : 2 ^ 2098 ≤ mag → ∃ neg, x = .inf neg

theorem isMag_roundUnits (neg : Bool) (num den : Nat) : IsMag (roundUnits neg num den) (roundedMag num den) := by
  rw [roundUnits_eq]
  exact ⟨fun h => ⟨neg, if_neg (Nat.not_le.2 h)⟩, fun h => ⟨neg, if_pos h⟩⟩

theorem roundedMag_zero (den : Nat) : roundedMag 0 den = 0 := by
  simp [roundedMag, roundedSig, rneDiv]

theorem isMag_fsub64 {x fmin : F64} {u v : Int} (hx : IsUnits x u) (hmin : IsUnits fmin v) :
    IsMag (fsub64 x fmin) (roundedMag (u - v).natAbs 1) := by
  obtain ⟨na, a, rfl, rfl⟩ := hx
  obtain ⟨nb, b, rfl, rfl⟩ := hmin
  have hneg : signedUnits (!nb) b = -signedUnits nb b := by cases nb <;> simp [signedUnits]
  rw [fsub64, fneg64, fadd64, hneg, ← sub_eq_add_neg]
  split
  · next hzero =>
    rw [hzero, Int.natAbs_zero, roundedMag_zero]
    exact ⟨fun _ => ⟨_, rfl⟩, fun h => absurd h (Nat.not_le.2 (by positivity))⟩
  · exact isMag_roundUnits _ _ _

/-- The magnitude of a finite difference times 10^p. -/
def scaledMag (diff p : Nat) : Nat := roundedMag (diff * (10 ^ p * f64One)) f64One

theorem f64One_pos : 0 < f64One := by
  unfold f64One; positivity

theorem isMag_fmul64_pow10 {x : F64} {diff : Nat} (p : Nat) (hx : IsMag x diff) (hlt : diff < 2 ^ 2098) :
    IsMag (fmul64 x (pow10 p)) (scaledMag diff p) := by
  obtain ⟨neg, rfl⟩ := hx.finite hlt
  exact isMag_roundUnits _ _ _

theorem fmul64_inf_pow10 (neg : Bool) (p : Nat) : fmul64 (.inf neg) (pow10 p) = .inf neg := by
  have hne : 10 ^ p * f64One ≠ 0 := (Nat.mul_pos (Nat.pow_pos (by decide)) f64One_pos).ne'
  rw [pow10, fmul64, if_neg hne, Bool.xor_false]

/-- The scaled integer of a value `d` units above the minimum: the difference and the product are both finite. -/
theorem scaledInt_eq_some_iff {x fmin : F64} {u v : Int} (hx : IsUnits x u) (hmin : IsUnits fmin v) (p k : Nat) :
    scaledInt fmin x p = some k ↔
      roundedMag (u - v).natAbs 1 < 2 ^ 2098 ∧ scaledMag (roundedMag (u - v).natAbs 1) p < 2 ^ 2098 ∧
        roundUnitsToInt (scaledMag (roundedMag (u - v).natAbs 1) p) = k := by
  have hdiff := isMag_fsub64 hx hmin
  unfold scaledInt
  obtain hlt | hge := Nat.lt_or_ge (roundedMag (u - v).natAbs 1) (2 ^ 2098)
  · have hprod := isMag_fmul64_pow10 p hdiff hlt
    obtain hlt' | hge' := Nat.lt_or_ge (scaledMag (roundedMag (u - v).natAbs 1) p) (2 ^ 2098)
    · obtain ⟨neg, h⟩ := hprod.finite hlt'
      rw [h]
      exact ⟨fun hk => ⟨hlt, hlt', Option.some.inj hk⟩, fun ⟨_, _, hk⟩ => congrArg some hk⟩
    · obtain ⟨neg, h⟩ := hprod.inf hge'
      rw [h]
      exact ⟨nofun, fun ⟨_, h, _⟩ => absurd h (Nat.not_lt.2 hge')⟩
  · obtain ⟨neg, h⟩ := hdiff.inf hge
    rw [h, fmul64_inf_pow10]
    exact ⟨nofun, fun ⟨h, _⟩ => absurd h (Nat.not_lt.2 hge)⟩

/-- A value between the minimum and the maximum scales to at most what the maximum scales to. -/
theorem scaledInt_mono {fmin x fmax : F64} {u v w : Int} {p m : Nat} (hmin : IsUnits fmin v) (hx : IsUnits x u)
    (hmax : IsUnits fmax w) (hlo : v ≤ u) (hhi : u ≤ w) (hm : scaledInt fmin fmax p = some m) :
    ∃ k, scaledInt fmin x p = some k ∧ k ≤ m := by
  obtain ⟨hdiff, hprod, rfl⟩ := (scaledInt_eq_some_iff hmax hmin p m).1 hm
  have hdiffLe := roundedMag_mono Nat.one_pos (show (u - v).natAbs ≤ (w - v).natAbs by omega) hdiff
  have hprodLe : scaledMag (roundedMag (u - v).natAbs 1) p ≤ scaledMag (roundedMag (w - v).natAbs 1) p :=
    roundedMag_mono f64One_pos (Nat.mul_le_mul_right _ hdiffLe) hprod
  exact ⟨_, (scaledInt_eq_some_iff hx hmin p _).2
      ⟨Nat.lt_of_le_of_lt hdiffLe hdiff, Nat.lt_of_le_of_lt hprodLe hprod, rfl⟩, rneDiv_mono f64One_pos hprodLe⟩

/-! ### Bounds -/

theorem isUnits_of_isFinite {x : F64} (h : x.isFinite = true) : ∃ u, IsUnits x u := by
  cases x with
  | finite neg mag => exact ⟨_, neg, mag, rfl, rfl⟩
  | inf neg => cases h
  | nan => cases h

theorem fle64_iff {x y : F64} {u v : Int} (hx : IsUnits x u) (hy : IsUnits y v) : fle64 x y = true ↔ u ≤ v := by
  obtain ⟨_, _, rfl, rfl⟩ := hx
  obtain ⟨_, _, rfl, rfl⟩ := hy
  exact decide_eq_true_iff

/-- A value between two finite ones is finite. -/
theorem isFinite_of_fle64 {x y z : F64} (hx : x.isFinite = true) (hz : z.isFinite = true) (hxy : fle64 x y = true)
    (hyz : fle64 y z = true) : y.isFinite = true := by
  obtain ⟨_, _, _, rfl, -⟩ := isUnits_of_isFinite hx
  obtain ⟨_, _, _, rfl, -⟩ := isUnits_of_isFinite hz
  cases y with
  | finite neg mag => rfl
  | inf neg => cases neg <;> simp [fle64] at hxy hyz
  | nan => cases hxy

theorem scaledInt_le_of_fle64 {fmin x fmax : F64} {p m : Nat} (hmin : fmin.isFinite = true)
    (hmax : fmax.isFinite = true) (hlo : fle64 fmin x = true) (hhi : fle64 x fmax = true)
    (hm : scaledInt fmin fmax p = some m) : ∃ k, scaledInt fmin x p = some k ∧ k ≤ m := by
  obtain ⟨v, hv⟩ := isUnits_of_isFinite hmin
  obtain ⟨w, hw⟩ := isUnits_of_isFinite hmax
  obtain ⟨u, hu⟩ := isUnits_of_isFinite (isFinite_of_fle64 hmin hmax hlo hhi)
  exact scaledInt_mono hv hu hw ((fle64_iff hv hu).1 hlo) ((fle64_iff hu hw).1 hhi) hm

/-- Settles O47: the difference, the product and the integer are each rounded monotonically. -/
theorem scaledValueStaysInRange : Obligations.ScaledValueStaysInRange :=
  fun _ _ _ _ _ _ hlo hhi hmin hmax hm => scaledInt_le_of_fle64 hmin hmax hlo hhi hm

end Sys2Proof.Machine

/-! ENCODE that ends with an error (45_codec.md R244 to R246, 44_descriptors.md R212): at a value it does not accept, and
where OBUF is full; what stands in OBUF then. Settles O50, O51. -/

namespace Sys2Proof.Safety

open Sys2Proof.Machine

/-! ### Parts of a list of fields -/

theorem getElem?_take_eq_some {α : Type} {l : List α} {i j : Nat} {x : α} (h : (l.take i)[j]? = some x) :
    j < i ∧ l[j]? = some x := by
  rw [List.getElem?_take] at h
  split at h
  · next hj => exact ⟨hj, h⟩
  · cases h

theorem take_append_cons_drop {α : Type} {l : List α} {i : Nat} {x : α} (h : l[i]? = some x) :
    l.take i ++ x :: l.drop (i + 1) = l := by
  obtain ⟨hi, rfl⟩ := List.getElem?_eq_some_iff.1 h
  rw [← List.drop_eq_getElem_cons hi, List.take_append_drop]

theorem bodyBits_append (ks ls : List FieldKind) : bodyBits (ks ++ ls) = bodyBits ks + bodyBits ls := by
  simp [bodyBits]

theorem bodyBits_cons (k : FieldKind) (ks : List FieldKind) : bodyBits (k :: ks) = fieldWidth k + bodyBits ks := by
  simp [bodyBits]

/-- A field ends within the fields. -/
theorem fieldStart_add_fieldWidth_le {kinds : List FieldKind} {i : Nat} {k : FieldKind} (h : kinds[i]? = some k)
    (start : Nat) : fieldStart start kinds i + fieldWidth k ≤ start + bodyBits kinds := by
  have hsum : bodyBits kinds = bodyBits (kinds.take i) + (fieldWidth k + bodyBits (kinds.drop (i + 1))) := by
    rw [← bodyBits_cons, ← bodyBits_append, take_append_cons_drop h]
  rw [fieldStart]
  omega

/-! ### What stands in a stream -/

theorem tagBits_short {mode ident : Nat} (h2 : 2 ≤ mode) (h : ident < 128) : tagBits mode ident = 8 := by
  rw [tagBits, if_neg (by omega), if_pos h]

theorem tagBits_long {mode ident : Nat} (h2 : 2 ≤ mode) (h : 128 ≤ ident) : tagBits mode ident = 16 := by
  rw [tagBits, if_neg (by omega), if_neg (by omega)]

theorem routeBits_three : routeBits 3 = 19 := rfl

/-- A message stands in every stream that agrees on its bits. -/
theorem MessageBits.congr {f g : Nat → Byte} {mode : Nat} {s : State} {kinds : List FieldKind}
    (h : ∀ q < messageBits mode s kinds, streamBit g q = streamBit f q) (hf : MessageBits f mode s kinds) :
    MessageBits g mode s kinds := by
  unfold messageBits at h
  refine ⟨fun h3 => ?_, fun h2 hid => ?_, fun h2 hid => ?_, fun i k hk => ?_⟩
  · subst h3
    rw [routeBits_three] at h
    exact routeOnWire_congr (fun q hq => h q (by omega)) (hf.route rfl)
  · rw [tagBits_short h2 hid] at h
    obtain ⟨hflag, hident⟩ := hf.shortTag h2 hid
    exact ⟨fieldAt_congr (fun q _ hq => h q (by omega)) hflag, fieldAt_congr (fun q _ hq => h q (by omega)) hident⟩
  · rw [tagBits_long h2 hid] at h
    obtain ⟨hflag, hident⟩ := hf.longTag h2 hid
    exact ⟨fieldAt_congr (fun q _ hq => h q (by omega)) hflag, fieldAt_congr (fun q _ hq => h q (by omega)) hident⟩
  · have hend := fieldStart_add_fieldWidth_le hk (routeBits mode + tagBits mode s.typeId)
    exact fieldOnWire_congr (fun q _ hq => h q (by omega)) (hf.fields i k hk)

/-- A message is the same seen from the state whose writer was cleared for it. -/
theorem messageBits_clearWriter {f : Nat → Byte} {mode : Nat} {s : State} {kinds : List FieldKind}
    (h : MessageBits f mode (clearWriter s) kinds) : MessageBits f mode s kinds :=
  ⟨h.route, h.shortTag, h.longTag, fun i k hk => by cases k <;> exact h.fields i _ hk⟩

theorem valueOk_clearWriter {s : State} {i : Nat} {k : FieldKind} : ValueOk (clearWriter s) i k ↔ ValueOk s i k := by
  cases k <;> exact Iff.rfl

theorem scaledOk_clearWriter {s : State} {i : Nat} {k : FieldKind} : ScaledOk (clearWriter s) i k ↔ ScaledOk s i k := by
  cases k <;> exact Iff.rfl

theorem valueCause_clearWriter (s : State) (i : Nat) (k : FieldKind) :
    valueCause (clearWriter s) i k = valueCause s i k := by
  cases k <;> rfl

section
variable {s t : State} {n : Nat} (h : Wrote (clearWriter s) t n)
include h

/-- What was written to a cleared writer ends the command in a state that has only OBUF and WPOS changed. -/
theorem Wrote.only_of_clear : t = (s.setObuf t.obuf).setWpos t.wpos := h.only

theorem Wrote.pos_of_clear : t.wpos.toNat = n := h.pos.trans (Nat.zero_add n)

end

theorem Wrote.zeroFrom {s t : State} {n : Nat} (h : Wrote s t n) : ZeroFrom t.obufAt t.wpos.toNat := h.inv.zeroTail

/-! ### Where ENCODE ends with an error -/

/-- An accepted value scales within its maximum (R212). -/
theorem scaledOk_of_valueOk {s : State} {kinds : List FieldKind} {i : Nat} {k : FieldKind}
    (hvalid : validateFrom s 0 s.msgNfields.toNat = .ok kinds) (hk : kinds[i]? = some k) (hv : ValueOk s i k) :
    ScaledOk s i k := by
  have hfield := (validateFrom_get hvalid).2 i k hk
  rw [Nat.zero_add] at hfield
  cases k with
  | float fmin fmax p m =>
    obtain ⟨-, -, -, -, -, hmin, hmax, -, hscaled, -⟩ := parseField_ok (validateField_ok hfield)
    exact scaledInt_le_of_fle64 hmin hmax hv.1 hv.2 hscaled
  | bool | int _ _ | enum _ | bytes _ | str _ => trivial

section
variable {s : State} {mode : BitVec 2} {kinds : List FieldKind} (hm : mode ≠ 0#2)
  (hvalid : validateFrom s 0 s.msgNfields.toNat = .ok kinds)
include hm hvalid

theorem exec_encodeMsg_eq :
    exec (.encodeMsg mode) s = respond ((encHeader mode.toNat (clearWriter s)).bind fun _ t =>
      (encFields kinds 0 t).bind fun _ t => encFinish t) := by
  have hm' : opUnsigned mode ≠ 0 := fun h => hm (BitVec.eq_of_toNat_eq h)
  rw [exec_encodeMsg, runEncode_eq hm' hvalid, encMessage_eq]

theorem exec_encodeMsg_headerError {e : CmdError} {t : State}
    (h : encHeader mode.toNat (clearWriter s) = .raise e t) :
    exec (.encodeMsg mode) s = .next (t.setResponse (some (errorResponse e))) := by
  rw [exec_encodeMsg_eq hm hvalid, h]; rfl

/-- ENCODE reaches field `i` when the values before it are accepted and fit; an error in it is the command's. -/
theorem encode_reaches_field (hi : Inv s) (hid : 2 ≤ mode.toNat → s.typeIdValid = true ∧ s.typeId < 32768) {i : Nat}
    {k : FieldKind} (hk : kinds[i]? = some k) (hvals : ∀ j k', j < i → kinds[j]? = some k' → ValueOk s j k')
    (hfit : messageBits mode.toNat s (kinds.take i) ≤ 8 * s.cfg.obufBytes) :
    ∃ u, Wrote (clearWriter s) u (messageBits mode.toNat s (kinds.take i)) ∧
      MessageBits u.obufAt mode.toNat s (kinds.take i) ∧
      ∀ e t, encField k i u = .raise e t →
        exec (.encodeMsg mode) s = .next (t.setResponse (some (errorResponse e))) := by
  obtain ⟨t, u, hheader, hfields, hwrote, hwire⟩ := encBody_wrote (s := clearWriter s) (mode := mode.toNat)
    (kinds := kinds.take i) hi.clearWriter rfl hid (fun j k' hj => by
      obtain ⟨hlt, hj⟩ := getElem?_take_eq_some hj
      have hv := hvals j k' hlt hj
      exact ⟨valueOk_clearWriter.2 hv, scaledOk_clearWriter.2 (scaledOk_of_valueOk hvalid hj hv)⟩) hfit
  have hlen : 0 + (kinds.take i).length = i := by
    obtain ⟨hlt, -⟩ := List.getElem?_eq_some_iff.1 hk
    rw [Nat.zero_add, List.length_take, Nat.min_eq_left hlt.le]
  refine ⟨u, hwrote, messageBits_clearWriter hwire.toMessageBits, fun e v hfield => ?_⟩
  rw [exec_encodeMsg_eq hm hvalid, hheader, Eff.bind_ok, ← take_append_cons_drop hk, encFields_append, hfields,
    Eff.bind_ok, hlen, encFields, hfield]
  rfl

end

/-! ### A value that is not accepted -/

theorem Wrote.valueCause {s t : State} {n : Nat} (h : Wrote s t n) (i : Nat) (k : FieldKind) :
    Safety.valueCause t i k = Safety.valueCause s i k := by
  rw [h.only]; cases k <;> rfl

/-- Settles O50: the fields before the bad one are written, and nothing of it. -/
theorem encodeStopsAtFirstBadValue : Obligations.EncodeStopsAtFirstBadValue := by
  intro s mode kinds i k hi hm hvalid hid hk hvals hbad hfit
  obtain ⟨t, hwrote, hwire, hexec⟩ := encode_reaches_field hm hvalid hi hid hk hvals hfit
  have hbad' : ¬ ValueOk t i k := fun h => hbad (valueOk_clearWriter.1 (hwrote.valueOk.1 h))
  have hcause : valueCause t i k = valueCause s i k := (hwrote.valueCause i k).trans (valueCause_clearWriter s i k)
  have hpad := hwrote.zeroFrom
  rw [hwrote.pos_of_clear] at hpad
  refine ⟨t, ?_, hwrote.pos_of_clear, hwire, hpad⟩
  rw [hexec _ _ (encField_bad hbad'), hcause, ← hwrote.only_of_clear]

/-! ### OBUF full in a field -/

theorem putVbBytes_add (i j a b : Nat) (s : State) :
    putVbBytes i j (a + b) s = (putVbBytes i j a s).bind fun _ t => putVbBytes i (j + a) b t := by
  induction a generalizing j s with
  | zero => rw [Nat.zero_add]; rfl
  | succ a ih =>
    rw [show a + 1 + b = a + b + 1 by omega, putVbBytes, putVbBytes]
    cases putBits (s.vbAt i j).toNat 8 .field i s with
    | raise e t => rfl
    | ok u t => rw [Eff.bind_ok, Eff.bind_ok, ih, show j + 1 + a = j + (a + 1) by omega]

/-- Of the bytes of a slot that do not all fit, those that do are appended in order. -/
theorem putVbBytes_fills {i count : Nat} {s : State} (hi : Inv s)
    (hover : 8 * s.cfg.obufBytes < s.wpos.toNat + 8 * count) :
    ∃ t, putVbBytes i 0 count s = .raise ⟨.capacityObufFull, .field, i⟩ t ∧
      Wrote s t (8 * ((8 * s.cfg.obufBytes - s.wpos.toNat) / 8)) ∧
      ∀ j < (8 * s.cfg.obufBytes - s.wpos.toNat) / 8,
        FieldAt t.obufAt (s.wpos.toNat + 8 * j) 8 (s.vbAt i j).toNat := by
  have hle := hi.wposLe
  generalize hroom : (8 * s.cfg.obufBytes - s.wpos.toNat) / 8 = room
  obtain ⟨rest, rfl⟩ : ∃ rest, count = room + (rest + 1) := ⟨count - room - 1, by omega⟩
  obtain ⟨t, hput, hwrote, hbytes⟩ := putVbBytes_wrote (i := i) room 0 hi (by omega)
  refine ⟨t, ?_, hwrote, fun j hj => by simpa only [Nat.zero_add] using hbytes j hj⟩
  rw [putVbBytes_add, hput, Eff.bind_ok, putVbBytes, putBits_full (by rw [hwrote.pos, hwrote.cfg]; omega)]
  rfl

/-- An accepted value with bytes is written as its bytes. -/
theorem encField_eq_putVbBytes {k : FieldKind} {i : Nat} {s : State} (hk : valueBytes k ≠ 0) (hv : ValueOk s i k) :
    encField k i s = putVbBytes i 0 (valueBytes k) s ∧ fieldWidth k = 8 * valueBytes k := by
  cases k with
  | bytes len => exact ⟨if_neg (not_not.2 hv), rfl⟩
  | str len =>
    obtain ⟨hlen, hutf⟩ := hv
    refine ⟨?_, rfl⟩
    rw [encField, if_neg (not_not.2 hlen), hutf]; rfl
  | bool | int _ _ | float _ _ _ _ | enum _ => exact absurd rfl hk

/-- A field that does not fit, with the bytes of it that were written. -/
theorem encField_fills {k : FieldKind} {i : Nat} {s : State} (hi : Inv s) (hv : ValueOk s i k) (hs : ScaledOk s i k)
    (hover : 8 * s.cfg.obufBytes < s.wpos.toNat + fieldWidth k) :
    ∃ t, encField k i s = .raise ⟨.capacityObufFull, .field, i⟩ t ∧
      Wrote s t (8 * min (valueBytes k) ((8 * s.cfg.obufBytes - s.wpos.toNat) / 8)) ∧
      ∀ j, s.wpos.toNat + 8 * (j + 1) ≤ t.wpos.toNat →
        FieldAt t.obufAt (s.wpos.toNat + 8 * j) 8 (s.vbAt i j).toNat := by
  by_cases hzero : valueBytes k = 0
  · obtain ⟨t, hfield, hwrote⟩ := encField_full hi hv hs hover
    have hpos := hwrote.pos
    rw [hzero, Nat.zero_min] at hpos
    exact ⟨t, hfield, hwrote, fun j hj => by omega⟩
  · obtain ⟨hfield, hwidth⟩ := encField_eq_putVbBytes hzero hv
    rw [hwidth] at hover
    obtain ⟨t, hput, hwrote, hbytes⟩ := putVbBytes_fills (i := i) hi hover
    have hpos := hwrote.pos
    rw [min_eq_right (by omega)]
    exact ⟨t, hfield.trans hput, hwrote, fun j hj => hbytes j (by omega)⟩

/-! ### OBUF full in the header -/

/-- A routing header of 19 bits in at most 2 bytes: the address bytes that fit are appended. -/
theorem encRoute_fills {s : State} (hi : Inv s) (hz : s.wpos.toNat = 0) (hsmall : s.cfg.obufBytes ≤ 2) :
    ∃ t, encRoute s = .raise ⟨.capacityObufFull, .route, 0⟩ t ∧ Wrote s t (8 * s.cfg.obufBytes) ∧
      FieldAt t.obufAt 0 8 (routeSrc s.routeTx) ∧
      (s.cfg.obufBytes = 2 → FieldAt t.obufAt 8 8 (routeDst s.routeTx)) := by
  have hpos := hi.cfg.2.1.1
  obtain ⟨t, hsrc, wsrc, fsrc⟩ := putBits_wrote hi (routeSrc_lt s.routeTx) .route 0 (by omega)
  rw [hz] at fsrc
  unfold encRoute
  rw [hsrc, Eff.bind_ok]
  by_cases hone : s.cfg.obufBytes = 1
  · rw [putBits_full (by rw [wsrc.pos, wsrc.cfg]; omega), hone]
    exact ⟨t, rfl, wsrc, fsrc, nofun⟩
  · have htwo : s.cfg.obufBytes = 2 := by omega
    obtain ⟨u, hdst, wdst, fdst⟩ := putBits_wrote wsrc.inv (routeDst_lt t.routeTx) .route 0
      (by rw [wsrc.pos, wsrc.cfg]; omega)
    have hwrote := wsrc.trans wdst
    rw [wsrc.routeTx, wsrc.pos, hz] at fdst
    rw [hdst, Eff.bind_ok, putBits_full (by rw [hwrote.pos, hwrote.cfg]; omega), htwo]
    exact ⟨u, rfl, hwrote, fieldAt_congr (fun q _ hq => wdst.keep q (by rw [wsrc.pos]; omega)) fsrc, fun _ => fdst⟩

/-- A tag of which only the flag fits: the flag is appended. -/
theorem encTag_fills {s : State} (hi : Inv s) (hvalid : s.typeIdValid = true) (hid : s.typeId < 32768)
    (hflag : s.wpos.toNat + 1 ≤ 8 * s.cfg.obufBytes)
    (hover : 8 * s.cfg.obufBytes < s.wpos.toNat + tagBits 2 s.typeId) :
    ∃ t, encTag s = .raise ⟨.capacityObufFull, .tag, 0⟩ t ∧ Wrote s t 1 ∧
      streamBit t.obufAt s.wpos.toNat = decide (128 ≤ s.typeId) := by
  unfold encTag
  rw [if_neg (by rw [hvalid]; decide)]
  by_cases hshort : s.typeId < 128
  · rw [tagBits_short (Nat.le_refl 2) hshort] at hover
    obtain ⟨t, hput, hwrote, hbit⟩ := putBits_wrote hi (v := 0) (n := 1) (by decide) .tag 0 hflag
    rw [if_pos hshort, hput, Eff.bind_ok, putBits_full (by rw [hwrote.pos, hwrote.cfg]; omega)]
    refine ⟨t, rfl, hwrote, ?_⟩
    rw [decide_eq_false (by omega)]
    exact (hbit.2 0 Nat.one_pos).symm
  · rw [tagBits_long (Nat.le_refl 2) (by omega)] at hover
    obtain ⟨t, hput, hwrote, hbit⟩ := putBits_wrote hi (v := 1) (n := 1) (by decide) .tag 0 hflag
    rw [if_neg hshort, if_pos hid, hput, Eff.bind_ok, putBits_full (by rw [hwrote.pos, hwrote.cfg]; omega)]
    refine ⟨t, rfl, hwrote, ?_⟩
    rw [decide_eq_true (by omega)]
    exact (hbit.2 0 Nat.one_pos).symm

theorem tagBits_of_two_le {mode : Nat} (h2 : 2 ≤ mode) (ident : Nat) : tagBits mode ident = tagBits 2 ident := by
  rw [tagBits, tagBits, if_neg (Nat.not_lt.2 h2), if_neg (Nat.lt_irrefl 2)]

/-- A tag that does not fit after its routing header: the header and the flag are appended. -/
theorem encHeader_fillsInTag {s : State} (hi : Inv s) (hz : s.wpos.toNat = 0) {mode : Nat} (h2 : 2 ≤ mode)
    (hvalid : s.typeIdValid = true) (hid : s.typeId < 32768) (hfit : routeBits mode ≤ 8 * s.cfg.obufBytes)
    (hover : 8 * s.cfg.obufBytes < routeBits mode + tagBits mode s.typeId) :
    ∃ t, encHeader mode s = .raise ⟨.capacityObufFull, .tag, 0⟩ t ∧ Wrote s t (routeBits mode + 1) ∧
      (mode = 3 → RouteOnWire t.obufAt s.routeTx) ∧
      streamBit t.obufAt (routeBits mode) = decide (128 ≤ s.typeId) := by
  have hpos := hi.cfg.2.1.1
  rw [tagBits_of_two_le h2] at hover
  unfold encHeader
  by_cases h3 : mode = 3
  · subst h3
    rw [routeBits_three] at hfit hover ⊢
    obtain ⟨t, hroute, wroute, fsrc, fdst, fpri, fack⟩ := encRoute_wrote hi (by omega)
    have hwire : RouteOnWire t.obufAt s.routeTx := by
      rw [hz] at fsrc fdst fpri fack
      exact ⟨fsrc, fdst, fpri, fack⟩
    have hend : t.wpos.toNat = 19 := by rw [wroute.pos, hz]
    obtain ⟨u, htag, wtag, hflag⟩ := encTag_fills wroute.inv (by rw [wroute.typeIdValid]; exact hvalid)
      (by rw [wroute.typeId]; exact hid) (by rw [hend, wroute.cfg]; omega)
      (by rw [hend, wroute.cfg, wroute.typeId]; omega)
    rw [hend, wroute.typeId] at hflag
    refine ⟨u, ?_, wroute.trans wtag, fun _ => routeOnWire_congr (fun q hq => wtag.keep q (by omega)) hwire, hflag⟩
    rw [if_pos rfl, hroute, Eff.bind_ok, if_pos h2, htag]
  · have hroute : routeBits mode = 0 := if_neg h3
    rw [hroute, Nat.zero_add] at hover ⊢
    obtain ⟨t, htag, wtag, hflag⟩ := encTag_fills hi hvalid hid (by omega) (by omega)
    rw [hz] at hflag
    refine ⟨t, ?_, wtag, fun h => absurd h h3, hflag⟩
    rw [if_neg h3, Eff.bind_ok, if_pos h2, htag]

/-- Settles O51: in the field, in the routing header, and in the tag. -/
theorem encodeNamesWhereOutputIsFull : Obligations.EncodeNamesWhereOutputIsFull := by
  intro s mode kinds hi hm hvalid
  refine ⟨fun i k hk hid hvals hfit hover => ?_, fun h3 hsmall => ?_, fun h2 hident hid hfit hover => ?_⟩
  · obtain ⟨u, hwrote, hwire, hexec⟩ :=
      encode_reaches_field hm hvalid hi hid hk (fun j k' hj => hvals j k' hj.le) hfit
    have hv := hvals i k (Nat.le_refl i) hk
    have hs := scaledOk_of_valueOk hvalid hk hv
    have hcfg : u.cfg = s.cfg := hwrote.cfg
    obtain ⟨t, hfield, hmore, hbytes⟩ := encField_fills (i := i) hwrote.inv
      (hwrote.valueOk.2 (valueOk_clearWriter.2 hv)) (hwrote.scaledOk.2 (scaledOk_clearWriter.2 hs))
      (by rw [hcfg, hwrote.pos_of_clear]; exact hover)
    have hall := hwrote.trans hmore
    rw [hcfg, hwrote.pos_of_clear] at hall
    rw [hwrote.pos_of_clear] at hbytes
    refine ⟨t, ?_, hall.pos_of_clear, hwire.congr fun q hq => hmore.keep q (by rwa [hwrote.pos_of_clear]),
      fun j hj => ?_, hall.zeroFrom⟩
    · rw [hexec _ _ hfield, ← hall.only_of_clear]
    · have := hbytes j hj
      rwa [hwrote.vbAt] at this
  · subst h3
    obtain ⟨t, hroute, hwrote, fsrc, fdst⟩ := encRoute_fills hi.clearWriter rfl hsmall
    refine ⟨t, ?_, hwrote.pos_of_clear, fsrc, fdst, hwrote.zeroFrom⟩
    have hheader : encHeader 3 (clearWriter s) = .raise ⟨.capacityObufFull, .route, 0⟩ t := by
      rw [encHeader, if_pos rfl, hroute, Eff.bind_raise]
    rw [exec_encodeMsg_headerError hm hvalid hheader, ← hwrote.only_of_clear]
  · obtain ⟨t, hheader, hwrote, hwire, hflag⟩ := encHeader_fillsInTag hi.clearWriter rfl h2 hident hid hfit hover
    refine ⟨t, ?_, hwrote.pos_of_clear, fun h3 => hwire (by rw [h3]; rfl), hflag, hwrote.zeroFrom⟩
    rw [exec_encodeMsg_headerError hm hvalid hheader, ← hwrote.only_of_clear]

end Sys2Proof.Safety

/-! DECODE of an acceptable message, and DECODE that ends at a field that does not read or where the input ends
(45_codec.md R250 to R258, 44_descriptors.md R213, R214). Settles O55, O56, O58. -/

namespace Sys2Proof.Safety

open Sys2Proof.Machine

/-! ### What has been read before a field -/

/-- DECODE has read the header and the fields before field `i`, and nothing after them. -/
structure FieldsRead (mode : Nat) (s : State) (kinds : List FieldKind) (i : Nat) (t : State) : Prop where
  inv : Inv t
  cfg : t.cfg = s.cfg
  rlen : t.rlen = s.rlen
  ibufAt : t.ibufAt = s.ibufAt
  pos : t.rpos.toNat = fieldStart (bodyStart mode s) kinds i
  decoded : ∀ j k, j < i → kinds[j]? = some k → FieldDecoded s.ibufAt (fieldStart (bodyStart mode s) kinds j) t j k
  val : ∀ j, i ≤ j → t.valAt j = s.valAt j
  vb : ∀ j b, i ≤ j → b < 65536 → t.vbAt j b = s.vbAt j b
  route : mode = 3 → RouteRead s.ibufAt t.routeRx
  tag : 2 ≤ mode → t.tagRx.toNat = tagIdAt s.ibufAt (routeBits mode)

theorem fieldStart_take (start : Nat) (kinds : List FieldKind) {i j : Nat} (hj : j < i) :
    fieldStart start (kinds.take i) j = fieldStart start kinds j := by
  rw [fieldStart, List.take_take, Nat.min_eq_left hj.le, fieldStart]

section
variable {s : State} {mode : Nat} {kinds : List FieldKind} {i : Nat}

theorem decFields_take_read (hi : Inv s) (hh : HeaderReads mode s kinds) (hle : i ≤ kinds.length)
    (hreads : ∀ j k, j < i → kinds[j]? = some k → FieldReads s.ibufAt (fieldStart (bodyStart mode s) kinds j) k)
    (hfit : fieldStart (bodyStart mode s) kinds i ≤ 8 * s.rlen.toNat) :
    ∃ t u, decHeader mode (s.setRpos 0#32) = .ok () t ∧ decFields (kinds.take i) 0 t = .ok () u ∧
      FieldsRead mode s kinds i u := by
  obtain ⟨t, u, hheader, hread, hfields, htook, hpos, hdec, hval, hvb⟩ := decBody_read hi hh (ks := kinds.take i)
    (fun j k hj => (getElem?_take_eq_some hj).2)
    (fun j k hj => by
      obtain ⟨hlt, hj⟩ := getElem?_take_eq_some hj
      rw [fieldStart_take _ _ hlt]
      exact hreads j k hlt hj) hfit
  have hlen : (kinds.take i).length = i := by rw [List.length_take, Nat.min_eq_left hle]
  have hrouteRx : u.routeRx = t.routeRx := by rw [htook.only]; rfl
  have htagRx : u.tagRx = t.tagRx := by rw [htook.only]; rfl
  refine ⟨t, u, hheader, hfields, htook.inv, ?_, ?_, ?_, hpos, fun j k hj hk => ?_, fun j hj => hval j (by omega),
    fun j b hj hb => hvb j b hb fun k hk => ?_, fun h3 => ?_, fun h2 => ?_⟩
  · rw [htook.cfg, hread.only]; rfl
  · rw [htook.rlen, hread.only]; rfl
  · rw [htook.ibufAt, hread.only]; rfl
  · have := hdec j k ((List.getElem?_take_of_lt hj).trans hk)
    rwa [fieldStart_take _ _ hj] at this
  · exact absurd (getElem?_take_eq_some hk).1 (Nat.not_lt.2 hj)
  · rw [hrouteRx]; exact hread.route h3
  · rw [htagRx]; exact hread.tag h2

/-- A step that reads into slot `i` only, and leaves its value word, keeps the rest of what was read and what was not. -/
theorem FieldsRead.slotOnly {t u : State} {n len : Nat} (hh : HeaderReads mode s kinds) (h : FieldsRead mode s kinds i t)
    (htook : Took t u n) (hslot : SlotOnly t u i len) (hword : u.valAt i = t.valAt i) :
    (∀ j k, j < i → kinds[j]? = some k →
      FieldDecoded s.ibufAt (fieldStart (bodyStart mode s) kinds j) u j k) ∧
    (∀ j, i ≤ j → u.valAt j = s.valAt j) ∧ (∀ j b, i < j → b < 65536 → u.vbAt j b = s.vbAt j b) ∧
    (mode = 3 → RouteRead s.ibufAt u.routeRx) ∧ (2 ≤ mode → u.tagRx.toNat = tagIdAt s.ibufAt (routeBits mode)) := by
  have hrouteRx : u.routeRx = t.routeRx := by rw [htook.only]; rfl
  have htagRx : u.tagRx = t.tagRx := by rw [htook.only]; rfl
  refine ⟨fun j k hj hk => ?_, fun j hj => ?_, fun j b hj hb => ?_, fun h3 => ?_, fun h2 => ?_⟩
  · have hbytes : valueBytes k ≤ 65536 := by
      have hmax := h.inv.cfg.2.2.2.2
      rw [h.cfg] at hmax
      exact (validateField_bytes ((validateFrom_get hh.valid).2 j k hk)).trans hmax
    exact fieldDecoded_congr (hslot.val j hj.ne) (fun l hl => hslot.vb j l (by omega) (.inl hj.ne)) (h.decoded j k hj hk)
  · obtain heq | hlt := Nat.eq_or_lt_of_le hj
    · rw [← heq, hword, h.val i (Nat.le_refl i)]
    · rw [hslot.val j hlt.ne', h.val j hj]
  · rw [hslot.vb j b hb (.inl hj.ne'), h.vb j b hj.le hb]
  · rw [hrouteRx]; exact h.route h3
  · rw [htagRx]; exact h.tag h2

end

/-! ### Where DECODE ends -/

section
variable {s : State} {mode : BitVec 2} {kinds : List FieldKind} (hm : mode ≠ 0#2)
  (hvalid : validateFrom s 0 s.msgNfields.toNat = .ok kinds)
include hm hvalid

theorem exec_decodeMsg_eq :
    exec (.decodeMsg mode) s = respond ((decHeader mode.toNat (s.setRpos 0#32)).bind fun _ t =>
      (decFields kinds 0 t).bind fun _ t => (checkOrdinals kinds 0 t).bind fun _ t => .ok (t.rpos.setWidth 64) t) := by
  have hm' : opUnsigned mode ≠ 0 := fun h => hm (BitVec.eq_of_toNat_eq h)
  rw [exec_decodeMsg, runDecode_eq hm' hvalid, decMessage_eq]

theorem exec_decodeMsg_headerError {e : CmdError} {t : State}
    (h : decHeader mode.toNat (s.setRpos 0#32) = .raise e t) :
    exec (.decodeMsg mode) s = .next (t.setResponse (some (errorResponse e))) := by
  rw [exec_decodeMsg_eq hm hvalid, h]; rfl

end

theorem HeaderReads.mode_ne {s : State} {mode : BitVec 2} {kinds : List FieldKind}
    (hh : HeaderReads mode.toNat s kinds) : mode ≠ 0#2 := by
  rintro rfl
  exact absurd hh.modeOk.1 (by decide)

/-- DECODE reaches field `i` when the header and the fields before it read; an error in it is the command's. -/
theorem decode_reaches_field {s : State} {mode : BitVec 2} {kinds : List FieldKind} {i : Nat} {k : FieldKind}
    (hi : Inv s) (hh : HeaderReads mode.toNat s kinds) (hk : kinds[i]? = some k)
    (hreads : ∀ j k', j < i → kinds[j]? = some k' →
      FieldReads s.ibufAt (fieldStart (bodyStart mode.toNat s) kinds j) k')
    (hfit : fieldStart (bodyStart mode.toNat s) kinds i ≤ 8 * s.rlen.toNat) :
    ∃ u, FieldsRead mode.toNat s kinds i u ∧ ∀ e t, decField k i u = .raise e t →
      exec (.decodeMsg mode) s = .next (t.setResponse (some (errorResponse e))) := by
  obtain ⟨hlt, -⟩ := List.getElem?_eq_some_iff.1 hk
  obtain ⟨t, u, hheader, hfields, hread⟩ := decFields_take_read hi hh hlt.le hreads hfit
  have hlen : 0 + (kinds.take i).length = i := by rw [Nat.zero_add, List.length_take, Nat.min_eq_left hlt.le]
  refine ⟨u, hread, fun e v hfield => ?_⟩
  rw [exec_decodeMsg_eq hh.mode_ne hh.valid, hheader, Eff.bind_ok]
  conv_lhs => rw [← take_append_cons_drop hk]
  rw [decFields_append, hfields, Eff.bind_ok, hlen, decFields, hfield]
  rfl

/-! ### A message that reads -/

/-- Settles O55: after the fields, the reconstruction check is about the ordinals read. -/
theorem decodeReadsMessage : Obligations.DecodeReadsMessage := by
  intro s mode kinds hi hr
  have hend : fieldStart (bodyStart mode.toNat s) kinds kinds.length = bodyStart mode.toNat s + bodyBits kinds := by
    rw [fieldStart, List.take_length]
  obtain ⟨t, u, hheader, hfields, hread⟩ := decFields_take_read hi hr.header (Nat.le_refl _)
    (fun j k _ hk => hr.fields j k hk) (by rw [hend]; exact hr.fits)
  rw [List.take_length] at hfields
  have hpos := hread.pos.trans hend
  have hdec : ∀ j k, kinds[j]? = some k →
      FieldDecoded s.ibufAt (fieldStart (bodyStart mode.toNat s) kinds j) u j k := fun j k hk =>
    hread.decoded j k (List.getElem?_eq_some_iff.1 hk).1 hk
  have hordinal : ∀ j k, kinds[j]? = some k → (ordinalOk k (u.valAt (0 + j)) = true ↔
      OrdinalReads s.ibufAt (fieldStart (bodyStart mode.toNat s) kinds j) k) := fun j k hk => by
    rw [Nat.zero_add]
    exact ordinalOk_iff ((validateFrom_get hr.header.valid).2 j k hk) (hdec j k hk)
  have hexec : exec (.decodeMsg mode) s =
      respond ((checkOrdinals kinds 0 u).bind fun _ t => .ok (t.rpos.setWidth 64) t) := by
    rw [exec_decodeMsg_eq hr.header.mode_ne hr.header.valid, hheader, Eff.bind_ok, hfields, Eff.bind_ok]
  refine ⟨u, u.rpos.setWidth 64, fun hall => ?_, fun i k hk hbefore hbad => ?_, ?_, hpos, hdec,
    fun h3 => hread.route (by rw [h3]; rfl), hread.tag⟩
  · rw [hexec, checkOrdinals_ok fun j k hk => (hordinal j k hk).2 (hall j k hk)]; rfl
  · rw [hexec, checkOrdinals_bad hk (fun j k' hj hk' => (hordinal j k' hk').2 (hbefore j k' hj hk'))
      (Bool.eq_false_iff.2 fun h => hbad ((hordinal i k hk).1 h)), Nat.zero_add]; rfl
  · rw [BitVec.toNat_setWidth_of_le (by decide)]; exact hpos

/-! ### A field that does not read -/

/-- What a field that does not read leaves of its bytes: those of a FixedString have been read. -/
theorem fieldLeft_of_decField {k : FieldKind} {i : Nat} {s t : State} {e : CmdError} (hi : Inv s)
    (hslot : i < s.cfg.maxFields) (hlen : valueBytes k ≤ s.cfg.maxFieldBytes)
    (hfit : s.rpos.toNat + fieldWidth k ≤ 8 * s.rlen.toNat) (hbad : ¬ FieldReads s.ibufAt s.rpos.toNat k)
    (h : decField k i s = .raise e t) (honly : SlotOnly s t i (valueBytes k)) :
    FieldLeft s.ibufAt s.rpos.toNat s t i k := by
  cases k with
  | int _ _ | float _ _ _ _ => exact fun j hj => honly.vb i j hj (.inr (Nat.zero_le j))
  | bool | enum _ | bytes _ => exact absurd trivial hbad
  | str len =>
    refine ⟨?_, fun j hle hj => honly.vb i j hj (.inr hle)⟩
    obtain ⟨u, hget, -, -, hbytes, -⟩ := getVbBytes_took (i := i) len 0 hi hslot (by rw [Nat.zero_add]; exact hlen) hfit
    simp only [Nat.zero_add] at hbytes
    have hwire := vbBytes_eq_wireBytes hbytes
    have hutf : utf8Valid (vbBytes u i len) = false := Bool.eq_false_iff.2 (by rw [hwire]; exact hbad)
    rw [decField, if_neg (Nat.not_lt.2 hfit)] at h
    simp only [hget, Eff.bind_ok, hutf] at h
    cases h
    exact hwire

/-- A slot's bytes before the field was read are those before the command. -/
theorem FieldLeft.of_vbAt_eq {f : Nat → Byte} {p i : Nat} {s t u : State} {k : FieldKind} (h : FieldLeft f p t u i k)
    (hvb : ∀ j < 65536, t.vbAt i j = s.vbAt i j) : FieldLeft f p s u i k := by
  cases k with
  | str len => exact ⟨h.1, fun j hle hj => (h.2 j hle hj).trans (hvb j hj)⟩
  | bool | int _ _ | float _ _ _ _ | enum _ | bytes _ => exact fun j hj => (h j hj).trans (hvb j hj)

theorem FieldLeft.setResponse {f : Nat → Byte} {p i : Nat} {s t : State} {k : FieldKind} (h : FieldLeft f p s t i k)
    (r : Option Response) : FieldLeft f p s (t.setResponse r) i k := by
  cases k <;> exact h

/-- Settles O56: the field consumes its bits and leaves at most its bytes. -/
theorem decodeStopsAtFirstBadField : Obligations.DecodeStopsAtFirstBadField := by
  intro s mode kinds i k hi hh hk hreads hfit hbad
  obtain ⟨u, hread, hexec⟩ := decode_reaches_field hi hh hk hreads (by omega)
  obtain ⟨hcount, hslots⟩ := validateFrom_get hh.valid
  obtain ⟨hlt, -⟩ := List.getElem?_eq_some_iff.1 hk
  have hslot : i < u.cfg.maxFields := by
    have := hi.nfieldsLe
    rw [hread.cfg]
    omega
  have hlen : valueBytes k ≤ u.cfg.maxFieldBytes := by
    rw [hread.cfg]
    exact validateField_bytes (hslots i k hk)
  rw [← hread.pos, ← hread.ibufAt] at hbad
  rw [← hread.pos, ← hread.rlen] at hfit
  obtain ⟨t, hfield, htook, hword, honly⟩ := decField_bad hread.inv hslot hlen hbad hfit
  obtain ⟨hdec, hval, hvb, hroute, htag⟩ := hread.slotOnly hh htook honly hword
  have hleft := fieldLeft_of_decField hread.inv hslot hlen hfit hbad hfield honly
  rw [hread.ibufAt, hread.pos] at hleft
  refine ⟨_, hexec _ _ hfield, rfl, ?_, fun j k' hj hk' => fieldDecoded_congr rfl (fun _ _ => rfl) (hdec j k' hj hk'),
    hval, (hleft.of_vbAt_eq fun j hj => hread.vb i j (Nat.le_refl i) hj).setResponse _, hvb,
    fun h3 => hroute (by rw [h3]; rfl), htag⟩
  rw [State.setResponse_rpos, htook.pos, hread.pos]

/-! ### Where the input ends -/

/-- A header cut short in the tag ends the command where the tag starts. -/
theorem decTagStage_short {s : State} (h : 8 * s.rlen.toNat < s.rpos.toNat + tagBitsAt s.ibufAt s.rpos.toNat) :
    decTagStage s = .raise ⟨.decTruncated, .tag, 0⟩ s := by
  rw [decTagStage, decTag_short h, Eff.bind_raise]

/-- Settles O58: in the routing header, in a tag that starts the input, in a tag after the header, and in a field. -/
theorem decodeNamesWhereInputEnds : Obligations.DecodeNamesWhereInputEnds := by
  intro s mode kinds hi hm hvalid
  refine ⟨fun h3 hshort => ?_, fun h2 hshort => ?_, fun h3 hroute hshort => ?_, fun i k hk hh hreads hfit hshort => ?_⟩
  · subst h3
    refine exec_decodeMsg_headerError hm hvalid ?_
    have hover : 8 * (s.setRpos 0#32).rlen.toNat < (s.setRpos 0#32).rpos.toNat + 19 := by
      simpa using hshort
    rw [decHeader, if_pos (by decide), decRoute_short hover, Eff.bind_raise]
  · subst h2
    refine exec_decodeMsg_headerError hm hvalid ?_
    have hover : 8 * s.rlen.toNat < 0 + tagBitsAt s.ibufAt 0 := by
      unfold tagBitsAt
      obtain h | ⟨h, hflag⟩ := hshort
      · rw [h]; split <;> decide
      · rw [h, if_pos hflag]; decide
    rw [decHeader, if_neg (by decide), Eff.bind_ok, if_pos (by decide), decTagStage_short hover]
  · subst h3
    obtain ⟨t, hdec, honly, hpos, -, hsrc, hdst, hpri, hack⟩ := decRoute_ok hi.rewind (by simpa using hroute)
    have hpos' : t.rpos = 19#32 := BitVec.eq_of_toNat_eq hpos
    have hover : 8 * t.rlen.toNat < t.rpos.toNat + tagBitsAt t.ibufAt t.rpos.toNat := by
      rw [hpos', honly]
      exact hshort
    refine ⟨t, ?_, hsrc, hdst, hpri, hack⟩
    have hheader : decHeader 3 (s.setRpos 0#32) = .raise ⟨.decTruncated, .tag, 0⟩ t := by
      rw [decHeader, if_pos rfl, hdec, Eff.bind_ok, if_pos (by decide), decTagStage_short hover]
    rw [exec_decodeMsg_headerError hm hvalid hheader]
    conv_lhs => rw [honly, hpos']
    rfl
  · obtain ⟨u, hread, hexec⟩ := decode_reaches_field hi hh hk hreads hfit
    have hover : 8 * u.rlen.toNat < u.rpos.toNat + fieldWidth k := by rw [hread.rlen, hread.pos]; exact hshort
    exact ⟨_, hexec _ _ (decField_short hover), rfl, hread.pos,
      fun j k' hj hk' => fieldDecoded_congr rfl (fun _ _ => rfl) (hread.decoded j k' hj hk'), hread.val, hread.vb,
      fun h3 => hread.route (by rw [h3]; rfl), hread.tag⟩

end Sys2Proof.Safety

/-! ENCODE that writes its whole message, within the declared maximum or over it; the two sizes of a tag, and the type
IDs that have none (45_codec.md R241 to R248, R261). Settles O48, O52, O53. -/

namespace Sys2Proof.Safety

open Sys2Proof.Machine

/-! ### A whole message -/

theorem mode_ne_zero_of_le {mode : BitVec 2} {n : Nat} (h : n + 1 ≤ mode.toNat) : mode ≠ 0#2 := by
  rintro rfl
  exact absurd h (Nat.not_succ_le_zero n)

theorem eq_ofNat_of_toNat_eq {w n : Nat} {v : BitVec w} (h : v.toNat = n) : v = BitVec.ofNat w n := by
  rw [← h, BitVec.ofNat_toNat, BitVec.setWidth_eq]

/-- ENCODE that accepts every value and has room writes the message, and comes to the check of its size. -/
theorem exec_encodeMsg_wrote {s : State} {mode : BitVec 2} {kinds : List FieldKind} (hm : mode ≠ 0#2)
    (hvalid : validateFrom s 0 s.msgNfields.toNat = .ok kinds) (hi : Inv s)
    (hid : 2 ≤ mode.toNat → s.typeIdValid = true ∧ s.typeId < 32768)
    (hvals : ∀ i k, kinds[i]? = some k → ValueOk s i k)
    (hroom : messageBits mode.toNat s kinds ≤ 8 * s.cfg.obufBytes) :
    ∃ t, Wrote (clearWriter s) t (messageBits mode.toNat s kinds) ∧ MessageOnWire t.obufAt mode.toNat s kinds ∧
      exec (.encodeMsg mode) s = respond (encFinish t) := by
  obtain ⟨t, u, hheader, hfields, hwrote, hwire⟩ := encBody_wrote (s := clearWriter s) (mode := mode.toNat)
    (kinds := kinds) hi.clearWriter rfl hid (fun i k hk => by
      have hv := hvals i k hk
      exact ⟨valueOk_clearWriter.2 hv, scaledOk_clearWriter.2 (scaledOk_of_valueOk hvalid hk hv)⟩) hroom
  refine ⟨u, hwrote, ⟨messageBits_clearWriter hwire.toMessageBits, hwire.padding⟩, ?_⟩
  rw [exec_encodeMsg_eq hm hvalid, hheader, Eff.bind_ok, hfields, Eff.bind_ok]

theorem Wrote.outLen_of_clear {s t : State} {n : Nat} (h : Wrote (clearWriter s) t n) : t.outLen = (n + 7) / 8 := by
  rw [State.outLen, h.pos_of_clear]

/-- Within the declared maximum, or with none declared, ENCODE answers the byte length (R247). -/
theorem encFinish_within {t : State} (h : t.maxBytesValid = true → t.outLen ≤ t.maxBytes) :
    encFinish t = .ok (BitVec.ofNat 64 t.outLen) t := by
  rw [encFinish, if_neg]
  rw [Bool.and_eq_true, decide_eq_true_eq, not_and, Nat.not_lt]
  exact h

/-- Over the declared maximum it answers the error (R247). -/
theorem encFinish_over {t : State} (hvalid : t.maxBytesValid = true) (hover : t.maxBytes < t.outLen) :
    encFinish t = .raise ⟨.encMaxSize, .size, 0⟩ t := by
  rw [encFinish, if_pos]
  rw [hvalid, Bool.true_and, decide_eq_true hover]

theorem outLen_lt (s : State) : s.outLen < 2 ^ 32 := by
  have := s.wpos.isLt
  rw [State.outLen]
  omega

/-- Settles O48: the fields are the message, and its size is within the maximum. -/
theorem encodeLaysOutMessage : Obligations.EncodeLaysOutMessage := by
  intro s mode kinds hi he
  obtain ⟨t, hwrote, hwire, hexec⟩ := exec_encodeMsg_wrote (mode_ne_zero_of_le he.modeOk.1) he.valid hi he.ident
    he.values he.room
  have hlen := hwrote.outLen_of_clear
  have hfinish : encFinish t = .ok (BitVec.ofNat 64 t.outLen) t := encFinish_within fun hmax => by
    rw [hlen, hwrote.maxBytes]
    exact he.size (hwrote.maxBytesValid.symm.trans hmax)
  refine ⟨t, BitVec.ofNat 64 t.outLen, ?_, ?_, hwrote.pos_of_clear, hwire⟩
  · rw [hexec, hfinish, ← hwrote.only_of_clear]; rfl
  · have hlt := outLen_lt t
    rw [BitVec.toNat_ofNat, Nat.mod_eq_of_lt (by omega), hlen]

/-- Settles O52: the message is written before its size is checked. -/
theorem encodeOverMaximumIsRejected : Obligations.EncodeOverMaximumIsRejected := by
  intro s mode kinds hi hm hvalid hid hvals hroom hmax hover
  obtain ⟨t, hwrote, hwire, hexec⟩ := exec_encodeMsg_wrote hm hvalid hi hid hvals hroom
  have hfinish : encFinish t = .raise ⟨.encMaxSize, .size, 0⟩ t :=
    encFinish_over (hwrote.maxBytesValid.trans hmax) (by rw [hwrote.maxBytes, hwrote.outLen_of_clear]; exact hover)
  refine ⟨t, ?_, hwrote.pos_of_clear, hwire⟩
  rw [hexec, hfinish, ← hwrote.only_of_clear]; rfl

/-! ### The tag -/

/-- Two fields side by side are one field. -/
theorem FieldAt.append {f : Nat → Byte} {p a b u v : Nat} (hu : FieldAt f p a u) (hv : FieldAt f (p + a) b v) :
    FieldAt f p (a + b) (u * 2 ^ b + v) := by
  rw [fieldAt_iff] at hu hv ⊢
  rw [readBits_add, hu, hv]

/-- Before the tag ENCODE has written the routing header, in Mode 3, and nothing else (R245). -/
theorem encHeader_before_tag {s : State} (hi : Inv s) (hz : s.wpos.toNat = 0) {mode : Nat} (h2 : 2 ≤ mode)
    (hfit : routeBits mode ≤ 8 * s.cfg.obufBytes) :
    ∃ t, encHeader mode s = encTag t ∧ Wrote s t (routeBits mode) ∧
      (mode = 3 → RouteOnWire t.obufAt s.routeTx) := by
  unfold encHeader
  by_cases h3 : mode = 3
  · subst h3
    rw [routeBits_three] at hfit ⊢
    obtain ⟨t, hroute, hwrote, hsrc, hdst, hpri, hack⟩ := encRoute_wrote hi (by omega)
    rw [hz] at hsrc hdst hpri hack
    exact ⟨t, by rw [if_pos rfl, hroute, Eff.bind_ok, if_pos h2], hwrote, fun _ => ⟨hsrc, hdst, hpri, hack⟩⟩
  · have hroute : routeBits mode = 0 := if_neg h3
    rw [hroute]
    exact ⟨s, by rw [if_neg h3, Eff.bind_ok, if_pos h2], Wrote.refl hi, fun h => absurd h h3⟩

theorem encTag_missing {s : State} (h : s.typeIdValid = false) : encTag s = .raise ⟨.encNoTypeId, .tag, 0⟩ s := by
  rw [encTag, h]; rfl

theorem encTag_tooGreat {s : State} (h : s.typeIdValid = true) (hid : 32768 ≤ s.typeId) :
    encTag s = .raise ⟨.encTypeIdRange, .tag, 0⟩ s := by
  rw [encTag, if_neg (by rw [h]; decide), if_neg (by omega), if_neg (by omega)]

/-- A message of no fields with a type ID, in Mode 2, is its tag alone. -/
theorem encode_tag_alone {s : State} (hi : Inv s) (hn : s.msgNfields = 0#32) (hmax : s.maxBytesValid = false)
    (hbytes : 2 ≤ s.cfg.obufBytes) (hvalid : s.typeIdValid = true) (hid : s.typeId < 32768) :
    ∃ t, exec (.encodeMsg 2#2) s = .next t ∧
      t.response = some (okResponse (BitVec.ofNat 64 (tagBits 2 s.typeId / 8))) ∧
      MessageBits t.obufAt 2 s [] := by
  have hbits : messageBits 2 s [] = tagBits 2 s.typeId := Nat.zero_add _
  have hle : tagBits 2 s.typeId ≤ 16 ∧ (tagBits 2 s.typeId + 7) / 8 = tagBits 2 s.typeId / 8 := by
    unfold tagBits
    split_ifs <;> decide
  have he : Encodable 2 s [] :=
    ⟨by decide, by rw [hn]; rfl, fun _ => ⟨hvalid, hid⟩, fun _ _ hk => (nomatch hk), by rw [hbits]; omega,
      fun h => absurd (hmax.symm.trans h) Bool.false_ne_true⟩
  obtain ⟨t, v, hexec, hv, -, hwire⟩ := encodeLaysOutMessage s 2#2 [] hi he
  have hlen : v.toNat = tagBits 2 s.typeId / 8 := hv.trans (hbits.symm ▸ hle.2)
  exact ⟨_, hexec, by rw [← eq_ofNat_of_toNat_eq hlen]; rfl, hwire.toMessageBits⟩

/-- Settles O53: the tag is 8 or 16 bits in whole bytes, and a type ID without a tag ends the command after the routing
header. -/
theorem tagSizeBoundary : Obligations.TagSizeBoundary := by
  refine ⟨fun s hi hn hmax hbytes => ⟨fun hid => ?_, fun hid => ?_⟩, fun s mode kinds hi h2 hvalid hfit => ?_⟩
  · have htype : s.typeId = 127 := by rw [State.typeId, hid]; rfl
    obtain ⟨t, hexec, hresp, hwire⟩ := encode_tag_alone hi hn hmax hbytes (by rw [State.typeIdValid, hid]; rfl)
      (by omega)
    obtain ⟨hflag, hident⟩ := hwire.shortTag (Nat.le_refl 2) (by omega)
    rw [htype] at hresp hident
    exact ⟨t, hexec, hresp, byte_of_fieldAt (p := 0) (n := 1) (hflag.append hident) Nat.one_pos⟩
  · have htype : s.typeId = 128 := by rw [State.typeId, hid]; rfl
    obtain ⟨t, hexec, hresp, hwire⟩ := encode_tag_alone hi hn hmax hbytes (by rw [State.typeIdValid, hid]; rfl)
      (by omega)
    obtain ⟨hflag, hident⟩ := hwire.longTag (Nat.le_refl 2) (by omega)
    rw [htype] at hresp hident
    have htag : FieldAt t.obufAt (8 * 0) (8 * 2) (1 * 2 ^ 15 + 128) := hflag.append hident
    exact ⟨t, hexec, hresp, byte_of_fieldAt htag (j := 0) (by decide), byte_of_fieldAt htag (j := 1) (by decide)⟩
  · have hm : mode ≠ 0#2 := mode_ne_zero_of_le h2
    obtain ⟨t, hheader, hwrote, hroute⟩ := encHeader_before_tag hi.clearWriter rfl h2 hfit
    refine ⟨t, hwrote.pos_of_clear, fun h3 => hroute (by rw [h3]; rfl), hwrote.zeroFrom, fun hid hbig => ?_,
      fun hid => ?_⟩
    · have htag := encTag_tooGreat (hwrote.typeIdValid.trans hid) (hbig.trans_eq hwrote.typeId.symm)
      rw [exec_encodeMsg_headerError hm hvalid (hheader.trans htag), ← hwrote.only_of_clear]
    · have htag := encTag_missing (hwrote.typeIdValid.trans hid)
      rw [exec_encodeMsg_headerError hm hvalid (hheader.trans htag), ← hwrote.only_of_clear]

end Sys2Proof.Safety

/-! What ENCODE and DECODE leave of the state whatever their outcome (45_codec.md R240, R244, R250, R258): nothing where
a descriptor fails, and else the outputs of the message that validated. Settles O49, O54. -/

namespace Sys2Proof.Machine

open Sys2Proof.Safety

/-! ### A descriptor that fails -/

theorem runEncode_invalid {s : State} {mode : Nat} {e : CmdError} (hm : mode ≠ 0)
    (h : validateFrom s 0 s.msgNfields.toNat = .error e) : runEncode mode s = .raise e s := by
  rw [runEncode, if_neg hm, h]

theorem runDecode_invalid {s : State} {mode : Nat} {e : CmdError} (hm : mode ≠ 0)
    (h : validateFrom s 0 s.msgNfields.toNat = .error e) : runDecode mode s = .raise e s := by
  rw [runDecode, if_neg hm, h]

/-- Settles O49: both commands validate before they do anything else. -/
theorem badDescriptorStopsCodecFirst : Obligations.BadDescriptorStopsCodecFirst := by
  intro s mode i e hm hi hbefore hbad
  have hm' : opUnsigned mode ≠ 0 := fun h => hm (BitVec.eq_of_toNat_eq h)
  have hvalid : validateFrom s 0 s.msgNfields.toNat = .error e :=
    validateFrom_error hi (fun j hj => by rw [Nat.zero_add]; exact hbefore j hj) (by rw [Nat.zero_add]; exact hbad)
  obtain ⟨hstage, hfield⟩ := validateField_error hbad
  refine ⟨hstage, hfield, ?_, ?_⟩
  · rw [exec_encodeMsg, runEncode_invalid hm' hvalid]; rfl
  · rw [exec_decodeMsg, runDecode_invalid hm' hvalid]; rfl

/-! ### The outputs of DECODE -/

/-- What DECODE of a message of fields `kinds` can make of `s`: it writes RPOS, VAL of the fields' slots, VB of their
bytes, ROUTE_RX in Mode 3 and TAG_RX in Modes 2 and 3. (`Reads` bounds all slots alike and leaves the mode out.) -/
inductive DecodeWrites (mode : Nat) (kinds : List FieldKind) (s : State) : State → Prop where
  | start : DecodeWrites mode kinds s s
  | get {t : State} (n : Nat) (e : CmdError) (h : DecodeWrites mode kinds s t) :
      DecodeWrites mode kinds s (getBits n e t).state
  | val {t : State} {i : Nat} (v : Word64) (hi : i < kinds.length) (h : DecodeWrites mode kinds s t) :
      DecodeWrites mode kinds s (t.writeVal i v)
  | vb {t : State} {i j : Nat} {k : FieldKind} (v : Byte) (hk : kinds[i]? = some k) (hj : j < valueBytes k)
      (h : DecodeWrites mode kinds s t) : DecodeWrites mode kinds s (t.writeVb i j v)
  | route {t : State} (r : BitVec 19) (h3 : mode = 3) (h : DecodeWrites mode kinds s t) :
      DecodeWrites mode kinds s (t.setRouteRx r)
  | tag {t : State} (r : BitVec 16) (h2 : 2 ≤ mode) (h : DecodeWrites mode kinds s t) :
      DecodeWrites mode kinds s (t.setTagRx r)

namespace DecodeWrites

section
variable {mode : Nat} {kinds : List FieldKind} {s t : State} (h : DecodeWrites mode kinds s t)
include h

theorem getVbBytes {i : Nat} {k : FieldKind} (hk : kinds[i]? = some k) {j count : Nat}
    (hj : j + count ≤ valueBytes k) : DecodeWrites mode kinds s (getVbBytes i j count t).state := by
  induction count generalizing j t with
  | zero => exact h
  | succ count ih => exact Eff.state_bind (h.get _ _) fun _ _ hu => ih (hu.vb _ hk (by omega)) (by omega)

theorem decField {i : Nat} {k : FieldKind} (hk : kinds[i]? = some k) :
    DecodeWrites mode kinds s (decField k i t).state := by
  obtain ⟨hi, -⟩ := List.getElem?_eq_some_iff.1 hk
  refine Eff.state_check h fun _ => ?_
  cases k with
  | bool | enum n => exact Eff.state_bind (h.get _ _) fun _ _ hu => hu.val _ hi
  | int min max => exact Eff.state_bind (h.get _ _) fun _ _ hu => Eff.state_check hu fun _ => hu.val _ hi
  | float fmin fmax p m =>
    exact Eff.state_bind (h.get _ _) fun _ _ hu =>
      Eff.state_check hu fun _ => Eff.state_check hu fun _ => hu.val _ hi
  | bytes len => exact Eff.state_bind (h.getVbBytes hk (Nat.zero_add len).le) fun _ _ hu => hu.val _ hi
  | str len =>
    exact Eff.state_bind (h.getVbBytes hk (Nat.zero_add len).le) fun _ _ hu =>
      Eff.state_check hu fun _ => hu.val _ hi

theorem decFields {ks : List FieldKind} {i : Nat} (hks : ∀ j k, ks[j]? = some k → kinds[i + j]? = some k) :
    DecodeWrites mode kinds s (decFields ks i t).state := by
  induction ks generalizing i t with
  | nil => exact h
  | cons k ks ih =>
    refine Eff.state_bind (h.decField (hks 0 k rfl)) fun _ _ hu => ih hu fun j k' hk' => ?_
    rw [Nat.add_assoc, Nat.add_comm 1 j]
    exact hks (j + 1) k' hk'

theorem decRoute (h3 : mode = 3) : DecodeWrites mode kinds s (decRoute t).state :=
  Eff.state_check h fun _ => Eff.state_bind (h.get _ _) fun _ _ h1 => Eff.state_bind (h1.get _ _) fun _ _ h2 =>
    Eff.state_bind (h2.get _ _) fun _ _ h4 => Eff.state_bind (h4.get _ _) fun _ _ h5 =>
      Eff.state_check h5 fun _ => h5.route _ h3

theorem decTagStage (h2 : 2 ≤ mode) : DecodeWrites mode kinds s (decTagStage t).state := by
  refine Eff.state_bind ?_ fun _ _ hu => Eff.state_check (hu.tag _ h2) fun _ => hu.tag _ h2
  rw [decTag_state]; exact h.get _ _

theorem decHeader : DecodeWrites mode kinds s (decHeader mode t).state := by
  have hroute : DecodeWrites mode kinds s (if mode = 3 then Machine.decRoute t else .ok () t).state := by
    split
    case isTrue h3 => exact h.decRoute h3
    case isFalse => exact h
  refine Eff.state_bind hroute fun _ u hu => ?_
  split
  case isTrue h2 => exact hu.decTagStage h2
  case isFalse => exact hu

theorem decMessage : DecodeWrites mode kinds s (decMessage mode kinds t).state := by
  rw [decMessage_eq]
  exact Eff.state_bind h.decHeader fun _ _ h1 =>
    Eff.state_bind (h1.decFields fun j k hk => by rwa [Nat.zero_add]) fun _ _ h2 =>
      Eff.state_bind ((checkOrdinals_state kinds 0 _).symm ▸ h2) fun _ _ h3 => h3

/-! ### What is none of the outputs of DECODE -/

theorem routeRx_eq (h3 : mode ≠ 3) : t.routeRx = s.routeRx := by
  induction h with
  | route r h3' _ _ => exact absurd h3' h3
  | get n e _ ih => exact Piece.Same.trans (p := .routeRx) ih (sameExcept_getBits n e _ .routeRx (by simp))
  | start => rfl
  | val _ _ _ ih | vb _ _ _ _ ih | tag _ _ _ ih => exact ih

theorem tagRx_eq (h2 : mode < 2) : t.tagRx = s.tagRx := by
  induction h with
  | tag r h2' _ _ => exact absurd h2' (Nat.not_le.2 h2)
  | get n e _ ih => exact Piece.Same.trans (p := .tagRx) ih (sameExcept_getBits n e _ .tagRx (by simp))
  | start => rfl
  | val _ _ _ ih | vb _ _ _ _ ih | route _ _ _ ih => exact ih

theorem valAt_eq {i : Nat} (hi : kinds.length ≤ i) : t.valAt i = s.valAt i := by
  induction h with
  | @val t j v hj _ ih => rw [State.valAt_writeVal, if_neg (by omega), ih]
  | @get t n e _ ih =>
    have hval : (getBits n e t).state.val = t.val := sameExcept_getBits n e t .val (by simp)
    rw [← ih, State.valAt, hval, State.valAt]
  | start => rfl
  | vb _ _ _ _ ih | route _ _ _ ih | tag _ _ _ ih => exact ih

/-- A byte of VB past the bytes of its slot's field stays. The bytes of all fields lie below the 65536 of a slot. -/
theorem vbAt_eq (hlen : ∀ k ∈ kinds, valueBytes k ≤ 65536) {i j : Nat} (hj : j < 65536)
    (hpast : ∀ k, kinds[i]? = some k → valueBytes k ≤ j) : t.vbAt i j = s.vbAt i j := by
  induction h with
  | @vb t i' j' k v hk hj' _ ih =>
    have hlt := hlen k (List.mem_of_getElem? hk)
    rw [State.vbAt_writeVb _ _ _ _ _ _ (by omega) hj, if_neg, ih]
    rintro ⟨rfl, rfl⟩
    exact absurd hj' (Nat.not_lt.2 (hpast k hk))
  | @get t n e _ ih =>
    have hvb : (getBits n e t).state.vb = t.vb := sameExcept_getBits n e t .vb (by simp)
    rw [← ih, State.vbAt, hvb, State.vbAt]
  | start => rfl
  | val _ _ _ ih | route _ _ _ ih | tag _ _ _ ih => exact ih

end

end DecodeWrites

/-- DECODE ends before it rewinds the reader, or writes the outputs of the message that validated. -/
theorem runDecode_writes (mode : Nat) (s : State) :
    (runDecode mode s).state = s ∨ ∃ kinds, validateFrom s 0 s.msgNfields.toNat = .ok kinds ∧
      DecodeWrites mode kinds (s.setRpos 0#32) (runDecode mode s).state := by
  by_cases hm : mode = 0
  · left; rw [runDecode, if_pos hm]; rfl
  · cases hvalid : validateFrom s 0 s.msgNfields.toNat with
    | error e => left; rw [runDecode_invalid hm hvalid]; rfl
    | ok kinds => right; rw [runDecode_eq hm hvalid]; exact ⟨kinds, rfl, DecodeWrites.start.decMessage⟩

/-! ### Every outcome -/

/-- The pieces and the response are the whole state. -/
theorem SameExcept.eq_of_nil {s t : State} (h : SameExcept [] s t) (hresp : t.response = s.response) : t = s := by
  have hsame : ∀ p, Piece.Same s t p := fun p => h p List.not_mem_nil
  obtain ⟨hobuf, hwpos⟩ := hsame .writer
  obtain ⟨hrlen, hnfields, htype, hmax, hroute⟩ := hsame .settings
  obtain ⟨hcfg, hport, hdraws⟩ := hsame .machine
  have hibuf : t.ibuf = s.ibuf := hsame .ibuf
  have hrpos : t.rpos = s.rpos := hsame .rpos
  have hkind : t.crcKind = s.crcKind := hsame .crcKind
  have hacc : t.crcAcc = s.crcAcc := hsame .crcAcc
  have hdesc : t.desc = s.desc := hsame .desc
  have hval : t.val = s.val := hsame .val
  have hvb : t.vb = s.vb := hsame .vb
  have hrouteRx : t.routeRx = s.routeRx := hsame .routeRx
  have htagRx : t.tagRx = s.tagRx := hsame .tagRx
  obtain ⟨⟨⟩⟩ := s
  obtain ⟨⟨⟩⟩ := t
  simp_all

theorem SameExcept.eq_of_writer {s t : State} (h : SameExcept [.writer] s t) :
    t = ((s.setObuf t.obuf).setWpos t.wpos).setResponse t.response := by
  refine SameExcept.eq_of_nil (fun p _ => ?_) rfl
  by_cases hp : p ∈ [Piece.writer]
  · obtain rfl := List.mem_singleton.1 hp
    exact ⟨rfl, rfl⟩
  · have hsame := h p hp
    cases p <;> simp_all [Piece.Same]

theorem SameExcept.eq_of_outputs {s t : State} (h : SameExcept [.rpos, .val, .vb, .routeRx, .tagRx] s t) :
    t = (((((s.setRpos t.rpos).setVal t.val).setVb t.vb).setRouteRx t.routeRx).setTagRx t.tagRx).setResponse
      t.response := by
  refine SameExcept.eq_of_nil (fun p _ => ?_) rfl
  by_cases hp : p ∈ [Piece.rpos, .val, .vb, .routeRx, .tagRx]
  · simp only [List.mem_cons, List.not_mem_nil, or_false] at hp
    obtain rfl | rfl | rfl | rfl | rfl := hp <;> rfl
  · have hsame := h p hp
    cases p <;> simp_all [Piece.Same]

/-- Settles O54: of what the table `writes` gives DECODE, the parts that the mode and the fields do not name stay. -/
theorem codecCommandsTouchOnlyTheirOutputs : Obligations.CodecCommandsTouchOnlyTheirOutputs := by
  intro s t mode hi
  refine ⟨fun h => (exec_sameExcept h).eq_of_writer, fun h => ⟨(exec_sameExcept h).eq_of_outputs, ?_⟩⟩
  obtain ⟨r, hresp⟩ := respond_eq (runDecode (opUnsigned mode) s)
  rw [exec_decodeMsg, hresp] at h
  cases h
  obtain hsame | ⟨kinds, hvalid, hwrites⟩ := runDecode_writes (opUnsigned mode) s
  · rw [hsame]
    exact ⟨fun _ => rfl, fun _ => rfl, fun _ _ => rfl, fun _ _ _ _ _ _ => rfl⟩
  · have hlen : kinds.length = s.msgNfields.toNat := (validateFrom_get hvalid).1
    have hbytes : ∀ k ∈ kinds, valueBytes k ≤ 65536 := fun k hk =>
      (valueBytes_le_of_validateFrom hvalid k hk).trans hi.cfg.2.2.2.2
    refine ⟨fun h3 => hwrites.routeRx_eq fun h => h3 (BitVec.eq_of_toNat_eq h), fun h2 => hwrites.tagRx_eq h2,
      fun i hi => hwrites.valAt_eq (hlen.trans_le hi), fun kinds' hvalid' i j hj hpast => ?_⟩
    obtain rfl : kinds' = kinds := Except.ok.inj (hvalid'.symm.trans hvalid)
    exact hwrites.vbAt_eq hbytes hj hpast

end Sys2Proof.Machine

/-! The tag on its own (45_codec.md R253, R254, R256, R262): a DECODE that ends at a type ID other than the declared
one, and PEEK_TAG. Settles O57, O59. -/

namespace Sys2Proof.Safety

open Sys2Proof.Machine

/-! ### A type ID that is not the declared one -/

/-- Before the tag DECODE has read the routing header, in Mode 3, and nothing else (R255). -/
theorem decHeader_before_tag {s : State} (hi : Inv s) (hz : s.rpos.toNat = 0) {mode : Nat} (h2 : 2 ≤ mode)
    (hfit : routeBits mode ≤ 8 * s.rlen.toNat) :
    ∃ t, decHeader mode s = decTagStage t ∧ t = (s.setRpos t.rpos).setRouteRx t.routeRx ∧
      t.rpos.toNat = routeBits mode ∧ Inv t := by
  unfold decHeader
  by_cases h3 : mode = 3
  · subst h3
    rw [routeBits_three] at hfit ⊢
    obtain ⟨t, hroute, honly, hpos, hinv, -⟩ := decRoute_ok hi (by omega)
    exact ⟨t, by rw [if_pos rfl, hroute, Eff.bind_ok, if_pos h2], honly, by rw [hpos, hz], hinv⟩
  · have hroute : routeBits mode = 0 := if_neg h3
    exact ⟨s, by rw [if_neg h3, Eff.bind_ok, if_pos h2], rfl, by rw [hz, hroute], hi⟩

/-- A tag with another ID than the declared one ends DECODE, with the ID that arrived in TAG_RX and no field read. -/
theorem decHeader_mismatch {s : State} (hi : Inv s) (hz : s.rpos.toNat = 0) {mode : Nat} (h2 : 2 ≤ mode)
    (hfit : routeBits mode + tagBitsAt s.ibufAt (routeBits mode) ≤ 8 * s.rlen.toNat) (hvalid : s.typeIdValid = true)
    (hne : tagIdAt s.ibufAt (routeBits mode) ≠ s.typeId) :
    ∃ t, decHeader mode s = .raise ⟨.decTypeIdMismatch, .tag, 0⟩ t ∧ t.val = s.val ∧ t.vb = s.vb ∧
      t.tagRx.toNat = tagIdAt s.ibufAt (routeBits mode) := by
  obtain ⟨t, hheader, honly, hpos, hinv⟩ := decHeader_before_tag hi hz h2 (by omega)
  have hibuf : t.ibufAt = s.ibufAt := by rw [honly]; rfl
  have hrlen : t.rlen = s.rlen := by rw [honly]; rfl
  have hident : t.typeIdValid = s.typeIdValid ∧ t.typeId = s.typeId := by rw [honly]; exact ⟨rfl, rfl⟩
  obtain ⟨u, huonly, -, htag, -, hstage⟩ := decTagStage_cases hinv (by rwa [hpos, hibuf, hrlen])
  rw [hpos, hibuf] at htag hstage
  rw [hident.1, hident.2, if_pos ⟨hvalid, hne⟩] at hstage
  refine ⟨u, hheader.trans hstage, ?_, ?_, htag⟩
  · rw [huonly, honly]; rfl
  · rw [huonly, honly]; rfl

/-- Settles O57: the tag stage has written TAG_RX when it compares, and CSR_RD answers it. -/
theorem mismatchKeepsTheTagRead : Obligations.MismatchKeepsTheTagRead := by
  intro s mode kinds hi h2 hvalid hfit hident hne
  obtain ⟨t, hheader, hval, hvb, htag⟩ := decHeader_mismatch hi.rewind rfl h2 hfit hident hne
  refine ⟨_, t.tagRx.setWidth 64, exec_decodeMsg_headerError (mode_ne_zero_of_le h2) hvalid hheader, rfl, hval, hvb, ?_,
    exec_csrRd_some (c := .tagRx) rfl rfl⟩
  rw [BitVec.toNat_setWidth_of_le (by decide)]
  exact htag

/-! ### PEEK_TAG -/

theorem exec_peekTag_empty {s : State} (h : s.rlen = 0#32) :
    exec .peekTag s = .next (s.setResponse (some (errorResponse ⟨.decEmptyInput, .tag, 0⟩))) := by
  rw [exec_peekTag, h]; rfl

/-- On input that is not empty PEEK_TAG reads the tag from the start (R262). -/
theorem exec_peekTag_nonempty {s : State} (h : s.rlen.toNat ≠ 0) :
    exec .peekTag s = respond ((decTag (s.setRpos 0#32)).bind fun id t =>
      .ok (BitVec.ofNat 64 id) (t.setTagRx (BitVec.ofNat 16 id))) := by
  rw [exec_peekTag, if_neg h]

/-- Settles O59: the three ways the tag at the start of the input can be read. -/
theorem peekTagReadsTheTag : Obligations.PeekTagReadsTheTag := by
  intro s hi
  refine ⟨exec_peekTag_empty, fun hone hflag => ?_, fun hfit => ?_⟩
  · have hshort : 8 * s.rlen.toNat < 0 + tagBitsAt s.ibufAt 0 := by
      rw [tagBitsAt, if_pos hflag, hone]; decide
    rw [exec_peekTag_nonempty (by rw [hone]; decide), decTag_short hshort]; rfl
  · have hbits : 8 ≤ tagBitsAt s.ibufAt 0 := by unfold tagBitsAt; split <;> decide
    obtain ⟨t, htag, htook, honly⟩ := decTag_took hi.rewind ((Nat.zero_add _).trans_le hfit)
    have hid : tagIdAt s.ibufAt 0 < 2 ^ 15 := tagIdAt_lt _ _
    refine ⟨BitVec.ofNat 64 (tagIdAt s.ibufAt 0), t.rpos, htook.pos.trans (Nat.zero_add _), ?_, ?_⟩
    · rw [BitVec.toNat_ofNat, Nat.mod_eq_of_lt (by omega)]
    · rw [exec_peekTag_nonempty (by omega), htag, Eff.bind_ok, BitVec.setWidth_ofNat_of_le (by decide)]
      conv_lhs => rw [honly]
      rfl

end Sys2Proof.Safety

/-! DECODE of the image that ENCODE left (45_codec.md R260): the image loaded as input holds the message, every field of
it reads as the value it was written from, and a BoundedFloat reads where its value survives quantization. Settles
O60. -/

namespace Sys2Proof.Safety

open Sys2Proof.Machine

/-! ### A field that was written -/

theorem wireBytes_of_fieldAt {f : Nat → Byte} {p i len : Nat} {s : State}
    (h : ∀ j < len, FieldAt f (p + 8 * j) 8 (s.vbAt i j).toNat) : wireBytes f p len = vbBytes s i len :=
  (vbBytes_eq_wireBytes fun j hj => eq_ofNat_of_toNat_eq (fieldAt_iff.1 (h j hj))).symm

section
variable {f : Nat → Byte} {p : Nat} {s : State} {i : Nat} {k : FieldKind} (hv : ValueOk s i k)
  (hw : FieldOnWire f p s i k)
include hv hw

/-- What is read of an Enum that was accepted is one of its variants. -/
theorem ordinalReads_of_written : OrdinalReads f p k := by
  cases k with
  | enum n => exact (fieldAt_iff.1 hw).symm.trans_lt hv
  | bool | int _ _ | float _ _ _ _ | bytes _ | str _ => trivial

/-- Of what was accepted and written everything reads but a BoundedFloat that quantization takes out of its bounds. -/
theorem fieldReads_iff_survives : FieldReads f p k ↔ Survives s i k := by
  cases k with
  | bool | enum _ | bytes _ => exact Iff.rfl
  | int min max =>
    obtain ⟨hlo, hhi⟩ := hv
    refine iff_of_true ?_ trivial
    show (readBits f p (fieldWidth (.int min max)) : Int) ≤ max - min
    rw [← fieldAt_iff.1 hw]
    omega
  | float fmin fmax prec m =>
    obtain ⟨v, hscaled, hle, hat⟩ := hw
    rw [FieldReads, Survives, ← fieldAt_iff.1 hat, quantized, hscaled, Option.getD_some]
    exact and_iff_right hle
  | str len =>
    refine iff_of_true ?_ trivial
    rw [FieldReads, wireBytes_of_fieldAt hw]
    exact hv.2

/-- What is decoded where the field was written is the value that was written. -/
theorem returned_of_fieldDecoded {t : State} (hd : FieldDecoded f p t i k) :
    t.valAt i = returnedValue s i k ∧ ∀ j < valueBytes k, t.vbAt i j = s.vbAt i j := by
  have hword : ∀ {n : Nat}, (s.valAt i).toNat = n → BitVec.ofNat 64 n = s.valAt i :=
    fun h => (eq_ofNat_of_toNat_eq h).symm
  have hbytes : ∀ {len : Nat}, (∀ j < len, FieldAt f (p + 8 * j) 8 (s.vbAt i j).toNat) →
      vbBytes t i len = wireBytes f p len → ∀ j < len, t.vbAt i j = s.vbAt i j := by
    intro len hat hread j hj
    rw [wireBytes_of_fieldAt hat] at hread
    exact List.map_inj_left.1 hread j (List.mem_range.2 hj)
  cases k with
  | bool => exact ⟨hd.trans (hword (fieldAt_iff.1 hw)), fun j hj => absurd hj (Nat.not_lt_zero j)⟩
  | enum n => exact ⟨hd.trans (hword (fieldAt_iff.1 hw)), fun j hj => absurd hj (Nat.not_lt_zero j)⟩
  | int min max =>
    obtain ⟨hlo, -⟩ := hv
    refine ⟨hd.trans ?_, fun j hj => absurd hj (Nat.not_lt_zero j)⟩
    rw [← fieldAt_iff.1 hw, Int.toNat_of_nonneg (by omega), add_sub_cancel]
    exact BitVec.ofInt_toInt
  | float fmin fmax prec m =>
    obtain ⟨v, hscaled, -, hat⟩ := hw
    refine ⟨hd.trans ?_, fun j hj => absurd hj (Nat.not_lt_zero j)⟩
    rw [← fieldAt_iff.1 hat, returnedValue, quantized, hscaled, Option.getD_some]
  | bytes len => exact ⟨hd.1.trans (hword hv), hbytes hw hd.2⟩
  | str len => exact ⟨hd.1.trans (hword hv.1), hbytes hw hd.2⟩

end

theorem fieldCause_of_not_survives {s : State} {i : Nat} {k : FieldKind} (h : ¬ Survives s i k) :
    fieldCause k = .decFloatRange := by
  cases k with
  | float _ _ _ _ => rfl
  | bool | int _ _ | enum _ | bytes _ | str _ => exact absurd trivial h

/-! ### A header that was written -/

theorem toNat_route (r : BitVec 19) :
    r.toNat = routeSrc r + 2 ^ 8 * routeDst r + 2 ^ 16 * routePri r + 2 ^ 18 * routeAck r := by
  have hlt := r.isLt
  simp only [routeSrc, routeDst, routePri, routeAck, BitVec.extractLsb'_toNat, Nat.shiftRight_eq_div_pow]
  omega

/-- A routing header is its four parts. -/
theorem route_eq_of_written {f : Nat → Byte} {r q : BitVec 19} (hw : RouteOnWire f q) (hr : RouteRead f r) : r = q := by
  obtain ⟨wsrc, wdst, wpri, wack⟩ := hw
  obtain ⟨rsrc, rdst, rpri, rack⟩ := hr
  apply BitVec.eq_of_toNat_eq
  rw [toNat_route r, toNat_route q, rsrc, rdst, rpri, rack, fieldAt_iff.1 wsrc, fieldAt_iff.1 wdst, fieldAt_iff.1 wpri,
    fieldAt_iff.1 wack]

theorem streamBit_of_fieldAt_one {f : Nat → Byte} {p v : Nat} (h : FieldAt f p 1 v) : streamBit f p = v.testBit 0 :=
  (h.2 0 Nat.one_pos).symm

/-- The tag of a message reads as the type ID it was written from, in as many bits. -/
theorem MessageBits.tag_reads {f : Nat → Byte} {mode : Nat} {s : State} {kinds : List FieldKind}
    (h : MessageBits f mode s kinds) (h2 : 2 ≤ mode) :
    tagBitsAt f (routeBits mode) = tagBits mode s.typeId ∧ tagIdAt f (routeBits mode) = s.typeId := by
  rw [tagIdAt, tagBitsAt]
  obtain hshort | hlong := Nat.lt_or_ge s.typeId 128
  · obtain ⟨hflag, hident⟩ := h.shortTag h2 hshort
    rw [streamBit_of_fieldAt_one hflag, tagBits_short h2 hshort]
    exact ⟨rfl, (fieldAt_iff.1 hident).symm⟩
  · obtain ⟨hflag, hident⟩ := h.longTag h2 hlong
    rw [streamBit_of_fieldAt_one hflag, tagBits_long h2 hlong]
    exact ⟨rfl, (fieldAt_iff.1 hident).symm⟩

/-! ### The image as input -/

/-- The input of `t` starts with the message of `s`, and `t` has its descriptors and its type ID. -/
structure HoldsMessage (mode : Nat) (s t : State) (kinds : List FieldKind) : Prop where
  inv : Inv t
  bits : MessageBits t.ibufAt mode s kinds
  fits : messageBits mode s kinds ≤ 8 * t.rlen.toNat
  valid : validateFrom t 0 t.msgNfields.toNat = .ok kinds
  ident : t.typeId = s.typeId

section
variable {mode : Nat} {s t : State} {kinds : List FieldKind} (h : HoldsMessage mode s t kinds)
include h

theorem HoldsMessage.bodyStart_eq : bodyStart mode t = routeBits mode + tagBits mode s.typeId := by
  rw [bodyStart]
  by_cases h2 : mode < 2
  · rw [if_pos h2, tagBits, if_pos h2]
  · rw [if_neg h2, (h.bits.tag_reads (Nat.not_lt.1 h2)).1]

theorem HoldsMessage.headerReads (hmode : 1 ≤ mode ∧ mode ≤ 3) : HeaderReads mode t kinds :=
  ⟨hmode, h.valid, fun h2 _ => (h.bits.tag_reads h2).2.trans h.ident.symm⟩

theorem HoldsMessage.field {i : Nat} {k : FieldKind} (hk : kinds[i]? = some k) :
    FieldOnWire t.ibufAt (fieldStart (bodyStart mode t) kinds i) s i k := by
  rw [h.bodyStart_eq]; exact h.bits.fields i k hk

theorem HoldsMessage.body_fits : bodyStart mode t + bodyBits kinds ≤ 8 * t.rlen.toNat := by
  rw [h.bodyStart_eq]; exact h.fits

end

/-- Validation looks at the descriptors and at the byte capacity of a slot. -/
theorem validateFrom_congr {s t : State} (hdesc : t.desc = s.desc) (hcfg : t.cfg = s.cfg) (i count : Nat) :
    validateFrom t i count = validateFrom s i count := by
  have hfield : ∀ i, validateField t i = validateField s i := fun i => by
    simp only [validateField, State.descAt, hdesc, hcfg]
  induction count generalizing i with
  | zero => rfl
  | succ count ih => rw [validateFrom, validateFrom, hfield, ih]

theorem loadInput_only {s : State} {bs : List Byte} (hs : Inv s) (hfit : bs.length ≤ s.cfg.ibufBytes) :
    ∃ ibuf rlen r, loadInput bs s = (((s.setIbuf ibuf).setRlen rlen).setRpos 0#32).setResponse r := by
  obtain ⟨t, hrun, -, -, -, -, honly⟩ := pseudoInstructionsRunInOrder.1 s bs hs hfit
  exact ⟨t.ibuf, t.rlen, _, by rw [loadInput, hrun]; exact honly⟩

/-- LOAD_INPUT of the image of a message that stands in OBUF: it stands in the input. -/
theorem holdsMessage_loadInput {s e : State} {mode : Nat} {kinds : List FieldKind} (hi : Inv e)
    (hwire : MessageBits e.obufAt mode s kinds) (hpos : e.wpos.toNat = messageBits mode s kinds)
    (hroom : e.outLen ≤ e.cfg.ibufBytes) (hvalid : validateFrom e 0 e.msgNfields.toNat = .ok kinds)
    (hident : e.typeId = s.typeId) : HoldsMessage mode s (loadInput (imageBytes e) e) kinds := by
  have hfit : (imageBytes e).length ≤ e.cfg.ibufBytes := (length_imageBytes e).trans_le hroom
  have hloaded := loaded_loadInput hi hfit
  obtain ⟨ibuf, rlen, r, honly⟩ := loadInput_only hi hfit
  refine ⟨hi.loadInput _, hwire.congr fun q hq => streamBit_loaded_image hloaded (hq.trans_eq hpos.symm), ?_, ?_, ?_⟩
  · rw [hloaded.rlen, length_imageBytes, State.outLen, hpos]
    omega
  · rw [← hvalid, honly]
    refine validateFrom_congr ?_ ?_ _ _ <;> rfl
  · rw [honly]; exact hident

/-- ENCODE and LOAD_INPUT of its image. -/
theorem holdsMessage_encode {s : State} {mode : BitVec 2} {kinds : List FieldKind} (hi : Inv s)
    (he : Encodable mode.toNat s kinds) (hroom : (messageBits mode.toNat s kinds + 7) / 8 ≤ s.cfg.ibufBytes) :
    HoldsMessage mode.toNat s
      (loadInput (imageBytes (sendCommand (encode (.encodeMsg mode)) s)) (sendCommand (encode (.encodeMsg mode)) s))
      kinds := by
  obtain ⟨t, v, hexec, -, hpos, hwire⟩ := encodeLaysOutMessage s mode kinds hi he
  rw [sendCommand_encode hexec]
  refine holdsMessage_loadInput (hi.exec hexec) hwire.toMessageBits hpos ?_ ?_ rfl
  · rw [← hpos] at hroom; exact hroom
  · rw [← he.valid]; refine validateFrom_congr ?_ ?_ _ _ <;> rfl

/-! ### DECODE of the image -/

section
variable {s t : State} {mode : BitVec 2} {kinds : List FieldKind} (h : HoldsMessage mode.toNat s t kinds)
  (hmode : 1 ≤ mode.toNat ∧ mode.toNat ≤ 3) (hvals : ∀ i k, kinds[i]? = some k → ValueOk s i k)
include h hmode hvals

/-- R260, where every value survives quantization. -/
theorem HoldsMessage.decodes (hsurv : ∀ i k, kinds[i]? = some k → Survives s i k) :
    ∃ u, exec (.decodeMsg mode) t = .next u ∧
      u.response = some (okResponse (BitVec.ofNat 64 (messageBits mode.toNat s kinds))) ∧
      (∀ i k, kinds[i]? = some k → u.valAt i = returnedValue s i k ∧ ∀ j < valueBytes k, u.vbAt i j = s.vbAt i j) ∧
      (mode = 3#2 → u.routeRx = s.routeTx) ∧ (2 ≤ mode.toNat → u.tagRx.toNat = s.typeId) := by
  have hreads : Readable mode.toNat t kinds := ⟨h.headerReads hmode, h.body_fits, fun i k hk =>
    (fieldReads_iff_survives (hvals i k hk) (h.field hk)).2 (hsurv i k hk)⟩
  obtain ⟨u, v, hok, -, hv, -, hdec, hroute, htag⟩ := decodeReadsMessage t mode kinds h.inv hreads
  have hexec := hok fun i k hk => ordinalReads_of_written (hvals i k hk) (h.field hk)
  rw [h.bodyStart_eq] at hv
  refine ⟨_, hexec, ?_, fun i k hk => returned_of_fieldDecoded (hvals i k hk) (h.field hk) (hdec i k hk),
    fun h3 => route_eq_of_written (h.bits.route (by rw [h3]; rfl)) (hroute h3),
    fun h2 => (htag h2).trans (h.bits.tag_reads h2).2⟩
  rw [messageBits, ← eq_ofNat_of_toNat_eq hv]; rfl

/-- R260, at the first value that quantization takes out of its bounds. -/
theorem HoldsMessage.decode_stops {i : Nat} {k : FieldKind} (hk : kinds[i]? = some k)
    (hbefore : ∀ j k', j < i → kinds[j]? = some k' → Survives s j k') (hbad : ¬ Survives s i k) :
    ∃ u, exec (.decodeMsg mode) t = .next u ∧
      u.response = some (errorResponse ⟨.decFloatRange, .field, i⟩) := by
  have hiff := fun j k' hk' => fieldReads_iff_survives (hvals j k' hk') (h.field hk')
  have hend := fieldStart_add_fieldWidth_le hk (bodyStart mode.toNat t)
  obtain ⟨u, hexec, hresp, -⟩ := decodeStopsAtFirstBadField t mode kinds i k h.inv (h.headerReads hmode) hk
    (fun j k' hj hk' => (hiff j k' hk').2 (hbefore j k' hj hk')) (hend.trans h.body_fits)
    (fun hread => hbad ((hiff i k hk).1 hread))
  exact ⟨u, hexec, by rw [hresp, fieldCause_of_not_survives hbad]⟩

end

/-- Settles O60: the message stands in the input, and DECODE reads it to its end or to the first value that does not
survive. -/
theorem roundTripReturnsValues : Obligations.RoundTripReturnsValues := by
  intro s mode kinds hi he hroom
  have h := holdsMessage_encode hi he hroom
  refine ⟨fun hsurv => ?_, fun i k hk hbefore hbad => ?_⟩
  · obtain ⟨u, hexec, hdecodes⟩ := h.decodes he.modeOk he.values hsurv
    rw [sendCommand_encode hexec]
    exact hdecodes
  · obtain ⟨u, hexec, hresp⟩ := h.decode_stops he.modeOk he.values hk hbefore hbad
    rw [sendCommand_encode hexec]
    exact hresp

end Sys2Proof.Safety

/-! The five reading commands inside their spaces: IBUF, OBUF, DESC, VAL and VB (44_descriptors.md R217, R219, R221,
46_host_access.md R284, R285). Settles O36. -/

namespace Sys2Proof.Machine

theorem exec_obRd_inside {s : State} {addr : BitVec 24} (ha : addr.toNat < s.cfg.obufBytes) :
    exec (.obRd addr) s = .next (s.setResponse (some (okResponse ((s.obufAt addr.toNat).setWidth 64)))) := by
  rw [exec_obRd, if_neg (Nat.not_le.2 ha)]; rfl

/-- Settles O36: inside its space each read passes its address check and answers the content. -/
theorem hostReadsAnswerContent : Obligations.HostReadsAnswerContent :=
  fun _ _ _ _ => ⟨exec_ibRd_inside, exec_obRd_inside, exec_descRd_inside, exec_valRd_inside, exec_vbRd_inside⟩

end Sys2Proof.Machine

/-! Errors and the state (60_exceptions.md R300, R304, R315, R316): no input stops the block, and a primitive command
raises its errors before its first update. Settles O7, O10. -/

namespace Sys2Proof.Machine

open Sys2Proof.Safety

/-! ### Every step answers a next state -/

theorem step_next (s : State) : ∃ t, step s = .next t := by
  match hport : s.port with
  | [] => exact ⟨_, step_idle hport⟩
  | .command c :: rest => rw [step_command hport]; exact runCommand_next c _
  | .resetInput :: rest => exact ⟨_, step_resetInput hport⟩
  | .resetDuring c :: rest =>
    obtain ⟨t, ht⟩ := runCommand_next c (s.setPort rest)
    exact ⟨_, step_resetDuring hport ht⟩

/-- Settles O7, by the kinds of input a step can take from the port. -/
theorem noInputStopsTheBlock : Obligations.NoInputStopsTheBlock := ⟨step_next, fun _ => step_idle⟩

/-! ### Errors raised before the first update -/

/-- Where `x` raises an error, its state is still `s`. -/
def RaisesAt {α : Type} (s : State) (x : Eff α) : Prop := ∀ e t, x = .raise e t → t = s

section
variable {α : Type} {s : State}

theorem RaisesAt.ok (a : α) (t : State) : RaisesAt s (.ok a t) := fun _ _ h => nomatch h

theorem RaisesAt.raise (e : CmdError) : RaisesAt s (.raise e s : Eff α) := fun _ _ h => by cases h; rfl

/-- A check made on `s`, and then steps that raise no error after an update. -/
theorem RaisesAt.check {c : Prop} [Decidable c] {e : CmdError} {x : Eff α} (hx : RaisesAt s x) :
    RaisesAt s (if c then .raise e s else x) := by
  split
  · exact .raise e
  · exact hx

theorem raisesAt_csrWrite (v : Word64) (c : Csr) : RaisesAt s (csrWrite s v c) := by
  cases c with
  | rlen | msgNfields => exact .check (.ok _ _)
  | msgTypeId | msgMaxb | routeTx => exact .ok _ _
  | id | cfgBuf | cfgMsg | wpos | outLen | rpos | crcKind | crcAcc | routeRx | tagRx => exact .raise _

end

section
variable {s t : State} {i : Instr}

/-- An error is answered by a step that raised it, since the status of a step that completes is 0 (R96). -/
theorem RaisesAt.onlyAnswers {x : Eff Word64} (hexec : exec i s = respond x) (hx : RaisesAt s x)
    (h : exec i s = .next t) (herr : IsError t) : OnlyAnswers s t := by
  cases hexec.symm.trans h
  cases x with
  | ok v u =>
    obtain ⟨r, hr, hstatus⟩ := herr
    cases hr; exact absurd rfl hstatus
  | raise e u => rw [hx e u rfl]; rfl

/-- R158 (b) as the whole state after a failing write. -/
theorem onlyAnswers_of_appends (hi : Appends i) (h : exec i s = .next t) (herr : IsError t) : OnlyAnswers s t := by
  obtain ⟨e, he⟩ | ⟨v, n, hv⟩ := exec_appends hi s
  · exact RaisesAt.onlyAnswers (x := .raise e s) he (.raise e) h herr
  · exact RaisesAt.onlyAnswers (x := .ok 0#64 _) hv (.ok _ _) h herr

end

/-- Settles O10, by what a command does: look, write or read the streams, or make its one update after its checks. -/
theorem failedPrimitiveChangesNothing : Obligations.FailedPrimitiveChangesNothing := by
  intro i s t hencode hdecode hpeek h herr
  cases i with
  | nop | wFinish | wPos | rPos | crcRead | crcCheck | width | csrRd | ibRd | obRd | descRd | valRd | vbRd =>
    exact exec_onlyAnswers_of_onlyLooks (by trivial) h
  | wBool | wUint | wInt | wByte => exact onlyAnswers_of_appends (by trivial) h herr
  | rBool | rUint | rInt | rByte => exact onlyAnswers_of_isError (by trivial) h herr
  | wClear | rRewind | crcInit | crcByte | crcObuf | reset => exact RaisesAt.onlyAnswers rfl (.ok _ _) h herr
  | crcIbuf | descWr | valWr => exact RaisesAt.onlyAnswers rfl (.check (.ok _ _)) h herr
  | ibWr | vbWr => exact RaisesAt.onlyAnswers rfl (.check (.check (.ok _ _))) h herr
  | csrWr csr v =>
    refine RaisesAt.onlyAnswers (exec_csrWr csr v s) ?_ h herr
    cases csrOfNumber csr with
    | none => exact .raise _
    | some c => exact raisesAt_csrWrite v c
  | encodeMsg => exact absurd trivial hencode
  | decodeMsg => exact absurd trivial hdecode
  | peekTag => exact absurd rfl hpeek

end Sys2Proof.Machine

/-! Reset (70_reset_and_hazards.md R340, R341, R344): the command RESET, the reset input between commands and the one
that abandons a command all leave the registers and OBUF at the values of one table, and the RAMs old or new. Settles
O13, O15, O16. -/

namespace Sys2Proof.Safety

open Sys2Proof.Machine

/-! ### The registers and OBUF -/

/-- The column "after reset" of R340's table. -/
structure RegistersReset (u : State) : Prop where
  obuf : ∀ a, u.obufAt a = 0#8
  wpos : u.wpos = 0#32
  rlen : u.rlen = 0#32
  rpos : u.rpos = 0#32
  crcKind : u.crcKind = 0#1
  crcAcc : u.crcAcc = 0x0000FFFF#32
  msgNfields : u.msgNfields = 0#32
  msgTypeId : u.msgTypeId = 0#17
  msgMaxb : u.msgMaxb = 0#33
  routeTx : u.routeTx = 0#19
  routeRx : u.routeRx = 0#19
  tagRx : u.tagRx = 0#16

theorem registersReset_performReset (s : State) : RegistersReset (performReset s) := by
  rw [performReset_eq]
  constructor <;> simp

theorem registersReset_applyResetInput (s : State) : RegistersReset (applyResetInput s) :=
  { registersReset_performReset s with }

theorem registersReset_abandonCommand (s t : State) : RegistersReset (abandonCommand s t) :=
  registersReset_applyResetInput _

/-! ### The commands that clear one part, after reset -/

section
variable (s : State)

theorem exec_crcInit_performReset :
    exec (.crcInit 0#1) (performReset s) = .next ((performReset s).setResponse (some (okResponse 0#64))) := rfl

theorem exec_wClear_performReset :
    exec .wClear (performReset s) = .next ((performReset s).setResponse (some (okResponse 0#64))) := rfl

theorem exec_rRewind_performReset :
    exec .rRewind (performReset s) = .next ((performReset s).setResponse (some (okResponse 0#64))) := rfl

end

/-- Settles O15: RESET and the reset input share `performReset`, which leaves out the RAMs and the parameters. -/
theorem resetSetsEveryRegister : Obligations.ResetSetsEveryRegister := by
  intro s
  have h := registersReset_performReset s
  have kept := sameExcept_performReset s
  obtain ⟨hcfg, hport, hdraws⟩ := kept .machine (by decide)
  have hinput (rest : List PortInput) : s.port = .resetInput :: rest →
      step s = .next (((performReset s).setPort rest).setResponse none) := step_resetInput
  exact ⟨performReset s, exec_reset s, hinput, h.obuf, h.wpos, h.rlen, h.rpos, h.crcKind, h.crcAcc, h.msgNfields,
    h.msgTypeId, h.msgMaxb, h.routeTx, h.routeRx, h.tagRx, kept .ibuf (by decide), kept .desc (by decide),
    kept .val (by decide), kept .vb (by decide), hcfg, hport, hdraws, exec_crcInit_performReset s,
    exec_wClear_performReset s, exec_rRewind_performReset s, exec_csrRd_some (c := .id) rfl rfl⟩

/-! ### The RAMs of an abandoned command -/

/-- A location of a merged RAM reads as before the abandoned command or as after it, whatever `lands` says. -/
theorem ramRead_mergeAbandoned {w : Nat} (powerUp : Nat → BitVec w) (lands : Nat → Bool) (old new : Memory w)
    (a : Nat) : ramRead powerUp (mergeAbandoned lands old new) a = ramRead powerUp old a ∨
      ramRead powerUp (mergeAbandoned lands old new) a = ramRead powerUp new a := by
  unfold ramRead
  cases h : lands a with
  | true => exact .inr (by rw [memLookup_mergeAbandoned_lands h])
  | false => exact (memLookup_mergeAbandoned_stays h).imp (by rw [·]) (by rw [·])

section
variable (s t : State)

theorem ibufAt_abandonCommand (a : Nat) :
    (abandonCommand s t).ibufAt a = s.ibufAt a ∨ (abandonCommand s t).ibufAt a = t.ibufAt a :=
  ramRead_mergeAbandoned _ _ s.ibuf t.ibuf a

theorem descAt_abandonCommand (i j : Nat) :
    (abandonCommand s t).descAt i j = s.descAt i j ∨ (abandonCommand s t).descAt i j = t.descAt i j :=
  ramRead_mergeAbandoned _ _ s.desc t.desc (descKey i j)

theorem valAt_abandonCommand (i : Nat) :
    (abandonCommand s t).valAt i = s.valAt i ∨ (abandonCommand s t).valAt i = t.valAt i :=
  ramRead_mergeAbandoned _ _ s.val t.val i

theorem vbAt_abandonCommand (i k : Nat) :
    (abandonCommand s t).vbAt i k = s.vbAt i k ∨ (abandonCommand s t).vbAt i k = t.vbAt i k :=
  ramRead_mergeAbandoned _ _ s.vb t.vb (vbKey i k)

end

/-- Settles O16: the registers are those of reset, and each RAM is merged from before and after the command. -/
theorem abandonedCommandLeavesOldOrNew : Obligations.AbandonedCommandLeavesOldOrNew := by
  intro s t c rest hport ht
  have h := registersReset_abandonCommand (s.setPort rest) t
  exact ⟨abandonCommand (s.setPort rest) t, step_resetDuring hport ht, rfl, rfl, rfl, h.obuf, h.wpos, h.rlen, h.rpos,
    h.crcKind, h.crcAcc, h.msgNfields, h.msgTypeId, h.msgMaxb, h.routeTx, h.routeRx, h.tagRx,
    ibufAt_abandonCommand _ t, descAt_abandonCommand _ t, valAt_abandonCommand _ t, vbAt_abandonCommand _ t⟩

/-! ### The invariant after the first reset -/

theorem wf_nil {w : Nat} (unlisted : Option (BitVec w)) : Memory.wf unlisted [] :=
  ⟨.nil, List.forall_mem_nil _⟩

/-- The state after the first reset lists no memory location, and its positions and lengths are 0. -/
theorem inv_powerUp {p : Config.Params} (hp : p.Valid) : Inv (State.powerUp p) where
  cfg := hp
  obufWf := wf_nil _
  ibufWf := wf_nil _
  descWf := wf_nil _
  valWf := wf_nil _
  vbWf := wf_nil _
  obufIn := List.forall_mem_nil _
  ibufIn := List.forall_mem_nil _
  descIn := List.forall_mem_nil _
  valIn := List.forall_mem_nil _
  vbIn := List.forall_mem_nil _
  wposLe := Nat.zero_le _
  zeroTail p _ := streamBit_obuf_nil p
  rlenLe := Nat.zero_le _
  rposLe := Nat.zero_le _
  nfieldsLe := Nat.zero_le _
  crcHigh _ := show (0xFFFF#32).toNat < 2 ^ 16 by decide

theorem vectorParams_valid : Config.vectorParams.Valid := by decide

/-- Settles O13, for the model's own parameters as for all legal ones. -/
theorem invariantHoldsAfterReset : Obligations.InvariantHoldsAfterReset :=
  ⟨fun _ => inv_powerUp, inv_powerUp vectorParams_valid⟩

end Sys2Proof.Safety
